-- ==== Sys2Proof/Word.lean ====
section
/-! DEFINITION. The word types of the part: host window words, line bytes, and the numbers of stations, groups, items and versions
(00_scope.md 4.1, 4.2). -/

namespace Sys2Proof

/-- A word of the host window, of the plan, or of an item value: 16 bits (00_scope.md 4.2). -/
abbrev Word := BitVec 16

/-- A byte of a frame on the line, or of plan memory. -/
abbrev Byte := BitVec 8

/-- A station number, 0 to 31 (00_scope.md table 0-4). -/
abbrev Station := Fin 32

/-- A gate group, 0 to 3 (R29). -/
abbrev Group := Fin 4

/-- A line item number, 0 to 4095 (R2). -/
abbrev ItemNo := BitVec 12

/-- A version of an item, counted modulo 65536 (R8). -/
abbrev Version := BitVec 16

end Sys2Proof
end

