-- ==== Sys2Proof/Syntax.lean ====
section
/-! DEFINITION. The commands of the part: one constructor for each row of spec/opcode_table.json, with the operands its rules give it.
The table gives the rows no bits; a command is what the host, a pin, the line, plan memory, a timer or the progress of an operation
of the part does to it. -/

namespace Sys2Proof

/-- START MODE of the straps (R148): MEMORY when the pin is low, HOST when it is high. -/
inductive StartMode where
  | memory
  | host
  deriving DecidableEq, Repr

/-- The captured straps (R148). -/
structure Straps where
  station : Station
  startMode : StartMode
  listen : Bool
  deriving DecidableEq, Repr

/-- The eight counters of the host port (R173, table 10-4). -/
inductive CounterName where
  | framesSent
  | collisions
  | abandoned
  | badFrames
  | rxOverruns
  | sequenceGaps
  | foreignRecords
  | missedGates
  deriving DecidableEq, Repr

/-- The two classes of flags, each with a flags word and a mask (R171, R172). -/
inductive FlagClass where
  | ordinary
  | fault
  deriving DecidableEq, Repr

/-- A bit cell of the line, as the levels in its two halves (R176). -/
structure LineCell where
  firstHalf : Bool
  secondHalf : Bool
  deriving DecidableEq, Repr

/-- A stretch of the line as the receiver hears it: the level just before it, and its bit cells (R69, R176). -/
structure Heard where
  before : Bool
  cells : List LineCell
  deriving DecidableEq, Repr

/-- The cells of the start pattern 0xD3 alone, from a line at rest at the low level (R176). -/
def startPatternCells : List LineCell :=
  [⟨true, false⟩, ⟨true, false⟩, ⟨true, true⟩, ⟨false, false⟩, ⟨true, false⟩, ⟨true, true⟩, ⟨false, true⟩, ⟨false, true⟩]

/-- The commands, one for each row of spec/opcode_table.json. An operand left out stands for the plainest case: a notice taken at once, a
line at rest at the low level, no transition where the first cell is driven, no expiry and no read meanwhile, an owner event applied
whole, nothing before the start pattern. -/
inductive Instr where
  /-- POWER_ON_RESET (R149). -/
  | powerOnReset
  /-- PIN_RESET (R149). -/
  | pinReset
  /-- RESET_END (R150), with the levels on the strap pins at that moment (R148). -/
  | resetEnd (straps : Straps)
  /-- SOFT_RESET (R149). -/
  | softReset
  /-- RUN_SET (R103). -/
  | runSet
  /-- RUN_CLEAR (R103). -/
  | runClear
  /-- START (R158). -/
  | start
  /-- KICK (R105). -/
  | kick
  /-- NEXT_CHANGE (R26). -/
  | nextChange
  /-- SAMPLE_TAKE (R144). -/
  | sampleTake
  /-- ITEM_VIEW_WORD0_READ (R168), of the item view of a slot. -/
  | itemViewWord0Read (slot : Fin 512)
  /-- COUNTER_READ (R173). -/
  | counterRead (counter : CounterName)
  /-- FLAGS_CLEAR (R171), with the word written to the flags word of a class. -/
  | flagsClear (flags : FlagClass) (value : Word)
  /-- PLAN_WINDOW_WRITE (R153), to a word of the plan window. -/
  | planWindowWrite (index : Fin 1032) (value : Word)
  /-- HOST_REGISTER_WRITE (R164), to an address of the host window. -/
  | hostRegisterWrite (addr : Word) (value : Word)
  /-- HELD_ACCESS_SERVED (R166). -/
  | heldAccessServed
  /-- PLAN_READ_END (R157), with the levels on the plan memory port's data input at the rising clock edges that follow, up to the end of
  the read (R156, R177). Levels that stop short of the end leave the read in flight. -/
  | planReadEnd (levels : List Bool)
  /-- PLAN_CHECK_END (R155). -/
  | planCheckEnd
  /-- JOIN_TIMER_EXPIRY (R160). -/
  | joinTimerExpiry
  /-- LINE_BUSY (R69). -/
  | lineBusy
  /-- LINE_QUIET (R69). -/
  | lineQuiet
  /-- FRAME_END (R71), with the bit cells heard after the start pattern, and whether a clash notice that it gives rise to waits before
  the start controller takes it (R162). -/
  | frameEnd (heard : Heard) (noticeWaits : Bool := false)
  /-- GAP_END (R87), with the level the line rests at (R176). -/
  | gapEnd (rest : Bool := false)
  /-- COLLISION (R90), with the bit cells sensed in the attempt up to the one that differs (R89), and those driven behind the frame's last
  one, where the drive does not end with its frame (R95). -/
  | collision (sensed : List LineCell := [⟨false, false⟩]) (beyond : List LineCell := [])
  /-- BACKOFF_END (R91). -/
  | backoffEnd
  /-- ATTEMPT_COMPLETE (R92). -/
  | attemptComplete
  /-- GUARD_EXPIRY (R95). -/
  | guardExpiry
  /-- IMU_TAKE_FRAME (R13), with the stations whose lost timers expire between the taking of the frame and its notice, in order
  (R53, R55). -/
  | imuTakeFrame (expiring : List Station := [])
  /-- SELF_FRAME_TAKE (R14). -/
  | selfFrameTake
  /-- LOST_TIMER_EXPIRY (R54), of the entry of a station. -/
  | lostTimerExpiry (station : Station)
  /-- OWNER_REJOINED (R16), with the number of its station's items that the event comes to now, each in a step of its own, or all that
  are left (R15). -/
  | ownerRejoined (steps : Option Nat := none)
  /-- OWNER_DOUBTFUL (R17), with the number of its station's items that the event comes to now, each in a step of its own, or all that
  are left (R15). -/
  | ownerDoubtful (steps : Option Nat := none)
  /-- OWNER_LOST (R18), with the number of its station's items that the event comes to now, each in a step of its own, or all that
  are left (R15). -/
  | ownerLost (steps : Option Nat := none)
  /-- REMOTE_RECORD (R21), with the word of the sample view that a host read reaches while the record is handed over and appended, if
  there is such a read (R142). -/
  | remoteRecord (sampleRead : Option (Fin 16) := none)
  /-- SELF_RECORD (R23). -/
  | selfRecord
  /-- GATE_ITEM_STEP (R35). -/
  | gateItemStep
  /-- GATE_APPLICATION_END (R36). -/
  | gateApplicationEnd
  /-- PRESENCE_TIMER_EXPIRY (R125). -/
  | presenceTimerExpiry
  /-- REFRESH_TIMER_EXPIRY (R128). -/
  | refreshTimerExpiry
  /-- START_PATTERN_FOUND (R70), with the bit cells heard in HUNT up to there. -/
  | startPatternFound (heard : Heard := { before := false, cells := startPatternCells })
  deriving DecidableEq, Repr

end Sys2Proof
end

