-- ==== Sys2Proof/Decode.lean ====
section
/-! DEFINITION. The command a word of the opcode table spells. spec/opcode_table.json gives none of its 40 rows any bits, so no word
spells a command (assumption log 22). -/

namespace Sys2Proof

/-- The command that `w` spells by the table's bits: none, since no row has bits. -/
def decodeTableWord (_nbits _w : Nat) : Option Instr := none

end Sys2Proof
end

