-- ==== Sys2Proof/Config.lean ====
section
/-! DEFINITION. What one part fixes and the spec leaves open: the free values. Neither has a body, so nothing can be proved of the
value taken; each is applied to the counter `freeCount` of State, so that every draw is fresh. -/

namespace Sys2Proof

/-- The station's random source for a backoff draw (R91: "Each draw is taken from the station's random source, independent of
every earlier draw"). The transmitter reduces the value into the range R91 gives. Free value, assumption log 7. -/
opaque Config.backoffDraw : Nat → Nat

/-- Whether the refresh step is taken before the REQ offer when both reach the same emptied transmit queue (R129: "either order is
possible"). Free choice, assumption log 8. -/
opaque Config.refreshFirst : Nat → Bool

end Sys2Proof
end

