-- ==== Sys2Proof/Machine/State.lean ====
section
/-! DEFINITION. The state of the part, block by block as 00_scope.md table 0-1 gives the blocks, and the state after reset. -/

namespace Sys2Proof.Machine

/-! ## Stores of words -/

/-- An addressed RAM of 16-bit words: (word number, word) pairs, word numbers strictly rising, no word listed that is 0. A word not
listed reads as 0, the value every reset gives it (R27, R114, R121, R150). -/
abbrev WordStore := List (Nat × Word)

/-! ## Items (chapter 1) -/

/-- CONDITION of an item (table 1-1). -/
inductive Condition where
  | vacant
  | current
  | doubtful
  | stale
  | unset
  | ownLocal
  deriving DecidableEq, Repr

/-- KIND of an item (R2). -/
inductive ItemKind where
  | state
  | stream
  deriving DecidableEq, Repr

/-- The plan fields of an item record (R2). CAPTURE and GROUP are one field: `gate = some g` is GATED in group g, `none` is FOLLOW,
which has no group. -/
structure ItemPlan where
  item : ItemNo
  owner : Station
  length : Nat
  kind : ItemKind
  gate : Option Group
  deriving DecidableEq, Repr

/-- A value part: a version and the value's words (R3). -/
structure Part where
  version : Version
  value : List Word
  deriving DecidableEq, Repr

/-- What only an owned item holds: CLASH MARK (R5) and LAST ISSUED VERSION (R6). -/
structure OwnedFields where
  clashMark : Bool
  lastIssued : Version
  deriving DecidableEq, Repr

/-- What the stream unit keeps for a remote stream item: LAST QUEUED VERSION and FIRST OWED (R139). -/
structure StreamFields where
  lastQueued : Option Version
  firstOwed : Bool
  deriving DecidableEq, Repr

/-- An item record (R2 to R6), with the stream unit's fields of the item (R139). -/
structure Item where
  plan : ItemPlan
  condition : Condition
  visiblePart : Option Part
  pendingPart : Option Part
  baselineOpen : Bool
  owned : Option OwnedFields
  stream : Option StreamFields
  deriving DecidableEq, Repr

/-! ## Frames (chapter 4) -/

/-- A record of an UPDATE frame (R66). Its LENGTH is the number of its value's words. -/
structure Record where
  item : ItemNo
  version : Version
  value : List Word
  deriving DecidableEq, Repr

/-- The body of a frame on the line, with its kind (R66, R67). -/
inductive Body where
  | update (records : List Record)
  | gate (group : Group) (sequence : Byte)
  | presence (planCheck : Word)
  deriving DecidableEq, Repr

/-- MARK of a receive queue entry (R74). -/
inductive Mark where
  | remote
  | self
  deriving DecidableEq, Repr

/-- An entry of the receive queue (R74). -/
structure Frame where
  mark : Mark
  sender : Station
  sequence : Byte
  first : Bool
  body : Body
  deriving DecidableEq, Repr

/-- The three sources of frames at the line access unit (R81). -/
inductive Source where
  | req
  | refresh
  | presence
  deriving DecidableEq, Repr

/-- The body of a frame as its source built it: a GATE frame has no GATE SEQUENCE yet (R32, R81). -/
inductive TxBody where
  | update (records : List Record)
  | gate (group : Group)
  | presence (planCheck : Word)
  deriving DecidableEq, Repr

/-- A frame as offered and queued (R81, R82): everything but SEQUENCE, GATE SEQUENCE and the check, with its source. -/
structure TxFrame where
  source : Source
  sender : Station
  first : Bool
  refresh : Bool
  body : TxBody
  deriving DecidableEq, Repr

/-- A frame as one attempt sends it: SEQUENCE, GATE SEQUENCE and the check filled in at the attempt's start (R87), with the level the
line rested at then, from which its cells are driven (R176). -/
structure SentFrame where
  sender : Station
  sequence : Byte
  first : Bool
  refresh : Bool
  body : Body
  check : Word
  rest : Bool
  deriving DecidableEq, Repr

/-! ## The line receiver, LRX (chapter 4) -/

/-- The line state (R69). -/
inductive LineState where
  | quiet
  | busy
  deriving DecidableEq, Repr

/-- The assembly state of the line receiver (table 4-2). -/
inductive Assembly where
  | off
  | settle
  | idle
  | hunt
  | assemble
  | own
  deriving DecidableEq, Repr

/-- The line receiver's state: line state and assembly state (R69), and the receive queue (R74). -/
structure Lrx where
  line : LineState
  assembly : Assembly
  queue : List Frame
  deriving DecidableEq, Repr

/-! ## The line access unit, LAU (chapter 5) -/

/-- The transmitter states (table 5-2). -/
inductive TxState where
  | off
  | idle
  | defer
  | gap
  | send
  | backoff
  deriving DecidableEq, Repr

/-- The line access unit's state (table 5-5). REFRESH offers never wait (R83), so two waiting offers are held. `backoff` is the
wait drawn, in bit times, while the backoff timer runs (R91). -/
structure Lau where
  queue : List TxFrame
  reqOffer : Option TxFrame
  presenceOffer : Option TxFrame
  transmitter : TxState
  attempts : Nat
  attempt : Option SentFrame
  backoff : Option Nat
  driver : Bool
  guard : Bool
  lastCompleted : Option Byte
  deriving DecidableEq, Repr

/-! ## The image updater, IMU (chapters 1 and 2) -/

/-- The kinds of owner event (R11). -/
inductive OwnerEventKind where
  | rejoined
  | doubtful
  | lost
  deriving DecidableEq, Repr

/-- An owner event: its kind and the station it names (R11). -/
structure OwnerEvent where
  kind : OwnerEventKind
  station : Station
  deriving DecidableEq, Repr

/-- The work item the IMU has in hand (R12 to R15, R35). `notice f` is the remote frame `f` between its notice step and the end of
the owner events taken with it (R13); `remoteRecords` and `selfRecords` are the records of an UPDATE frame still to be applied, the
first of them being applied; `gate mark g` is a gate application of group `g` in flight, of a remote or a self frame. -/
inductive Work where
  | free
  | notice (frame : Frame)
  | remoteRecords (sender : Station) (records : List Record)
  | selfRecords (records : List Record)
  | gate (mark : Mark) (group : Group)
  deriving DecidableEq, Repr

/-- An owner event that the IMU has taken and still applies, one step per item (R12, R15): `todo` are the slots of the named station's
items that it has yet to come to, in slot order. -/
structure EventWork where
  event : OwnerEvent
  todo : List Nat
  deriving DecidableEq, Repr

/-- The image updater's state: item table (R1), change list (R24), owner event list (R11), the owner event being applied (R15), held gate
sequences (R31), work item. -/
structure Imu where
  items : List Item
  changes : List ItemNo
  events : List OwnerEvent
  applying : Option EventWork
  heldGate : Vector (Option Byte) 4
  work : Work
  deriving DecidableEq, Repr

/-! ## The peer monitor, PMN (chapter 3) -/

/-- STATE of a peer table entry (R47). -/
inductive PeerState where
  | absent
  | present
  | lost
  | self
  deriving DecidableEq, Repr

/-- PLAN AGREEMENT of a peer table entry (R47). -/
inductive Agreement where
  | unknown
  | agrees
  | differs
  deriving DecidableEq, Repr

/-- A peer table entry (R47). `timeLeft` is the time left of the lost timer in ms, and absent while the timer does not run. -/
structure Peer where
  state : PeerState
  expected : Option Byte
  agreement : Agreement
  timeLeft : Option Nat
  deriving DecidableEq, Repr

/-- The peer monitor's state: the peer table (R47). -/
structure Pmn where
  peers : Vector Peer 32
  deriving DecidableEq, Repr

/-! ## The request engine, REQ (chapter 6) -/

/-- The request process states (table 6-1). -/
inductive Process where
  | stopped
  | running
  | suspended
  deriving DecidableEq, Repr

/-- The slot in progress, as the REQ works it from the copy taken at examination (R102, R104). `todo` names the table slots of the
items of the records still to be built, in order (R111, R112), `gate` the group of the GATE frame still to be built (R113),
`offset` is the running offset (R111), `frames` counts the frames built (R110), `outstanding` those whose outcome is unknown and
`lost` the records in abandoned ones (R115), and `halted` says that RUN was cleared meanwhile (R117). -/
structure SlotWork where
  todo : List Nat
  gate : Option Group
  offset : Nat
  frames : Nat
  outstanding : Nat
  lost : Nat
  halted : Bool
  deriving DecidableEq, Repr

/-- The request engine's state: ring of 16 slots of 8 words (word w of slot s is word 8 s + w), ring cursor, process state, slot in
progress (R100, R103, R104). -/
structure Req where
  ring : WordStore
  cursor : Fin 16
  process : Process
  slot : Option SlotWork
  deriving DecidableEq, Repr

/-! ## The traffic scheduler, TSC (chapter 7) -/

/-- The state of the refresh or presence timer, with the time left in ms while it runs (R122). -/
inductive Timer where
  | stopped
  | running (left : Nat)
  | expired
  deriving DecidableEq, Repr

/-- The traffic scheduler's state (R122). -/
structure Tsc where
  cursor : Nat
  refreshTimer : Timer
  presenceTimer : Timer
  firstPending : Bool
  presenceOutstanding : Bool
  deriving DecidableEq, Repr

/-! ## The stream unit, STU (chapter 8) -/

/-- An entry of the sample queue (R137). Its LENGTH is the number of its value's words. -/
structure Sample where
  item : ItemNo
  sender : Station
  version : Version
  value : List Word
  gap : Option Nat
  first : Bool
  deriving DecidableEq, Repr

/-- The stream unit's state: the sample queue (R138). Its fields of each stream item stand with the item (`Item.stream`). -/
structure Stu where
  queue : List Sample
  deriving DecidableEq, Repr

/-! ## The start controller, STC (chapter 9) -/

/-- The station states (table 9-2). -/
inductive StationState where
  | loading
  | planWait
  | planFault
  | joining
  | active
  | muted
  deriving DecidableEq, Repr

/-- CAUSE of the reset cause record (R149). -/
inductive ResetCause where
  | power
  | pin
  | soft
  deriving DecidableEq, Repr

/-- PLAN FAULT CODE (R154, table 11-13). -/
inductive PlanFault where
  | none
  | noPlan
  | badCount
  | badCheck
  | badTiming
  | badEntry
  | badOrder
  deriving DecidableEq, Repr

/-- MUTED CAUSE (R161). -/
inductive MutedCause where
  | none
  | identity
  | guard
  deriving DecidableEq, Repr

/-- The figures of the plan in use (R151): N, rate code, P, L and S in ms, and PLAN CHECK. -/
structure Plan where
  count : Nat
  rate : Nat
  presence : Nat
  lostTimeout : Nat
  refresh : Nat
  check : Word
  deriving DecidableEq, Repr

/-- The plan memory port in a read (R156, R177): the clocks since chip select was asserted, and the bits taken in of the word being
formed, first bit first. -/
structure PlanRead where
  clocks : Nat
  shift : List Bool
  deriving DecidableEq, Repr

/-- The start controller's state (table 9-1). `faultEntry = none` is FAULT ENTRY 0xFFFF; `joinTimer` is the time left in ms while
the join timer runs; `checking` is set while a plan check is in flight, `planRead` holds the plan read in flight (chip select
asserted, R156), `inReset` is set while a power-on or pin reset is in progress (R149), `clashNotice` while an identity clash notice
waits to be taken (R73, R162). -/
structure Stc where
  station : StationState
  straps : Straps
  cause : ResetCause
  plan : Option Plan
  window : WordStore
  faultCode : PlanFault
  faultEntry : Option Nat
  mutedCause : MutedCause
  joinTimer : Option Nat
  checking : Bool
  planRead : Option PlanRead
  inReset : Bool
  clashNotice : Bool
  deriving DecidableEq, Repr

/-! ## The host port, HPT (chapter 10) -/

/-- VIEW PART (R167). -/
inductive ViewPart where
  | visible
  | pending
  deriving DecidableEq, Repr

/-- The read latch: LATCHED SLOT and 16 words (R168). -/
structure Latch where
  slot : Option (Fin 512)
  words : List Word
  deriving DecidableEq, Repr

/-- The sticky flags, held in the host port until the host clears them (R171, table 10-3). -/
structure Flags where
  requestDone : Bool
  requestsIdle : Bool
  gateApplied : Bool
  peerJoined : Bool
  peerLost : Bool
  itemClash : Bool
  identityClash : Bool
  guardTrip : Bool
  receiveOverrun : Bool
  sampleOverrun : Bool
  planMismatch : Bool
  deriving DecidableEq, Repr

/-- A counter: a count of 0 to 32767 and its OVERFLOW bit (R173). -/
structure Counter where
  count : BitVec 15
  overflow : Bool
  deriving DecidableEq, Repr

/-- The eight counters (table 10-4). -/
structure Counters where
  framesSent : Counter
  collisions : Counter
  abandoned : Counter
  badFrames : Counter
  rxOverruns : Counter
  sequenceGaps : Counter
  foreignRecords : Counter
  missedGates : Counter
  deriving DecidableEq, Repr

/-- The accesses that the port may hold with READY (R166): a read of word 0 of an item view, a read of a word of the sample view, a
write to the plan window. -/
inductive Access where
  | viewWord0 (slot : Fin 512)
  | sampleWord (word : Fin 16)
  | planWrite (index : Fin 1032) (value : Word)
  deriving DecidableEq, Repr

/-- An access held with READY; `released` is set when the operation that held it has ended, so that it is to be served (R166). -/
structure HeldAccess where
  access : Access
  released : Bool
  deriving DecidableEq, Repr

/-- The host port's state (table 10-5). `readData` is the word the last read served has returned (assumption log 6). -/
structure Hpt where
  latch : Latch
  viewPart : ViewPart
  flags : Flags
  ordinaryMask : BitVec 6
  faultMask : BitVec 7
  counters : Counters
  notify : WordStore
  staging : WordStore
  held : Option HeldAccess
  readData : Word
  deriving DecidableEq, Repr

/-! ## The whole part -/

/-- The state of the part: its nine blocks, the commands that wait, first in, first out, and the model's own count of free values
drawn (assumption log 9). -/
structure State where
  pending : List Instr
  lrx : Lrx
  lau : Lau
  imu : Imu
  pmn : Pmn
  req : Req
  tsc : Tsc
  stu : Stu
  stc : Stc
  hpt : Hpt
  freeCount : Nat
  deriving DecidableEq, Repr

/-- The reasons the part could stop with a fault. There is none: the spec turns every wrong input into a flag, a count or a
station state (R71, R73, R95, R154), so no command raises a fault. -/
inductive Fault where
  deriving DecidableEq, Repr

/-- The reasons the model could refuse a command. -/
inductive Refusal where
  /-- The command has no meaning in the model. Raised by an arm of `exec` that has no meaning yet, and by nothing else; no arm is
  left so. Safe: the model stops where the part goes on. -/
  | notModelled (mnemonic : String)
  deriving DecidableEq, Repr

/-! ## Reset -/

/-- A plan read as it begins (R156, R177). -/
def PlanRead.start : PlanRead := { clocks := 0, shift := [] }

/-- A counter after reset (R173). -/
def Counter.zero : Counter := { count := 0, overflow := false }

/-- A peer table entry after reset, of a station other than this one (table 3-2). -/
def Peer.absentEntry : Peer := { state := .absent, expected := none, agreement := .unknown, timeLeft := none }

/-- This station's own entry (R48, table 3-2). -/
def Peer.selfEntry : Peer := { state := .self, expected := none, agreement := .unknown, timeLeft := none }

/-- The part right after a power-on reset has ended with every strap pin low: STATION 0, START MODE MEMORY, LISTEN inactive, so the
station is LOADING and the plan read is in flight (R148 to R150, R156; the strap levels: assumption log 3). Every other field is
as R28, R31, R49, R79, R99, R121, R122, R147, R150 and R175 give it. -/
def State.reset : State where
  pending := []
  lrx := { line := .busy, assembly := .off, queue := [] }
  lau :=
    { queue := [], reqOffer := none, presenceOffer := none, transmitter := .off, attempts := 0, attempt := none, backoff := none,
      driver := false, guard := false, lastCompleted := none }
  imu := { items := [], changes := [], events := [], applying := none, heldGate := Vector.replicate 4 none, work := .free }
  pmn := { peers := (Vector.replicate 32 Peer.absentEntry).set 0 Peer.selfEntry }
  req := { ring := [], cursor := 0, process := .stopped, slot := none }
  tsc :=
    { cursor := 0, refreshTimer := .stopped, presenceTimer := .stopped, firstPending := false, presenceOutstanding := false }
  stu := { queue := [] }
  stc :=
    { station := .loading, straps := { station := 0, startMode := .memory, listen := false }, cause := .power, plan := none,
      window := [], faultCode := .none, faultEntry := none, mutedCause := .none, joinTimer := none, checking := false,
      planRead := some .start, inReset := false, clashNotice := false }
  hpt :=
    { latch := { slot := none, words := List.replicate 16 0 }, viewPart := .visible,
      flags :=
        { requestDone := false, requestsIdle := false, gateApplied := false, peerJoined := false, peerLost := false,
          itemClash := false, identityClash := false, guardTrip := false, receiveOverrun := false, sampleOverrun := false,
          planMismatch := false },
      ordinaryMask := 0, faultMask := 0,
      counters :=
        { framesSent := .zero, collisions := .zero, abandoned := .zero, badFrames := .zero, rxOverruns := .zero,
          sequenceGaps := .zero, foreignRecords := .zero, missedGates := .zero },
      notify := [], staging := [], held := none, readData := 0 }
  freeCount := 0

end Sys2Proof.Machine
end

