-- ==== Sys2Proof/Machine/Operands.lean ====
section
/-! DEFINITION. The formats of chapter 11 and what the commands read from their operands: bit fields, version order, the frame check,
frames as bytes, request slot words, plan words, the line's bits and cells, the bits of the plan memory port. -/

namespace Sys2Proof.Machine

/-! ## Bit fields -/

/-- The unsigned number in `width` bits of a word from bit `low` up (chapter 11). -/
def bitField (low width : Nat) (w : Word) : Nat := w.toNat / 2 ^ low % 2 ^ width

/-- A number placed in a word from bit `low` up. -/
def place (low n : Nat) : Word := BitVec.ofNat 16 (n * 2 ^ low)

/-- One bit placed in a word. -/
def placeBit (low : Nat) (b : Bool) : Word := place low b.toNat

/-- A word from its high and low byte. -/
def wordOf (high low : Byte) : Word := high ++ low

/-- The bytes of a word, high byte first (00_scope.md 4.2). -/
def wordBytes (w : Word) : List Byte := [w.extractLsb' 8 8, w.extractLsb' 0 8]

/-! ## Modular order (R8) -/

/-- Version `a` is newer than version `b` (R8): (a - b) mod 65536 lies in 1..32767. -/
def newer (a b : Version) : Bool := 1 ≤ (a - b).toNat && (a - b).toNat ≤ 32767

/-! ## The frame check (R68) -/

/-- One shift of the check register (R68). -/
def crcShift (r : Word) : Word := if r.msb then (r <<< 1) ^^^ 0x1021#16 else r <<< 1

/-- One byte combined into the check register: added into the high 8 bits, then eight shifts (R68). -/
def crcByte (r : Word) (b : Byte) : Word :=
  crcShift (crcShift (crcShift (crcShift (crcShift (crcShift (crcShift (crcShift (r ^^^ wordOf b 0))))))))

/-- The check of a run of bytes (R68): CRC-16, x^16 + x^12 + x^5 + 1, register from 0xFFFF, no final inversion. -/
def crc (bytes : List Byte) : Word := bytes.foldl crcByte 0xFFFF#16

/-! ## Frames as bytes (R65 to R67, tables 11-2 to 11-5) -/

/-- The KIND byte (table 11-2). -/
def Body.kindByte : Body → Byte
  | .update _ => 0x51#8
  | .gate _ _ => 0x52#8
  | .presence _ => 0x53#8

/-- RECORD COUNT of a frame (R65): the number of records of an UPDATE frame, 0 of the others. -/
def Body.recordCount : Body → Nat
  | .update records => records.length
  | .gate _ _ => 0
  | .presence _ => 0

/-- The CONTROL byte: FIRST in bit 7, REFRESH in bit 6, RECORD COUNT in bits 3 to 0 (table 11-2). -/
def controlByte (first refresh : Bool) (count : Nat) : Byte :=
  BitVec.ofNat 8 (first.toNat * 128 + refresh.toNat * 64 + count % 16)

/-- The bytes of a record (table 11-3). -/
def recordBytes (r : Record) : List Byte :=
  wordBytes (r.item ++ BitVec.ofNat 4 r.value.length) ++ wordBytes r.version ++ r.value.flatMap wordBytes

/-- The bytes of a frame's body (tables 11-3 to 11-5). -/
def bodyBytes : Body → List Byte
  | .update records => records.flatMap recordBytes
  | .gate group sequence => [BitVec.ofNat 8 group.val, sequence]
  | .presence planCheck => wordBytes planCheck

/-- The bytes of a frame from KIND to the last body byte (tables 11-2 to 11-5). -/
def frameBytes (sender : Station) (sequence : Byte) (first refresh : Bool) (body : Body) : List Byte :=
  [body.kindByte, BitVec.ofNat 8 sender.val, sequence, controlByte first refresh body.recordCount] ++ bodyBytes body

/-- The bytes of a frame that an attempt drives after the start pattern: KIND to the low check byte (R89, R176). -/
def SentFrame.lineBytes (f : SentFrame) : List Byte :=
  frameBytes f.sender f.sequence f.first f.refresh f.body ++ wordBytes f.check

/-- `n` words from a run of bytes, high byte first; `none` when the bytes run out. -/
def takeWords : Nat → List Byte → Option (List Word × List Byte)
  | 0, bytes => some ([], bytes)
  | n + 1, high :: low :: rest => (takeWords n rest).map fun (ws, left) => (wordOf high low :: ws, left)
  | _ + 1, _ => none

/-- `n` records read one after another, filling the bytes exactly, every LENGTH 1 to 8 (check 7 of R71). -/
def parseRecords : Nat → List Byte → Option (List Record)
  | 0, [] => some []
  | 0, _ :: _ => none
  | n + 1, a :: b :: c :: d :: rest =>
    let head := wordOf a b
    let length := bitField 0 4 head
    if 1 ≤ length ∧ length ≤ 8 then
      match takeWords length rest with
      | none => none
      | some (value, left) =>
        (parseRecords n left).map ({ item := head.extractLsb' 4 12, version := wordOf c d, value := value } :: ·)
    else none
  | _ + 1, _ => none

/-- The body of an accepted frame by KIND and RECORD COUNT (checks 4 and 7 of R71), from the bytes between header and check. -/
def parseBody (kind : Byte) (count : Nat) (bytes : List Byte) : Option Body :=
  if kind = 0x51#8 then
    if 1 ≤ count ∧ count ≤ 8 then (parseRecords count bytes).map .update else none
  else if kind = 0x52#8 then
    match bytes with
    | [group, sequence] => if h : group.toNat < 4 ∧ count = 0 then some (.gate ⟨group.toNat, h.1⟩ sequence) else none
    | _ => none
  else if kind = 0x53#8 then
    match bytes with
    | [high, low] => if count = 0 then some (.presence (wordOf high low)) else none
    | _ => none
  else none

/-- Checks 4 to 7 of R71 on the bytes between the start pattern and the check. -/
def parseFrame : List Byte → Option Frame
  | kind :: sender :: sequence :: control :: body =>
    let first := control.getLsbD 7
    let refresh := control.getLsbD 6
    if h : sender.toNat < 32 ∧ control.getLsbD 5 = false ∧ control.getLsbD 4 = false ∧ (first = true → kind = 0x53#8) ∧
        (refresh = true → kind = 0x51#8) then
      (parseBody kind (control.toNat % 16) body).map fun parsed =>
        { mark := .remote, sender := ⟨sender.toNat, h.1⟩, sequence := sequence, first := first, body := parsed }
    else none
  | _ => none

/-- What the line receiver has assembled in ASSEMBLE when the episode ends (R70): the bytes kept, and the marks of a frame that is too
long, bad in coding, or ends on a partial byte. -/
structure HeardFrame where
  bytes : List Byte
  tooLong : Bool
  codingBad : Bool
  partialByte : Bool
  deriving DecidableEq, Repr

/-- The acceptance checks of R71 on an assembled frame: the frame when every check holds, `none` for a bad frame. -/
def acceptFrame (heard : HeardFrame) : Option Frame :=
  if heard.tooLong = false ∧ heard.codingBad = false ∧ heard.partialByte = false ∧ 8 ≤ heard.bytes.length then
    let count := heard.bytes.length - 2
    if heard.bytes.drop count = wordBytes (crc (heard.bytes.take count)) then parseFrame (heard.bytes.take count) else none
  else none

/-! ## Request slots (R101, table 11-8) -/

/-- KIND of a request slot (R101). -/
inductive RequestKind where
  | publish
  | stream
  | gate
  deriving DecidableEq, Repr

/-- STATUS of a slot at close (table 11-9). -/
inductive SlotStatus where
  | none
  | done
  | lineFailed
  | halted
  | silent
  | badKind
  | badGroup
  | badCount
  | range
  | unknownItem
  | notOwned
  | wrongKind
  | badOffset
  deriving DecidableEq, Repr

/-- The STATUS codes (table 11-9). -/
def SlotStatus.code : SlotStatus → Nat
  | .none => 0
  | .done => 1
  | .lineFailed => 2
  | .halted => 3
  | .silent => 4
  | .badKind => 5
  | .badGroup => 6
  | .badCount => 7
  | .range => 8
  | .unknownItem => 9
  | .notOwned => 10
  | .wrongKind => 11
  | .badOffset => 12

/-- The copy of a slot's words that the REQ takes at examination (R102, R104). `kind` is absent for a code that names no kind. -/
structure SlotCopy where
  stationOwned : Bool
  stepDown : Bool
  kind : Option RequestKind
  item : Nat
  count : Nat
  offset : Nat
  group : Nat
  deriving DecidableEq, Repr

/-- KIND from its code (table 11-8). -/
def requestKindOf : Nat → Option RequestKind
  | 1 => some .publish
  | 2 => some .stream
  | 3 => some .gate
  | _ => none

/-- The fields of a slot from its words 0 to 4 (table 11-8). -/
def slotCopyOf (w0 w1 w2 w3 w4 : Word) : SlotCopy :=
  { stationOwned := w0.getLsbD 15, stepDown := w0.getLsbD 8, kind := requestKindOf (bitField 0 3 w0), item := w1.toNat,
    count := w2.toNat, offset := w3.toNat, group := w4.toNat }

/-- Word 0 of a slot as closing leaves it: OWNER becomes HOST, the rest keeps the host's last writes (R116, table 11-8). -/
def closedWord0 (w : Word) : Word := w &&& 0x7FFF#16

/-- Word 5 of a slot as closing leaves it: FRAMES and STATUS written, the spare bits 7 to 4 as the host wrote them (R178). -/
def closedWord5 (w : Word) (frames : Nat) (status : SlotStatus) : Word :=
  (w &&& 0x00F0#16) ||| place 8 (frames % 256) ||| place 0 status.code

/-- The k-th line item number that a PUBLISH slot names: ITEM + k × STEP, before the range check (R107). -/
def namedItem (copy : SlotCopy) (k : Nat) : Int := (copy.item : Int) + (if copy.stepDown then -1 else 1) * (k : Int)

/-- The line item numbers a slot names: the run of a PUBLISH slot, the one item of a STREAM slot, none of a GATE slot (R107). -/
def namedItems (copy : SlotCopy) : List Int :=
  match copy.kind with
  | some .publish => (List.range copy.count).map (namedItem copy)
  | some .stream => [(copy.item : Int)]
  | some .gate => []
  | none => []

/-! ## The plan (R151, R152, tables 11-6 and 11-7) -/

/-- The fields of a plan entry as encoded, before any check (table 11-7). -/
structure PlanEntry where
  item : ItemNo
  length : Nat
  owner : Nat
  stream : Bool
  gated : Bool
  group : Nat
  spare : Nat
  deriving DecidableEq, Repr

/-- A plan entry from its two words (table 11-7). -/
def planEntryOf (a b : Word) : PlanEntry :=
  { item := a.extractLsb' 4 12, length := bitField 0 4 a, owner := bitField 0 6 b, stream := b.getLsbD 6, gated := b.getLsbD 7,
    group := bitField 8 3 b, spare := bitField 11 5 b }

/-- Test 5 of table 9-4 on one entry: the entry is bad. -/
def PlanEntry.bad (e : PlanEntry) : Bool :=
  31 < e.owner || e.length == 0 || 8 < e.length || 3 < e.group || (!e.gated && e.group != 0) || (e.stream && e.gated) || e.spare != 0

/-- The item record that a plan entry gives when the item table is built at a station (R1, R2, R139, table 1-3). -/
def PlanEntry.newItem (station : Station) (e : PlanEntry) : Item :=
  let owner : Station := Fin.ofNat 32 e.owner
  let isOwned : Bool := owner = station
  { plan :=
      { item := e.item, owner := owner, length := e.length, kind := if e.stream then .stream else .state,
        gate := if e.gated then some (Fin.ofNat 4 e.group) else none },
    condition := if isOwned then .unset else .vacant, visiblePart := none, pendingPart := none, baselineOpen := true,
    owned := if isOwned then some { clashMark := false, lastIssued := 65535 } else none,
    stream := if !isOwned && e.stream then some { lastQueued := none, firstOwed := false } else none }

/-- The line rate a rate code gives, in Mbit/s (R78, R80): 1, 2, 4 or 8 for the codes 0 to 3. -/
def lineRate (plan : Plan) : Nat := 2 ^ plan.rate

/-! ## The line (R70, R89, R176, table 11-1) -/

/-- The bits of a byte in line order, least significant first (R176). -/
def byteBits (b : Byte) : List Bool := (List.range 8).map b.getLsbD

/-- The lead-in: 16 alternating bits, beginning with 1 and ending with 0 (R176). -/
def leadIn : List Bool := (List.replicate 8 [true, false]).flatten

/-- The start pattern 0xD3 (R176). -/
def startPattern : Byte := 0xD3#8

/-- The bits an attempt drives for the bytes of a frame: lead-in, start pattern, and the bytes (R89, R176). -/
def lineBits (bytes : List Byte) : List Bool := leadIn ++ byteBits startPattern ++ bytes.flatMap byteBits

/-- Bits in biphase-mark coding (R176): a transition at the start of every cell, and a second one at its middle for a 1. -/
def encodeCells (before : Bool) : List Bool → List LineCell
  | [] => []
  | bit :: bits =>
    let cell : LineCell := { firstHalf := !before, secondHalf := if bit then before else !before }
    cell :: encodeCells cell.secondHalf bits

/-- The bit cells an attempt drives (R89, R176). -/
def SentFrame.cells (f : SentFrame) : List LineCell := encodeCells f.rest (lineBits f.lineBytes)

/-- The bits of a run of cells; a cell with no transition at its start cannot be decoded (R70, R176). -/
def decodeCells (before : Bool) : List LineCell → List (Option Bool)
  | [] => []
  | cell :: cells =>
    (if cell.firstHalf = before then none else some (cell.firstHalf != cell.secondHalf)) :: decodeCells cell.secondHalf cells

/-- The bits heard in a stretch of the line. -/
def heardBits (heard : Heard) : List (Option Bool) := decodeCells heard.before heard.cells

/-- The search of HUNT (R70): the bits after the first start pattern, if there is one. -/
def huntStart : List (Option Bool) → Option (List (Option Bool))
  | [] => none
  | bit :: bits =>
    if ((byteBits startPattern).map some).isPrefixOf (bit :: bits) then some ((bit :: bits).drop 8) else huntStart bits

/-- A byte of bits in line order, least significant first (R70). -/
def byteOfBits (bits : List Bool) : Byte := BitVec.ofNat 8 (bits.foldr (fun bit n => bit.toNat + 2 * n) 0)

/-- The whole bytes of a run of bits in line order; bits left over make none (R70). -/
def collectBytes : List Bool → List Byte
  | b0 :: b1 :: b2 :: b3 :: b4 :: b5 :: b6 :: b7 :: bits => byteOfBits [b0, b1, b2, b3, b4, b5, b6, b7] :: collectBytes bits
  | _ => []

/-- The most bytes of a frame (R70, table 0-4). -/
def maxFrameBytes : Nat := 166

/-- What the cells after a start pattern assemble to (R70): at most 166 bytes are kept, and a 167th that begins marks the frame too
long. The cells of a frame end with the last one that a transition begins: the bit times without a transition that make the line QUIET are
none of them, though the spec does not say so (R69, R176, assumption log 31). -/
def assembleFrame (heard : Heard) : HeardFrame :=
  let bits := (heardBits heard).filterMap id
  { bytes := (collectBytes bits).take maxFrameBytes, tooLong := 8 * maxFrameBytes < bits.length,
    codingBad := (heardBits heard).any Option.isNone, partialByte := bits.length % 8 ≠ 0 }

/-- The comparison of R89, in each half of each cell (R176): the last cell sensed differs from the one driven, and none before it does. -/
def sensesDifference : List LineCell → List LineCell → Bool
  | driven :: _, [sensed] => sensed != driven
  | driven :: moreDriven, sensed :: moreSensed => sensed == driven && sensesDifference moreDriven moreSensed
  | _, _ => false

/-! ## The plan memory port (R177) -/

/-- The bits of a byte on the plan memory port, most significant first (R177). -/
def portBits (b : Byte) : List Bool := (List.range 8).map fun k => b.getMsbD k

/-- What the port sends: the read instruction 0x03 and the start address 0x0000 as two bytes (R177). -/
def readCommand : List Bool := [0x03#8, 0x00#8, 0x00#8].flatMap portBits

/-- A word of bits taken in, high byte first and most significant bit first (R156, R177). -/
def portWord (bits : List Bool) : Word := BitVec.ofNat 16 (bits.foldl (fun n bit => 2 * n + bit.toNat) 0)

end Sys2Proof.Machine
end

