-- ==== Sys2Proof/Machine/Flags.lean ====
section
/-! DEFINITION. The flags, their two words and masks, the summaries and INT (R171, R172), and the counters (R173). -/

namespace Sys2Proof.Machine

/-! ## Sticky flags (R171) -/

/-- The names of the sticky flags (table 10-3). -/
inductive FlagName where
  | requestDone
  | requestsIdle
  | gateApplied
  | peerJoined
  | peerLost
  | itemClash
  | identityClash
  | guardTrip
  | receiveOverrun
  | sampleOverrun
  | planMismatch
  deriving DecidableEq, Repr

/-- A sticky flag as it stands. -/
def Flags.get (f : Flags) : FlagName → Bool
  | .requestDone => f.requestDone
  | .requestsIdle => f.requestsIdle
  | .gateApplied => f.gateApplied
  | .peerJoined => f.peerJoined
  | .peerLost => f.peerLost
  | .itemClash => f.itemClash
  | .identityClash => f.identityClash
  | .guardTrip => f.guardTrip
  | .receiveOverrun => f.receiveOverrun
  | .sampleOverrun => f.sampleOverrun
  | .planMismatch => f.planMismatch

/-- The flags with one of them raised. -/
def Flags.raise (f : Flags) : FlagName → Flags
  | .requestDone => { f with requestDone := true }
  | .requestsIdle => { f with requestsIdle := true }
  | .gateApplied => { f with gateApplied := true }
  | .peerJoined => { f with peerJoined := true }
  | .peerLost => { f with peerLost := true }
  | .itemClash => { f with itemClash := true }
  | .identityClash => { f with identityClash := true }
  | .guardTrip => { f with guardTrip := true }
  | .receiveOverrun => { f with receiveOverrun := true }
  | .sampleOverrun => { f with sampleOverrun := true }
  | .planMismatch => { f with planMismatch := true }

/-- A flag is raised by its block's rule; one already raised stays raised (R171). -/
def raiseFlag (name : FlagName) (s : State) : State := { s with hpt.flags := s.hpt.flags.raise name }

/-- The flags after a write of the ordinary flags word: each sticky flag whose position holds 1 is cleared (R171). -/
def Flags.clearOrdinary (f : Flags) (w : Word) : Flags :=
  { f with
    requestDone := f.requestDone && !w.getLsbD 0
    requestsIdle := f.requestsIdle && !w.getLsbD 1
    gateApplied := f.gateApplied && !w.getLsbD 2
    peerJoined := f.peerJoined && !w.getLsbD 3 }

/-- The flags after a write of the fault flags word (R171). -/
def Flags.clearFault (f : Flags) (w : Word) : Flags :=
  { f with
    peerLost := f.peerLost && !w.getLsbD 0
    itemClash := f.itemClash && !w.getLsbD 1
    identityClash := f.identityClash && !w.getLsbD 2
    guardTrip := f.guardTrip && !w.getLsbD 3
    receiveOverrun := f.receiveOverrun && !w.getLsbD 4
    sampleOverrun := f.sampleOverrun && !w.getLsbD 5
    planMismatch := f.planMismatch && !w.getLsbD 6 }

/-- CHANGES: true while the change list holds an entry (R26). -/
def changesLevel (s : State) : Bool := !s.imu.changes.isEmpty

/-- SAMPLES: true while the sample queue holds an entry (R145). -/
def samplesLevel (s : State) : Bool := !s.stu.queue.isEmpty

/-- The ordinary flags word (table 11-14). -/
def ordinaryFlagsWord (s : State) : Word :=
  placeBit 0 s.hpt.flags.requestDone ||| placeBit 1 s.hpt.flags.requestsIdle ||| placeBit 2 s.hpt.flags.gateApplied |||
    placeBit 3 s.hpt.flags.peerJoined ||| placeBit 4 (changesLevel s) ||| placeBit 5 (samplesLevel s)

/-- The fault flags word (table 11-14). -/
def faultFlagsWord (s : State) : Word :=
  placeBit 0 s.hpt.flags.peerLost ||| placeBit 1 s.hpt.flags.itemClash ||| placeBit 2 s.hpt.flags.identityClash |||
    placeBit 3 s.hpt.flags.guardTrip ||| placeBit 4 s.hpt.flags.receiveOverrun ||| placeBit 5 s.hpt.flags.sampleOverrun |||
    placeBit 6 s.hpt.flags.planMismatch

/-- The ORDINARY summary (R172). -/
def ordinarySummary (s : State) : Bool := ordinaryFlagsWord s &&& s.hpt.ordinaryMask.setWidth 16 ≠ 0

/-- The FAULT summary (R172). -/
def faultSummary (s : State) : Bool := faultFlagsWord s &&& s.hpt.faultMask.setWidth 16 ≠ 0

/-- The INT output: asserted while either summary is true (R172). -/
def intAsserted (s : State) : Bool := ordinarySummary s || faultSummary s

/-- The summary word (table 11-14). -/
def summaryWord (s : State) : Word :=
  placeBit 0 (ordinarySummary s) ||| placeBit 1 (faultSummary s) ||| placeBit 2 (intAsserted s)

/-! ## Counters (R173) -/

/-- An increment: a count of 32767 wraps to 0 and sets OVERFLOW, which then stays set (R173). -/
def Counter.increment (c : Counter) : Counter :=
  { count := c.count + 1, overflow := c.overflow || c.count == BitVec.allOnes 15 }

/-- The word a read of a counter returns (table 11-14). -/
def Counter.word (c : Counter) : Word := placeBit 15 c.overflow ||| c.count.setWidth 16

/-- A counter by its name. -/
def Counters.get (c : Counters) : CounterName → Counter
  | .framesSent => c.framesSent
  | .collisions => c.collisions
  | .abandoned => c.abandoned
  | .badFrames => c.badFrames
  | .rxOverruns => c.rxOverruns
  | .sequenceGaps => c.sequenceGaps
  | .foreignRecords => c.foreignRecords
  | .missedGates => c.missedGates

/-- The counters with one of them set. -/
def Counters.set (c : Counters) (v : Counter) : CounterName → Counters
  | .framesSent => { c with framesSent := v }
  | .collisions => { c with collisions := v }
  | .abandoned => { c with abandoned := v }
  | .badFrames => { c with badFrames := v }
  | .rxOverruns => { c with rxOverruns := v }
  | .sequenceGaps => { c with sequenceGaps := v }
  | .foreignRecords => { c with foreignRecords := v }
  | .missedGates => { c with missedGates := v }

/-- One increment of a counter, by the block whose rule names it (table 10-4). -/
def countUp (name : CounterName) (s : State) : State :=
  { s with hpt.counters := s.hpt.counters.set (s.hpt.counters.get name).increment name }

end Sys2Proof.Machine
end

