-- ==== Sys2Proof/Machine/Ops.lean ====
section
/-! DEFINITION. The operations that the commands share, block by block: stores of words, host accesses, items and the change list,
records, owner events, samples, peers, gates, transmit queue, scheduler, requests, muting, plan check, resets. -/

namespace Sys2Proof.Machine

/-! ## Stores of words (R27, R100, R114, R153) -/

/-- The word a store holds at a word number; a word not listed reads as 0. -/
def WordStore.read : WordStore → Nat → Word
  | [], _ => 0
  | (b, w) :: rest, a => if a = b then w else WordStore.read rest a

/-- A store with one word written, in canonical form: word numbers rising, no word listed that is 0. -/
def WordStore.write : WordStore → Nat → Word → WordStore
  | [], a, v => if v = 0 then [] else [(a, v)]
  | (b, w) :: rest, a, v =>
    if a < b then (if v = 0 then (b, w) :: rest else (a, v) :: (b, w) :: rest)
    else if a = b then (if v = 0 then rest else (a, v) :: rest)
    else (b, w) :: WordStore.write rest a v

/-- The canonical form from a word number on: rising, below `limit`, no 0 listed. -/
def WordStore.wfFrom (limit : Nat) : Nat → WordStore → Bool
  | _, [] => true
  | least, (b, w) :: rest => least ≤ b && b < limit && w != 0 && WordStore.wfFrom limit (b + 1) rest

/-- The canonical form of a store of `limit` words. -/
def WordStore.wf (limit : Nat) (m : WordStore) : Bool := WordStore.wfFrom limit 0 m

/-! ## The station -/

/-- The captured station number (R148). -/
def stationNumber (s : State) : Station := s.stc.straps.station

/-- The station receives: JOINING, ACTIVE or MUTED (table 9-2). In these states the IMU takes work (R28). -/
def receiving (s : State) : Bool :=
  match s.stc.station with
  | .joining | .active | .muted => true
  | .loading | .planWait | .planFault => false

/-- The station may send: ACTIVE and not strapped LISTEN (R83, R84, R97). -/
def maySend (s : State) : Bool := s.stc.station == .active && !s.stc.straps.listen

/-- L in ms, of the plan in use (R151). -/
def lostTimeout (s : State) : Nat := (s.stc.plan.map Plan.lostTimeout).getD 0

/-- P in ms, of the plan in use (R151). -/
def presenceInterval (s : State) : Nat := (s.stc.plan.map Plan.presence).getD 0

/-- S in ms, of the plan in use (R151). -/
def refreshSpacing (s : State) : Nat := (s.stc.plan.map Plan.refresh).getD 0

/-- PLAN CHECK of the plan in use (R151). -/
def planCheckWord (s : State) : Word := (s.stc.plan.map Plan.check).getD 0

/-! ## Host accesses (R164) -/

/-- A host write: while an access is held the host makes no other; during a reset it is ignored (R149, R164). -/
def hostWrite (op : State → State) (s : State) : State := if s.hpt.held.isSome || s.stc.inReset then s else op s

/-- A host read with an effect: while an access is held the host makes no other; during a reset it returns 0 (R149, R164). -/
def hostRead (op : State → State) (s : State) : State :=
  if s.hpt.held.isSome then s else if s.stc.inReset then { s with hpt.readData := 0 } else op s

/-! ## Items and the change list (R1, R24, R25, R27) -/

/-- The slot of a line item number, if the plan names it (R1). -/
def findSlot (items : List Item) (n : ItemNo) : Option Nat := items.findIdx? fun it => it.plan.item == n

/-- The notify bit of a slot (R27). -/
def notifyBit (s : State) (slot : Nat) : Bool := (s.hpt.notify.read (slot / 16)).getLsbD (slot % 16)

/-- An item is fed to the change list: appended if its notify bit is set and it is not listed already (R24). -/
def feedChange (slot : Nat) (n : ItemNo) (s : State) : State :=
  if notifyBit s slot && !s.imu.changes.contains n then { s with imu.changes := s.imu.changes ++ [n] } else s

/-- The test of R25: the visible part or the condition changed. -/
def visiblyChanged (before after : Item) : Bool :=
  before.visiblePart != after.visiblePart || before.condition != after.condition

/-- One item changed by a work item, and fed to the change list by the test of R25. -/
def updateItem (slot : Nat) (change : Item → Item) (s : State) : State :=
  match s.imu.items[slot]? with
  | none => s
  | some before =>
    let after := change before
    let changed := { s with imu.items := s.imu.items.set slot after }
    if visiblyChanged before after then feedChange slot after.plan.item changed else changed

/-- The held part: the pending part when present, otherwise the visible part (R7). -/
def Item.heldPart (it : Item) : Option Part :=
  match it.pendingPart with
  | some part => some part
  | none => it.visiblePart

/-- A record's value and version set into the visible part of a FOLLOW item, or the pending part of a GATED one (R22, R23). -/
def Item.withRecord (it : Item) (r : Record) : Item :=
  match it.plan.gate with
  | none => { it with visiblePart := some { version := r.version, value := r.value } }
  | some _ => { it with pendingPart := some { version := r.version, value := r.value } }

/-! ## Held accesses (R166) -/

/-- The slot whose record application is in flight (R15): the first record still to be applied names its item. -/
def recordSlot (s : State) : Option Nat :=
  match s.imu.work with
  | .remoteRecords _ (r :: _) => findSlot s.imu.items r.item
  | .selfRecords (r :: _) => findSlot s.imu.items r.item
  | _ => none

/-- Slot `slot` holds a GATED item of group `g` (R29). -/
def inGroup (s : State) (g : Group) (slot : Nat) : Bool := (s.imu.items[slot]?).any fun it => it.plan.gate == some g

/-- A gate application of the slot's group is in flight (R39). -/
def gateHolds (s : State) (slot : Nat) : Bool :=
  match s.imu.work with
  | .gate _ g => inGroup s g slot
  | _ => false

/-- The test of R21: baseline open, VACANT, or a version newer than the held one. -/
def accepted (it : Item) (r : Record) : Bool :=
  it.baselineOpen || it.condition == .vacant || (it.heldPart.any fun part => newer r.version part.version)

/-- A record that R19 lets through: known item, equal LENGTH, sent by the owner. -/
def recordFits (sender : Station) (r : Record) (it : Item) : Bool :=
  r.value.length == it.plan.length && sender == it.plan.owner

/-- The sample queue's size (R138). -/
def sampleCapacity : Nat := 256

/-- The queue has room for a sample (R140, R141). -/
def sampleRoom (s : State) : Bool := s.stu.queue.length < sampleCapacity

/-- The record in hand goes to the stream unit, which has room for it: while it is applied, its append is in flight (R140 to R142,
assumption log 11). -/
def appendInFlight (s : State) : Bool :=
  match s.imu.work with
  | .remoteRecords sender (r :: _) =>
    match findSlot s.imu.items r.item with
    | none => false
    | some slot =>
      sampleRoom s && (s.imu.items[slot]?).any fun it => recordFits sender r it && accepted it r && it.plan.kind == .stream
  | _ => false

/-- Whether an access is held with READY when it reaches the port (the table of R166). -/
def accessHeld (s : State) : Access → Bool
  | .viewWord0 slot => recordSlot s == some slot.val || gateHolds s slot.val
  | .sampleWord _ => appendInFlight s
  | .planWrite _ _ => s.stc.checking && (s.stc.station == .planWait || s.stc.station == .planFault)

/-- An access is held with READY (R166). -/
def holdAccess (a : Access) (s : State) : State := { s with hpt.held := some { access := a, released := false } }

/-- The operation that holds the accesses in `ended` has ended: the held access, if it is one of them, is to be served (R166). -/
def releaseHeld (ended : Access → Bool) (s : State) : State :=
  match s.hpt.held with
  | none => s
  | some h => if ended h.access then { s with hpt.held := some { h with released := true } } else s

/-- A released read of an item view or of the sample view waits to be served; it is served before the IMU goes on (R166). -/
def servicePending (s : State) : Bool :=
  match s.hpt.held with
  | some { access := .viewWord0 _, released := true } => true
  | some { access := .sampleWord _, released := true } => true
  | _ => false

/-! ## Samples (chapter 8) -/

/-- FIRST and GAP of a new entry (the table of R140). A missing LAST QUEUED VERSION, which R139 says a closed baseline never meets,
also starts a new run. -/
def sampleRun (fields : StreamFields) (wasOpen : Bool) (version : Version) : Bool × Option Nat :=
  if wasOpen || fields.firstOwed then (true, none)
  else
    match fields.lastQueued with
    | none => (true, none)
    | some last =>
      let d := (version - last).toNat
      if d = 0 ∨ 32768 ≤ d then (true, none)
      else if d = 1 then (false, none)
      else if d ≤ 256 then (false, some (d - 1))
      else (false, some 255)

/-- The stream unit's fields of an item, or their values when the table is built (R139). -/
def Item.streamFields (it : Item) : StreamFields := it.stream.getD { lastQueued := none, firstOwed := false }

/-- The stream unit's fields of the item after a record: set by an append (R140); at an overflow only FIRST OWED may be set (R141). -/
def streamAfter (room wasOpen : Bool) (fields : StreamFields) (version : Version) : StreamFields :=
  if room then { lastQueued := some version, firstOwed := false }
  else { fields with firstOwed := fields.firstOwed || wasOpen }

/-- The stream unit receives a record: appended at the tail (R140), or SAMPLE_OVERRUN raised on a full queue (R141). -/
def takeSample (it : Item) (sender : Station) (r : Record) (s : State) : State :=
  if sampleRoom s then
    let run := sampleRun it.streamFields it.baselineOpen r.version
    { s with
      stu.queue :=
        s.stu.queue ++
          [{ item := it.plan.item, sender := sender, version := r.version, value := r.value, gap := run.2, first := run.1 }] }
  else raiseFlag .sampleOverrun s

/-! ## Records (R19 to R23) -/

/-- The item after an accepted remote record (steps 1 and 2 of R22), with the stream unit's fields given. -/
def Item.accept (r : Record) (stream : Option StreamFields) (it : Item) : Item :=
  { it.withRecord r with condition := .current, baselineOpen := false, stream := stream }

/-- The item after a duplicate: DOUBTFUL becomes CURRENT, nothing else changes (R21). -/
def Item.duplicate (it : Item) : Item := if it.condition = .doubtful then { it with condition := .current } else it

/-- The effects of an accepted remote record (R22): item, stream unit, change list. -/
def acceptRecord (slot : Nat) (it : Item) (sender : Station) (r : Record) (s : State) : State :=
  match it.plan.kind with
  | .state => updateItem slot (Item.accept r it.stream) s
  | .stream =>
    updateItem slot (Item.accept r (some (streamAfter (sampleRoom s) it.baselineOpen it.streamFields r.version)))
      (takeSample it sender r s)

/-- CLASH MARK of an item set (R20). -/
def Item.markClash (it : Item) : Item := { it with owned := it.owned.map fun o => { o with clashMark := true } }

/-- An ownership clash: CLASH MARK set and ITEM_CLASH raised (R20). -/
def ownershipClash (slot : Nat) (s : State) : State := raiseFlag .itemClash (updateItem slot Item.markClash s)

/-- A remote record of `sender` taken whole (R19 to R22). -/
def applyRemoteRecord (sender : Station) (r : Record) (s : State) : State :=
  match findSlot s.imu.items r.item with
  | none => countUp .foreignRecords s
  | some slot =>
    match s.imu.items[slot]? with
    | none => s
    | some it =>
      if r.value.length ≠ it.plan.length then countUp .foreignRecords s
      else if sender ≠ it.plan.owner then
        if it.plan.owner = stationNumber s then ownershipClash slot (countUp .foreignRecords s) else countUp .foreignRecords s
      else if accepted it r then acceptRecord slot it sender r s
      else if it.heldPart.map Part.version = some r.version then updateItem slot Item.duplicate s
      else s

/-- The item after a self record (steps 1 and 2 of R23). -/
def Item.takeSelf (r : Record) (it : Item) : Item :=
  let set := if it.heldPart.map Part.version = some r.version then it else it.withRecord r
  { set with condition := .ownLocal, baselineOpen := false }

/-- A self record taken whole (R23). -/
def applySelfRecord (r : Record) (s : State) : State :=
  match findSlot s.imu.items r.item with
  | none => s
  | some slot => updateItem slot (Item.takeSelf r) s

/-- The accesses that the end of an application of a record held: the word-0 read of its slot (R15), and sample view reads (R142). -/
def endsWithRecord (slot : Option Nat) : Access → Bool
  | .viewWord0 k => slot == some k.val
  | .sampleWord _ => true
  | .planWrite _ _ => false

/-- The access that the end of an application of a self record held: the word-0 read of its slot (R15); a self record is no sample
(R136). -/
def endsWithSelfRecord (slot : Option Nat) : Access → Bool
  | .viewWord0 k => slot == some k.val
  | .sampleWord _ => false
  | .planWrite _ _ => false

/-! ## Owner events (R16 to R18) -/

/-- What an owner event does to an item. -/
def Item.takeEvent (e : OwnerEvent) (it : Item) : Item :=
  if it.plan.owner ≠ e.station then it
  else
    match e.kind with
    | .rejoined => { it with baselineOpen := true }
    | .doubtful => if it.condition = .current then { it with condition := .doubtful } else it
    | .lost => if it.condition = .current ∨ it.condition = .doubtful then { it with condition := .stale } else it

/-- The slots of a station's items, in slot order (section 1.4). -/
def ownerSlots (items : List Item) (n : Station) : List Nat :=
  (List.range items.length).filter fun slot => (items[slot]?).any fun it => it.plan.owner == n

/-- The steps of an owner event on the items of a run of slots: one step for each (R15, section 1.4). That an item is fed to the change
list by the test of R25 in its own step, and not behind the last item's, is the model's choice (assumption log 34). -/
def applyEvent (e : OwnerEvent) (slots : List Nat) (s : State) : State :=
  slots.foldl (fun t slot => updateItem slot (Item.takeEvent e) t) s

/-- The owner event that the IMU applies next, and the events behind it: the one it has taken already, or else the oldest of the list, with
every item of its station before it (R12, R15). -/
def nextEvent (s : State) : Option (EventWork × List OwnerEvent) :=
  match s.imu.applying with
  | some w => some (w, s.imu.events)
  | none =>
    match s.imu.events with
    | [] => none
    | e :: rest => some ({ event := e, todo := ownerSlots s.imu.items e.station }, rest)

/-- An owner event appended to the owner event list (R11, R53). -/
def appendEvent (e : OwnerEvent) (s : State) : State := { s with imu.events := s.imu.events ++ [e] }

/-! ## The peer monitor (R50 to R56) -/

/-- The entry of a station in the peer table (R47). -/
def peerOf (s : State) (n : Station) : Peer := s.pmn.peers[n]

/-- An entry of the peer table set. -/
def setPeer (n : Station) (p : Peer) (s : State) : State := { s with pmn.peers := s.pmn.peers.set n p }

/-- The join step applies: the entry is ABSENT or LOST, or the frame carries FIRST (R51). -/
def joins (p : Peer) (first : Bool) : Bool := first || p.state == .absent || p.state == .lost

/-- Steps 1 to 3 of a notice on the entry: join or sequence check, then restart of the lost timer with L (R51, R52, R54). -/
def Peer.heard (p : Peer) (first : Bool) (sequence : Byte) (lost : Nat) : Peer :=
  { state := .present, expected := some (sequence + 1), agreement := if first then .unknown else p.agreement,
    timeLeft := some lost }

/-- The plan agreement after a frame (step 4, R56); only a PRESENCE frame compares. -/
def agreementAfter (before : Agreement) (mine : Word) : Body → Agreement
  | .presence check => if check = mine then .agrees else .differs
  | .update _ => before
  | .gate _ _ => before

/-- The owner event, flags and counts of steps 1 and 2 (R51, R52). -/
def noticeAnswer (p : Peer) (f : Frame) (s : State) : State :=
  if joins p f.first then raiseFlag .peerJoined (appendEvent { kind := .rejoined, station := f.sender } s)
  else if p.expected = some f.sequence then s
  else countUp .sequenceGaps (appendEvent { kind := .doubtful, station := f.sender } s)

/-- The notice of a remote frame, taken whole (R50). No notice changes the own entry (R48). -/
def noticeFrame (f : Frame) (s : State) : State :=
  let p := peerOf s f.sender
  if p.state = .self then s
  else
    let heard := p.heard f.first f.sequence (lostTimeout s)
    let agreement := agreementAfter heard.agreement (planCheckWord s) f.body
    let answered := setPeer f.sender { heard with agreement := agreement } (noticeAnswer p f s)
    if heard.agreement ≠ .differs ∧ agreement = .differs then raiseFlag .planMismatch answered else answered

/-- The lost timer of a station expires (R54): LOST with EXPECTED SEQUENCE dropped and the timer stopped, the lost event appended at
once, PEER_LOST raised. -/
def losePeer (n : Station) (s : State) : State :=
  raiseFlag .peerLost
    (appendEvent { kind := .lost, station := n }
      (setPeer n { peerOf s n with state := .lost, expected := none, timeLeft := none } s))

/-- A lost timer may expire: it runs, which it does only in PRESENT (R47), and no lost event of its station waits in the owner event
list, which holds at most one for each station (R54). The time left is no condition (assumption log 2). -/
def lostTimerExpires (n : Station) (s : State) : Bool :=
  (peerOf s n).state == .present && (peerOf s n).timeLeft.isSome && !s.imu.events.contains { kind := .lost, station := n }

/-- The expiry of a station's lost timer, where it may expire (R54). -/
def expireLost (n : Station) (s : State) : State := if lostTimerExpires n s then losePeer n s else s

/-- Expiries of lost timers, one after another (R53). -/
def expireAll (stations : List Station) (s : State) : State := stations.foldl (fun t n => expireLost n t) s

/-! ## The transmit queue and its arbiter (R81 to R83, R85) -/

/-- The receive queue has a free entry (R75, R85): it holds fewer than 4 frames. -/
def receiveRoom (s : State) : Bool := s.lrx.queue.length < 4

/-- How many frames of the transmit queue are the REQ's (R82). -/
def reqQueued (s : State) : Nat := s.lau.queue.countP fun f => f.source == .req

/-- The arbiter may admit a frame (R82, R83): sending allowed, room in the queue, at most 3 REQ frames, a refresh frame only into an
empty queue, and the FIRST gate. -/
def admissible (s : State) (f : TxFrame) : Bool :=
  maySend s && s.lau.queue.length < 4 && (f.source != .req || reqQueued s < 3) && (f.source != .refresh || s.lau.queue.isEmpty) &&
    (s.lau.lastCompleted.isSome || (f.source == .presence && s.lau.queue.isEmpty))

/-- A waiting PRESENCE offer admitted at the tail, if it may be. -/
def admitPresence (s : State) : State :=
  match s.lau.presenceOffer with
  | none => s
  | some f => if admissible s f then { s with lau.queue := s.lau.queue ++ [f], lau.presenceOffer := none } else s

/-- A waiting REQ offer admitted at the tail, if it may be. -/
def admitReq (s : State) : State :=
  match s.lau.reqOffer with
  | none => s
  | some f => if admissible s f then { s with lau.queue := s.lau.queue ++ [f], lau.reqOffer := none } else s

/-- An admission decision of the arbiter: PRESENCE before REQ (R83). -/
def arbiter (s : State) : State := admitReq (admitPresence s)

/-- The transmitter leaves IDLE when there is a head frame, receive room and the station is ACTIVE (R85). -/
def idleExit (s : State) : State :=
  if s.lau.transmitter = .idle ∧ s.lau.queue ≠ [] ∧ receiveRoom s = true ∧ s.stc.station = .active then
    { s with lau.transmitter := if s.lrx.line = .quiet then .gap else .defer }
  else s

/-- The number of records a frame counts for at the REQ: those of an UPDATE frame, 1 for a GATE frame (R115). -/
def TxFrame.size (f : TxFrame) : Nat :=
  match f.body with
  | .update records => records.length
  | .gate _ => 1
  | .presence _ => 0

/-! ## The traffic scheduler (chapter 7) -/

/-- A PRESENCE frame of this station (R124, R126). -/
def presenceFrame (s : State) (first : Bool) : TxFrame :=
  { source := .presence, sender := stationNumber s, first := first, refresh := false, body := .presence (planCheckWord s) }

/-- The TSC makes a presence offer when it has one to make and none is outstanding: the FIRST one while FIRST PENDING (R124),
another when PRESENCE TIMER is EXPIRED (R126); none under LISTEN or outside ACTIVE (R134, R135). -/
def presenceStep (s : State) : State :=
  if maySend s = true ∧ s.tsc.presenceOutstanding = false ∧ (s.tsc.firstPending = true ∨ s.tsc.presenceTimer = .expired) then
    { s with lau.presenceOffer := some (presenceFrame s s.tsc.firstPending), tsc.presenceOutstanding := true }
  else s

/-- The slots in the order a refresh scan looks at them: from the cursor on, wrapping (R130). -/
def scanOrder (n cursor : Nat) : List Nat := (List.range n).map fun k => (cursor + k) % n

/-- The slot's item is owned by this station and LOCAL (R130). -/
def ownedLocal (s : State) (slot : Nat) : Bool :=
  (s.imu.items[slot]?).any fun it => it.plan.owner == stationNumber s && it.condition == .ownLocal

/-- The slots a refresh frame takes: at most 8 owned LOCAL items, in scan order (R130). -/
def refreshSlots (s : State) : List Nat :=
  ((scanOrder s.imu.items.length s.tsc.cursor).filter (ownedLocal s)).take 8

/-- The refresh record of a slot: the held value and version (R130). -/
def refreshRecord (s : State) (slot : Nat) : Option Record :=
  match s.imu.items[slot]? with
  | none => none
  | some it => it.heldPart.map fun part => { item := it.plan.item, version := part.version, value := part.value }

/-- The refresh frame of a scan (R130). -/
def refreshFrame (s : State) (slots : List Nat) : TxFrame :=
  { source := .refresh, sender := stationNumber s, first := false, refresh := true,
    body := .update (slots.filterMap (refreshRecord s)) }

/-- The IMU's work item in hand is a self frame (condition 4 of R129). -/
def Work.isSelf : Work → Bool
  | .selfRecords _ => true
  | .gate .self _ => true
  | .gate .remote _ => false
  | .free => false
  | .notice _ => false
  | .remoteRecords _ _ => false

/-- The conditions of R129, with the arbiter's own (R83): a refresh frame that is due may be built. -/
def refreshReady (s : State) : Bool :=
  s.tsc.refreshTimer == .expired && !s.tsc.firstPending && s.lau.queue.isEmpty &&
    !(s.lrx.queue.any fun f => f.mark == .self) && !s.imu.work.isSelf && maySend s && s.lau.lastCompleted.isSome

/-- A due refresh frame is built, offered and admitted in one step when its conditions hold (R129 to R131). -/
def refreshStep (s : State) : State :=
  if refreshReady s then
    match (refreshSlots s).getLast? with
    | none => { s with tsc.refreshTimer := .running (refreshSpacing s) }
    | some last =>
      { s with
        lau.queue := s.lau.queue ++ [refreshFrame s (refreshSlots s)]
        tsc.cursor := (last + 1) % s.imu.items.length
        tsc.refreshTimer := .running (refreshSpacing s) }
  else s

/-! ## The request engine (chapter 6) -/

/-- Word `w` of slot `slot` of the ring (R100). -/
def ringWord (s : State) (slot w : Nat) : Word := s.req.ring.read (8 * slot + w)

/-- The copy of the cursor slot taken at examination (R104). -/
def cursorCopy (s : State) : SlotCopy :=
  let k := s.req.cursor.val
  slotCopyOf (ringWord s k 0) (ringWord s k 1) (ringWord s k 2) (ringWord s k 3) (ringWord s k 4)

/-- The slot of a line item number written as an integer (R1). -/
def findNumber (items : List Item) (n : Int) : Option Nat := items.findIdx? fun it => (it.plan.item.toNat : Int) == n

/-- The table slots of the items a request names, as far as the plan names them. -/
def namedSlots (s : State) (copy : SlotCopy) : List Nat := (namedItems copy).filterMap (findNumber s.imu.items)

/-- LENGTH of the item in a table slot. -/
def slotLength (s : State) (slot : Nat) : Nat := ((s.imu.items[slot]?).map fun it => it.plan.length).getD 0

/-- The staging words a request uses (R107): the sum of the LENGTHs of its records. -/
def stagingUsed (s : State) (copy : SlotCopy) : Nat :=
  let lengths := ((namedSlots s copy).map (slotLength s)).sum
  if copy.kind = some .stream then copy.count * lengths else lengths

/-- Checks 4 to 8 of table 6-3 on a PUBLISH or STREAM slot: the first that fails. -/
def itemChecks (s : State) (copy : SlotCopy) : Option SlotStatus :=
  let names := namedItems copy
  let slots := namedSlots s copy
  if names.any fun n => n < 0 || 4095 < n then some .range
  else if names.any fun n => (findNumber s.imu.items n).isNone then some .unknownItem
  else if slots.any fun k => !((s.imu.items[k]?).any fun it => it.plan.owner == stationNumber s) then some .notOwned
  else if copy.kind = some .stream ∧ (slots.any fun k => (s.imu.items[k]?).any fun it => it.plan.kind == .state) = true then
    some .wrongKind
  else if 1023 < copy.offset ∨ 1024 < copy.offset + stagingUsed s copy then some .badOffset
  else none

/-- The checks of table 6-3 in order: the refusal status of the first that fails, `none` for a valid slot (R107). -/
def slotCheck (s : State) (copy : SlotCopy) : Option SlotStatus :=
  match copy.kind with
  | none => some .badKind
  | some .gate => if 3 < copy.group then some .badGroup else none
  | some .publish => if copy.count = 0 ∨ 256 < copy.count then some .badCount else itemChecks s copy
  | some .stream => if copy.count = 0 ∨ 64 < copy.count then some .badCount else itemChecks s copy

/-- The size of a request where a count of records is meant: COUNT, and 1 for a GATE request (R101). -/
def SlotCopy.size (copy : SlotCopy) : Nat := if copy.kind = some .gate then 1 else copy.count

/-- The work of a valid slot as its building starts (R111 to R113). -/
def slotWork (s : State) (copy : SlotCopy) : SlotWork :=
  let slots := namedSlots s copy
  { todo := if copy.kind = some .stream then slots.flatMap (List.replicate copy.count) else slots,
    gate := if copy.kind = some .gate then some (Fin.ofNat 4 copy.group) else none,
    offset := copy.offset, frames := 0, outstanding := 0, lost := 0, halted := false }

/-- The records of the slot in progress that were never built (R101): REMAINING. -/
def SlotWork.remaining (w : SlotWork) : Nat := w.todo.length + (if w.gate.isSome then 1 else 0)

/-- The cursor slot handed back: STATUS, FRAMES, REMAINING and LOST written, then OWNER HOST, REQUEST_DONE raised and the cursor
advanced (R116). -/
def closeSlot (status : SlotStatus) (remaining lost frames : Nat) (s : State) : State :=
  let k := s.req.cursor.val
  let ring := s.req.ring.write (8 * k + 5) (closedWord5 (ringWord s k 5) frames status)
  let ring := ring.write (8 * k + 6) (BitVec.ofNat 16 remaining)
  let ring := ring.write (8 * k + 7) (BitVec.ofNat 16 lost)
  let ring := ring.write (8 * k) (closedWord0 (ringWord s k 0))
  raiseFlag .requestDone { s with req.ring := ring, req.cursor := s.req.cursor + 1, req.slot := none }

/-- STATUS of a worked slot at close, by the first line of table 6-4 that applies. -/
def SlotWork.status (w : SlotWork) : SlotStatus :=
  if w.halted then .halted else if w.lost ≠ 0 ∨ w.remaining ≠ 0 then .lineFailed else .done

/-- The slot in progress closes when every outcome is known and nothing is left to build or building has stopped (R116). -/
def closable (s : State) (w : SlotWork) : Bool :=
  w.outstanding == 0 && (w.remaining == 0 || w.halted || s.stc.station != .active)

/-- The version the REQ gives an item's next record (R6): LAST ISSUED VERSION + 1. -/
def Item.nextVersion (it : Item) : Version := ((it.owned.map OwnedFields.lastIssued).getD 65535) + 1

/-- An item with a version issued (R6). -/
def Item.issue (it : Item) : Item := { it with owned := it.owned.map fun o => { o with lastIssued := o.lastIssued + 1 } }

/-- The record built for an item (R111): its next version, its LENGTH words of staging from the running offset on. -/
def buildRecord (staging : WordStore) (offset : Nat) (it : Item) : Record :=
  { item := it.plan.item, version := it.nextVersion, value := (List.range it.plan.length).map fun j => staging.read (offset + j) }

/-- The records of table slots built in order, with the item table and the running offset they leave (R111, R112). -/
def buildRecords (staging : WordStore) : List Nat → List Item → Nat → List Record × List Item × Nat
  | [], items, offset => ([], items, offset)
  | k :: rest, items, offset =>
    match items[k]? with
    | none => buildRecords staging rest items offset
    | some it =>
      let built := buildRecords staging rest (items.set k it.issue) (offset + it.plan.length)
      (buildRecord staging offset it :: built.1, built.2)

/-- The next frame of the slot in progress built and offered (R110 to R113). -/
def buildFrame (w : SlotWork) (s : State) : State :=
  match w.gate with
  | some g =>
    { s with
      lau.reqOffer :=
        some { source := .req, sender := stationNumber s, first := false, refresh := false, body := .gate g }
      req.slot := some { w with gate := none, frames := w.frames + 1, outstanding := w.outstanding + 1 } }
  | none =>
    let built := buildRecords s.hpt.staging (w.todo.take 8) s.imu.items w.offset
    { s with
      imu.items := built.2.1
      lau.reqOffer :=
        some { source := .req, sender := stationNumber s, first := false, refresh := false, body := .update built.1 }
      req.slot :=
        some
          { w with todo := w.todo.drop 8, offset := built.2.2, frames := w.frames + 1, outstanding := w.outstanding + 1 } }

/-- The REQ builds a frame now (R110): nothing waiting at the LAU, records left, ACTIVE, not halted. -/
def buildsNow (s : State) (w : SlotWork) : Bool :=
  s.lau.reqOffer.isNone && w.remaining != 0 && s.stc.station == .active && !w.halted

/-- Admission decisions and frame building in turn, until the offer waits or nothing is left to build (R81, R83, R110). The queue
takes at most 3 REQ frames (R82), so a fuel of 8 is never used up. -/
def pump : Nat → State → State
  | 0, s => arbiter s
  | fuel + 1, s =>
    let t := arbiter s
    match t.req.slot with
    | none => t
    | some w => if buildsNow t w then pump fuel (buildFrame w t) else t

/-- The process examines slots in this station state: ACTIVE or MUTED (R106). -/
def examines (s : State) : Bool := s.stc.station == .active || s.stc.station == .muted

/-- The cursor slot is examined (R104): HOST-owned, the process suspends; STATION-owned, it is refused (R108), closed SILENT (R109)
or in progress. -/
def examineSlot (s : State) : State :=
  let copy := cursorCopy s
  if copy.stationOwned then
    match slotCheck s copy with
    | some status => closeSlot status copy.size 0 0 { s with req.process := .running }
    | none =>
      if s.stc.station = .muted ∨ s.stc.straps.listen = true then closeSlot .silent copy.size 0 0 { s with req.process := .running }
      else { s with req.process := .running, req.slot := some (slotWork s copy) }
  else raiseFlag .requestsIdle { s with req.process := .suspended }

/-- The request process runs until it rests (R104, R110, R116): the slot in progress is built and closed, the next one examined, and
so on. A close makes a slot HOST-owned, so at most 17 closes follow one another and a fuel of 40 is never used up. -/
def reqRun : Nat → State → State
  | 0, s => s
  | fuel + 1, s =>
    match s.req.slot with
    | some _ =>
      let t := pump 8 s
      match t.req.slot with
      | none => t
      | some w => if closable t w then reqRun fuel (closeSlot w.status w.remaining w.lost w.frames t) else t
    | none => if s.req.process = .running ∧ examines s = true then reqRun fuel (examineSlot s) else s

/-- An outcome at the REQ (R115): one frame less is outstanding, and the records of an abandoned one are lost. -/
def reqOutcome (lost : Nat) (s : State) : State :=
  match s.req.slot with
  | none => s
  | some w => { s with req.slot := some { w with outstanding := w.outstanding - 1, lost := w.lost + lost } }

/-- The request process runs until it rests, and the transmitter leaves IDLE if it may. -/
def runRequests (s : State) : State := idleExit (reqRun 40 s)

/-- The sending side settles after an event: an admission decision, then the request process and the transmitter. -/
def settle (s : State) : State := runRequests (arbiter s)

/-- The source of an abandoned frame is told (R93): the REQ counts it, the TSC clears PRESENCE OUTSTANDING (R126, R134). -/
def tellAbandoned (f : TxFrame) (s : State) : State :=
  match f.source with
  | .req => reqOutcome f.size s
  | .presence => { s with tsc.presenceOutstanding := false }
  | .refresh => s

/-- The source of a completed frame is told (R92): the REQ counts it, the TSC clears PRESENCE OUTSTANDING and, for the FIRST
presence frame, FIRST PENDING (R124, R126). -/
def tellCompleted (f : TxFrame) (s : State) : State :=
  match f.source with
  | .req => reqOutcome 0 s
  | .presence => { s with tsc.presenceOutstanding := false, tsc.firstPending := s.tsc.firstPending && !f.first }
  | .refresh => s

/-- The driver is off, the guard and the attempt ended (R94). -/
def driverOff (s : State) : State := { s with lau.driver := false, lau.guard := false, lau.attempt := none }

/-! ## Entry to MUTED (R96, R119, R134, R161) -/

/-- The sources of a run of abandoned frames are told, in order (R96). -/
def tellAll (frames : List TxFrame) (s : State) : State := frames.foldl (fun t f => tellAbandoned f t) s

/-- A run of frames of the transmit queue is counted in ABANDONED, one each (R93). -/
def countAbandoned (frames : List TxFrame) (s : State) : State := frames.foldl (fun t _ => countUp .abandoned t) s

/-- The station state, cause and timers of the entry (R134, R161). -/
def stopStation (cause : MutedCause) (s : State) : State :=
  { s with
    stc.station := .muted
    stc.mutedCause := cause
    stc.joinTimer := none
    tsc.refreshTimer := .stopped
    tsc.presenceTimer := .stopped
    tsc.firstPending := false }

/-- The LAU at the entry (R96): the attempt cut, every queued frame abandoned and counted, `before` and then the queued frames told
to their sources in order, then the waiting offers answered, the transmitter OFF. -/
def flushLau (before : List TxFrame) (s : State) : State :=
  let frames := s.lau.queue
  let offers := s.lau.reqOffer.toList ++ s.lau.presenceOffer.toList
  let emptied :=
    { driverOff s with
      lau.queue := []
      lau.reqOffer := none
      lau.presenceOffer := none
      lau.transmitter := .off
      lau.attempts := 0
      lau.backoff := none }
  tellAll (before ++ frames ++ offers) (countAbandoned frames emptied)

/-- A mute notice at the STC: in JOINING or ACTIVE the station enters MUTED and the blocks stop (R161); the request process then
closes its slot in progress and goes on (R106, R119). A notice in MUTED changes nothing. `before` are frames abandoned already whose
source has not been told (R95). -/
def muteNotice (cause : MutedCause) (before : List TxFrame) (s : State) : State :=
  if s.stc.station = .joining ∨ s.stc.station = .active then reqRun 40 (flushLau before (stopStation cause s)) else s

/-- A clash notice that has waited is taken by the start controller (R161, R162). -/
def takeClashNotice (s : State) : State := muteNotice .identity [] { s with stc.clashNotice := false }

/-! ## Gates (R34 to R36) -/

/-- The gate counts as missed: a sequence is held, and `q` neither follows on nor coincides (R34). -/
def gateMissed (held : Option Byte) (q : Byte) : Bool := held.any fun h => q - h != 0 && q - h != 1

/-- The IMU comes to a GATE frame: comparison, then the held sequence, then the application starts (R31, R34). -/
def startGate (mark : Mark) (g : Group) (q : Byte) (s : State) : State :=
  let counted := if gateMissed s.imu.heldGate[g] q then countUp .missedGates s else s
  { counted with imu.heldGate := s.imu.heldGate.set g (some q), imu.work := .gate mark g }

/-- The next item a gate application moves: the first of the group in slot order that holds a pending part (R35). -/
def nextGateSlot (s : State) (g : Group) : Option Nat :=
  s.imu.items.findIdx? fun it => it.plan.gate == some g && it.pendingPart.isSome

/-- The gate moves an item's pending part to its visible part (R35). -/
def Item.moveGate (it : Item) : Item :=
  match it.pendingPart with
  | none => it
  | some part => { it with visiblePart := some part, pendingPart := none }

/-! ## The IMU's work (R12 to R14) -/

/-- The IMU may make a step: the station receives, and no read it held waits to be served (R28, R166). -/
def imuSteps (s : State) : Bool := receiving s && !servicePending s

/-- A work item ends: the IMU is free; after a self frame the TSC looks at its conditions (R129). -/
def endWork (s : State) : State :=
  let freed := { s with imu.work := .free }
  if s.imu.work.isSelf then idleExit (refreshStep freed) else freed

/-- Records of an UPDATE frame as the work item in hand; a frame without a record left ends (R12). -/
def workOn (records : List Record) (work : List Record → Work) (s : State) : State :=
  let working := { s with imu.work := work records }
  if records.isEmpty then endWork working else working

/-- Step 3 of R13: a remote frame by its kind. -/
def applyByKind (f : Frame) (s : State) : State :=
  match f.body with
  | .update records => workOn records (.remoteRecords f.sender) s
  | .gate g q => startGate .remote g q s
  | .presence _ => endWork s

/-- Steps 2 and 3 of R13: once the owner event list is empty, the frame in its notice step is applied by its kind. -/
def finishNotice (s : State) : State :=
  match s.imu.work with
  | .notice f => if s.imu.events.isEmpty then applyByKind f s else s
  | _ => s

/-- The IMU may take an owner event: it is free, or it takes the events with a remote frame (R12, R13). -/
def takesEvents (s : State) : Bool :=
  imuSteps s &&
    match s.imu.work with
    | .free => true
    | .notice _ => true
    | .remoteRecords _ _ => false
    | .selfRecords _ => false
    | .gate _ _ => false

/-- An owner event's next `n` steps (R15). Behind the last of its items it ends, and a frame whose notice it waited for may go on (R12,
R13). -/
def eventSteps (n : Nat) (w : EventWork) (s : State) : State :=
  let stepped := applyEvent w.event (w.todo.take n) s
  if w.todo.length ≤ n then finishNotice { stepped with imu.applying := none }
  else { stepped with imu.applying := some { w with todo := w.todo.drop n } }

/-- The IMU goes on with an owner event of the given kind, taking it off the list if it is not in hand yet (R12, R16 to R18): `steps` of its
items, or all that are left. -/
def takeEvent (kind : OwnerEventKind) (steps : Option Nat) (s : State) : State :=
  match nextEvent s with
  | none => s
  | some (w, rest) =>
    if takesEvents s = true ∧ w.event.kind = kind then
      eventSteps (steps.getD w.todo.length) w { s with imu.events := rest }
    else s

/-! ## The plan check (R154) -/

/-- The plan window's header spare bits are all zero and word 0 is the plan mark: test 1 passes (table 11-6). -/
def planMarked (m : WordStore) : Bool :=
  m.read 0 == 0x7A41#16 && bitField 3 13 (m.read 2) == 0 && bitField 8 8 (m.read 3) == 0 && bitField 8 8 (m.read 4) == 0 &&
    bitField 8 8 (m.read 5) == 0 && m.read 6 == 0

/-- ENTRY COUNT of the window (table 11-6). -/
def planCount (m : WordStore) : Nat := (m.read 1).toNat

/-- Tests 1 and 2 of table 9-4 (also step 3 of R156): the code of the first that fails. -/
def headerFault (m : WordStore) : Option PlanFault :=
  if !planMarked m then some .noPlan else if planCount m = 0 ∨ 512 < planCount m then some .badCount else none

/-- The sum of the 8 header words and the 2 × N entry words (test 3). -/
def planSum (m : WordStore) : Word := (List.range (8 + 2 * planCount m)).foldl (fun sum k => sum + m.read k) 0

/-- Entry `k` of the window (R153, table 11-7). -/
def planEntry (m : WordStore) (k : Nat) : PlanEntry := planEntryOf (m.read (8 + 2 * k)) (m.read (9 + 2 * k))

/-- Tests 5 and 6 on entry `k`, in the one pass of R154. -/
def entryFault (m : WordStore) (k : Nat) : Option PlanFault :=
  if (planEntry m k).bad then some .badEntry
  else if 1 ≤ k ∧ (planEntry m k).item.toNat ≤ (planEntry m (k - 1)).item.toNat then some .badOrder
  else none

/-- Test 4 fails: a bad rate code, P of 0, or L below 2 × P (table 9-4). -/
def timingBad (m : WordStore) : Bool :=
  3 < bitField 0 3 (m.read 2) || bitField 0 8 (m.read 3) == 0 || 8 * bitField 0 8 (m.read 4) < 2 * bitField 0 8 (m.read 3)

/-- The plan check: the code of the first test that fails, with the entry for BAD_ENTRY and BAD_ORDER; `none` for a good plan
(R154). -/
def planCheck (m : WordStore) : Option (PlanFault × Option Nat) :=
  match headerFault m with
  | some code => some (code, none)
  | none =>
    if planSum m ≠ 0 then some (.badCheck, none)
    else if timingBad m then some (.badTiming, none)
    else (List.range (planCount m)).findSome? fun k => (entryFault m k).map fun code => (code, some k)

/-- The figures of the plan in a window (R151). -/
def planOf (m : WordStore) : Plan :=
  { count := planCount m, rate := bitField 0 3 (m.read 2), presence := bitField 0 8 (m.read 3),
    lostTimeout := 8 * bitField 0 8 (m.read 4), refresh := bitField 0 8 (m.read 5), check := m.read 7 }

/-- The item table built from the window (R1, table 1-3). -/
def buildTable (station : Station) (m : WordStore) : List Item :=
  (List.range (planCount m)).map fun k => (planEntry m k).newItem station

/-- Entry to JOINING with a good plan (R159): the table built, the LRX in SETTLE with the line BUSY (R78), the join timer started. -/
def enterJoining (s : State) : State :=
  let plan := planOf s.stc.window
  { s with
    stc.plan := some plan
    stc.faultCode := .none
    stc.faultEntry := none
    stc.station := .joining
    stc.joinTimer := some plan.lostTimeout
    imu.items := buildTable (stationNumber s) s.stc.window
    lrx.assembly := .settle
    lrx.line := .busy }

/-- A failed plan (R155, R157): PLAN_FAULT with the code and entry. -/
def enterPlanFault (code : PlanFault) (entry : Option Nat) (s : State) : State :=
  { s with stc.station := .planFault, stc.faultCode := code, stc.faultEntry := entry }

/-- Word `k` of a plan read is formed and written into the window (R156): the read stops at a bad header (step 3), ends behind the last
entry word, where the plan check begins (step 5), and otherwise goes on from the port state given. The window has 1032 words. -/
def takePlanWord (k : Nat) (value : Word) (next : PlanRead) (stc : Stc) : Stc :=
  let window := if k < 1032 then stc.window.write k value else stc.window
  let taken := { stc with window := window, planRead := some next }
  if k < 7 then taken
  else
    match if k = 7 then headerFault window else none with
    | some code => { taken with station := .planFault, faultCode := code, faultEntry := none, planRead := none }
    | none => if 7 + 2 * planCount window ≤ k then { taken with planRead := none, checking := true } else taken

/-- One rising clock edge of the plan memory port (R177): the first 24 send the instruction and the address, and each later one takes in
the level on the data input. -/
def clockPlan (stc : Stc) (level : Bool) : Stc :=
  match stc.planRead with
  | none => stc
  | some read =>
    let clocks := read.clocks + 1
    if read.clocks < readCommand.length then { stc with planRead := some { read with clocks := clocks } }
    else
      let shift := read.shift ++ [level]
      if shift.length < 16 then { stc with planRead := some { clocks := clocks, shift := shift } }
      else takePlanWord ((read.clocks - readCommand.length) / 16) (portWord shift) { clocks := clocks, shift := [] } stc

/-- A write to a word of the plan window by the station state (R153); the hold of R158 is not looked at here. -/
def storePlanWord (index : Fin 1032) (value : Word) (s : State) : State :=
  match s.stc.station with
  | .planWait | .planFault => { s with stc.window := s.stc.window.write index.val value }
  | .loading | .joining | .active | .muted => s

/-! ## Resets (R149, R150) -/

/-- The peer table at a reset: the entry of the captured station number SELF, every other ABSENT (R48, R49). -/
def resetPeers (station : Station) : Vector Peer 32 := (Vector.replicate 32 Peer.absentEntry).set station Peer.selfEntry

/-- The station state entered after a reset (R150): LOADING or PLAN_WAIT by START MODE. -/
def stateAfterReset (mode : StartMode) : StationState :=
  match mode with
  | .memory => .loading
  | .host => .planWait

/-- Every block at its reset values (R150), under the given straps and CAUSE; `inReset` says that the reset is still in progress, and
a plan read begins at its end when START MODE is MEMORY (R156). A soft reset that ends one plan read and begins the next releases chip
select and asserts it again within this one step: how long it stays released the spec does not say (R177), and no state shows it released
(assumption log 30). The queue of commands and the count of free values are the model's own and stay. -/
def resetBlocks (straps : Straps) (cause : ResetCause) (inReset : Bool) (s : State) : State :=
  { State.reset with
    pending := s.pending
    freeCount := s.freeCount
    pmn := { peers := resetPeers straps.station }
    stc :=
      { State.reset.stc with
        station := stateAfterReset straps.startMode
        straps := straps
        cause := cause
        planRead := if inReset = false ∧ straps.startMode = .memory then some .start else none
        inReset := inReset } }

/-! ## The station timebase (assumption log 2) -/

/-- A timer's time left after 1 ms. -/
def Timer.tick : Timer → Timer
  | .running left => .running (left - 1)
  | .stopped => .stopped
  | .expired => .expired

/-- 1 ms of the station timebase: the times left of the join, lost, refresh and presence timers fall by 1 (R54, R122, R159). Their
expiries are commands of their own. -/
def idleTick (s : State) : State :=
  { s with
    stc.joinTimer := s.stc.joinTimer.map (· - 1)
    pmn.peers := s.pmn.peers.map fun p => { p with timeLeft := p.timeLeft.map (· - 1) }
    tsc.refreshTimer := s.tsc.refreshTimer.tick
    tsc.presenceTimer := s.tsc.presenceTimer.tick }

/-- What happens with no command to take: a clash notice that waits is taken (assumption log 28), and otherwise 1 ms passes. -/
def idleStep (s : State) : State := if s.stc.clashNotice then takeClashNotice s else idleTick s

end Sys2Proof.Machine
end

