-- ==== Sys2Proof/Machine/Requests.lean ====
section
/-! DEFINITION. The meanings of the commands to the request process: RUN_SET, RUN_CLEAR, KICK (R103, R105, R117, R118). -/

namespace Sys2Proof.Machine

/-- A setting of RUN (R103): STOPPED or SUSPENDED becomes RUNNING, and the process goes on as it may; in RUNNING no effect. -/
def setRun (s : State) : State :=
  match s.req.process with
  | .running => s
  | .stopped | .suspended => runRequests { s with req.process := .running }

/-- RUN_SET (R103, R169). -/
def execRunSet (s : State) : Host.Outcome State Fault Refusal := .next (hostWrite setRun s)

/-- A clearing of RUN (R103): RUNNING or SUSPENDED becomes STOPPED, and a slot in progress under RUNNING is halted (R117); in STOPPED
no effect. -/
def clearRun (s : State) : State :=
  match s.req.process with
  | .stopped => s
  | .suspended => { s with req.process := .stopped }
  | .running =>
    runRequests { s with req.process := .stopped, req.slot := s.req.slot.map fun w => { w with halted := true } }

/-- RUN_CLEAR (R103, R169). -/
def execRunClear (s : State) : Host.Outcome State Fault Refusal := .next (hostWrite clearRun s)

/-- A write to KICK (R105): in SUSPENDED the cursor slot is examined again; in RUNNING and STOPPED no effect. -/
def kickProcess (s : State) : State :=
  if s.req.process = .suspended ∧ examines s = true then runRequests { s with req.process := .running } else s

/-- KICK (R105, R170). -/
def execKick (s : State) : Host.Outcome State Fault Refusal := .next (hostWrite kickProcess s)

end Sys2Proof.Machine
end

