-- ==== Sys2Proof/Machine/Resets.lean ====
section
/-! DEFINITION. The meanings of the resets: POWER_ON_RESET, PIN_RESET, RESET_END, SOFT_RESET (R149, R150). -/

namespace Sys2Proof.Machine

/-- POWER_ON_RESET (R149): every operation in flight ends and every block is held at its reset values, until RESET_END. -/
def execPowerOnReset (s : State) : Host.Outcome State Fault Refusal := .next (resetBlocks s.stc.straps .power true s)

/-- PIN_RESET (R149): as a power-on reset, with CAUSE PIN. -/
def execPinReset (s : State) : Host.Outcome State Fault Refusal := .next (resetBlocks s.stc.straps .pin true s)

/-- RESET_END (R148, R150): the straps are captured, and the station enters LOADING or PLAN_WAIT by START MODE, under the CAUSE of
the reset that began last. -/
def execResetEnd (straps : Straps) (s : State) : Host.Outcome State Fault Refusal :=
  .next (if s.stc.inReset then resetBlocks straps s.stc.cause false s else s)

/-- A soft reset, begun and ended at once, with the straps captured before it (R148, R149). -/
def softReset (s : State) : State := resetBlocks s.stc.straps .soft false s

/-- SOFT_RESET (R149, R169): a control word write with RESET 1. -/
def execSoftReset (s : State) : Host.Outcome State Fault Refusal := .next (hostWrite softReset s)

end Sys2Proof.Machine
end

