-- ==== Sys2Proof/Machine/Views.lean ====
section
/-! DEFINITION. What the host reads: every word of the host window (table 10-1) in the layouts of chapter 11. -/

namespace Sys2Proof.Machine

/-! ## Codes (tables 11-10 to 11-13) -/

/-- CONDITION codes (table 11-10). -/
def Condition.code : Condition → Nat
  | .vacant => 0
  | .current => 1
  | .doubtful => 2
  | .stale => 3
  | .unset => 4
  | .ownLocal => 5

/-- STATE codes of a peer entry (table 11-12). -/
def PeerState.code : PeerState → Nat
  | .absent => 0
  | .present => 1
  | .lost => 2
  | .self => 3

/-- PLAN AGREEMENT codes (table 11-12). -/
def Agreement.code : Agreement → Nat
  | .unknown => 0
  | .agrees => 1
  | .differs => 2

/-- STATE codes of the station status (table 11-13). -/
def StationState.code : StationState → Nat
  | .loading => 0
  | .planWait => 1
  | .planFault => 2
  | .joining => 3
  | .active => 4
  | .muted => 5

/-- PROCESS codes (table 11-13). -/
def Process.code : Process → Nat
  | .stopped => 0
  | .running => 1
  | .suspended => 2

/-- PLAN FAULT CODE codes (table 11-13). -/
def PlanFault.code : PlanFault → Nat
  | .none => 0
  | .noPlan => 1
  | .badCount => 2
  | .badCheck => 3
  | .badTiming => 4
  | .badEntry => 5
  | .badOrder => 6

/-- MUTED CAUSE codes (table 11-13). -/
def MutedCause.code : MutedCause → Nat
  | .none => 0
  | .identity => 1
  | .guard => 2

/-- CAUSE codes (table 11-13). -/
def ResetCause.code : ResetCause → Nat
  | .power => 0
  | .pin => 1
  | .soft => 2

/-! ## Item views (R167, table 11-10) -/

/-- Word 0 of the view of an item. -/
def itemHeader (it : Item) : Word :=
  placeBit 15 true ||| place 10 ((it.plan.gate.map fun g => g.val).getD 0) ||| placeBit 9 it.plan.gate.isSome |||
    placeBit 8 (it.plan.kind == .stream) ||| placeBit 7 (it.owned.any fun o => o.clashMark) ||| placeBit 6 it.baselineOpen |||
    placeBit 5 it.pendingPart.isSome ||| placeBit 4 it.visiblePart.isSome ||| place 0 it.condition.code

/-- The part that VIEW PART names (R167). -/
def Item.viewedPart (it : Item) : ViewPart → Option Part
  | .visible => it.visiblePart
  | .pending => it.pendingPart

/-- Word `w` of the view of an item (table 11-10). -/
def itemViewOf (view : ViewPart) (it : Item) (w : Nat) : Word :=
  match w with
  | 0 => itemHeader it
  | 1 => place 12 it.plan.length ||| it.plan.item.setWidth 16
  | 2 => place 0 it.plan.owner.val
  | 3 => (it.visiblePart.map Part.version).getD 0
  | 4 => (it.pendingPart.map Part.version).getD 0
  | 5 => (it.owned.map OwnedFields.lastIssued).getD 0
  | 6 => 0
  | 7 => 0
  | k => ((it.viewedPart view).map fun part => part.value.getD (k - 8) 0).getD 0

/-- Word `w` of the item view of a slot, live: 0 where the slot holds no item (R165, R167). -/
def itemViewWord (s : State) (slot w : Nat) : Word :=
  match s.imu.items[slot]? with
  | none => 0
  | some it => itemViewOf s.hpt.viewPart it w

/-- A read of word 0 of an item view, served: the whole view into the latch, LATCHED SLOT set, word 0 returned (R168). -/
def latchView (slot : Fin 512) (s : State) : State :=
  { s with
    hpt.latch := { slot := some slot, words := (List.range 16).map (itemViewWord s slot.val) }
    hpt.readData := itemViewWord s slot.val 0 }

/-- A read of word `w` of an item view: word 0 live, words 1 to 15 from the latch for the latched slot and live for any other
(R168). -/
def itemViewRead (s : State) (slot w : Nat) : Word :=
  if w ≠ 0 ∧ s.hpt.latch.slot.map Fin.val = some slot then s.hpt.latch.words.getD w 0 else itemViewWord s slot w

/-! ## The sample view (R143, table 11-11) -/

/-- Word `w` of the sample view with the given head entry and fill. -/
def sampleViewOf (head : Sample) (fill w : Nat) : Word :=
  match w with
  | 0 =>
    placeBit 15 true ||| placeBit 14 head.first ||| placeBit 13 head.gap.isSome ||| place 8 head.sender.val |||
      place 0 head.value.length
  | 1 => place 0 fill
  | 2 => head.item.setWidth 16
  | 3 => head.version
  | 4 => place 0 (head.gap.getD 0)
  | 5 => 0
  | 6 => 0
  | 7 => 0
  | k => head.value.getD (k - 8) 0

/-- Word `w` of the sample view: every word 0 while the queue is empty (R143). -/
def sampleViewWord (s : State) (w : Nat) : Word :=
  match s.stu.queue with
  | [] => 0
  | head :: _ => sampleViewOf head s.stu.queue.length w

/-! ## Peer view, station status, gate sequence view -/

/-- A word of the peer view of an entry (R62, table 11-12). -/
def peerViewWord (p : Peer) (w : Nat) : Word :=
  if w = 0 then
    place 8 ((p.expected.map BitVec.toNat).getD 0) ||| placeBit 7 p.expected.isSome ||| place 2 p.agreement.code |||
      place 0 p.state.code
  else place 0 (p.timeLeft.getD 0)

/-- Word 0x3000 of the station status (R163, table 11-13). -/
def statusWord0 (s : State) : Word :=
  place 12 s.req.process.code ||| place 8 s.stc.faultCode.code ||| placeBit 7 s.stc.checking ||| place 4 s.stc.mutedCause.code |||
    place 0 s.stc.station.code

/-- Word 0x3001: FAULT ENTRY (table 11-13). -/
def faultEntryWord (s : State) : Word := (s.stc.faultEntry.map (BitVec.ofNat 16)).getD 0xFFFF#16

/-- Word 0x3003: CURSOR and the captured straps (table 11-13). -/
def statusWord3 (s : State) : Word :=
  place 12 s.req.cursor.val ||| placeBit 9 s.stc.straps.listen ||| placeBit 8 (s.stc.straps.startMode == .host) |||
    place 0 s.stc.straps.station.val

/-- The control word as read: RUN is 1 while the process is RUNNING or SUSPENDED (R169). -/
def controlWord (s : State) : Word := placeBit 0 (s.req.process != .stopped)

/-- The word of the gate sequence view of a group (R31, table 11-14). -/
def gateViewWord (held : Option Byte) : Word := placeBit 15 held.isSome ||| ((held.getD 0).setWidth 16)

/-- VIEW PART as read (table 11-13). -/
def viewPartWord (v : ViewPart) : Word := placeBit 0 (v == .pending)

/-- The word a read of NEXT_CHANGE returns: the head of the change list, or 0xFFFF (R26). -/
def nextChangeWord (s : State) : Word :=
  match s.imu.changes with
  | [] => 0xFFFF#16
  | n :: _ => n.setWidth 16

/-- The counter at an offset from 0x3010 (table 10-4). -/
def counterAt : Nat → CounterName
  | 0 => .framesSent
  | 1 => .collisions
  | 2 => .abandoned
  | 3 => .badFrames
  | 4 => .rxOverruns
  | 5 => .sequenceGaps
  | 6 => .foreignRecords
  | _ => .missedGates

/-- The words 0x3000 to 0x301B (tables 11-13, 11-14); an address among them that names no word reads 0. -/
def registerWord (s : State) (a : Nat) : Word :=
  match a with
  | 0x3000 => statusWord0 s
  | 0x3001 => faultEntryWord s
  | 0x3002 => place 0 (s.stc.joinTimer.getD 0)
  | 0x3003 => statusWord3 s
  | 0x3004 => place 0 s.stc.cause.code
  | 0x3005 => controlWord s
  | 0x3006 => 0
  | 0x3007 => nextChangeWord s
  | 0x3008 => 0
  | 0x3009 => viewPartWord s.hpt.viewPart
  | 0x300A => ordinaryFlagsWord s
  | 0x300B => faultFlagsWord s
  | 0x300C => s.hpt.ordinaryMask.setWidth 16
  | 0x300D => s.hpt.faultMask.setWidth 16
  | 0x300E => summaryWord s
  | 0x3018 => gateViewWord s.imu.heldGate[0]
  | 0x3019 => gateViewWord s.imu.heldGate[1]
  | 0x301A => gateViewWord s.imu.heldGate[2]
  | 0x301B => gateViewWord s.imu.heldGate[3]
  | a => if 0x3010 ≤ a ∧ a ≤ 0x3017 then (s.hpt.counters.get (counterAt (a - 0x3010))).word else 0

/-- The word that a host read of an address returns when it is served from the state as it stands (R164, table 10-1): 0 while a
reset is in progress, 0 where no region maps the address. What the read changes besides is the command's affair: only NEXT_CHANGE,
a counter and word 0 of an item view change anything (R170). -/
def windowWord (s : State) (addr : Word) : Word :=
  let a := addr.toNat
  if s.stc.inReset then 0
  else if a ≤ 0x1FFF then itemViewRead s (a / 16) (a % 16)
  else if a ≤ 0x23FF then s.hpt.staging.read (a - 0x2000)
  else if a ≤ 0x247F then s.req.ring.read (a - 0x2400)
  else if a ≤ 0x249F then s.hpt.notify.read (a - 0x2480)
  else if a ≤ 0x24AF then sampleViewWord s (a - 0x24A0)
  else if a < 0x24C0 then 0
  else if a ≤ 0x24FF then peerViewWord (peerOf s (Fin.ofNat 32 ((a - 0x24C0) / 2))) ((a - 0x24C0) % 2)
  else if a < 0x2800 then 0
  else if a ≤ 0x2C07 then s.stc.window.read (a - 0x2800)
  else registerWord s a

/-! ## The pins of the plan memory port (R156, R177) -/

/-- The level of chip select, which is active low: low exactly while a plan read is in flight (R156, R177). A soft reset
that ends one read and begins the next shows no state between the two (assumption log 30). -/
def planSelect (s : State) : Bool := s.stc.planRead.isNone

/-- The level of the clock between two pulses: low, in SPI mode 0 (R177). -/
def planClockRest : Bool := false

/-- The level that stands on the data output for the next rising clock edge: the bits of instruction and address in turn, and behind them
nothing is driven (R177). With no read in flight and none that has sent its address the spec does not say what the output does, and
the model's choice is that nothing is driven then either (assumption log 33). -/
def planOutput (s : State) : Option Bool :=
  match s.stc.planRead with
  | none => none
  | some read => readCommand[read.clocks]?

end Sys2Proof.Machine
end

