-- ==== Sys2Proof/Machine/HostPort.lean ====
section
/-! DEFINITION. The meanings of the host's other accesses: NEXT_CHANGE, SAMPLE_TAKE, ITEM_VIEW_WORD0_READ, COUNTER_READ, FLAGS_CLEAR,
PLAN_WINDOW_WRITE, START, HOST_REGISTER_WRITE, HELD_ACCESS_SERVED (chapter 10). -/

namespace Sys2Proof.Machine

/-- A read of NEXT_CHANGE: the head of the change list removed and returned, or 0xFFFF (R26). -/
def readNextChange (s : State) : State :=
  { s with hpt.readData := nextChangeWord s, imu.changes := s.imu.changes.tail }

/-- NEXT_CHANGE (R26, R170). -/
def execNextChange (s : State) : Host.Outcome State Fault Refusal := .next (hostRead readNextChange s)

/-- A write to SAMPLE_TAKE: the head of the sample queue removed, if there is one (R144). -/
def takeHead (s : State) : State := { s with stu.queue := s.stu.queue.tail }

/-- SAMPLE_TAKE (R144, R170). -/
def execSampleTake (s : State) : Host.Outcome State Fault Refusal := .next (hostWrite takeHead s)

/-- ITEM_VIEW_WORD0_READ (R168): held while an operation is changing the item (R166), and otherwise the view latched. -/
def execItemViewWord0Read (slot : Fin 512) (s : State) : Host.Outcome State Fault Refusal :=
  .next (hostRead (fun t => if accessHeld t (.viewWord0 slot) then holdAccess (.viewWord0 slot) t else latchView slot t) s)

/-- A read of a counter: count and OVERFLOW returned and cleared in one step (R173). -/
def readCounter (c : CounterName) (s : State) : State :=
  { s with hpt.readData := (s.hpt.counters.get c).word, hpt.counters := s.hpt.counters.set Counter.zero c }

/-- COUNTER_READ (R173). -/
def execCounterRead (c : CounterName) (s : State) : Host.Outcome State Fault Refusal := .next (hostRead (readCounter c) s)

/-- CLASH MARK of an owned item cleared (R5). -/
def Item.clearClash (it : Item) : Item := { it with owned := it.owned.map fun o => { o with clashMark := false } }

/-- A write to a flags word (R171): each sticky flag whose position holds 1 is cleared; 1 at ITEM_CLASH also clears every CLASH MARK
in one step (R5). -/
def clearFlags (flags : FlagClass) (value : Word) (s : State) : State :=
  match flags with
  | .ordinary => { s with hpt.flags := s.hpt.flags.clearOrdinary value }
  | .fault =>
    { s with
      hpt.flags := s.hpt.flags.clearFault value
      imu.items := if value.getLsbD 1 then s.imu.items.map Item.clearClash else s.imu.items }

/-- FLAGS_CLEAR (R171). -/
def execFlagsClear (flags : FlagClass) (value : Word) (s : State) : Host.Outcome State Fault Refusal :=
  .next (hostWrite (clearFlags flags value) s)

/-- A write to the plan window: held while a plan check is in flight (R158, R166), and otherwise taken or ignored by the station state
(R153). -/
def writePlanWindow (index : Fin 1032) (value : Word) (s : State) : State :=
  if accessHeld s (.planWrite index value) then holdAccess (.planWrite index value) s else storePlanWord index value s

/-- PLAN_WINDOW_WRITE (R153). -/
def execPlanWindowWrite (index : Fin 1032) (value : Word) (s : State) : Host.Outcome State Fault Refusal :=
  .next (hostWrite (writePlanWindow index value) s)

/-- A START (R158): taken in PLAN_WAIT and PLAN_FAULT with no check in flight, and ignored otherwise. -/
def startCheck (s : State) : State :=
  if (s.stc.station = .planWait ∨ s.stc.station = .planFault) ∧ s.stc.checking = false then { s with stc.checking := true } else s

/-- START (R158, R169). -/
def execStart (s : State) : Host.Outcome State Fault Refusal := .next (hostWrite startCheck s)

/-- A write to the control word (R169): with RESET 1 a soft reset and nothing else; otherwise RUN set or cleared, and START. -/
def writeControl (value : Word) (s : State) : State :=
  if value.getLsbD 1 then softReset s
  else
    let ran := if value.getLsbD 0 then setRun s else clearRun s
    if value.getLsbD 2 then startCheck ran else ran

/-- A write to a word from 0x3005 on (table 10-1): those with behaviour act, VIEW PART and the masks are stored, every other word is
read only or unmapped and ignores the write (R164, R167, R172, R178). -/
def writeRegister (a : Nat) (value : Word) (s : State) : State :=
  match a with
  | 0x3005 => writeControl value s
  | 0x3006 => kickProcess s
  | 0x3008 => takeHead s
  | 0x3009 => { s with hpt.viewPart := if value.getLsbD 0 then .pending else .visible }
  | 0x300A => clearFlags .ordinary value s
  | 0x300B => clearFlags .fault value s
  | 0x300C => { s with hpt.ordinaryMask := value.setWidth 6 }
  | 0x300D => { s with hpt.faultMask := value.setWidth 7 }
  | _ => s

/-- A host write decoded over the whole window (R164, table 10-1). The table's own row for this command has the words without
behaviour of their own; a write to a word with behaviour does what the word's own command does (assumption log 18). -/
def writeWord (addr value : Word) (s : State) : State :=
  let a := addr.toNat
  if a ≤ 0x1FFF then s
  else if a ≤ 0x23FF then { s with hpt.staging := s.hpt.staging.write (a - 0x2000) value }
  else if a ≤ 0x247F then { s with req.ring := s.req.ring.write (a - 0x2400) value }
  else if a ≤ 0x249F then { s with hpt.notify := s.hpt.notify.write (a - 0x2480) value }
  else if a < 0x2800 then s
  else if h : a - 0x2800 < 1032 then writePlanWindow ⟨a - 0x2800, h⟩ value s
  else writeRegister a value s

/-- HOST_REGISTER_WRITE (R164). -/
def execHostRegisterWrite (addr value : Word) (s : State) : Host.Outcome State Fault Refusal :=
  .next (hostWrite (writeWord addr value) s)

/-- A released access served (R166): the read latches or returns its word, the write is taken by the station state. -/
def serveAccess (a : Access) (s : State) : State :=
  match a with
  | .viewWord0 slot => latchView slot s
  | .sampleWord w => { s with hpt.readData := sampleViewWord s w.val }
  | .planWrite index value => storePlanWord index value s

/-- HELD_ACCESS_SERVED (R166): once the operation that held the access has ended, the access is served and READY let go. -/
def execHeldAccessServed (s : State) : Host.Outcome State Fault Refusal :=
  .next
    (match s.hpt.held with
    | some { access := a, released := true } => serveAccess a { s with hpt.held := none }
    | some { access := _, released := false } => s
    | none => s)

end Sys2Proof.Machine
end

