-- ==== Sys2Proof/Machine/Image.lean ====
section
/-! DEFINITION. The meanings of the image updater's commands: IMU_TAKE_FRAME, SELF_FRAME_TAKE, OWNER_REJOINED, OWNER_DOUBTFUL,
OWNER_LOST, REMOTE_RECORD, SELF_RECORD, GATE_ITEM_STEP, GATE_APPLICATION_END (chapters 1 and 2). -/

namespace Sys2Proof.Machine

/-- The IMU may take a frame: it is free, with no owner event in hand, and none waits (R12). -/
def takesFrames (s : State) : Bool := imuSteps s && s.imu.work == .free && s.imu.applying.isNone && s.imu.events.isEmpty

/-- A remote frame leaves the receive queue and becomes the work item: the lost timers that expire before its notice (R53, R55), its
notice (R50), and, when no owner event waits, its application (R13). The entry freed may let the transmitter leave IDLE (R85). -/
def takeRemoteFrame (expiring : List Station) (f : Frame) (rest : List Frame) (s : State) : State :=
  idleExit (finishNotice (noticeFrame f (expireAll expiring { s with lrx.queue := rest, imu.work := .notice f })))

/-- IMU_TAKE_FRAME (R13): the head of the receive queue is a remote frame. -/
def execImuTakeFrame (s : State) (expiring : List Station := []) : Host.Outcome State Fault Refusal :=
  .next
    (match s.lrx.queue with
    | [] => s
    | f :: rest => if takesFrames s = true ∧ f.mark = .remote then takeRemoteFrame expiring f rest s else s)

/-- A self frame applied by its kind, with no notice (R14). -/
def applySelfByKind (f : Frame) (s : State) : State :=
  match f.body with
  | .update records => workOn records .selfRecords s
  | .gate g q => startGate .self g q s
  | .presence _ => endWork { s with imu.work := .selfRecords [] }

/-- SELF_FRAME_TAKE (R14): the head of the receive queue is a self frame. -/
def execSelfFrameTake (s : State) : Host.Outcome State Fault Refusal :=
  .next
    (match s.lrx.queue with
    | [] => s
    | f :: rest =>
      if takesFrames s = true ∧ f.mark = .self then idleExit (applySelfByKind f { s with lrx.queue := rest }) else s)

/-- OWNER_REJOINED (R16): BASELINE OPEN set in every item of the station, all that are left or the next `steps`. -/
def execOwnerRejoined (s : State) (steps : Option Nat := none) : Host.Outcome State Fault Refusal := .next (takeEvent .rejoined steps s)

/-- OWNER_DOUBTFUL (R17): the station's CURRENT items become DOUBTFUL, all that are left or the next `steps`. -/
def execOwnerDoubtful (s : State) (steps : Option Nat := none) : Host.Outcome State Fault Refusal := .next (takeEvent .doubtful steps s)

/-- OWNER_LOST (R18): the station's CURRENT and DOUBTFUL items become STALE, all that are left or the next `steps`. -/
def execOwnerLost (s : State) (steps : Option Nat := none) : Host.Outcome State Fault Refusal := .next (takeEvent .lost steps s)

/-- A host read of a word of the sample view that reaches the port while the record in hand is applied (R142, R166): held while an append
is in flight, and otherwise served at once. -/
def readSampleView (w : Fin 16) (s : State) : State :=
  if accessHeld s (.sampleWord w) then holdAccess (.sampleWord w) s else { s with hpt.readData := sampleViewWord s w.val }

/-- The sample view read, if there is one, reaches the port. -/
def sampleReadArrives (sampleRead : Option (Fin 16)) (s : State) : State :=
  match sampleRead with
  | none => s
  | some w => hostRead (readSampleView w) s

/-- The application of the first remote record ends (R15, R19 to R22): its effects, the accesses it held released, and the next
record or the end of the work item. -/
def finishRemoteRecord (sender : Station) (r : Record) (rest : List Record) (s : State) : State :=
  workOn rest (.remoteRecords sender)
    (releaseHeld (endsWithRecord (findSlot s.imu.items r.item)) (applyRemoteRecord sender r s))

/-- REMOTE_RECORD (R21, R142): the first record of the remote UPDATE frame in hand, and the sample view read that comes meanwhile. -/
def execRemoteRecord (s : State) (sampleRead : Option (Fin 16) := none) : Host.Outcome State Fault Refusal :=
  .next
    (match s.imu.work with
    | .remoteRecords sender (r :: rest) =>
      if imuSteps s then finishRemoteRecord sender r rest (sampleReadArrives sampleRead s) else s
    | _ => s)

/-- The application of the first self record ends (R15, R23). -/
def finishSelfRecord (r : Record) (rest : List Record) (s : State) : State :=
  workOn rest .selfRecords (releaseHeld (endsWithSelfRecord (findSlot s.imu.items r.item)) (applySelfRecord r s))

/-- SELF_RECORD (R23): the first record of the self UPDATE frame in hand. -/
def execSelfRecord (s : State) : Host.Outcome State Fault Refusal :=
  .next
    (match s.imu.work with
    | .selfRecords (r :: rest) => if imuSteps s then finishSelfRecord r rest s else s
    | _ => s)

/-- GATE_ITEM_STEP (R35): the next item of the group that holds a pending part is moved and fed by the test of R25; items without one
are passed over. -/
def execGateItemStep (s : State) : Host.Outcome State Fault Refusal :=
  .next
    (match s.imu.work with
    | .gate _ g =>
      match nextGateSlot s g with
      | none => s
      | some slot => if imuSteps s then updateItem slot Item.moveGate s else s
    | _ => s)

/-- The accesses that a gate application of a group holds (R39, R166). -/
def endsWithGate (s : State) (g : Group) : Access → Bool
  | .viewWord0 slot => inGroup s g slot.val
  | .sampleWord _ => false
  | .planWrite _ _ => false

/-- The end of a gate application (R36): GATE_APPLIED raised, held reads of the group released, the work item ended. -/
def finishGate (g : Group) (s : State) : State :=
  endWork (releaseHeld (endsWithGate s g) (raiseFlag .gateApplied s))

/-- GATE_APPLICATION_END (R36): the last item of the group has been passed. -/
def execGateApplicationEnd (s : State) : Host.Outcome State Fault Refusal :=
  .next
    (match s.imu.work with
    | .gate _ g => if imuSteps s = true ∧ nextGateSlot s g = none then finishGate g s else s
    | _ => s)

end Sys2Proof.Machine
end

