-- ==== Sys2Proof/Machine/LineReceive.lean ====
section
/-! DEFINITION. The meanings of the line receiver's commands: LINE_BUSY, LINE_QUIET, START_PATTERN_FOUND, FRAME_END (chapter 4). -/

namespace Sys2Proof.Machine

/-- The line becomes BUSY (R69): IDLE goes to HUNT, and a transmitter counting its gap back to DEFER (R86). -/
def becomeBusy (s : State) : State :=
  { s with
    lrx.line := .busy
    lrx.assembly := if s.lrx.assembly = .idle then .hunt else s.lrx.assembly
    lau.transmitter := if s.lau.transmitter = .gap then .defer else s.lau.transmitter }

/-- LINE_BUSY (R69): the first transition after QUIET. It does not arise while the receiver is OFF or the line BUSY already, nor
between the QUIET that ends a frame and that frame's check (assumption log 16). -/
def execLineBusy (s : State) : Host.Outcome State Fault Refusal :=
  .next
    (if s.lrx.assembly ≠ .off ∧ s.lrx.line = .quiet ∧ s.lrx.assembly ≠ .assemble then becomeBusy s else s)

/-- The line becomes QUIET (R69): a deferring transmitter goes to GAP (R86). -/
def quietLine (s : State) : State :=
  { s with
    lrx.line := .quiet
    lau.transmitter := if s.lau.transmitter = .defer then .gap else s.lau.transmitter }

/-- The assembly state after QUIET (table 4-3): SETTLE, HUNT and OWN go to IDLE, the episode of HUNT or OWN discarded and nothing
counted (R70, R72); a frame in ASSEMBLE is checked by FRAME_END. -/
def assemblyAtQuiet : Assembly → Assembly
  | .settle => .idle
  | .hunt => .idle
  | .own => .idle
  | .idle => .idle
  | .off => .off
  | .assemble => .assemble

/-- LINE_QUIET (R69): 2 bit times without a transition. It does not arise while the receiver is OFF, the line QUIET already, or this
station drives the line (assumption log 17). -/
def execLineQuiet (s : State) : Host.Outcome State Fault Refusal :=
  .next
    (if s.lrx.assembly ≠ .off ∧ s.lrx.line = .busy ∧ s.lau.driver = false then
      { quietLine s with lrx.assembly := assemblyAtQuiet s.lrx.assembly }
    else s)

/-- START_PATTERN_FOUND (R70): in HUNT the bits heard end in the first start pattern, and HUNT goes to ASSEMBLE. -/
def execStartPatternFound (s : State) (heard : Heard := { before := false, cells := startPatternCells }) :
    Host.Outcome State Fault Refusal :=
  .next (if s.lrx.assembly = .hunt ∧ huntStart (heardBits heard) = some [] then { s with lrx.assembly := .assemble } else s)

/-- An accepted frame that is no identity clash enters the receive queue, or is dropped and counted (R75). -/
def queueFrame (f : Frame) (s : State) : State :=
  if receiveRoom s then { s with lrx.queue := s.lrx.queue ++ [f] }
  else raiseFlag .receiveOverrun (countUp .rxOverruns s)

/-- An identity clash (R73): the frame discarded, IDENTITY_CLASH raised, a clash notice to the STC, which takes it at once or finds it
waiting (R161, R162, assumption log 28). -/
def identityClash (noticeWaits : Bool) (s : State) : State :=
  let noticed := { raiseFlag .identityClash s with stc.clashNotice := true }
  if noticeWaits then noticed else takeClashNotice noticed

/-- The check of a frame that has ended (R71, R73, R75). -/
def checkFrame (heard : HeardFrame) (noticeWaits : Bool) (s : State) : State :=
  match acceptFrame heard with
  | none => countUp .badFrames s
  | some f => if f.sender = stationNumber s then identityClash noticeWaits s else queueFrame f s

/-- FRAME_END (R71): the frame assembled in ASSEMBLE ends at QUIET and is checked; the assembly state becomes IDLE. -/
def execFrameEnd (heard : Heard) (s : State) (noticeWaits : Bool := false) : Host.Outcome State Fault Refusal :=
  .next
    (if s.lrx.assembly = .assemble then checkFrame (assembleFrame heard) noticeWaits { quietLine s with lrx.assembly := .idle } else s)

end Sys2Proof.Machine
end

