-- ==== Sys2Proof/Machine/LineSend.lean ====
section
/-! DEFINITION. The meanings of the transmitter's commands: GAP_END, COLLISION, BACKOFF_END, ATTEMPT_COMPLETE, GUARD_EXPIRY
(chapter 5). -/

namespace Sys2Proof.Machine

/-- The SEQUENCE an attempt carries (R88). -/
def nextSequence (s : State) : Byte :=
  match s.lau.lastCompleted with
  | none => 0
  | some q => q + 1

/-- The GATE SEQUENCE an attempt of a GATE frame carries (R32). -/
def nextGateSequence (held : Option Byte) : Byte :=
  match held with
  | none => 0
  | some q => q + 1

/-- The body as an attempt sends it: GATE SEQUENCE filled in for a GATE frame (R32, R87). -/
def sentBody (s : State) : TxBody → Body
  | .update records => .update records
  | .gate g => .gate g (nextGateSequence s.imu.heldGate[g])
  | .presence check => .presence check

/-- The frame as an attempt begun now, from the level the line rests at, sends it (steps 2 to 4 of R87). -/
def sentFrame (s : State) (rest : Bool) (f : TxFrame) : SentFrame :=
  { sender := f.sender, sequence := nextSequence s, first := f.first, refresh := f.refresh, body := sentBody s f.body,
    check := crc (frameBytes f.sender (nextSequence s) f.first f.refresh (sentBody s f.body)), rest := rest }

/-- An attempt of the head frame begins (R87). Its lead-in makes the line BUSY (R176, assumption log 17). -/
def beginAttempt (rest : Bool) (f : TxFrame) (s : State) : State :=
  { s with
    lau.attempts := s.lau.attempts + 1
    lau.attempt := some (sentFrame s rest f)
    lau.driver := true
    lau.guard := true
    lau.transmitter := .send
    lrx.assembly := .own
    lrx.line := .busy }

/-- The end of the gap (R87): an attempt of the head frame with a free receive queue entry; otherwise IDLE, to wait for room. -/
def endGap (rest : Bool) (s : State) : State :=
  match s.lau.queue with
  | [] => { s with lau.transmitter := .idle }
  | f :: _ => if receiveRoom s then beginAttempt rest f s else { s with lau.transmitter := .idle }

/-- GAP_END (R87): 40 bit times counted in GAP. It does not arise before a frame that ended at this QUIET is checked (assumption
log 16). -/
def execGapEnd (s : State) (rest : Bool := false) : Host.Outcome State Fault Refusal :=
  .next (if s.lau.transmitter = .gap ∧ s.lrx.assembly ≠ .assemble then endGap rest s else s)

/-- Attempts on one frame before it is abandoned (R90). -/
def maxAttempts : Nat := 12

/-- The bit times of a backoff slot (R91). -/
def slotBitTimes : Nat := 128

/-- The slots drawn at the collision of attempt `k` (R91): a free value, 0 to 2^min(k,7) - 1. -/
def drawnSlots (k draw : Nat) : Nat := Config.backoffDraw draw % 2 ^ min k 7

/-- A refresh frame and a REQ offer for the same emptied queue: either is taken first (R129). -/
def refillQueue (refreshFirst : Bool) (s : State) : State :=
  if refreshFirst then runRequests (refreshStep s) else idleExit (refreshStep (runRequests s))

/-- The head frame abandoned at the collision of its twelfth attempt (R90, R93): removed and counted, its source told, a presence
frame offered again at need (R124, R126), and the freed entry and queue taken up. -/
def abandonHead (f : TxFrame) (rest : List TxFrame) (refreshFirst : Bool) (s : State) : State :=
  let removed := countUp .abandoned { s with lau.queue := rest, lau.attempts := 0, lau.transmitter := .idle }
  let told := tellAbandoned f removed
  let offered := if f.source = .presence then presenceStep told else told
  refillQueue refreshFirst (arbiter offered)

/-- A collision in an attempt (R90): driver off, COLLISIONS counted, and a backoff drawn or the frame abandoned. -/
def takeCollision (f : TxFrame) (rest : List TxFrame) (s : State) : State :=
  let stopped := countUp .collisions { driverOff s with freeCount := s.freeCount + 1 }
  if maxAttempts ≤ s.lau.attempts then abandonHead f rest (Config.refreshFirst s.freeCount) stopped
  else
    { stopped with
      lau.transmitter := .backoff
      lau.backoff := some (drawnSlots s.lau.attempts s.freeCount * slotBitTimes) }

/-- The bit times after which the driver guard expires (R95). -/
def guardBitTimes : Nat := 2048

/-- COLLISION (R89, R90). It arises only in SEND, where the head frame is in its attempt, at the first cell sensed that differs from
the one driven, up to the cell in which the guard expires (R94, R95). What a drive that does not end with its frame drives behind the
last check bit the spec does not say, so those cells come with the command, `beyond` (the model's choice, assumption log 32). -/
def execCollision (s : State) (sensed : List LineCell := [⟨false, false⟩]) (beyond : List LineCell := []) :
    Host.Outcome State Fault Refusal :=
  .next
    (match s.lau.transmitter, s.lau.queue, s.lau.attempt with
    | .send, f :: rest, some a =>
      if sensed.length ≤ guardBitTimes ∧ sensesDifference (a.cells ++ beyond) sensed = true then takeCollision f rest s else s
    | _, _, _ => s)

/-- BACKOFF_END (R91): the wait has ended; to GAP or DEFER by the line. -/
def execBackoffEnd (s : State) : Host.Outcome State Fault Refusal :=
  .next
    (if s.lau.transmitter = .backoff then
      { s with lau.backoff := none, lau.transmitter := if s.lrx.line = .quiet then .gap else .defer }
    else s)

/-- The self frame of a completed attempt (R76). -/
def SentFrame.asSelf (a : SentFrame) : Frame :=
  { mark := .self, sender := a.sender, sequence := a.sequence, first := a.first, body := a.body }

/-- Steps 1 to 5 of R92: driver off, head removed, self frame handed over, LAST COMPLETED SEQUENCE set, FRAMES_SENT counted. -/
def completeFrame (rest : List TxFrame) (a : SentFrame) (s : State) : State :=
  countUp .framesSent
    { driverOff s with
      lau.queue := rest
      lau.attempts := 0
      lau.transmitter := .idle
      lau.lastCompleted := some a.sequence
      lrx.queue := s.lrx.queue ++ [a.asSelf] }

/-- The completion notice at the TSC: while ACTIVE it starts PRESENCE TIMER with P (R125). -/
def completionNotice (s : State) : State :=
  if s.stc.station = .active then { s with tsc.presenceTimer := .running (presenceInterval s) } else s

/-- An attempt completes (R92): the frame, the notice, the source, then the arbiter, the request process, a due refresh frame and the
transmitter. -/
def takeCompletion (f : TxFrame) (rest : List TxFrame) (a : SentFrame) (s : State) : State :=
  idleExit (refreshStep (settle (tellCompleted f (completionNotice (completeFrame rest a s)))))

/-- ATTEMPT_COMPLETE (R89, R92): the last bit has been driven, and every cell sensed was the one driven. It arises only in SEND. -/
def execAttemptComplete (s : State) : Host.Outcome State Fault Refusal :=
  .next
    (match s.lau.transmitter, s.lau.queue, s.lau.attempt with
    | .send, f :: rest, some a => takeCompletion f rest a s
    | _, _, _ => s)

/-- The guard trips (R95): driver off, head abandoned and counted, GUARD_TRIP raised, then MUTED with cause GUARD, where the head's
source is told ahead of those flushed behind it. -/
def tripGuard (f : TxFrame) (rest : List TxFrame) (s : State) : State :=
  let off := { driverOff s with lau.queue := rest, lau.attempts := 0, lau.transmitter := .off }
  muteNotice .guard [f] (raiseFlag .guardTrip (countUp .abandoned off))

/-- GUARD_EXPIRY (R95). It arises only in SEND of an ACTIVE station (R94, R161). -/
def execGuardExpiry (s : State) : Host.Outcome State Fault Refusal :=
  .next
    (match s.lau.transmitter, s.lau.queue, s.stc.station with
    | .send, f :: rest, .active => tripGuard f rest s
    | _, _, _ => s)

end Sys2Proof.Machine
end

