-- ==== Sys2Proof/Machine/PlanStart.lean ====
section
/-! DEFINITION. The meanings of the plan and join commands: PLAN_READ_END, PLAN_CHECK_END, JOIN_TIMER_EXPIRY (chapter 9). -/

namespace Sys2Proof.Machine

/-- PLAN_READ_END (R156, R157): the plan memory port is clocked, and the read goes as far as the levels do; those behind its end are not
looked at (assumption log 15). -/
def execPlanReadEnd (levels : List Bool) (s : State) : Host.Outcome State Fault Refusal :=
  .next { s with stc := levels.foldl clockPlan s.stc }

/-- The accesses that a plan check holds (R158, R166). -/
def endsWithCheck : Access → Bool
  | .planWrite _ _ => true
  | .viewWord0 _ => false
  | .sampleWord _ => false

/-- The end of a plan check (R155): a good plan puts the station in JOINING, a failed one in PLAN_FAULT; a held write is released. -/
def finishPlanCheck (s : State) : State :=
  let done := { s with stc.checking := false }
  releaseHeld endsWithCheck
    (match planCheck s.stc.window with
    | none => enterJoining done
    | some (code, entry) => enterPlanFault code entry done)

/-- PLAN_CHECK_END (R155). -/
def execPlanCheckEnd (s : State) : Host.Outcome State Fault Refusal :=
  .next (if s.stc.checking then finishPlanCheck s else s)

/-- The traffic scheduler and the transmitter at entry to ACTIVE, unless strapped LISTEN (R84, R123, R135). -/
def startSending (s : State) : State :=
  if s.stc.straps.listen then s
  else
    presenceStep
      { s with
        lau.transmitter := .idle
        tsc.cursor := 0
        tsc.firstPending := true
        tsc.refreshTimer := if refreshSpacing s = 0 then .stopped else .running (refreshSpacing s) }

/-- Entry to ACTIVE (R160). -/
def enterActive (s : State) : State := settle (startSending { s with stc.station := .active, stc.joinTimer := none })

/-- JOIN_TIMER_EXPIRY (R160). -/
def execJoinTimerExpiry (s : State) : Host.Outcome State Fault Refusal :=
  .next (if s.stc.station = .joining ∧ s.stc.joinTimer.isSome = true then enterActive s else s)

end Sys2Proof.Machine
end

