-- ==== Sys2Proof/Machine/Timers.lean ====
section
/-! DEFINITION. The meanings of the timer expiries: LOST_TIMER_EXPIRY, PRESENCE_TIMER_EXPIRY, REFRESH_TIMER_EXPIRY (R54, R125,
R128). -/

namespace Sys2Proof.Machine

/-- LOST_TIMER_EXPIRY (R54). -/
def execLostTimerExpiry (n : Station) (s : State) : Host.Outcome State Fault Refusal := .next (expireLost n s)

/-- A refresh or presence timer runs (R122). -/
def Timer.isRunning : Timer → Bool
  | .running _ => true
  | .stopped => false
  | .expired => false

/-- PRESENCE_TIMER_EXPIRY (R125): EXPIRED, and a PRESENCE frame offered at need (R126). -/
def execPresenceTimerExpiry (s : State) : Host.Outcome State Fault Refusal :=
  .next
    (if s.tsc.presenceTimer.isRunning = true ∧ s.stc.station = .active then
      idleExit (arbiter (presenceStep { s with tsc.presenceTimer := .expired }))
    else s)

/-- REFRESH_TIMER_EXPIRY (R128): EXPIRED, and a refresh frame built when its conditions hold (R129). -/
def execRefreshTimerExpiry (s : State) : Host.Outcome State Fault Refusal :=
  .next
    (if s.tsc.refreshTimer.isRunning = true ∧ s.stc.station = .active then
      idleExit (refreshStep { s with tsc.refreshTimer := .expired })
    else s)

end Sys2Proof.Machine
end

