-- ==== Sys2Proof/Machine/Dispatch.lean ====
section
/-! DEFINITION. The dispatch of a command to its meaning: one arm for each constructor of Instr. -/

namespace Sys2Proof.Machine

-- The effect of a command on everything but the queue of commands.
def exec (i : Instr) (s : State) : Host.Outcome State Fault Refusal :=
  match i with
  | .powerOnReset => Sys2Proof.Machine.execPowerOnReset s
  | .pinReset => Sys2Proof.Machine.execPinReset s
  | .resetEnd straps => Sys2Proof.Machine.execResetEnd straps s
  | .softReset => Sys2Proof.Machine.execSoftReset s
  | .runSet => Sys2Proof.Machine.execRunSet s
  | .runClear => Sys2Proof.Machine.execRunClear s
  | .start => Sys2Proof.Machine.execStart s
  | .kick => Sys2Proof.Machine.execKick s
  | .nextChange => Sys2Proof.Machine.execNextChange s
  | .sampleTake => Sys2Proof.Machine.execSampleTake s
  | .itemViewWord0Read slot => Sys2Proof.Machine.execItemViewWord0Read slot s
  | .counterRead counter => Sys2Proof.Machine.execCounterRead counter s
  | .flagsClear flags value => Sys2Proof.Machine.execFlagsClear flags value s
  | .planWindowWrite index value => Sys2Proof.Machine.execPlanWindowWrite index value s
  | .hostRegisterWrite addr value => Sys2Proof.Machine.execHostRegisterWrite addr value s
  | .heldAccessServed => Sys2Proof.Machine.execHeldAccessServed s
  | .planReadEnd levels => Sys2Proof.Machine.execPlanReadEnd levels s
  | .planCheckEnd => Sys2Proof.Machine.execPlanCheckEnd s
  | .joinTimerExpiry => Sys2Proof.Machine.execJoinTimerExpiry s
  | .lineBusy => Sys2Proof.Machine.execLineBusy s
  | .lineQuiet => Sys2Proof.Machine.execLineQuiet s
  | .frameEnd heard noticeWaits => Sys2Proof.Machine.execFrameEnd heard s noticeWaits
  | .gapEnd rest => Sys2Proof.Machine.execGapEnd s rest
  | .collision sensed beyond => Sys2Proof.Machine.execCollision s sensed beyond
  | .backoffEnd => Sys2Proof.Machine.execBackoffEnd s
  | .attemptComplete => Sys2Proof.Machine.execAttemptComplete s
  | .guardExpiry => Sys2Proof.Machine.execGuardExpiry s
  | .imuTakeFrame expiring => Sys2Proof.Machine.execImuTakeFrame s expiring
  | .selfFrameTake => Sys2Proof.Machine.execSelfFrameTake s
  | .lostTimerExpiry station => Sys2Proof.Machine.execLostTimerExpiry station s
  | .ownerRejoined steps => Sys2Proof.Machine.execOwnerRejoined s steps
  | .ownerDoubtful steps => Sys2Proof.Machine.execOwnerDoubtful s steps
  | .ownerLost steps => Sys2Proof.Machine.execOwnerLost s steps
  | .remoteRecord sampleRead => Sys2Proof.Machine.execRemoteRecord s sampleRead
  | .selfRecord => Sys2Proof.Machine.execSelfRecord s
  | .gateItemStep => Sys2Proof.Machine.execGateItemStep s
  | .gateApplicationEnd => Sys2Proof.Machine.execGateApplicationEnd s
  | .presenceTimerExpiry => Sys2Proof.Machine.execPresenceTimerExpiry s
  | .refreshTimerExpiry => Sys2Proof.Machine.execRefreshTimerExpiry s
  | .startPatternFound heard => Sys2Proof.Machine.execStartPatternFound s heard

end Sys2Proof.Machine
end

