-- ==== Sys2Proof/Machine/Step.lean ====
section
/-! DEFINITION. The step of the part: the command at the front of the queue is taken and executed; on an empty queue a waiting
clash notice is taken (assumption log 28), or else 1 ms of the station timebase passes (assumption log 2). -/

namespace Sys2Proof.Machine

/-- One step. -/
def step (s : State) : Host.Outcome State Fault Refusal :=
  match s.pending with
  | [] => .next (idleStep s)
  | c :: rest => exec c { s with pending := rest }

/-- The command that a word of the opcode table spells, put at the front of the queue; the state itself where the word spells none. -/
def State.withFetchWord (s : State) (nbits w : Nat) : State :=
  match decodeTableWord nbits w with
  | none => s
  | some c => { s with pending := c :: s.pending }

end Sys2Proof.Machine
end

