-- ==== Sys2Proof/Safety.lean ====
section
/-! DEFINITION. What counts as a sound state of the part: the invariants the claims are about, each over every state, and the sets of
commands the claims name. -/

namespace Sys2Proof.Machine

/-! ## Invariants -/

/-- The four stores of words are in canonical form and within their regions (table 10-1). -/
def StoresCanonical (s : State) : Prop :=
  s.hpt.staging.wf 1024 = true ∧ s.req.ring.wf 128 = true ∧ s.hpt.notify.wf 32 = true ∧ s.stc.window.wf 1032 = true

/-- The plan is being read only in LOADING, and a plan check is in flight only before JOINING and never during a read (R156 to
R158). -/
def PlanPhase (s : State) : Prop :=
  (s.stc.planRead.isSome = true → s.stc.station = .loading) ∧ (s.stc.checking = true → receiving s = false) ∧
    ¬(s.stc.planRead.isSome = true ∧ s.stc.checking = true)

/-- The transmit queue holds at most 4 frames, at most 3 of the REQ's (R82), and, until this station first completes a frame, at most
one, a presence frame (the FIRST gate of R83). -/
def TransmitQueueRules (s : State) : Prop :=
  s.lau.queue.length ≤ 4 ∧ reqQueued s ≤ 3 ∧
    (s.lau.lastCompleted = none → s.lau.queue.length ≤ 1 ∧ ∀ f ∈ s.lau.queue, f.source = .presence)

/-- The transmitter is out of OFF, and frames are queued, only in ACTIVE and not under LISTEN (R84, R96, R97). The driver, the guard
and the attempt run exactly in SEND (R94, R95), with a head frame, the receiver in OWN (R72) and a receive queue entry free (R76);
the backoff timer runs exactly in BACKOFF (R91). At most 12 attempts begin on a frame (R90). The receive queue holds at most 4
frames (R74). The frame in its attempt carries the number after LAST COMPLETED SEQUENCE (R88). -/
def SendingRules (s : State) : Prop :=
  (s.lau.transmitter ≠ .off → maySend s = true) ∧ (s.lau.queue ≠ [] → maySend s = true) ∧
    (s.lau.driver = true ↔ s.lau.transmitter = .send) ∧ s.lau.guard = s.lau.driver ∧ s.lau.attempt.isSome = s.lau.driver ∧
    (s.lau.driver = true → s.lau.queue ≠ [] ∧ s.lrx.assembly = .own ∧ s.lrx.queue.length < 4) ∧
    (s.lau.backoff.isSome = true ↔ s.lau.transmitter = .backoff) ∧ s.lau.attempts ≤ 12 ∧
    (s.lau.transmitter ≠ .send → s.lau.attempts ≤ 11) ∧ s.lrx.queue.length ≤ 4 ∧
    (∀ a, s.lau.attempt = some a → a.sequence = nextSequence s)

/-- The item table is in ascending item number (R1), LENGTH is 1 to 8 (R2), a pending part stands only in a GATED item (R3), exactly
the items of this station's number are owned (R1), the change list holds no number twice (R24), and an owner event in hand has items left,
in slot order (R12, R15). -/
def ImageRules (s : State) : Prop :=
  s.imu.items.Pairwise (fun a b => a.plan.item.toNat < b.plan.item.toNat) ∧
    (∀ it ∈ s.imu.items, 1 ≤ it.plan.length ∧ it.plan.length ≤ 8) ∧
    (∀ it ∈ s.imu.items, it.pendingPart.isSome = true → it.plan.gate.isSome = true) ∧
    (∀ it ∈ s.imu.items, it.owned.isSome = true ↔ it.plan.owner = stationNumber s) ∧ s.imu.changes.Nodup ∧
    ∀ w, s.imu.applying = some w → w.todo ≠ [] ∧ w.todo.Pairwise (· < ·)

/-- Exactly the entry of the captured station number is SELF (R48), and EXPECTED SEQUENCE is present and the lost timer runs exactly
in PRESENT (R47). -/
def PeerRules (s : State) : Prop :=
  ∀ n : Station,
    ((peerOf s n).state = .self ↔ n = stationNumber s) ∧
      ((peerOf s n).expected.isSome = true ↔ (peerOf s n).state = .present) ∧
      ((peerOf s n).timeLeft.isSome = true ↔ (peerOf s n).state = .present)

/-- The owner event list names other stations only, each at most once as lost (R54), and beside the lost events holds at most one, the
answer to the frame taken last (R11, R53). -/
def EventListRules (s : State) : Prop :=
  (∀ e ∈ s.imu.events, e.station ≠ stationNumber s) ∧ (s.imu.events.filter fun e => e.kind == .lost).Nodup ∧
    (s.imu.events.countP fun e => e.kind != .lost) ≤ 1

/-- The sample queue never holds more than 256 entries (R138). -/
def SampleRules (s : State) : Prop := s.stu.queue.length ≤ 256

/-- The offers waiting are their sources' own (R81). The frames of the REQ that have no outcome yet, queued or waiting, are as many as
the slot in progress counts outstanding, and none without one (R115, R116). A presence frame of the TSC has no outcome yet exactly while
PRESENCE OUTSTANDING is set, and there is then exactly one (R122, R126). -/
def OutcomeRules (s : State) : Prop :=
  (∀ f, s.lau.reqOffer = some f → f.source = .req) ∧ (∀ f, s.lau.presenceOffer = some f → f.source = .presence) ∧
    reqQueued s + s.lau.reqOffer.toList.length = (s.req.slot.map SlotWork.outstanding).getD 0 ∧
    (s.lau.queue.countP fun f => f.source == .presence) + s.lau.presenceOffer.toList.length = s.tsc.presenceOutstanding.toNat

/-- A record of an item of this station, with a value of the item's LENGTH. -/
def OwnRecord (s : State) (r : Record) : Prop :=
  ∃ slot it, findSlot s.imu.items r.item = some slot ∧ s.imu.items[slot]? = some it ∧ it.plan.owner = stationNumber s ∧
    r.value.length = it.plan.length

/-- The records of a frame still to be sent. -/
def TxBody.records : TxBody → List Record
  | .update records => records
  | .gate _ => []
  | .presence _ => []

/-- The records of a frame on the line. -/
def Body.records : Body → List Record
  | .update records => records
  | .gate _ _ => []
  | .presence _ => []

/-- The station whose frame the IMU has in hand, if it is a remote one. -/
def Work.remoteSender : Work → Option Station
  | .notice f => some f.sender
  | .remoteRecords sender _ => some sender
  | .free => none
  | .selfRecords _ => none
  | .gate _ _ => none

/-- The self records the IMU has in hand. -/
def Work.ownRecords : Work → List Record
  | .selfRecords records => records
  | .free => []
  | .notice _ => []
  | .remoteRecords _ _ => []
  | .gate _ _ => []

/-- The table has no slots before JOINING (R28). UNSET and LOCAL are the conditions of owned items (R9, R10); an item is VACANT or UNSET
exactly when it has no held value (R3, R7); every value held is LENGTH words long (R2). -/
def ItemRules (s : State) : Prop :=
  (receiving s = false → s.imu.items = []) ∧
    ∀ it ∈ s.imu.items,
      ((it.condition = .unset ∨ it.condition = .ownLocal) ↔ it.plan.owner = stationNumber s) ∧
        ((it.condition = .vacant ∨ it.condition = .unset) ↔ it.heldPart = none) ∧
        ∀ part, it.visiblePart = some part ∨ it.pendingPart = some part → part.value.length = it.plan.length

/-- Owner events and remote frames name other stations (R11, R73). An owner event is in hand only at an IMU with no other work item than a
frame in its notice, and what is left of it are items of its station (R12, R13, R15). Every record that this station has on its way, from
the slot in progress to the IMU, is of an item of its own and of that item's LENGTH (R107, R111, R130). -/
def TrafficRules (s : State) : Prop :=
  (∀ e ∈ s.imu.events, e.station ≠ stationNumber s) ∧
    (∀ w, s.imu.applying = some w → w.event.station ≠ stationNumber s ∧ (s.imu.work = .free ∨ ∃ f, s.imu.work = .notice f) ∧
      ∀ k ∈ w.todo, ∃ it, s.imu.items[k]? = some it ∧ it.plan.owner = w.event.station) ∧
    (∀ f ∈ s.lrx.queue, f.mark = .remote → f.sender ≠ stationNumber s) ∧
    (∀ n, s.imu.work.remoteSender = some n → n ≠ stationNumber s) ∧
    (∀ r ∈ s.imu.work.ownRecords, OwnRecord s r) ∧
    (∀ f ∈ s.lrx.queue, f.mark = .self → ∀ r ∈ f.body.records, OwnRecord s r) ∧
    (∀ a, s.lau.attempt = some a → ∀ r ∈ a.body.records, OwnRecord s r) ∧
    (∀ f ∈ s.lau.queue, ∀ r ∈ f.body.records, OwnRecord s r) ∧
    (∀ f, s.lau.reqOffer = some f → ∀ r ∈ f.body.records, OwnRecord s r) ∧
    (∀ f, s.lau.presenceOffer = some f → f.body.records = []) ∧
    (∀ w, s.req.slot = some w → ∀ k ∈ w.todo, ∃ it, s.imu.items[k]? = some it ∧ it.plan.owner = stationNumber s)

/-! ## What operations leave unchanged -/

/-- An item with LAST ISSUED VERSION left out of account. -/
def Item.withoutIssued (it : Item) : Item := { it with owned := it.owned.map fun o => { o with lastIssued := 0 } }

/-- The item tables agree but for LAST ISSUED VERSION, which a build moves (R6, R40). -/
def SameButIssued (items items' : List Item) : Prop := items'.map Item.withoutIssued = items.map Item.withoutIssued

/-- The transmitter is where it was, or has left IDLE by R85. -/
def KeptOrLeftIdle (before after : TxState) : Prop := after = before ∨ before = .idle ∧ (after = .gap ∨ after = .defer)

/-- The most that admissions, the request process and the transmitter's leaving of IDLE change: versions issued (R6), frames admitted
at the tail of the queue and offers made (R81 to R83), the ring but for the words a close leaves alone (R102, R116), cursor, process
and slot in progress, and the flags REQUEST_DONE and REQUESTS_IDLE (R120). -/
structure RequestEffects (s t : State) : Prop where
  pending : t.pending = s.pending
  freeCount : t.freeCount = s.freeCount
  lrx : t.lrx = s.lrx
  pmn : t.pmn = s.pmn
  tsc : t.tsc = s.tsc
  stu : t.stu = s.stu
  stc : t.stc = s.stc
  imu : t.imu = { s.imu with items := t.imu.items }
  items : SameButIssued s.imu.items t.imu.items
  lau : t.lau =
    { s.lau with
      queue := t.lau.queue, reqOffer := t.lau.reqOffer, presenceOffer := t.lau.presenceOffer, transmitter := t.lau.transmitter }
  queue : s.lau.queue <+: t.lau.queue
  presenceOffer : t.lau.presenceOffer = s.lau.presenceOffer ∨ t.lau.presenceOffer = none
  transmitter : KeptOrLeftIdle s.lau.transmitter t.lau.transmitter
  ring : ∀ k : Nat, ∀ w : Nat, 1 ≤ w → w ≤ 4 → ringWord t k w = ringWord s k w
  hpt : t.hpt =
    { s.hpt with
      flags := { s.hpt.flags with
        requestDone := t.hpt.flags.requestDone, requestsIdle := t.hpt.flags.requestsIdle } }
  flags : (s.hpt.flags.requestDone = true → t.hpt.flags.requestDone = true) ∧
    (s.hpt.flags.requestsIdle = true → t.hpt.flags.requestsIdle = true)

/-- The most that the sending side as a whole changes when it settles: what `RequestEffects` says, and, at the traffic scheduler,
REFRESH CURSOR, REFRESH TIMER and PRESENCE OUTSTANDING, with a presence offer made (R126, R129 to R131). -/
structure SendEffects (s t : State) : Prop where
  pending : t.pending = s.pending
  freeCount : t.freeCount = s.freeCount
  lrx : t.lrx = s.lrx
  pmn : t.pmn = s.pmn
  tsc : t.tsc =
    { s.tsc with
      cursor := t.tsc.cursor, refreshTimer := t.tsc.refreshTimer, presenceOutstanding := t.tsc.presenceOutstanding }
  stu : t.stu = s.stu
  stc : t.stc = s.stc
  imu : t.imu = { s.imu with items := t.imu.items }
  items : SameButIssued s.imu.items t.imu.items
  lau : t.lau =
    { s.lau with
      queue := t.lau.queue, reqOffer := t.lau.reqOffer, presenceOffer := t.lau.presenceOffer, transmitter := t.lau.transmitter }
  queue : s.lau.queue <+: t.lau.queue
  transmitter : KeptOrLeftIdle s.lau.transmitter t.lau.transmitter
  ring : ∀ k : Nat, ∀ w : Nat, 1 ≤ w → w ≤ 4 → ringWord t k w = ringWord s k w
  hpt : t.hpt =
    { s.hpt with
      flags := { s.hpt.flags with
        requestDone := t.hpt.flags.requestDone, requestsIdle := t.hpt.flags.requestsIdle } }
  flags : (s.hpt.flags.requestDone = true → t.hpt.flags.requestDone = true) ∧
    (s.hpt.flags.requestsIdle = true → t.hpt.flags.requestsIdle = true)

/-! ## Reset values -/

/-- Every block at its reset values (R28, R31, R49, R79, R99, R121, R122, R147, R150, R175), but for what depends on the reset taken:
straps, CAUSE, station state, plan read and reset in progress. The peer table is that of the given station number. -/
def AtResetValues (station : Station) (t : State) : Prop :=
  t.lrx.assembly = .off ∧ t.lrx.queue = [] ∧ t.lau = State.reset.lau ∧ t.imu = State.reset.imu ∧
    (∀ n : Station, peerOf t n = if n = station then Peer.selfEntry else Peer.absentEntry) ∧ t.req = State.reset.req ∧
    t.tsc = State.reset.tsc ∧ t.stu.queue = [] ∧ t.stc.plan = none ∧ t.stc.window = [] ∧ t.stc.faultCode = .none ∧
    t.stc.faultEntry = none ∧ t.stc.mutedCause = .none ∧ t.stc.joinTimer = none ∧ t.stc.checking = false ∧
    t.stc.clashNotice = false ∧
    t.hpt.latch = State.reset.hpt.latch ∧ t.hpt.viewPart = .visible ∧ t.hpt.flags = State.reset.hpt.flags ∧
    t.hpt.ordinaryMask = 0 ∧ t.hpt.faultMask = 0 ∧ t.hpt.counters = State.reset.hpt.counters ∧ t.hpt.notify = [] ∧
    t.hpt.staging = [] ∧ t.hpt.held = none

/-! ## Sets of commands -/

/-- The commands of a reset (R149, R150). -/
def isReset : Instr → Bool
  | .powerOnReset | .pinReset | .resetEnd _ | .softReset => true
  | _ => false

/-- The host reads among the commands. -/
def isHostRead : Instr → Bool
  | .nextChange | .itemViewWord0Read _ | .counterRead _ => true
  | _ => false

/-- The host writes among the commands. -/
def isHostWrite : Instr → Bool
  | .softReset | .runSet | .runClear | .start | .kick | .sampleTake | .flagsClear _ _ | .planWindowWrite _ _
  | .hostRegisterWrite _ _ => true
  | _ => false

/-- The commands of the transmitter (chapter 5). -/
def isSendCommand : Instr → Bool
  | .gapEnd _ | .collision _ _ | .backoffEnd | .attemptComplete | .guardExpiry => true
  | _ => false

/-- The steps of the IMU (chapters 1 and 2). -/
def isImageCommand : Instr → Bool
  | .imuTakeFrame _ | .selfFrameTake | .ownerRejoined _ | .ownerDoubtful _ | .ownerLost _ | .remoteRecord _ | .selfRecord | .gateItemStep
  | .gateApplicationEnd => true
  | _ => false

/-- The host port takes a host access: none is held and no reset is in progress (R149, R164). -/
def portFree (s : State) : Prop := s.hpt.held = none ∧ s.stc.inReset = false

/-- The cursor slot of `s` stands in `t` as a close leaves it (R116, table 11-8): OWNER HOST and the rest of word 0 as it was, FRAMES and
STATUS in word 5 with its spare bits as they were, REMAINING and LOST in words 6 and 7. -/
def HandedBack (s t : State) (status : SlotStatus) (remaining lost frames : Nat) : Prop :=
  let k := s.req.cursor.val
  ringWord t k 0 = ringWord s k 0 &&& 0x7FFF#16 ∧
    ringWord t k 5 = (ringWord s k 5 &&& 0x00F0#16) ||| place 8 (frames % 256) ||| place 0 status.code ∧
    ringWord t k 6 = BitVec.ofNat 16 remaining ∧ ringWord t k 7 = BitVec.ofNat 16 lost

/-- The slot after the cursor slot is HOST-owned. -/
def NextSlotHostOwned (s : State) : Prop := (ringWord s (s.req.cursor + 1).val 0).getLsbD 15 = false

/-- From work `w` on a PUBLISH or STREAM slot, `n` frames have been built between `s` and `t`, leaving work `w'` (R110 to R112): frame `j`
holds the records of the eight table slots after the first 8 × j, built over the item table and the running offset that those before it
leave; each frame is admitted or waits as the offer; the item table of `t` carries the versions issued; and building goes on until the
offer waits or nothing is left. -/
def BuiltFrames (s t : State) (w w' : SlotWork) (n : Nat) : Prop :=
  let before := fun j => buildRecords s.hpt.staging (w.todo.take (8 * j)) s.imu.items w.offset
  let frame : Nat → TxFrame := fun j =>
    { source := .req, sender := stationNumber s, first := false, refresh := false,
      body := .update (buildRecords s.hpt.staging ((w.todo.drop (8 * j)).take 8) (before j).2.1 (before j).2.2).1 }
  w' =
      { w with
        todo := w.todo.drop (8 * n), offset := (before n).2.2, frames := w.frames + n, outstanding := w.outstanding + n } ∧
    t.imu.items = (before n).2.1 ∧
    (∀ j < n, 8 * j < w.todo.length ∧ (frame j ∈ t.lau.queue ∨ t.lau.reqOffer = some (frame j))) ∧
    (8 * n < w.todo.length → t.lau.reqOffer.isSome = true)

/-- The state with the ring cursor moved on by `n` slots, and nothing else. -/
def cursorOn (s : State) (n : Nat) : State := { s with req.cursor := s.req.cursor + Fin.ofNat 16 n }

/-- The cursor slot of `s`, valid and free to be sent, is in progress in `t` (R104, R110 to R113): under a RUNNING process that counts
every frame built as outstanding, one GATE frame, or UPDATE frames until one waits as the offer or nothing is left to build. -/
def SlotStarted (s t : State) : Prop :=
  let copy := cursorCopy s
  t.req.cursor = s.req.cursor ∧ t.req.process = .running ∧
    ∃ w, t.req.slot = some w ∧ 1 ≤ w.frames ∧ w.outstanding = w.frames ∧ w.lost = 0 ∧ w.halted = false ∧
      (∀ g : Group, copy.kind = some .gate → copy.group = g.val → w.remaining = 0 ∧ w.frames = 1 ∧ t.imu.items = s.imu.items ∧
        ∃ f, f = { source := .req, sender := stationNumber s, first := false, refresh := false, body := .gate g } ∧
          (f ∈ t.lau.queue ∨ t.lau.reqOffer = some f)) ∧
      (copy.kind ≠ some .gate → BuiltFrames s t
        { todo := (if copy.kind = some .stream then (namedSlots s copy).flatMap (List.replicate copy.count) else namedSlots s copy),
          gate := none, offset := copy.offset, frames := 0, outstanding := 0, lost := 0, halted := false } w w.frames)

/-- The cursor slot of `s` has been examined in `t` by a process that enters or keeps RUNNING with no slot in progress (R104). Where `n`
slots in a row from the cursor on are STATION-owned and each is refused, or valid in MUTED or under LISTEN, each is handed back (R108,
R109), and the next is examined. Where that one is HOST-owned, as it is behind all 16, the process suspends, no version having been issued;
where it is STATION-owned, valid and may be sent, it is in progress. -/
def CursorSlotExamined (s t : State) : Prop :=
  let copy := fun n => cursorCopy (cursorOn s n)
  ∀ (n : Nat) (status : Nat → SlotStatus), n ≤ 16 → n = 0 ∨ StoresCanonical s →
    (∀ j < n, (copy j).stationOwned = true ∧ (slotCheck s (copy j) = some (status j) ∨
      slotCheck s (copy j) = none ∧ (t.stc.station = .muted ∨ s.stc.straps.listen = true) ∧ status j = .silent)) →
    (∀ j < n, HandedBack (cursorOn s j) t (status j) (copy j).size 0 0) ∧
    (n ≠ 0 → t.hpt.flags.requestDone = true) ∧
    (n = 16 ∨ (copy n).stationOwned = false →
      t.req = { s.req with ring := t.req.ring, cursor := s.req.cursor + Fin.ofNat 16 n, process := .suspended } ∧
        (n = 0 → t.req.ring = s.req.ring) ∧ t.imu.items = s.imu.items ∧ t.hpt.flags.requestsIdle = true) ∧
    (n < 16 → (copy n).stationOwned = true → slotCheck s (copy n) = none → t.stc.station ≠ .muted →
      s.stc.straps.listen = false → s.lau.reqOffer = none → SlotStarted (cursorOn s n) t)

/-- The slot in progress of `s` has been closed in `v`, and nothing else is changed but that the cursor has moved on (R116). -/
def SlotClosed (s v : State) (status : SlotStatus) (remaining lost frames : Nat) : Prop :=
  v = { s with req := { s.req with ring := v.req.ring, cursor := s.req.cursor + 1, slot := none } } ∧
    HandedBack s v status remaining lost frames ∧ StoresCanonical v ∧
    ∀ k, k ≠ s.req.cursor.val → ∀ w < 8, ringWord v k w = ringWord s k w

/-- The slot in progress of `s` stands in `t` as handed back, with REQUEST_DONE raised, and a RUNNING process has examined the next slot,
whoever owns it; any other process examines nothing (R116). -/
def SlotClosedNextExamined (s t : State) (status : SlotStatus) (remaining lost frames : Nat) : Prop :=
  HandedBack s t status remaining lost frames ∧ t.hpt.flags.requestDone = true ∧
    ∃ v, SlotClosed s v status remaining lost frames ∧ (s.req.process ≠ .running → t.req = v.req) ∧
      (s.req.process = .running → CursorSlotExamined v t)

/-- What the entry to MUTED leaves of the sending side (R96, R106, R119, R134, R161): the station MUTED with its cause and the join timer
stopped, the transmitter OFF with nothing queued, offered or driven, no slot in progress, the scheduler's timers stopped, and every frame
that was queued counted in ABANDONED. A slot that was in progress is handed back HALTED or LINE_FAILED, with the records never built and
those of every frame of its own that was queued or waited as an offer, and a RUNNING process examines the next slot; with none in progress
a RUNNING process examines the cursor slot, and any other stays as it was. -/
def MuteEffects (cause : MutedCause) (s t : State) : Prop :=
  t.stc = { s.stc with station := .muted, mutedCause := cause, joinTimer := none, clashNotice := t.stc.clashNotice } ∧
    t.lau = { State.reset.lau with lastCompleted := s.lau.lastCompleted } ∧ t.req.slot = none ∧
    t.tsc = { s.tsc with
      refreshTimer := .stopped, presenceTimer := .stopped, firstPending := false, presenceOutstanding := false } ∧
    t.hpt.counters.get .abandoned = Nat.repeat Counter.increment s.lau.queue.length (s.hpt.counters.get .abandoned) ∧
    (s.req.slot = none → s.req.process ≠ .running → t.req = s.req) ∧
    (s.req.slot = none → s.req.process = .running → CursorSlotExamined s t) ∧
    ∀ (w : SlotWork) (lost : Nat), s.req.slot = some w → StoresCanonical s →
      lost = w.lost + (((s.lau.queue ++ s.lau.reqOffer.toList).filter fun f => f.source == .req).map fun f =>
        match f.body with
        | .update records => records.length
        | .gate _ => 1
        | .presence _ => 0).sum →
      SlotClosedNextExamined s t (if w.halted then .halted else if lost ≠ 0 ∨ w.remaining ≠ 0 then .lineFailed else .done) w.remaining
        lost w.frames ∧
      (s.req.process ≠ .running → t.req.process = s.req.process ∧ t.req.cursor = s.req.cursor + 1) ∧
      (s.req.process = .running → (ringWord t (s.req.cursor + 1).val 0).getLsbD 15 = false ∧
        (NextSlotHostOwned s → t.req.process = .suspended ∧ t.req.cursor = s.req.cursor + 1 ∧ t.hpt.flags.requestsIdle = true))

/-! ## What the sending side does when it is looked at -/

/-- The transmitter in `t` has taken the exit from IDLE of R85 or stayed, `before` being its state as the conditions are looked at: from
IDLE with a head frame, a receive queue entry free and the station ACTIVE it goes to GAP on a QUIET line and to DEFER on a BUSY one. -/
def TransmitterSettled (before : TxState) (t : State) : Prop :=
  t.lau.transmitter =
    if before = .idle ∧ t.lau.queue ≠ [] ∧ t.lrx.queue.length < 4 ∧ t.stc.station = .active then
      (if t.lrx.line = .quiet then .gap else .defer)
    else before

/-- The traffic scheduler has looked in `u` at the conditions of R129 and left `t` (R130, R131): a refresh frame that is due and may be
built holds the first 8 owned LOCAL items from the cursor on and stands alone in the queue, the cursor past the last of them and the timer
started again; with no such item only the timer is started again; one that may not be built waits. -/
def RefreshLooked (u t : State) : Prop :=
  let taken := (((List.range u.imu.items.length).map fun k => (u.tsc.cursor + k) % u.imu.items.length).filter fun k =>
    (u.imu.items[k]?).any fun it => it.plan.owner == stationNumber u && it.condition == .ownLocal).take 8
  let ready := u.tsc.refreshTimer = .expired ∧ u.tsc.firstPending = false ∧ u.lau.queue = [] ∧
    (∀ f ∈ u.lrx.queue, f.mark = .remote) ∧ u.imu.work.isSelf = false ∧ u.stc.station = .active ∧
    u.stc.straps.listen = false ∧ u.lau.lastCompleted.isSome = true
  (¬ready → t.tsc.refreshTimer = u.tsc.refreshTimer ∧ t.tsc.cursor = u.tsc.cursor ∧ t.lau.queue = u.lau.queue) ∧
    (ready → taken = [] →
      t.tsc.refreshTimer = .running (refreshSpacing u) ∧ t.tsc.cursor = u.tsc.cursor ∧ t.lau.queue = []) ∧
    (ready → ∀ last, taken.getLast? = some last →
      t.tsc.refreshTimer = .running (refreshSpacing u) ∧ t.tsc.cursor = (last + 1) % u.imu.items.length ∧
      t.lau.queue =
        [{ source := .refresh, sender := stationNumber u, first := false, refresh := true,
           body := .update (taken.filterMap fun k => (u.imu.items[k]?).bind fun it => it.heldPart.map fun part =>
             { item := it.plan.item, version := part.version, value := part.value }) }])

end Sys2Proof.Machine
end

