-- ==== Sys2Proof/WellFormed.lean ====
section
/-! DEFINITION. Which commands are well formed: the checks an operand's type does not already make. -/

namespace Sys2Proof

/-- A word of the host window whose write has behaviour of its own and so is another row of the table: the control word, KICK,
SAMPLE_TAKE, the two flags words and the plan window (table 10-1, R153, R169 to R171). -/
def hasOwnWrite (addr : Word) : Bool :=
  addr == 0x3005#16 || addr == 0x3006#16 || addr == 0x3008#16 || addr == 0x300A#16 || addr == 0x300B#16 ||
    (0x2800 ≤ addr.toNat && addr.toNat ≤ 0x2C07)

/-- The most clocks of a plan read: 24 for the instruction and the address, and 8 for each byte, 16 of the header and 4 of each of 512
entries (R156, R177). -/
def planReadLimit : Nat := 24 + 8 * (16 + 4 * 512)

/-- HOST_REGISTER_WRITE is to a word without behaviour of its own (its row in spec/opcode_table.json), and a plan read takes in at
most 2064 bytes after its 24 clocks of instruction and address (R156). Every other operand is bounded by its type. -/
def Instr.wellFormed : Instr → Bool
  | .hostRegisterWrite addr _ => !hasOwnWrite addr
  | .planReadEnd levels => levels.length ≤ planReadLimit
  | .powerOnReset | .pinReset | .resetEnd _ | .softReset | .runSet | .runClear | .start | .kick | .nextChange | .sampleTake
  | .itemViewWord0Read _ | .counterRead _ | .flagsClear _ _ | .planWindowWrite _ _ | .heldAccessServed | .planCheckEnd
  | .joinTimerExpiry | .lineBusy | .lineQuiet | .frameEnd _ _ | .gapEnd _ | .collision _ _ | .backoffEnd | .attemptComplete
  | .guardExpiry | .imuTakeFrame _ | .selfFrameTake | .lostTimerExpiry _ | .ownerRejoined _ | .ownerDoubtful _ | .ownerLost _
  | .remoteRecord _ | .selfRecord | .gateItemStep | .gateApplicationEnd | .presenceTimerExpiry | .refreshTimerExpiry
  | .startPatternFound _ => true

end Sys2Proof
end

