-- ==== Sys2Proof/Certificates/Slice0/Obligations.lean ====
section
/-! DEFINITION. The statements about the model, each a proposition named `Obligations.<Name>`; OBLIGATIONS.json lists them with the rules
of the spec they formalise. -/

section

open Sys2Proof Sys2Proof.Machine

/-! ## The step -/

/-- A step takes the command at the front of the queue and is that command's effect, with the queue's rest. -/
def Obligations.StepRunsFrontCommand : Prop :=
  ∀ (c : Instr) (rest : List Instr) (s : State),
    step { s with pending := c :: rest } = exec c { s with pending := rest }

/-- On an empty queue, with no clash notice waiting, 1 ms of the station timebase passes and nothing else does. That time passes there is
the model's choice (assumption log 2). -/
def Obligations.IdleStepPassesOneMillisecond : Prop :=
  ∀ s : State, s.pending = [] → s.stc.clashNotice = false → ∃ t, step s = .next t ∧
    t = { s with stc := t.stc, pmn := t.pmn, tsc := t.tsc } ∧
    t.stc = { s.stc with joinTimer := s.stc.joinTimer.map (· - 1) } ∧
    (∀ n : Station, peerOf t n = { peerOf s n with timeLeft := (peerOf s n).timeLeft.map (· - 1) }) ∧
    t.tsc = { s.tsc with refreshTimer := t.tsc.refreshTimer, presenceTimer := t.tsc.presenceTimer } ∧
    (∀ left, s.tsc.refreshTimer = .running left → t.tsc.refreshTimer = .running (left - 1)) ∧
    (s.tsc.refreshTimer = .stopped ∨ s.tsc.refreshTimer = .expired → t.tsc.refreshTimer = s.tsc.refreshTimer) ∧
    (∀ left, s.tsc.presenceTimer = .running left → t.tsc.presenceTimer = .running (left - 1)) ∧
    (s.tsc.presenceTimer = .stopped ∨ s.tsc.presenceTimer = .expired → t.tsc.presenceTimer = s.tsc.presenceTimer)

/-- Every command answers a next state in every state, and leaves the queue of commands to the step. That a command whose precondition
does not hold answers a next state too, the one it was given, is the model's choice (assumption log 1). -/
def Obligations.EveryCommandAnswersNext : Prop :=
  ∀ (c : Instr) (s : State), ∃ t, exec c s = .next t ∧ t.pending = s.pending

/-! ## Resets -/

/-- The three resets leave every block at its reset values and record their CAUSE. A power-on or pin reset holds them until it ends;
its end captures the straps, and every command that is no reset changes nothing until then but the word that a read returns. A soft reset
ends at once and keeps the straps. At the end the station is in LOADING with its plan read begun, or in PLAN_WAIT, by START MODE. -/
def Obligations.ResetsLeaveStartValues : Prop :=
  ∀ s : State,
    (∃ t, exec .powerOnReset s = .next t ∧ t.stc.cause = .power ∧ t.stc.inReset = true ∧ t.stc.planRead = none ∧
      AtResetValues (stationNumber t) t) ∧
    (∃ t, exec .pinReset s = .next t ∧ t.stc.cause = .pin ∧ t.stc.inReset = true ∧ t.stc.planRead = none ∧
      AtResetValues (stationNumber t) t) ∧
    (s.stc.inReset = true → s.stc.planRead = none → ∀ station : Station, AtResetValues station s →
      ∀ c, isReset c = false → ∃ t, exec c s = .next t ∧ t = { s with hpt.readData := t.hpt.readData } ∧ t.stc.inReset = true ∧
        AtResetValues station t) ∧
    (s.stc.inReset = true → ∀ p : Straps, ∃ t, exec (.resetEnd p) s = .next t ∧ t.stc.straps = p ∧
      t.stc.cause = s.stc.cause ∧ t.stc.inReset = false ∧ AtResetValues p.station t ∧
      t.stc.station = (if p.startMode = .memory then .loading else .planWait) ∧
      t.stc.planRead = (if p.startMode = .memory then some { clocks := 0, shift := [] } else none)) ∧
    (portFree s → ∃ t, exec .softReset s = .next t ∧ t.stc.straps = s.stc.straps ∧ t.stc.cause = .soft ∧ t.stc.inReset = false ∧
      AtResetValues (stationNumber s) t ∧ t.stc.station = (if s.stc.straps.startMode = .memory then .loading else .planWait) ∧
      t.stc.planRead = (if s.stc.straps.startMode = .memory then some { clocks := 0, shift := [] } else none))

/-- While a power-on or pin reset is in progress every read returns 0 and every write is ignored. -/
def Obligations.HostAccessesDuringReset : Prop :=
  ∀ s : State, s.stc.inReset = true → s.hpt.held = none →
    (∀ addr : Word, windowWord s addr = 0) ∧
    (∀ c, isHostRead c = true → exec c s = .next { s with hpt.readData := 0 }) ∧
    (∀ c, isHostWrite c = true → exec c s = .next s)

/-- What the host reads: in every state each word of the sample view, the peer view, the station status, the reset cause and the gate
sequence view shows its fields, with 0 in the spare bits; the plan window, staging, the request ring and the notify map show the words they
hold, bit k of the notify map standing in bit k mod 16 of word 0x2480 + k / 16, the counters theirs in the order of table 10-4, an item view
its live words, and words 1 to 15 of the latched slot those of the latch, NEXT_CHANGE the head of the change list; RUN stands in the control
word, KICK and SAMPLE_TAKE read 0, VIEW PART, masks, flags (whose bits FlagsClearAndDriveInt gives) and the summary are in their words;
every unmapped word is 0; and what every region shows after a reset has ended and before a plan is accepted. -/
def Obligations.WindowAfterReset : Prop :=
  (∀ (s : State) (station : Station), AtResetValues station s → s.stc.inReset = false →
    (∀ a : Word, a.toNat ≤ 0x24BF ∨ (0x2800 ≤ a.toNat ∧ a.toNat ≤ 0x2C07) ∨ (0x3008 ≤ a.toNat ∧ a.toNat ≤ 0x301F) →
      windowWord s a = 0) ∧
    windowWord s 0x3007#16 = 0xFFFF#16 ∧ windowWord s 0x3001#16 = 0xFFFF#16 ∧ windowWord s 0x3005#16 = 0 ∧
    windowWord s 0x3006#16 = 0 ∧
    (∀ n : Station, windowWord s (BitVec.ofNat 16 (0x24C0 + 2 * n.val)) = if n = station then 3 else 0) ∧
    (∀ n : Station, windowWord s (BitVec.ofNat 16 (0x24C1 + 2 * n.val)) = 0) ∧ intAsserted s = false) ∧
  (∀ s : State, s.stc.inReset = false →
    (s.stu.queue = [] → ∀ w < 16, windowWord s (BitVec.ofNat 16 (0x24A0 + w)) = 0) ∧
    (∀ e rest, s.stu.queue = e :: rest → s.stu.queue.length ≤ 256 → e.value.length ≤ 8 → (∀ g, e.gap = some g → g ≤ 255) →
      (windowWord s 0x24A0#16).toNat =
        32768 + 16384 * e.first.toNat + 8192 * e.gap.isSome.toNat + 256 * e.sender.val + e.value.length ∧
      (windowWord s 0x24A1#16).toNat = s.stu.queue.length ∧ windowWord s 0x24A2#16 = e.item.setWidth 16 ∧
      windowWord s 0x24A3#16 = e.version ∧ (windowWord s 0x24A4#16).toNat = e.gap.getD 0 ∧ windowWord s 0x24A5#16 = 0 ∧
      windowWord s 0x24A6#16 = 0 ∧ windowWord s 0x24A7#16 = 0 ∧
      ∀ j < 8, windowWord s (BitVec.ofNat 16 (0x24A8 + j)) = e.value.getD j 0) ∧
    (∀ n : Station, ((peerOf s n).timeLeft.getD 0) ≤ 2040 →
      (windowWord s (BitVec.ofNat 16 (0x24C0 + 2 * n.val))).toNat =
        256 * ((peerOf s n).expected.map BitVec.toNat).getD 0 + 128 * (peerOf s n).expected.isSome.toNat +
          4 * (match (peerOf s n).agreement with | .unknown => 0 | .agrees => 1 | .differs => 2) +
          (match (peerOf s n).state with | .absent => 0 | .present => 1 | .lost => 2 | .self => 3) ∧
      (windowWord s (BitVec.ofNat 16 (0x24C1 + 2 * n.val))).toNat = (peerOf s n).timeLeft.getD 0) ∧
    (windowWord s 0x3000#16).toNat =
      4096 * (match s.req.process with | .stopped => 0 | .running => 1 | .suspended => 2) +
        256 * (match s.stc.faultCode with
          | .none => 0 | .noPlan => 1 | .badCount => 2 | .badCheck => 3 | .badTiming => 4 | .badEntry => 5 | .badOrder => 6) +
        128 * s.stc.checking.toNat + 16 * (match s.stc.mutedCause with | .none => 0 | .identity => 1 | .guard => 2) +
        (match s.stc.station with
          | .loading => 0 | .planWait => 1 | .planFault => 2 | .joining => 3 | .active => 4 | .muted => 5) ∧
    (s.stc.faultEntry.getD 0 ≤ 511 → (windowWord s 0x3001#16).toNat = s.stc.faultEntry.getD 0xFFFF) ∧
    (s.stc.joinTimer.getD 0 ≤ 2040 → (windowWord s 0x3002#16).toNat = s.stc.joinTimer.getD 0) ∧
    (windowWord s 0x3003#16).toNat =
      4096 * s.req.cursor.val + 512 * s.stc.straps.listen.toNat +
        256 * (match s.stc.straps.startMode with | .memory => 0 | .host => 1) + s.stc.straps.station.val ∧
    (windowWord s 0x3004#16).toNat = (match s.stc.cause with | .power => 0 | .pin => 1 | .soft => 2) ∧
    (∀ g : Group, (windowWord s (BitVec.ofNat 16 (0x3018 + g.val))).toNat =
      match s.imu.heldGate[g] with
      | none => 0
      | some q => 32768 + q.toNat) ∧
    (∀ w < 1032, windowWord s (BitVec.ofNat 16 (0x2800 + w)) = s.stc.window.read w) ∧
    (∀ w < 1024, windowWord s (BitVec.ofNat 16 (0x2000 + w)) = s.hpt.staging.read w) ∧
    (∀ w < 128, windowWord s (BitVec.ofNat 16 (0x2400 + w)) = s.req.ring.read w) ∧
    (∀ w < 32, windowWord s (BitVec.ofNat 16 (0x2480 + w)) = s.hpt.notify.read w) ∧
    (∀ k < 512, notifyBit s k = (windowWord s (BitVec.ofNat 16 (0x2480 + k / 16))).getLsbD (k % 16)) ∧
    (∀ (k : Fin 512) (w : Nat), w < 16 → w = 0 ∨ s.hpt.latch.slot ≠ some k →
      windowWord s (BitVec.ofNat 16 (16 * k.val + w)) = itemViewWord s k.val w) ∧
    (∀ (k : Fin 512) (w : Nat), 1 ≤ w → w < 16 → s.hpt.latch.slot = some k →
      windowWord s (BitVec.ofNat 16 (16 * k.val + w)) = s.hpt.latch.words.getD w 0) ∧
    windowWord s 0x3005#16 = (if s.req.process = .stopped then 0 else 1) ∧ windowWord s 0x3006#16 = 0 ∧ windowWord s 0x3008#16 = 0 ∧
    windowWord s 0x3009#16 = (match s.hpt.viewPart with | .visible => 0 | .pending => 1) ∧
    windowWord s 0x300A#16 = ordinaryFlagsWord s ∧ windowWord s 0x300B#16 = faultFlagsWord s ∧
    windowWord s 0x300C#16 = s.hpt.ordinaryMask.setWidth 16 ∧ windowWord s 0x300D#16 = s.hpt.faultMask.setWidth 16 ∧
    (windowWord s 0x300E#16).toNat = 4 * (intAsserted s).toNat + 2 * (faultSummary s).toNat + (ordinarySummary s).toNat ∧
    windowWord s 0x3007#16 = ((s.imu.changes.head?).map fun n => n.setWidth 16).getD 0xFFFF#16 ∧
    ((List.range 8).map fun k => (windowWord s (BitVec.ofNat 16 (0x3010 + k))).toNat) =
      [.framesSent, .collisions, .abandoned, .badFrames, .rxOverruns, .sequenceGaps, .foreignRecords, .missedGates].map
        fun n : CounterName => 32768 * (s.hpt.counters.get n).overflow.toNat + (s.hpt.counters.get n).count.toNat) ∧
  ∀ (s : State) (a : Word), (0x24B0 ≤ a.toNat ∧ a.toNat ≤ 0x24BF) ∨ (0x2500 ≤ a.toNat ∧ a.toNat ≤ 0x27FF) ∨
      (0x2C08 ≤ a.toNat ∧ a.toNat ≤ 0x2FFF) ∨ a = 0x300F#16 ∨ 0x301C ≤ a.toNat → windowWord s a = 0

/-! ## Requests -/

/-- A setting and a clearing of RUN, in each state of the request process, which examines slots in ACTIVE and MUTED and in no other state;
no more changes than the sending of requests takes. A transmitter in IDLE that finds a head frame, a receive queue entry free and the
station ACTIVE as the process goes on leaves it. -/
def Obligations.RunSetAndClear : Prop :=
  ∀ s : State, (examines s = true ↔ s.stc.station = .active ∨ s.stc.station = .muted) ∧ (portFree s →
    (∀ c t, c = .runSet ∨ c = .runClear ∨ c = .kick → exec c s = .next t → RequestEffects s t) ∧
    (s.req.process = .running → exec .runSet s = .next s) ∧
    (s.req.process ≠ .running → s.req.slot = none → examines s = false →
      exec .runSet s = .next { s with req.process := .running }) ∧
    (s.req.process ≠ .running → s.req.slot = none → examines s = true → (cursorCopy s).stationOwned = false →
      ∃ t, exec .runSet s = .next t ∧ t.req = { s.req with process := .suspended } ∧ t.hpt.flags.requestsIdle = true ∧
        RequestEffects s t ∧ TransmitterSettled s.lau.transmitter t) ∧
    (s.req.process ≠ .running → ∀ w, s.req.slot = some w → w.halted = true → w.outstanding ≠ 0 →
      ∃ t, exec .runSet s = .next t ∧ t.req = { s.req with process := .running } ∧ RequestEffects s t ∧
        TransmitterSettled s.lau.transmitter t) ∧
    (s.req.process = .stopped → exec .runClear s = .next s) ∧
    (s.req.process = .suspended → exec .runClear s = .next { s with req.process := .stopped }) ∧
    (s.req.process = .running → s.req.slot = none →
      ∃ t, exec .runClear s = .next t ∧ t.req = { s.req with process := .stopped } ∧ RequestEffects s t ∧
        TransmitterSettled s.lau.transmitter t) ∧
    (s.req.process = .running → ∀ w, s.req.slot = some w → w.outstanding ≠ 0 →
      ∃ t, exec .runClear s = .next t ∧ t.req = { s.req with process := .stopped, slot := some { w with halted := true } } ∧
        t.imu = s.imu ∧ RequestEffects s t ∧ TransmitterSettled s.lau.transmitter t))

/-- A KICK examines the cursor slot again in SUSPENDED, as a setting of RUN does there, and the transmitter leaves IDLE where a frame has
come into its queue; a KICK has no effect in RUNNING and STOPPED; any word written to KICK is a KICK, and KICK reads as 0. -/
def Obligations.KickReexamines : Prop :=
  ∀ s : State, portFree s →
    (s.req.process ≠ .suspended → exec .kick s = .next s) ∧
    (s.req.process = .suspended → examines s = true → exec .kick s = exec .runSet s) ∧
    (s.req.process = .suspended → examines s = true → s.req.slot = none → (cursorCopy s).stationOwned = false →
      ∃ t, exec .kick s = .next t ∧ t.req = s.req ∧ t.hpt.flags.requestsIdle = true ∧ RequestEffects s t) ∧
    (s.req.process = .suspended → examines s = true →
      ∃ t, exec .kick s = .next t ∧ RequestEffects s t ∧ TransmitterSettled s.lau.transmitter t) ∧
    (∀ v : Word, exec (.hostRegisterWrite 0x3006#16 v) s = exec .kick s) ∧ windowWord s 0x3006#16 = 0

/-- The checks of table 6-3 in order, on the copy of a slot and the plan in use; the copy by the layout of table 11-8; the items that a
request names, ITEM + k × STEP for k below COUNT for PUBLISH and ITEM alone for STREAM, and their slots; the staging words it uses, the sum
of the LENGTHs, or COUNT × LENGTH for STREAM; and the codes of table 11-9. -/
def Obligations.SlotChecksInOrder : Prop :=
  (∀ s : State, ∀ word : Nat → Word, (∀ w, word w = s.req.ring.read (8 * s.req.cursor.val + w)) →
    cursorCopy s =
      { stationOwned := (word 0).getLsbD 15, stepDown := (word 0).getLsbD 8,
        kind := (match (word 0).toNat % 8 with
          | 1 => some .publish
          | 2 => some .stream
          | 3 => some .gate
          | _ => none),
        item := (word 1).toNat, count := (word 2).toNat, offset := (word 3).toNat, group := (word 4).toNat }) ∧
  (∀ copy : SlotCopy,
    (copy.kind = some .publish → namedItems copy = (List.range copy.count).map fun k : Nat =>
      if copy.stepDown then (copy.item : Int) - (k : Int) else (copy.item : Int) + (k : Int)) ∧
    (copy.kind = some .stream → namedItems copy = [(copy.item : Int)]) ∧
    (copy.kind ≠ some .publish → copy.kind ≠ some .stream → namedItems copy = [])) ∧
  (∀ (s : State) (copy : SlotCopy),
    namedSlots s copy =
      (namedItems copy).filterMap (fun n => s.imu.items.findIdx? fun it => (it.plan.item.toNat : Int) == n) ∧
    ∀ total, total = ((namedItems copy).map fun n =>
        ((s.imu.items.find? fun it => (it.plan.item.toNat : Int) == n).map fun it => it.plan.length).getD 0).sum →
      stagingUsed s copy = if copy.kind = some .stream then copy.count * total else total) ∧
  [SlotStatus.none, .done, .lineFailed, .halted, .silent, .badKind, .badGroup, .badCount, .range, .unknownItem, .notOwned,
    .wrongKind, .badOffset].map SlotStatus.code = List.range 13 ∧
  ∀ (s : State) (copy : SlotCopy),
    (copy.kind = none → slotCheck s copy = some .badKind) ∧
    (copy.kind = some .gate → slotCheck s copy = if 3 < copy.group then some .badGroup else none) ∧
    ∀ (kind : RequestKind) (limit : Nat), (kind = .publish ∧ limit = 256) ∨ (kind = .stream ∧ limit = 64) →
      copy.kind = some kind →
      (copy.count = 0 ∨ limit < copy.count → slotCheck s copy = some .badCount) ∧
      (1 ≤ copy.count → copy.count ≤ limit →
        ((∃ n ∈ namedItems copy, n < 0 ∨ 4095 < n) → slotCheck s copy = some .range) ∧
        ((∀ n ∈ namedItems copy, 0 ≤ n ∧ n ≤ 4095) →
          ((∃ n ∈ namedItems copy, ∀ it ∈ s.imu.items, (it.plan.item.toNat : Int) ≠ n) → slotCheck s copy = some .unknownItem) ∧
          ((∀ n ∈ namedItems copy, ∃ it ∈ s.imu.items, (it.plan.item.toNat : Int) = n) →
            ((∃ k ∈ namedSlots s copy, ∃ it, s.imu.items[k]? = some it ∧ it.plan.owner ≠ stationNumber s) →
              slotCheck s copy = some .notOwned) ∧
            ((∀ k ∈ namedSlots s copy, ∃ it, s.imu.items[k]? = some it ∧ it.plan.owner = stationNumber s) →
              ((kind = .stream ∧ ∃ k ∈ namedSlots s copy, ∃ it, s.imu.items[k]? = some it ∧ it.plan.kind = .state) →
                slotCheck s copy = some .wrongKind) ∧
              (¬(kind = .stream ∧ ∃ k ∈ namedSlots s copy, ∃ it, s.imu.items[k]? = some it ∧ it.plan.kind = .state) →
                slotCheck s copy =
                  if 1023 < copy.offset ∨ 1024 < copy.offset + stagingUsed s copy then some .badOffset else none)))))

/-- A slot that is refused, or examined while the station is MUTED or strapped LISTEN, is handed back at once with its status, COUNT records
remaining (1 for GATE), none lost and no frame built, whoever owns the next slot. The next slot is then examined: those refused or SILENT
are handed back in turn, up to a HOST-owned slot, at which the process rests SUSPENDED, or a valid one that may be sent, which is in
progress, the transmitter leaving IDLE where its first frame comes into the queue. Where none comes to be in progress nothing is built,
offered or issued. -/
def Obligations.RefusedOrSilentSlotHandedBack : Prop :=
  (∀ copy : SlotCopy, copy.size = if copy.kind = some .gate then 1 else copy.count) ∧
  ∀ s : State, portFree s → s.req.slot = none → s.stc.station = .active ∨ s.stc.station = .muted → s.req.process ≠ .running →
    ∃ t, exec .runSet s = .next t ∧ CursorSlotExamined s t ∧ RequestEffects s t ∧ TransmitterSettled s.lau.transmitter t ∧
      (t.req.slot = none → t.imu = s.imu ∧ t.lau = { s.lau with transmitter := t.lau.transmitter }) ∧
      ∀ status : SlotStatus, StoresCanonical s → (cursorCopy s).stationOwned = true →
        (slotCheck s (cursorCopy s) = some status ∨
          slotCheck s (cursorCopy s) = none ∧ (s.stc.station = .muted ∨ s.stc.straps.listen = true) ∧ status = .silent) →
        HandedBack s t status (cursorCopy s).size 0 0 ∧ t.hpt.flags.requestDone = true ∧
        (NextSlotHostOwned s → t.req.cursor = s.req.cursor + 1 ∧ t.req.process = .suspended ∧ t.req.slot = none ∧
          t.hpt.flags.requestsIdle = true)

/-- A valid GATE slot builds one GATE frame of its group, with no record and no version issued, and offers it. Admitted into an
empty queue it takes the transmitter out of IDLE, to GAP or DEFER by the line, with a receive queue entry free. -/
def Obligations.GateRequestBuildsOneFrame : Prop :=
  ∀ s : State, portFree s → s.stc.station = .active → s.stc.straps.listen = false → s.req.slot = none → s.lau.reqOffer = none →
    s.req.process ≠ .running → (cursorCopy s).stationOwned = true → (cursorCopy s).kind = some .gate →
    ∀ g : Group, (cursorCopy s).group = g.val →
    ∃ t f, exec .runSet s = .next t ∧
      f = { source := .req, sender := stationNumber s, first := false, refresh := false, body := .gate g } ∧
      (f ∈ t.lau.queue ∨ t.lau.reqOffer = some f) ∧
      t.req = { s.req with process := .running, slot := t.req.slot } ∧
      (∃ w, t.req.slot = some w ∧ w.remaining = 0 ∧ w.frames = 1 ∧ w.outstanding = 1 ∧ w.lost = 0 ∧ w.halted = false) ∧
      t.imu = s.imu ∧ RequestEffects s t ∧ TransmitterSettled s.lau.transmitter t

/-- The records built for a run of table slots, one after another: each takes its item's next version and the next LENGTH words of
staging, and leaves the version as its item's LAST ISSUED VERSION. -/
def Obligations.BuiltRecordsTakeVersionAndStaging : Prop :=
  ∀ (staging : WordStore) (k : Nat) (rest : List Nat) (items : List Item) (offset : Nat) (it : Item) (o : OwnedFields),
    items[k]? = some it → it.owned = some o →
    ∃ (r : Record) (records : List Record) (items' : List Item) (offset' : Nat),
      buildRecords staging (k :: rest) items offset = (r :: records, items', offset') ∧
      buildRecords staging rest (items.set k { it with owned := some { o with lastIssued := o.lastIssued + 1 } })
        (offset + it.plan.length) = (records, items', offset') ∧
      r.item = it.plan.item ∧ r.version = o.lastIssued + 1 ∧ r.value.length = it.plan.length ∧
      ∀ j, j < it.plan.length → r.value[j]? = some (staging.read (offset + j))

/-- A valid PUBLISH or STREAM slot is worked: the records of its first 8 items or values, or of all of them, are built in order and
offered in an UPDATE frame, FIRST and REFRESH clear. Frame by frame of up to 8 records the building goes on, each next frame at the
admission of the one before, until one waits as the offer or nothing is left, and the item table carries the versions issued. A frame
admitted into an empty queue takes the transmitter out of IDLE, to GAP or DEFER by the line, with a receive queue entry free. The building
goes on too where an attempt completes, or its frame is abandoned at the twelfth collision, and the offer that waits is admitted. -/
def Obligations.UpdateRequestBuildsFirstFrame : Prop :=
  (∀ (s : State) (kind : RequestKind), kind = .publish ∨ kind = .stream → portFree s → s.stc.station = .active →
    s.stc.straps.listen = false → s.req.slot = none → s.lau.reqOffer = none → s.req.process ≠ .running →
    (cursorCopy s).stationOwned = true → (cursorCopy s).kind = some kind → slotCheck s (cursorCopy s) = none →
    ∀ todo, todo = (if kind = .stream then (namedSlots s (cursorCopy s)).flatMap (List.replicate (cursorCopy s).count)
      else namedSlots s (cursorCopy s)) →
    ∃ t f, exec .runSet s = .next t ∧
      f = { source := .req, sender := stationNumber s, first := false, refresh := false,
            body := .update (buildRecords s.hpt.staging (todo.take 8) s.imu.items (cursorCopy s).offset).1 } ∧
      (f ∈ t.lau.queue ∨ t.lau.reqOffer = some f) ∧
      t.req = { s.req with process := .running, slot := t.req.slot } ∧
      (∃ w, t.req.slot = some w ∧ 1 ≤ w.frames ∧ w.outstanding = w.frames ∧ w.lost = 0 ∧ w.halted = false ∧
        BuiltFrames s t { todo := todo, gate := none, offset := (cursorCopy s).offset, frames := 0, outstanding := 0, lost := 0,
                          halted := false } w w.frames) ∧
      RequestEffects s t ∧ TransmitterSettled s.lau.transmitter t) ∧
  ∀ (s : State) (f : TxFrame) (rest : List TxFrame) (a : SentFrame) (w told : SlotWork) (c : Instr), s.lau.transmitter = .send →
    s.lau.queue = f :: rest → s.lau.attempt = some a → s.stc.station = .active → s.req.slot = some w → w.gate = none →
    w.halted = false → w.todo ≠ [] → (∀ offer, s.lau.reqOffer = some offer → offer.source = .req) →
    (c = .attemptComplete ∧ told = (if f.source = .req then { w with outstanding := w.outstanding - 1 } else w) ∨
      (∃ sensed beyond, c = .collision sensed beyond ∧ sensed.length ≤ 2048 ∧
          sensesDifference (a.cells ++ beyond) sensed = true) ∧ 12 ≤ s.lau.attempts ∧
        told = (if f.source = .req then
          { w with
            outstanding := w.outstanding - 1
            lost := w.lost + (match f.body with | .update records => records.length | .gate _ => 1 | .presence _ => 0) }
          else w)) →
    ∃ t w' n, exec c s = .next t ∧ t.req = { s.req with slot := some w' } ∧ BuiltFrames s t told w' n ∧
      (s.lau.reqOffer = none → 1 ≤ n) ∧
      ∀ offer, s.lau.reqOffer = some offer → (offer ∈ t.lau.queue ∧ 1 ≤ n) ∨ (t.lau.reqOffer = some offer ∧ n = 0)

/-- The last outcome of a slot closes it, a completion or an abandonment at the twelfth collision, which adds its records to those lost:
HALTED, LINE_FAILED or DONE by the first that applies, with the records never built and those lost written back, the cursor moved on and
REQUEST_DONE raised, whoever owns the next slot. A RUNNING process then examines the next slot: HOST-owned, it rests SUSPENDED;
STATION-owned and refused or SILENT, that slot is handed back in turn; valid and free to be sent, it is in progress. A STOPPED process
examines nothing. -/
def Obligations.LastOutcomeClosesSlot : Prop :=
  (∀ w : SlotWork, w.remaining = w.todo.length + (match w.gate with | some _ => 1 | none => 0)) ∧
  ∀ (s : State) (f : TxFrame) (rest : List TxFrame) (a : SentFrame) (w : SlotWork) (c : Instr) (lost : Nat), StoresCanonical s →
    s.lau.transmitter = .send → s.lau.queue = f :: rest → s.lau.attempt = some a → f.source = .req → s.req.slot = some w →
    w.outstanding = 1 → w.remaining = 0 ∨ w.halted = true → s.stc.station = .active ∨ s.stc.station = .muted →
    (c = .attemptComplete ∧ lost = w.lost ∨
      (∃ sensed beyond, c = .collision sensed beyond ∧ sensed.length ≤ 2048 ∧
          sensesDifference (a.cells ++ beyond) sensed = true) ∧ 12 ≤ s.lau.attempts ∧
        lost = w.lost + (match f.body with | .update records => records.length | .gate _ => 1 | .presence _ => 0)) →
    ∃ t, exec c s = .next t ∧
      SlotClosedNextExamined s t (if w.halted then .halted else if lost ≠ 0 then .lineFailed else .done) w.remaining lost w.frames ∧
      (s.req.process ≠ .running →
        t.req.process = s.req.process ∧ t.req.cursor = s.req.cursor + 1 ∧ t.req.slot = none ∧ t.imu.items = s.imu.items) ∧
      (s.req.process = .running → NextSlotHostOwned s → t.req.process = .suspended ∧ t.req.cursor = s.req.cursor + 1 ∧
        t.req.slot = none ∧ t.hpt.flags.requestsIdle = true)

/-- A write of the control word: with RESET 1 a soft reset and nothing else; otherwise RUN by its bit and START by its bit, each as the
command of its own does it, in whichever order. A slot is in progress only in ACTIVE or MUTED (R106). -/
def Obligations.ControlWordWrite : Prop :=
  ∀ (s : State) (v : Word), portFree s →
    (v.getLsbD 1 = true → exec (.hostRegisterWrite 0x3005#16 v) s = exec .softReset s) ∧
    (v.getLsbD 1 = false → v.getLsbD 2 = false →
      exec (.hostRegisterWrite 0x3005#16 v) s = exec (if v.getLsbD 0 then .runSet else .runClear) s) ∧
    (v.getLsbD 1 = false → v.getLsbD 2 = true → (examines s = false → s.req.slot = none) → ∃ t u,
      exec (if v.getLsbD 0 then .runSet else .runClear) s = .next t ∧ exec .start s = .next u ∧
      exec (.hostRegisterWrite 0x3005#16 v) s = exec .start t ∧
      exec (.hostRegisterWrite 0x3005#16 v) s = exec (if v.getLsbD 0 then .runSet else .runClear) u) ∧
    windowWord s 0x3005#16 = (if s.req.process = .stopped then 0 else 1)

/-! ## The host port -/

/-- NEXT_CHANGE removes the head of the change list and returns it, or returns 0xFFFF; SAMPLE_TAKE removes the head of the sample queue,
or does nothing. -/
def Obligations.HeadsAreTaken : Prop :=
  ∀ s : State, portFree s →
    (s.imu.changes = [] → exec .nextChange s = .next { s with hpt.readData := 0xFFFF#16 }) ∧
    (∀ n rest, s.imu.changes = n :: rest →
      exec .nextChange s = .next { s with hpt.readData := n.setWidth 16, imu.changes := rest }) ∧
    (s.stu.queue = [] → exec .sampleTake s = .next s) ∧
    (∀ e rest, s.stu.queue = e :: rest → exec .sampleTake s = .next { s with stu.queue := rest }) ∧
    (∀ v : Word, exec (.hostRegisterWrite 0x3008#16 v) s = exec .sampleTake s) ∧ windowWord s 0x3008#16 = 0

/-- A word-0 read of an item view latches the whole view and returns word 0, unless an application in flight holds it: that of a record of
its slot, the first record of the UPDATE frame in hand, or a gate application of its item's group. That a record's application is in flight
from the step that makes the record first is the model's reading (assumption log 10). The slot of an item number is the first that holds it.
After a latch words 1 to 15 of that slot read from the latch, and those of every other slot live. The words of a view show the item's
fields, with 0 in the spare bits and in every word of a slot that holds no item. -/
def Obligations.ViewWord0ReadLatches : Prop :=
  ∀ (s : State) (k : Fin 512),
    (portFree s →
      let inFlight :=
        (∃ sender r rest, s.imu.work = .remoteRecords sender (r :: rest) ∧ findSlot s.imu.items r.item = some k.val) ∨
          (∃ r rest, s.imu.work = .selfRecords (r :: rest) ∧ findSlot s.imu.items r.item = some k.val) ∨
          ∃ m g it, s.imu.work = .gate m g ∧ s.imu.items[k.val]? = some it ∧ it.plan.gate = some g
      (inFlight →
        exec (.itemViewWord0Read k) s = .next { s with hpt.held := some { access := .viewWord0 k, released := false } }) ∧
      (¬inFlight →
        exec (.itemViewWord0Read k) s =
          .next
            { s with
              hpt.latch := { slot := some k, words := (List.range 16).map (itemViewWord s k.val) }
              hpt.readData := itemViewWord s k.val 0 })) ∧
    (∀ n : ItemNo, findSlot s.imu.items n = some k.val ↔
      (∃ it, s.imu.items[k.val]? = some it ∧ it.plan.item = n) ∧
        ∀ j < k.val, ∀ jt, s.imu.items[j]? = some jt → jt.plan.item ≠ n) ∧
    (∀ t : State, t.hpt.latch = { slot := some k, words := (List.range 16).map (itemViewWord s k.val) } → t.stc.inReset = false →
      ∀ (j : Fin 512) (w : Nat), w < 16 → windowWord t (BitVec.ofNat 16 (16 * j.val + w)) =
        if j = k ∧ w ≠ 0 then itemViewWord s k.val w else itemViewWord t j.val w) ∧
    (s.imu.items[k.val]? = none → ∀ w, itemViewWord s k.val w = 0) ∧
    ∀ it, s.imu.items[k.val]? = some it → it.plan.length ≤ 8 →
      (itemViewWord s k.val 0).toNat =
        32768 + 1024 * ((it.plan.gate.map Fin.val).getD 0) + 512 * it.plan.gate.isSome.toNat +
          256 * (match it.plan.kind with | .state => 0 | .stream => 1) + 128 * (it.owned.any OwnedFields.clashMark).toNat +
          64 * it.baselineOpen.toNat + 32 * it.pendingPart.isSome.toNat + 16 * it.visiblePart.isSome.toNat +
          (match it.condition with
            | .vacant => 0 | .current => 1 | .doubtful => 2 | .stale => 3 | .unset => 4 | .ownLocal => 5) ∧
      (itemViewWord s k.val 1).toNat = 4096 * it.plan.length + it.plan.item.toNat ∧
      (itemViewWord s k.val 2).toNat = it.plan.owner.val ∧
      itemViewWord s k.val 3 = (it.visiblePart.map Part.version).getD 0 ∧
      itemViewWord s k.val 4 = (it.pendingPart.map Part.version).getD 0 ∧
      itemViewWord s k.val 5 = (it.owned.map OwnedFields.lastIssued).getD 0 ∧
      itemViewWord s k.val 6 = 0 ∧ itemViewWord s k.val 7 = 0 ∧
      ∀ j < 8, itemViewWord s k.val (8 + j) =
        match (match s.hpt.viewPart with | .visible => it.visiblePart | .pending => it.pendingPart) with
        | none => 0
        | some part => part.value.getD j 0

/-- Staging, notify map, masks, VIEW PART and the read latch change only by the host's own accesses and by resets. -/
def Obligations.PortStateIsTheHosts : Prop :=
  ∀ (c : Instr) (s t : State), exec c s = .next t → isReset c = false →
    (∀ a v, c ≠ .hostRegisterWrite a v) →
      t.hpt.staging = s.hpt.staging ∧ t.hpt.notify = s.hpt.notify ∧ t.hpt.ordinaryMask = s.hpt.ordinaryMask ∧
      t.hpt.faultMask = s.hpt.faultMask ∧ t.hpt.viewPart = s.hpt.viewPart ∧
      ((∀ k, c ≠ .itemViewWord0Read k) → c ≠ .heldAccessServed → t.hpt.latch = s.hpt.latch)

/-- A counter read returns count and OVERFLOW and clears both in the same step; an increment adds one to the count, and past 32767 sets
OVERFLOW, which then stays. No other counter is touched by either. -/
def Obligations.CountersReadAndCount : Prop :=
  ∀ (s : State) (n : CounterName),
    (portFree s → ∃ t, exec (.counterRead n) s = .next t ∧
      t = { s with hpt.counters := t.hpt.counters, hpt.readData := t.hpt.readData } ∧
      t.hpt.readData.getLsbD 15 = (s.hpt.counters.get n).overflow ∧
      t.hpt.readData.setWidth 15 = (s.hpt.counters.get n).count ∧
      t.hpt.counters.get n = { count := 0, overflow := false } ∧ ∀ m, m ≠ n → t.hpt.counters.get m = s.hpt.counters.get m) ∧
    (((countUp n s).hpt.counters.get n).count.toNat =
        if (s.hpt.counters.get n).count.toNat = 32767 then 0 else (s.hpt.counters.get n).count.toNat + 1) ∧
    (((countUp n s).hpt.counters.get n).overflow =
        ((s.hpt.counters.get n).overflow || decide ((s.hpt.counters.get n).count.toNat = 32767))) ∧
    ∀ m, m ≠ n → (countUp n s).hpt.counters.get m = s.hpt.counters.get m

/-- A write of a flags word clears each sticky flag whose position holds 1 and leaves the others; 1 at ITEM_CLASH also clears the CLASH
MARK of every owned item. Each flag stands at its position of its flags word, CHANGES and SAMPLES following their collections; the
summaries and INT are true exactly while an enabled flag is. The host reads VIEW PART, the two flags words, the two masks as they are
stored, and the summary word, with 0 in every spare bit. -/
def Obligations.FlagsClearAndDriveInt : Prop :=
  ∀ (s : State) (v : Word),
    (portFree s →
      exec (.flagsClear .ordinary v) s =
        .next
          { s with
            hpt.flags := { s.hpt.flags with
              requestDone := s.hpt.flags.requestDone && !v.getLsbD 0
              requestsIdle := s.hpt.flags.requestsIdle && !v.getLsbD 1
              gateApplied := s.hpt.flags.gateApplied && !v.getLsbD 2
              peerJoined := s.hpt.flags.peerJoined && !v.getLsbD 3 } } ∧
      ∃ t, exec (.flagsClear .fault v) s = .next t ∧
        t = { s with hpt.flags := t.hpt.flags, imu.items := t.imu.items } ∧
        t.hpt.flags =
          { s.hpt.flags with
            peerLost := s.hpt.flags.peerLost && !v.getLsbD 0
            itemClash := s.hpt.flags.itemClash && !v.getLsbD 1
            identityClash := s.hpt.flags.identityClash && !v.getLsbD 2
            guardTrip := s.hpt.flags.guardTrip && !v.getLsbD 3
            receiveOverrun := s.hpt.flags.receiveOverrun && !v.getLsbD 4
            sampleOverrun := s.hpt.flags.sampleOverrun && !v.getLsbD 5
            planMismatch := s.hpt.flags.planMismatch && !v.getLsbD 6 } ∧
        t.imu.items =
          if v.getLsbD 1 then
            s.imu.items.map fun it => { it with owned := it.owned.map fun o => { o with clashMark := false } }
          else s.imu.items) ∧
    (List.range 16).map (ordinaryFlagsWord s).getLsbD =
      [s.hpt.flags.requestDone, s.hpt.flags.requestsIdle, s.hpt.flags.gateApplied, s.hpt.flags.peerJoined,
        !s.imu.changes.isEmpty, !s.stu.queue.isEmpty] ++ List.replicate 10 false ∧
    (List.range 16).map (faultFlagsWord s).getLsbD =
      [s.hpt.flags.peerLost, s.hpt.flags.itemClash, s.hpt.flags.identityClash, s.hpt.flags.guardTrip, s.hpt.flags.receiveOverrun,
        s.hpt.flags.sampleOverrun, s.hpt.flags.planMismatch] ++ List.replicate 9 false ∧
    (ordinarySummary s = true ↔ ∃ b < 6, (ordinaryFlagsWord s).getLsbD b = true ∧ s.hpt.ordinaryMask.getLsbD b = true) ∧
    (faultSummary s = true ↔ ∃ b < 7, (faultFlagsWord s).getLsbD b = true ∧ s.hpt.faultMask.getLsbD b = true) ∧
    (intAsserted s = true ↔ ordinarySummary s = true ∨ faultSummary s = true) ∧
    (s.stc.inReset = false →
      windowWord s 0x3009#16 = (match s.hpt.viewPart with | .visible => 0 | .pending => 1) ∧
      windowWord s 0x300A#16 = ordinaryFlagsWord s ∧ windowWord s 0x300B#16 = faultFlagsWord s ∧
      windowWord s 0x300C#16 = s.hpt.ordinaryMask.setWidth 16 ∧ windowWord s 0x300D#16 = s.hpt.faultMask.setWidth 16 ∧
      (List.range 16).map (windowWord s 0x300E#16).getLsbD =
        [ordinarySummary s, faultSummary s, intAsserted s] ++ List.replicate 13 false)

/-- Writes to the plan window and STARTs, by the station state and the check in flight. -/
def Obligations.PlanWindowWriteAndStart : Prop :=
  ∀ (s : State) (k : Fin 1032) (v : Word), portFree s →
    (s.stc.station = .planWait ∨ s.stc.station = .planFault → s.stc.checking = false →
      exec (.planWindowWrite k v) s = .next { s with stc.window := s.stc.window.write k.val v } ∧
      exec .start s = .next { s with stc.checking := true }) ∧
    (s.stc.station = .planWait ∨ s.stc.station = .planFault → s.stc.checking = true →
      exec (.planWindowWrite k v) s = .next { s with hpt.held := some { access := .planWrite k v, released := false } } ∧
      exec .start s = .next s) ∧
    (s.stc.station ≠ .planWait → s.stc.station ≠ .planFault →
      exec (.planWindowWrite k v) s = .next s ∧ exec .start s = .next s)

/-- A write to staging, the request ring or the notify map is stored and reads back, and changes no other word of the window; masks and VIEW
PART are stored and read back as written, with 0 in their spare bits; a write to any other word without behaviour of its own is ignored. -/
def Obligations.HostRegisterWrites : Prop :=
  ∀ (s : State) (a v : Word), portFree s → StoresCanonical s →
    (0x2000 ≤ a.toNat → a.toNat ≤ 0x249F → ∃ t, exec (.hostRegisterWrite a v) s = .next t ∧ windowWord t a = v ∧
      (∀ b, b ≠ a → windowWord t b = windowWord s b) ∧
      t = { s with hpt.staging := t.hpt.staging, hpt.notify := t.hpt.notify, req.ring := t.req.ring }) ∧
    (∀ t, t = { s with hpt.viewPart := if v.getLsbD 0 then .pending else .visible } →
      exec (.hostRegisterWrite 0x3009#16 v) s = .next t ∧ windowWord t 0x3009#16 = v &&& 1#16) ∧
    (∀ t, t = { s with hpt.ordinaryMask := v.setWidth 6 } →
      exec (.hostRegisterWrite 0x300C#16 v) s = .next t ∧ windowWord t 0x300C#16 = v &&& 0x3F#16) ∧
    (∀ t, t = { s with hpt.faultMask := v.setWidth 7 } →
      exec (.hostRegisterWrite 0x300D#16 v) s = .next t ∧ windowWord t 0x300D#16 = v &&& 0x7F#16) ∧
    (a.toNat ≤ 0x1FFF ∨ (0x24A0 ≤ a.toNat ∧ a.toNat ≤ 0x27FF) ∨ (0x2C08 ≤ a.toNat ∧ a.toNat ≤ 0x3004) ∨ a = 0x3007#16 ∨
        0x300E ≤ a.toNat →
      exec (.hostRegisterWrite a v) s = .next s)

/-- A held access is released by the end of the operation that held it, and is then served, once. A word-0 read of slot k is released by
REMOTE_RECORD and SELF_RECORD where the first record in hand is of slot k, and by GATE_APPLICATION_END of its item's group; the end of any
other record or gate application leaves it held. A sample view read is released by the REMOTE_RECORD in hand, a plan window
write by PLAN_CHECK_END, and neither by a gate. When a record's application is in flight is the model's reading (assumption log 10), and so
are when a sample view read is held (log 11) and that no step of the IMU has an effect while a released read waits (log 12). -/
def Obligations.HeldAccessServedOnce : Prop :=
  ∀ s : State,
    (∀ (k : Fin 512) (held : Bool → Option HeldAccess), (∀ b, held b = some { access := .viewWord0 k, released := b }) →
      s.hpt.held = held false → receiving s = true →
      (∀ r rest released, released = decide (findSlot s.imu.items r.item = some k.val) →
        (∀ sender, s.imu.work = .remoteRecords sender (r :: rest) → ∀ read, ∃ t,
          exec (.remoteRecord read) s = .next t ∧ t.hpt.held = held released) ∧
        (s.imu.work = .selfRecords (r :: rest) → ∃ t, exec .selfRecord s = .next t ∧ t.hpt.held = held released)) ∧
      ∀ m g, s.imu.work = .gate m g → (∀ it ∈ s.imu.items, it.plan.gate = some g → it.pendingPart = none) →
        ∃ t, exec .gateApplicationEnd s = .next t ∧
          ((∃ it, s.imu.items[k.val]? = some it ∧ it.plan.gate = some g) → t.hpt.held = held true) ∧
          (¬(∃ it, s.imu.items[k.val]? = some it ∧ it.plan.gate = some g) → t.hpt.held = held false)) ∧
    (∀ w, s.hpt.held = some { access := .sampleWord w, released := false } → receiving s = true →
      (∀ sender r rest read, s.imu.work = .remoteRecords sender (r :: rest) → ∃ t, exec (.remoteRecord read) s = .next t ∧
        t.hpt.held = some { access := .sampleWord w, released := true }) ∧
      ∃ t, exec .gateApplicationEnd s = .next t ∧ t.hpt.held = s.hpt.held) ∧
    (∀ k v, s.hpt.held = some { access := .planWrite k v, released := false } →
      (s.stc.checking = true → ∃ t, exec .planCheckEnd s = .next t ∧
        t.hpt.held = some { access := .planWrite k v, released := true }) ∧
      ∃ t, exec .gateApplicationEnd s = .next t ∧ t.hpt.held = s.hpt.held) ∧
    (∀ k, s.hpt.held = some { access := .viewWord0 k, released := true } →
      exec .heldAccessServed s =
        .next
          { s with
            hpt.held := none
            hpt.latch := { slot := some k, words := (List.range 16).map (itemViewWord s k.val) }
            hpt.readData := itemViewWord s k.val 0 } ∧
      ∀ c, isImageCommand c = true → exec c s = .next s) ∧
    (∀ w, s.hpt.held = some { access := .sampleWord w, released := true } →
      exec .heldAccessServed s = .next { s with hpt.held := none, hpt.readData := sampleViewWord s w.val } ∧
      ∀ c, isImageCommand c = true → exec c s = .next s) ∧
    (∀ k v, s.hpt.held = some { access := .planWrite k v, released := true } →
      (s.stc.station = .planFault →
        exec .heldAccessServed s = .next { s with hpt.held := none, stc.window := s.stc.window.write k.val v }) ∧
      (receiving s = true → exec .heldAccessServed s = .next { s with hpt.held := none })) ∧
    ((s.hpt.held = none ∨ ∃ a, s.hpt.held = some { access := a, released := false }) → exec .heldAccessServed s = .next s) ∧
    ∀ (c : Instr) (t : State), isReset c = false → c ≠ .heldAccessServed → exec c s = .next t →
      (∀ a, s.hpt.held = some { access := a, released := true } → t.hpt.held = s.hpt.held) ∧
      (∀ k, s.hpt.held = some { access := .viewWord0 k, released := false } →
        (∀ read, c ≠ .remoteRecord read) → c ≠ .selfRecord → c ≠ .gateApplicationEnd → t.hpt.held = s.hpt.held) ∧
      (∀ w, s.hpt.held = some { access := .sampleWord w, released := false } → (∀ read, c ≠ .remoteRecord read) →
        t.hpt.held = s.hpt.held) ∧
      (∀ k v, s.hpt.held = some { access := .planWrite k v, released := false } → c ≠ .planCheckEnd → t.hpt.held = s.hpt.held) ∧
      (s.hpt.held = none → (∀ k, c ≠ .itemViewWord0Read k) → (∀ w, c ≠ .remoteRecord (some w)) → (∀ k v, c ≠ .planWindowWrite k v) →
        (∀ a v, c ≠ .hostRegisterWrite a v) → t.hpt.held = none)

/-! ## Plan and start -/

/-- A plan read, clocked from its start: 24 clocks send 0x03, 0x00, 0x00, most significant bit first, and the bytes taken in behind them,
most significant bit first, form the words of the window, high byte first, each written as it is formed. A bad header stops the read with
its code, the last entry word ends it and begins the plan check, and short of that it is in flight; a read may be clocked in parts. That the
levels come with the one command of the table, and may stop short of the end, is the model's choice (assumption log 15). -/
def Obligations.PlanReadEnds : Prop :=
  readCommand = [0x03, 0x00, 0x00].flatMap (fun b : Byte => (List.range 8).map fun k => b.getLsbD (7 - k)) ∧
  (∀ (s : State) (first second : List Bool), ∃ t, exec (.planReadEnd first) s = .next t ∧
    exec (.planReadEnd (first ++ second)) s = exec (.planReadEnd second) t) ∧
  (∀ (s : State) (n : Nat) (levels : List Bool), s.stc.planRead = some { clocks := n, shift := [] } → n + levels.length ≤ 24 →
    exec (.planReadEnd levels) s =
      .next { s with stc.planRead := some { clocks := n + levels.length, shift := [] } } ∧
    planOutput s = readCommand[n]? ∧ planSelect s = false) ∧
  ∀ (s : State) (bytes : List Byte), s.stc.planRead = some { clocks := 24, shift := [] } → StoresCanonical s →
    ∃ t, exec (.planReadEnd (bytes.flatMap fun b => (List.range 8).map fun k => b.getLsbD (7 - k))) s = .next t ∧
      t = { s with stc := t.stc } ∧ planOutput s = none ∧
      let formed := fun k : Nat => wordOf (bytes.getD (2 * k) 0) (bytes.getD (2 * k + 1) 0)
      let holds := fun n : Nat => ∀ k, t.stc.window.read k = if k < n then formed k else s.stc.window.read k
      (bytes.length < 16 → holds (bytes.length / 2) ∧
        t.stc = { s.stc with window := t.stc.window, planRead := t.stc.planRead } ∧ planSelect t = false) ∧
      (16 ≤ bytes.length →
        (∀ code, headerFault t.stc.window = some code → holds 8 ∧ planSelect t = true ∧
          t.stc = { s.stc with
            station := .planFault, faultCode := code, faultEntry := none, planRead := none, window := t.stc.window }) ∧
        (headerFault t.stc.window = none →
          (bytes.length < 16 + 4 * planCount t.stc.window → holds (bytes.length / 2) ∧
            t.stc = { s.stc with window := t.stc.window, planRead := t.stc.planRead } ∧ planSelect t = false) ∧
          (16 + 4 * planCount t.stc.window ≤ bytes.length → holds (8 + 2 * planCount t.stc.window) ∧ planSelect t = true ∧
            t.stc = { s.stc with checking := true, planRead := none, window := t.stc.window })))

/-- The tests of the plan check in their order, the last two in one pass over the entries. An entry is bad by its fields as table 11-7
places them: OWNER above 31, LENGTH 0 or above 8, GROUP above 3, a GROUP in a FOLLOW entry, STREAM and GATED together, or a spare bit. -/
def Obligations.PlanCheckTestsInOrder : Prop :=
  ∀ m : WordStore,
    let word := fun k => (m.read k).toNat
    let marked := word 0 = 0x7A41 ∧ word 2 / 8 = 0 ∧ word 3 / 256 = 0 ∧ word 4 / 256 = 0 ∧ word 5 / 256 = 0 ∧ word 6 = 0
    let n := word 1
    let counted := 1 ≤ n ∧ n ≤ 512
    let summed := ((List.range (8 + 2 * n)).map word).sum % 65536 = 0
    let timed := word 2 ≤ 3 ∧ word 3 ≠ 0 ∧ 2 * word 3 ≤ 8 * word 4
    let item := fun k => word (8 + 2 * k) / 16
    let length := fun k => word (8 + 2 * k) % 16
    let owner := fun k => word (9 + 2 * k) % 64
    let stream := fun k => word (9 + 2 * k) / 64 % 2
    let gated := fun k => word (9 + 2 * k) / 128 % 2
    let group := fun k => word (9 + 2 * k) / 256 % 8
    let bad := fun k => 31 < owner k ∨ length k = 0 ∨ 8 < length k ∨ 3 < group k ∨ (gated k = 0 ∧ group k ≠ 0) ∨
      (stream k = 1 ∧ gated k = 1) ∨ word (9 + 2 * k) / 2048 ≠ 0
    let good := fun k => ¬bad k ∧ (1 ≤ k → item (k - 1) < item k)
    (¬marked → planCheck m = some (.noPlan, none)) ∧
    (marked → ¬counted → planCheck m = some (.badCount, none)) ∧
    (marked → counted → ¬summed → planCheck m = some (.badCheck, none)) ∧
    (marked → counted → summed → ¬timed → planCheck m = some (.badTiming, none)) ∧
    (marked → counted → summed → timed →
      (∀ k < n, (∀ j < k, good j) → bad k → planCheck m = some (.badEntry, some k)) ∧
      (∀ k < n, (∀ j < k, good j) → ¬bad k → 1 ≤ k → item k ≤ item (k - 1) → planCheck m = some (.badOrder, some k)) ∧
      ((∀ k < n, good k) → planCheck m = none))

/-- A plan check ends: a failed plan puts the station in PLAN_FAULT with code and entry; a good one puts it in JOINING with the plan in
use, the join timer started with L, the line receiver in SETTLE, and one item record per entry at its start values. The figures of the plan
and the fields of its entries are those of the window words by tables 11-6 and 11-7, L in steps of 8 ms. -/
def Obligations.PlanCheckEnds : Prop :=
  ∀ s : State, s.stc.checking = true → ∃ t, exec .planCheckEnd s = .next t ∧
    t = { s with stc := t.stc, lrx := t.lrx, imu.items := t.imu.items, hpt.held := t.hpt.held } ∧
    (∀ k v, s.hpt.held = some { access := .planWrite k v, released := false } →
      t.hpt.held = some { access := .planWrite k v, released := true }) ∧
    (∀ code entry, planCheck s.stc.window = some (code, entry) →
      t.stc = { s.stc with station := .planFault, faultCode := code, faultEntry := entry, checking := false } ∧ t.lrx = s.lrx ∧
      t.imu.items = s.imu.items) ∧
    (planCheck s.stc.window = none →
      let word := fun k => (s.stc.window.read k).toNat
      t.stc = { s.stc with
        station := .joining, faultCode := .none, faultEntry := none, checking := false,
        plan := some { count := word 1, rate := word 2, presence := word 3, lostTimeout := 8 * word 4, refresh := word 5,
                       check := s.stc.window.read 7 },
        joinTimer := some (8 * word 4) } ∧
      lostTimeout t = 8 * word 4 ∧ presenceInterval t = word 3 ∧ refreshSpacing t = word 5 ∧
      planCheckWord t = s.stc.window.read 7 ∧
      t.lrx = { s.lrx with assembly := .settle, line := .busy } ∧
      t.imu.items.length = word 1 ∧
      ∀ k, k < word 1 → ∃ it, t.imu.items[k]? = some it ∧
        it.plan.item.toNat = word (8 + 2 * k) / 16 ∧ it.plan.length = word (8 + 2 * k) % 16 ∧
        it.plan.owner.val = word (9 + 2 * k) % 64 ∧
        (it.plan.kind = .stream ↔ word (9 + 2 * k) / 64 % 2 = 1) ∧
        it.plan.gate.map Fin.val =
          (if word (9 + 2 * k) / 128 % 2 = 1 then some (word (9 + 2 * k) / 256 % 8) else none) ∧
        it.visiblePart = none ∧ it.pendingPart = none ∧ it.baselineOpen = true ∧
        (if it.plan.owner = stationNumber s then
            it.condition = .unset ∧ it.owned = some { clashMark := false, lastIssued := 65535 } ∧ it.stream = none
          else
            it.condition = .vacant ∧ it.owned = none ∧
            it.stream = if it.plan.kind = .stream then some { lastQueued := none, firstOwed := false } else none))

/-- The join timer expires in JOINING: the station is ACTIVE. Unless strapped LISTEN it offers its FIRST presence frame, which stands
alone in the queue, starts its refresh timer at S 1 to 255, and its transmitter leaves OFF; under LISTEN nothing of its sending side
changes. A RUNNING process that has waited examines the cursor slot: HOST-owned, refused, or closed SILENT under LISTEN; otherwise the slot
is in progress and its first frame waits behind the FIRST frame. A process that is STOPPED or SUSPENDED stays so. -/
def Obligations.JoinTimerExpires : Prop :=
  ∀ s : State, s.stc.station = .joining → s.stc.joinTimer.isSome = true → s.lau.queue = [] → s.lau.lastCompleted = none →
    s.tsc.presenceOutstanding = false → ∃ t, exec .joinTimerExpiry s = .next t ∧
      t.stc = { s.stc with station := .active, joinTimer := none } ∧ t.lrx = s.lrx ∧ t.pmn = s.pmn ∧ t.stu = s.stu ∧
      (s.stc.straps.listen = true → t.tsc = s.tsc ∧ t.lau.queue = [] ∧
        (s.lau.transmitter = .off → t.lau.transmitter = .off)) ∧
      (s.stc.straps.listen = false →
        t.lau.queue =
          [{ source := .presence, sender := stationNumber s, first := true, refresh := false,
             body := .presence ((s.stc.plan.map Plan.check).getD 0) }] ∧
        t.lau.transmitter =
          (if s.lrx.queue.length < 4 then (if s.lrx.line = .quiet then .gap else .defer) else .idle) ∧
        t.tsc =
          { s.tsc with
            cursor := 0, firstPending := true, presenceOutstanding := true
            refreshTimer := match s.stc.plan.map Plan.refresh with
              | none => .stopped
              | some 0 => .stopped
              | some n => .running n }) ∧
      (s.req.slot = none →
        (s.req.process ≠ .running → t.req = s.req) ∧
        (s.req.process = .running → CursorSlotExamined s t) ∧
        (s.req.process = .running → s.stc.straps.listen = false → s.lau.reqOffer = none → (cursorCopy s).stationOwned = true →
          slotCheck s (cursorCopy s) = none → ∃ w f, t.req = { s.req with slot := some w } ∧ t.lau.reqOffer = some f ∧
          f.source = .req ∧ w.frames = 1 ∧ w.outstanding = 1 ∧ w.lost = 0 ∧ w.halted = false ∧
          (∀ g : Group, (cursorCopy s).kind = some .gate → (cursorCopy s).group = g.val → f.body = .gate g ∧ w.remaining = 0) ∧
          ((cursorCopy s).kind ≠ some .gate → BuiltFrames s t
            { todo := (if (cursorCopy s).kind = some .stream then
                  (namedSlots s (cursorCopy s)).flatMap (List.replicate (cursorCopy s).count)
                else namedSlots s (cursorCopy s)),
              gate := none, offset := (cursorCopy s).offset, frames := 0, outstanding := 0, lost := 0, halted := false } w 1)))

/-! ## The line receiver -/

/-- The line state and what follows it at the receiver and at a waiting transmitter; and the start pattern, found where the bits heard first
hold it, and nowhere else. That QUIET leaves ASSEMBLE to FRAME_END is the model's choice (assumption log 16), and that it does not arise
while the driver is on is read from the rules (assumption log 17). -/
def Obligations.LineStateChanges : Prop :=
  ∀ s : State,
    (s.lrx.line = .quiet → s.lrx.assembly ≠ .off → s.lrx.assembly ≠ .assemble →
      exec .lineBusy s =
        .next
          { s with
            lrx.line := .busy
            lrx.assembly := if s.lrx.assembly = .idle then .hunt else s.lrx.assembly
            lau.transmitter := if s.lau.transmitter = .gap then .defer else s.lau.transmitter }) ∧
    (s.lrx.line = .busy → s.lrx.assembly ≠ .off → s.lau.driver = false →
      exec .lineQuiet s =
        .next
          { s with
            lrx.line := .quiet
            lrx.assembly := (if s.lrx.assembly = .assemble then .assemble else .idle)
            lau.transmitter := if s.lau.transmitter = .defer then .gap else s.lau.transmitter }) ∧
    (s.lrx.assembly = .hunt → ∀ (before : Bool) (bits : List Bool),
      let pattern := [true, true, false, false, true, false, true, true]
      (∀ n, bits.drop n = pattern → (∀ m < n, (bits.drop m).take 8 ≠ pattern) →
        exec (.startPatternFound { before := before, cells := encodeCells before bits }) s =
          .next { s with lrx.assembly := .assemble }) ∧
      ((∀ m, (bits.drop m).take 8 ≠ pattern) →
        exec (.startPatternFound { before := before, cells := encodeCells before bits }) s = .next s))

/-- A frame that ends is bad and counted, or dropped and counted at a full receive queue, or queued at the tail; the receiver is IDLE. What
is checked is what the cells assemble to: bytes of eight bits, least significant first, at most 166 of them kept, with a mark for a 167th,
for bits left over, and for a cell that cannot be decoded. A frame is bad exactly when it bears a mark, has fewer than 8 bytes, a wrong
check, an invalid KIND, a SENDER above 31, a spare CONTROL bit, FIRST or REFRESH in a wrong kind, a wrong RECORD COUNT, a LENGTH not 1 to 8,
a GROUP above 3, or bytes too few or too many; `start j` is the byte at which record j starts. An accepted frame has the
fields that its bytes hold by tables 11-2 to 11-5. The check is the CRC of R68. That a cell with
no transition at its start cannot be decoded is DEDUCED, and that FRAME_END makes the line QUIET itself is the model's choice (both
assumption log 16); so is that the bit times without a transition before QUIET are no cells of the frame (assumption log 31). -/
def Obligations.FrameEndChecksFrame : Prop :=
  (∀ (s base : State) (heard : Heard) (waits : Bool), s.lrx.assembly = .assemble →
    base =
      { s with
        lrx.line := .quiet
        lrx.assembly := .idle
        lau.transmitter := if s.lau.transmitter = .defer then .gap else s.lau.transmitter } →
    (acceptFrame (assembleFrame heard) = none → exec (.frameEnd heard waits) s = .next (countUp .badFrames base)) ∧
    (∀ f, acceptFrame (assembleFrame heard) = some f → f.sender ≠ stationNumber s →
      f.mark = .remote ∧
      (s.lrx.queue.length < 4 → exec (.frameEnd heard waits) s = .next { base with lrx.queue := s.lrx.queue ++ [f] }) ∧
      (4 ≤ s.lrx.queue.length →
        exec (.frameEnd heard waits) s = .next (raiseFlag .receiveOverrun (countUp .rxOverruns base))))) ∧
  (∀ (before : Bool) (bytes : List Byte) (extra : List Bool), extra.length < 8 →
    assembleFrame ⟨before, encodeCells before ((bytes.flatMap fun b => (List.range 8).map fun k => b.getLsbD k) ++ extra)⟩ =
      { bytes := bytes.take 166, tooLong := decide (166 < bytes.length ∨ bytes.length = 166 ∧ extra ≠ []), codingBad := false,
        partialByte := decide (extra ≠ []) }) ∧
  (∀ (heard : HeardFrame) (start : Nat → Nat),
    let n := heard.bytes.length
    let byte := fun k => (heard.bytes.getD k 0).toNat
    let count := byte 3 % 16
    start 0 = 4 → (∀ j < 15, start (j + 1) = start j + 4 + 2 * (byte (start j + 1) % 16)) →
    (acceptFrame heard = none ↔
      heard.tooLong = true ∨ heard.codingBad = true ∨ heard.partialByte = true ∨ n < 8 ∨
        256 * byte (n - 2) + byte (n - 1) ≠ (crc (heard.bytes.take (n - 2))).toNat ∨
        (byte 0 ≠ 0x51 ∧ byte 0 ≠ 0x52 ∧ byte 0 ≠ 0x53) ∨ 31 < byte 1 ∨ byte 3 / 16 % 4 ≠ 0 ∨
        (byte 3 / 128 = 1 ∧ byte 0 ≠ 0x53) ∨ (byte 3 / 64 % 2 = 1 ∧ byte 0 ≠ 0x51) ∨
        (byte 0 = 0x51 ∧ (count = 0 ∨ 8 < count ∨
          (∃ j < count, byte (start j + 1) % 16 = 0 ∨ 8 < byte (start j + 1) % 16) ∨ start count ≠ n - 2)) ∨
        (byte 0 = 0x52 ∧ (count ≠ 0 ∨ 3 < byte 4 ∨ n ≠ 8)) ∨ (byte 0 = 0x53 ∧ (count ≠ 0 ∨ n ≠ 8))) ∧
    ∀ f, acceptFrame heard = some f →
      f.mark = .remote ∧ f.sender.val = byte 1 ∧ f.sequence.toNat = byte 2 ∧ (f.first = true ↔ byte 3 / 128 = 1) ∧
      (byte 0 = 0x51 → ∃ records, f.body = .update records ∧ records.length = count ∧
        ∀ j (r : Record), records[j]? = some r →
          16 * r.item.toNat + r.value.length = 256 * byte (start j) + byte (start j + 1) ∧
          r.version.toNat = 256 * byte (start j + 2) + byte (start j + 3) ∧
          ∀ k (v : Word), r.value[k]? = some v →
            v.toNat = 256 * byte (start j + 4 + 2 * k) + byte (start j + 5 + 2 * k)) ∧
      (byte 0 = 0x52 → ∃ g q, f.body = .gate g q ∧ g.val = byte 4 ∧ q.toNat = byte 5) ∧
      (byte 0 = 0x53 → ∃ check, f.body = .presence check ∧ check.toNat = 256 * byte 4 + byte 5)) ∧
  (crc [] = 0xFFFF#16 ∧ ∀ (bytes : List Byte) (b : Byte), crc (bytes ++ [b]) =
    Nat.repeat (fun r : Word => if r.getLsbD 15 then (r <<< 1) ^^^ 0x1021#16 else r <<< 1) 8 (crc bytes ^^^ (b ++ 0#8))) ∧
  ∀ (before level : Bool) (early late : List LineCell) (second : Bool),
    level = (match early.getLast? with | none => before | some cell => cell.secondHalf) →
    acceptFrame (assembleFrame { before := before, cells := early ++ { firstHalf := level, secondHalf := second } :: late }) = none

/-- An accepted frame that bears this station's number is discarded and IDENTITY_CLASH raised. Its notice, taken at once or when it has
waited (which is on an empty queue, assumption log 28), puts a station in JOINING or ACTIVE in MUTED with cause IDENTITY: any attempt cut,
its queue abandoned and counted, its offers answered, its slot in progress closed with their records lost, its timers stopped. GUARD_TRIP is
not raised. In MUTED the notice changes nothing and the cause stays. -/
def Obligations.IdentityClashMutes : Prop :=
  ∀ s : State, OutcomeRules s →
    (∀ (heard : Heard) (waits : Bool) (f : Frame), s.lrx.assembly = .assemble → acceptFrame (assembleFrame heard) = some f →
      f.sender = stationNumber s → ∃ t, exec (.frameEnd heard waits) s = .next t ∧
        t.hpt.flags = { s.hpt.flags with
          identityClash := true, requestDone := t.hpt.flags.requestDone, requestsIdle := t.hpt.flags.requestsIdle } ∧
        t.lrx = { s.lrx with line := .quiet, assembly := .idle } ∧ t.pmn = s.pmn ∧ t.stu = s.stu ∧ t.imu = s.imu ∧
        (∀ n, n ≠ .abandoned → t.hpt.counters.get n = s.hpt.counters.get n) ∧
        (waits = true → t.stc = { s.stc with clashNotice := true } ∧ t.req = s.req ∧ t.tsc = s.tsc ∧
          t.lau = { s.lau with transmitter := if s.lau.transmitter = .defer then .gap else s.lau.transmitter }) ∧
        (waits = false → s.stc.station = .muted → t.stc = { s.stc with clashNotice := false } ∧ t.req = s.req ∧ t.tsc = s.tsc ∧
          t.lau = { s.lau with transmitter := if s.lau.transmitter = .defer then .gap else s.lau.transmitter } ∧
          t.hpt = { s.hpt with flags := { s.hpt.flags with identityClash := true } }) ∧
        (waits = false → s.stc.station = .joining ∨ s.stc.station = .active → MuteEffects .identity s t ∧
          t.stc.clashNotice = false)) ∧
    (s.pending = [] → s.stc.clashNotice = true →
      (s.stc.station = .joining ∨ s.stc.station = .active → ∃ t, step s = .next t ∧ MuteEffects .identity s t ∧
        t.stc.clashNotice = false ∧ t.lrx = s.lrx ∧ t.pmn = s.pmn ∧ t.stu = s.stu ∧ t.imu = s.imu ∧
        t.hpt.flags = { s.hpt.flags with
          requestDone := t.hpt.flags.requestDone, requestsIdle := t.hpt.flags.requestsIdle }) ∧
      (s.stc.station ≠ .joining → s.stc.station ≠ .active → step s = .next { s with stc.clashNotice := false }))

/-- A frame as an attempt drives it, cell by cell, is heard whole by every receiver: the start pattern is found at its 24th cell, and the
cells behind it are accepted, with the sender, sequence, FIRST, records, gate or plan check that were sent. REFRESH and the check are
not part of what is read back. -/
def Obligations.SentFramesAreAccepted : Prop :=
  ∀ (s : State) (rest : Bool) (f : TxFrame),
    (∀ r ∈ f.body.records, 1 ≤ r.value.length ∧ r.value.length ≤ 8) →
    (∀ records, f.body = .update records → 1 ≤ records.length ∧ records.length ≤ 8) →
    (f.first = true → ∃ check, f.body = .presence check) → (f.refresh = true → ∃ records, f.body = .update records) →
    ∃ early late : List LineCell, (sentFrame s rest f).cells = early ++ late ∧ early.length = 24 ∧
      huntStart (heardBits { before := rest, cells := early }) = some [] ∧
      ∃ last, early.getLast? = some last ∧
        acceptFrame (assembleFrame { before := last.secondHalf, cells := late }) =
          some { mark := .remote, sender := f.sender, sequence := nextSequence s, first := f.first, body := sentBody s f.body }

/-! ## The transmitter -/

/-- The gap ends: with a head frame and a free receive queue entry an attempt begins, with SEQUENCE, GATE SEQUENCE and check filled afresh,
the driver and the guard on and the receiver in OWN; with the receive queue full the transmitter waits in IDLE. What the attempt drives is
the lead-in, the start pattern and the frame's bytes, by tables 11-2 to 11-5 and with the check behind them high byte first, least
significant bit first, in biphase-mark cells that begin against the level the line rests at. That the line is BUSY from that moment is read
from the rules (assumption log 17). -/
def Obligations.GapEndBeginsAttempt : Prop :=
  ∀ (s : State) (f : TxFrame) (others : List TxFrame) (rest : Bool), s.lau.transmitter = .gap → s.lrx.assembly ≠ .assemble →
    s.lau.queue = f :: others →
    (4 ≤ s.lrx.queue.length → exec (.gapEnd rest) s = .next { s with lau.transmitter := .idle }) ∧
    (s.lrx.queue.length < 4 → ∀ (q : Byte) (body : Body) (a : SentFrame),
      q = (match s.lau.lastCompleted with | none => 0 | some last => last + 1) →
      body =
        (match f.body with
          | .update records => .update records
          | .presence check => .presence check
          | .gate g => .gate g (match s.imu.heldGate[g] with | none => 0 | some held => held + 1)) →
      a = { sender := f.sender, sequence := q, first := f.first, refresh := f.refresh, body := body,
            check := crc (frameBytes f.sender q f.first f.refresh body), rest := rest } →
      exec (.gapEnd rest) s =
        .next
          { s with
            lau.attempts := s.lau.attempts + 1
            lau.attempt := some a
            lau.driver := true
            lau.guard := true
            lau.transmitter := .send
            lrx.assembly := .own
            lrx.line := .busy } ∧
      ((∀ r ∈ f.body.records, r.value.length ≤ 8) → f.body.records.length ≤ 8 →
        (a.lineBytes.take (a.lineBytes.length - 2)).map BitVec.toNat =
          [(match body with | .update _ => 0x51 | .gate _ _ => 0x52 | .presence _ => 0x53), f.sender.val, q.toNat,
            128 * f.first.toNat + 64 * f.refresh.toNat + f.body.records.length] ++
          (match body with
            | .update records => records.flatMap fun r =>
              [r.item.toNat / 16, r.item.toNat % 16 * 16 + r.value.length, r.version.toNat / 256, r.version.toNat % 256] ++
                r.value.flatMap fun v => [v.toNat / 256, v.toNat % 256]
            | .gate g number => [g.val, number.toNat]
            | .presence check => [check.toNat / 256, check.toNat % 256])) ∧
      ∃ bits : List Bool, a.cells.length = bits.length ∧ bits.length = 24 + 8 * a.lineBytes.length ∧
        a.lineBytes = frameBytes f.sender q f.first f.refresh body ++ [a.check.extractLsb' 8 8, a.check.extractLsb' 0 8] ∧
        bits.take 24 = [true, false, true, false, true, false, true, false, true, false, true, false, true, false, true, false,
          true, true, false, false, true, false, true, true] ∧
        (∀ j b, a.lineBytes[j]? = some b → ∀ k < 8, bits[24 + 8 * j + k]? = some (b.getLsbD k)) ∧
        ∀ k cell bit, a.cells[k]? = some cell → bits[k]? = some bit →
          some cell.firstHalf = ((if k = 0 then some rest else a.cells[k - 1]?.map LineCell.secondHalf).map not) ∧
          cell.secondHalf = (if bit then !cell.firstHalf else cell.firstHalf))

/-- A cell sensed that differs from the one driven is a collision, in the frame's own cells or, where the drive does not end with them,
behind them up to the cell in which the guard expires, and cells that agree are none: the driver off, the guard stopped so that it does not
trip, and COLLISIONS counted. That the cells driven behind the frame come with the command is the model's choice (assumption log 32). At
attempts 1 to 11 a backoff of n slots of 128 bit times, n below 2 to the smaller of the attempt count and 7, at whose end, whatever has come
meanwhile, the transmitter goes to GAP or DEFER by the line; at attempt 12 the head frame is abandoned and counted and its source is told: a
slot with other outcomes still to come adds its records to those lost, and PRESENCE OUTSTANDING is cleared, a presence frame being offered
again while FIRST PENDING or with the presence timer EXPIRED. The transmitter then leaves IDLE as R85 has it, and where the queue is empty
and no other frame comes into it a due refresh frame is built. -/
def Obligations.CollisionBacksOffOrAbandons : Prop :=
  (∀ s : State, s.lau.transmitter = .backoff →
    exec .backoffEnd s =
      .next { s with lau.backoff := none, lau.transmitter := if s.lrx.line = .quiet then .gap else .defer }) ∧
  ∀ (s : State) (f : TxFrame) (rest : List TxFrame) (a : SentFrame) (sensed beyond drive : List LineCell), s.lau.transmitter = .send →
    s.lau.queue = f :: rest → s.lau.attempt = some a → drive = a.cells ++ beyond →
    (sensed <+: drive ∨ 2048 < sensed.length → exec (.collision sensed beyond) s = .next s) ∧
    ∀ (n : Nat) (driven heard : LineCell), n < 2048 → drive[n]? = some driven → sensed = drive.take n ++ [heard] → heard ≠ driven →
    (∀ t, exec (.collision sensed beyond) s = .next t → exec .guardExpiry t = .next t) ∧
    (s.lau.attempts < 12 → ∃ n, n < 2 ^ min s.lau.attempts 7 ∧
      exec (.collision sensed beyond) s =
        .next
          { countUp .collisions s with
            lau.driver := false, lau.guard := false, lau.attempt := none, lau.transmitter := .backoff,
            lau.backoff := some (n * 128), freeCount := s.freeCount + 1 }) ∧
    (12 ≤ s.lau.attempts → ∃ t, exec (.collision sensed beyond) s = .next t ∧ t.lau.driver = false ∧ t.lau.guard = false ∧
      t.lau.attempt = none ∧ t.lau.attempts = 0 ∧ t.lau.transmitter ≠ .send ∧ t.lau.transmitter ≠ .backoff ∧
      t.lau.lastCompleted = s.lau.lastCompleted ∧ rest <+: t.lau.queue ∧ t.lrx = s.lrx ∧ TransmitterSettled .idle t ∧
      (rest = [] → OutcomeRules s → (∀ g ∈ t.lau.queue, g.source = .refresh) → RefreshLooked { s with lau.queue := [] } t) ∧
      t.hpt.counters.get .collisions = (s.hpt.counters.get .collisions).increment ∧
      t.hpt.counters.get .abandoned = (s.hpt.counters.get .abandoned).increment ∧
      (f.source = .req → ∀ w, s.req.slot = some w → 2 ≤ w.outstanding → ∃ w', t.req.slot = some w' ∧
        w'.lost = w.lost + (match f.body with | .update records => records.length | .gate _ => 1 | .presence _ => 0)) ∧
      (f.source = .presence →
        (maySend s = true → s.tsc.firstPending = true ∨ s.tsc.presenceTimer = .expired →
          t.tsc.presenceOutstanding = true ∧ ∃ again,
            again = { source := .presence, sender := stationNumber s, first := s.tsc.firstPending, refresh := false,
                      body := .presence (planCheckWord s) } ∧
            (again ∈ t.lau.queue ∨ t.lau.presenceOffer = some again)) ∧
        (s.tsc.firstPending = false → s.tsc.presenceTimer ≠ .expired → t.tsc.presenceOutstanding = false)))

/-- An attempt completes: driver off, head removed, the frame as sent in the receive queue as a self frame, LAST COMPLETED SEQUENCE and
FRAMES_SENT moved, the presence timer started with P while ACTIVE, and FIRST PENDING cleared by the FIRST presence frame. The transmitter
enters IDLE and leaves it at once for GAP or DEFER by the line, with a head frame and a receive queue entry free. -/
def Obligations.AttemptCompletes : Prop :=
  ∀ (s : State) (f : TxFrame) (rest : List TxFrame) (a : SentFrame), s.lau.transmitter = .send → s.lau.queue = f :: rest →
    s.lau.attempt = some a → ∃ t, exec .attemptComplete s = .next t ∧ t.lau.driver = false ∧ t.lau.guard = false ∧
      t.lau.attempt = none ∧ t.lau.attempts = 0 ∧ t.lau.transmitter ≠ .send ∧ TransmitterSettled .idle t ∧
      t.lau.lastCompleted = some a.sequence ∧
      rest <+: t.lau.queue ∧
      t.lrx = { s.lrx with queue := s.lrx.queue ++
        [{ mark := .self, sender := a.sender, sequence := a.sequence, first := a.first, body := a.body }] } ∧
      t.hpt.counters = s.hpt.counters.set (s.hpt.counters.get .framesSent).increment .framesSent ∧
      (s.stc.station = .active → t.tsc.presenceTimer = .running (presenceInterval s)) ∧
      t.tsc.firstPending = (s.tsc.firstPending && !(f.source == .presence && f.first)) ∧
      (f.source = .presence → t.tsc.presenceOutstanding = false)

/-- The guard trips in an attempt: the driver off, GUARD_TRIP raised, the head and every frame behind it abandoned and counted, no
collision counted, and the station MUTED with cause GUARD and its sending side stopped; a slot in progress is closed with the records of
all of them lost. A collision in the bit cell of the expiry is no longer sensed behind it. -/
def Obligations.GuardExpiryMutes : Prop :=
  ∀ (s : State) (f : TxFrame) (rest : List TxFrame), s.lau.transmitter = .send → s.lau.queue = f :: rest →
    s.stc.station = .active → OutcomeRules s → ∃ t, exec .guardExpiry s = .next t ∧ t.hpt.flags.guardTrip = true ∧
      MuteEffects .guard s t ∧
      t.stc = { s.stc with station := .muted, mutedCause := .guard, joinTimer := none } ∧
      t.lau = { State.reset.lau with lastCompleted := s.lau.lastCompleted } ∧ t.req.slot = none ∧
      t.tsc = { s.tsc with
        refreshTimer := .stopped, presenceTimer := .stopped, firstPending := false, presenceOutstanding := false } ∧
      t.hpt.counters =
        s.hpt.counters.set (Nat.repeat Counter.increment s.lau.queue.length (s.hpt.counters.get .abandoned)) .abandoned ∧
      t.lrx = s.lrx ∧ t.imu = s.imu ∧ t.pmn = s.pmn ∧ t.stu = s.stu ∧
      ∀ sensed beyond, exec (.collision sensed beyond) t = .next t

/-! ## The image -/

/-- The notice of a frame that joins its sender: the entry PRESENT with the next sequence expected and the lost timer at L, a rejoined
event and PEER_JOINED; PLAN AGREEMENT starts from UNKNOWN at FIRST and is compared at a PRESENCE frame; no gap is counted. The frame is
in hand until the event is taken. Lost timers that expire between the taking of the frame and its notice, which are an operand of the
command (assumption log 13), have expired first, `u` being the state they leave, and their events stand ahead. -/
def Obligations.NoticeJoinsPeer : Prop :=
  ∀ (s u : State) (expiring : List Station) (f : Frame) (rest : List Frame) (before after : Agreement), takesFrames s = true →
    s.lrx.queue = f :: rest → f.mark = .remote → u = expireAll expiring s → (peerOf u f.sender).state ≠ .self →
    f.first = true ∨ (peerOf u f.sender).state = .absent ∨ (peerOf u f.sender).state = .lost →
    before = (if f.first then .unknown else (peerOf u f.sender).agreement) →
    after = (match f.body with
      | .presence check => if check = planCheckWord s then .agrees else .differs
      | .update _ => before
      | .gate _ _ => before) →
    ∃ t, exec (.imuTakeFrame expiring) s = .next t ∧
      t = { u with lrx.queue := rest, imu := t.imu, pmn := t.pmn, hpt.flags := t.hpt.flags, lau.transmitter := t.lau.transmitter } ∧
      t.imu = { s.imu with
        events := u.imu.events ++ [{ kind := .rejoined, station := f.sender }], work := .notice f } ∧
      (∀ n, peerOf t n =
        if n = f.sender then
          { state := .present, expected := some (f.sequence + 1), agreement := after, timeLeft := some (lostTimeout s) }
        else peerOf u n) ∧
      t.hpt.flags =
        { u.hpt.flags with
          peerJoined := true
          planMismatch := s.hpt.flags.planMismatch || decide (before ≠ .differs ∧ after = .differs) } ∧
      TransmitterSettled s.lau.transmitter t

/-- The notice of a frame of a PRESENT peer without FIRST: a mismatch of the sequence counts a gap and appends a doubtful event; a match
does neither, and with no event waiting the frame is applied by its kind at once. In both the next sequence is expected and the lost timer
restarts. Lost timers that expire between the taking of the frame and its notice, which are an operand of the command (assumption log 13),
have expired first, `u` being the state they leave. -/
def Obligations.NoticeChecksSequence : Prop :=
  ∀ (s u : State) (expiring : List Station) (f : Frame) (rest : List Frame) (after : Agreement), takesFrames s = true →
    s.lrx.queue = f :: rest → f.mark = .remote → u = expireAll expiring s → (peerOf u f.sender).state = .present →
    f.first = false →
    after = (match f.body with
      | .presence check => if check = planCheckWord s then .agrees else .differs
      | .update _ => (peerOf u f.sender).agreement
      | .gate _ _ => (peerOf u f.sender).agreement) →
    ∃ t, exec (.imuTakeFrame expiring) s = .next t ∧
      t = { u with lrx.queue := rest, imu := t.imu, pmn := t.pmn, hpt.flags := t.hpt.flags, hpt.counters := t.hpt.counters,
                   lau.transmitter := t.lau.transmitter } ∧
      TransmitterSettled s.lau.transmitter t ∧
      (∀ n, peerOf t n =
        if n = f.sender then
          { state := .present, expected := some (f.sequence + 1), agreement := after, timeLeft := some (lostTimeout s) }
        else peerOf u n) ∧
      t.hpt.flags =
        { u.hpt.flags with
          planMismatch :=
            s.hpt.flags.planMismatch || decide ((peerOf u f.sender).agreement ≠ .differs ∧ after = .differs) } ∧
      ((peerOf u f.sender).expected ≠ some f.sequence →
        t.imu = { s.imu with
          events := u.imu.events ++ [{ kind := .doubtful, station := f.sender }], work := .notice f } ∧
        t.hpt.counters = s.hpt.counters.set (s.hpt.counters.get .sequenceGaps).increment .sequenceGaps) ∧
      ((peerOf u f.sender).expected = some f.sequence →
        (u.imu.events ≠ [] → t.imu = { u.imu with work := .notice f } ∧ t.hpt.counters = s.hpt.counters) ∧
        (u.imu.events = [] →
          (∀ records, f.body = .update records → records ≠ [] →
            t.imu = { s.imu with work := .remoteRecords f.sender records } ∧ t.hpt.counters = s.hpt.counters) ∧
          (∀ check, f.body = .presence check → t.imu = s.imu ∧ t.hpt.counters = s.hpt.counters) ∧
          (∀ g q, f.body = .gate g q →
            t.imu = { s.imu with heldGate := s.imu.heldGate.set g (some q), work := .gate .remote g })))

/-- A self frame is taken with no notice: the peer table is as it was; an UPDATE frame has its records applied as self records, a GATE
frame starts the gate application of its group, a PRESENCE frame leaves the image as it was and ends at once, and a due refresh frame is
then built where it may. With the receive queue entry freed the transmitter leaves IDLE for GAP or DEFER by the line. -/
def Obligations.SelfFrameTakenWithoutNotice : Prop :=
  ∀ (s : State) (f : Frame) (rest : List Frame), takesFrames s = true → s.lrx.queue = f :: rest → f.mark = .self →
    ∃ t, exec .selfFrameTake s = .next t ∧ t.lrx = { s.lrx with queue := rest } ∧ t.pmn = s.pmn ∧ t.stu = s.stu ∧ t.req = s.req ∧
      t.stc = s.stc ∧ t.hpt.flags = s.hpt.flags ∧ TransmitterSettled s.lau.transmitter t ∧
      (∀ records, f.body = .update records → records ≠ [] →
        t.imu = { s.imu with work := .selfRecords records } ∧ t.hpt = s.hpt ∧ t.tsc = s.tsc ∧ t.lau.queue = s.lau.queue) ∧
      (∀ check, f.body = .presence check → t.imu = s.imu ∧ t.hpt = s.hpt ∧ RefreshLooked { s with lrx.queue := rest } t) ∧
      (∀ g q, f.body = .gate g q →
        t.imu = { s.imu with heldGate := s.imu.heldGate.set g (some q), work := .gate .self g } ∧ t.tsc = s.tsc ∧
        t.lau.queue = s.lau.queue)

/-- A GATE frame the IMU comes to, self or remote in sequence with no event waiting, counts in MISSED_GATES when a sequence is held and this
one is neither the held one nor the next, and in no other case. (A remote one that waits for an event: WaitingEventsBeforeRecords.) -/
def Obligations.GateSequenceCompared : Prop :=
  ∀ (s : State) (f : Frame) (rest : List Frame) (g : Group) (q : Byte), takesFrames s = true → s.lrx.queue = f :: rest →
    f.body = .gate g q →
    ∀ c, (c = .selfFrameTake ∧ f.mark = .self) ∨
        (∃ expiring, c = .imuTakeFrame expiring ∧ (expireAll expiring s).imu.events = [] ∧ f.mark = .remote ∧
          (peerOf s f.sender).state = .present ∧ f.first = false ∧ (peerOf s f.sender).expected = some f.sequence) →
      ∃ t, exec c s = .next t ∧
        (s.imu.heldGate[g] = none → t.hpt.counters = s.hpt.counters) ∧
        (∀ held, s.imu.heldGate[g] = some held →
          ((q - held).toNat ≤ 1 → t.hpt.counters = s.hpt.counters) ∧
          (2 ≤ (q - held).toNat →
            t.hpt.counters = s.hpt.counters.set (s.hpt.counters.get .missedGates).increment .missedGates)) ∧
        t.imu.heldGate[g] = some q ∧ ∀ g' : Group, g' ≠ g → t.imu.heldGate[g'] = s.imu.heldGate[g']

/-- The steps of an owner event, one per item of its station, in slot order: those of an event that the IMU takes, free or with a remote
frame in its notice, or of one that it has in hand already, all that are left or the next `n` of them. Rejoined opens an item's baseline;
doubtful makes a CURRENT item DOUBTFUL and lost a CURRENT or DOUBTFUL one STALE, each item changed being listed by its notify bit. Nothing
else changes, but that the last step of the last event before a frame lets it go on by its kind (WaitingEventsBeforeRecords; assumption log
13). Between two steps the event is in hand, no frame is taken, and a word-0 read of any slot is served at once from the items as they
stand; the steps that are left then end it as taking it whole does. That the items of a step come as an operand of the one command of the
table is the model's choice (log 29), and so is that each item is fed in its own step (log 34). -/
def Obligations.OwnerEventsTaken : Prop :=
  ∀ (s : State) (e : OwnerEvent) (rest : List OwnerEvent) (todo taken left : List Nat) (steps : Option Nat), takesEvents s = true →
    (s.imu.applying = some { event := e, todo := todo } ∧ s.imu.events = rest ∨
      s.imu.applying = none ∧ s.imu.events = e :: rest ∧ todo = (List.range s.imu.items.length).filter fun k =>
        (s.imu.items[k]?).any fun it => it.plan.owner == e.station) →
    (steps = none ∧ taken = todo ∧ left = [] ∨ ∃ n, steps = some n ∧ taken = todo.take n ∧ left = todo.drop n) →
    ∀ (c : Option Nat → Instr) (change : Item → Item),
      (c = (.ownerRejoined ·) ∧ e.kind = .rejoined ∧ change = (fun it => { it with baselineOpen := true }) ∨
        c = (.ownerDoubtful ·) ∧ e.kind = .doubtful ∧
          change = (fun it => if it.condition = .current then { it with condition := .doubtful } else it) ∨
        c = (.ownerLost ·) ∧ e.kind = .lost ∧
          change = (fun it => if it.condition = .current ∨ it.condition = .doubtful then { it with condition := .stale } else it)) →
      ∃ t, exec (c steps) s = .next t ∧
        t = { s with imu := t.imu, hpt.counters := t.hpt.counters } ∧
        t.imu =
          { s.imu with
            events := rest, applying := (if left = [] then none else some { event := e, todo := left }), items := t.imu.items
            changes := t.imu.changes, work := t.imu.work, heldGate := t.imu.heldGate } ∧
        (s.imu.work = .free ∨ rest ≠ [] ∨ left ≠ [] →
          t.imu.work = s.imu.work ∧ t.imu.heldGate = s.imu.heldGate ∧ t.hpt.counters = s.hpt.counters) ∧
        (∀ k : Nat, t.imu.items[k]? = (s.imu.items[k]?).map fun it =>
          if k ∈ taken ∧ it.plan.owner = e.station then change it else it) ∧
        s.imu.changes <+: t.imu.changes ∧
        (∀ n, n ∈ t.imu.changes ↔ n ∈ s.imu.changes ∨
          ∃ k ∈ taken, ∃ it, s.imu.items[k]? = some it ∧ it.plan.item = n ∧ it.plan.owner = e.station ∧
            (change it).condition ≠ it.condition ∧ notifyBit s k = true) ∧
        (ImageRules s → t.imu.changes = s.imu.changes ++ taken.filterMap fun k =>
          (s.imu.items[k]?).bind fun it =>
            if it.plan.owner = e.station ∧ (change it).condition ≠ it.condition ∧ notifyBit s k = true ∧
                it.plan.item ∉ s.imu.changes then
              some it.plan.item
            else none) ∧
        (left ≠ [] → takesFrames t = false ∧ exec (c none) t = exec (c none) s ∧ (portFree s → ∀ k : Fin 512,
          exec (.itemViewWord0Read k) t =
            .next
              { t with
                hpt.latch := { slot := some k, words := (List.range 16).map (itemViewWord t k.val) }
                hpt.readData := itemViewWord t k.val 0 }))

/-- What the IMU may take, and when. It steps in JOINING, ACTIVE and MUTED while no read it has released waits (log 12). It takes a frame
only when it is free with no owner event in hand or waiting, and goes on with an owner event only when it is free or has a remote frame in
its notice; the commands that would take another have no effect (log 1), nor has one of another kind than the event in hand or, with none in
hand, the oldest of the list. The events that wait when a remote frame is in its notice are taken before it is applied: the frame is in hand
after each of their steps but the last; after the last it is applied by its kind, an UPDATE frame record by record, a GATE frame compared
with the held sequence and its gate application started, a PRESENCE frame done with. That this is within the command of the last step is the
model's choice (assumption log 13). What an event does to the items is what it does at a free IMU. -/
def Obligations.WaitingEventsBeforeRecords : Prop :=
  (∀ s : State,
    (imuSteps s = true ↔ (s.stc.station = .joining ∨ s.stc.station = .active ∨ s.stc.station = .muted) ∧
      (∀ k, s.hpt.held ≠ some { access := .viewWord0 k, released := true }) ∧
      ∀ w, s.hpt.held ≠ some { access := .sampleWord w, released := true }) ∧
    (takesFrames s = true ↔ imuSteps s = true ∧ s.imu.work = .free ∧ s.imu.applying = none ∧ s.imu.events = []) ∧
    (takesEvents s = true ↔ imuSteps s = true ∧ (s.imu.work = .free ∨ ∃ f, s.imu.work = .notice f)) ∧
    (takesFrames s = false → (∀ expiring, exec (.imuTakeFrame expiring) s = .next s) ∧ exec .selfFrameTake s = .next s) ∧
    (∀ (c : Option Nat → Instr) (kind : OwnerEventKind),
      (c = (.ownerRejoined ·) ∧ kind = .rejoined) ∨ (c = (.ownerDoubtful ·) ∧ kind = .doubtful) ∨ (c = (.ownerLost ·) ∧ kind = .lost) →
      takesEvents s = false ∨
        (∀ e, (match s.imu.applying with | some w => some w.event | none => s.imu.events.head?) = some e → e.kind ≠ kind) →
      ∀ steps, exec (c steps) s = .next s) ∧
    (imuSteps s = false → ∀ c, isImageCommand c = true → exec c s = .next s)) ∧
  ∀ (s : State) (f : Frame) (e : OwnerEvent), imuSteps s = true → s.imu.work = .notice f →
    (match s.imu.applying with | some w => some w.event | none => s.imu.events.head?) = some e →
    (∀ expiring, exec (.imuTakeFrame expiring) s = .next s) ∧ exec .selfFrameTake s = .next s ∧
    ∀ (c : Option Nat → Instr) (steps : Option Nat),
      (c = (.ownerRejoined ·) ∧ e.kind = .rejoined) ∨ (c = (.ownerDoubtful ·) ∧ e.kind = .doubtful) ∨
        (c = (.ownerLost ·) ∧ e.kind = .lost) →
      ∃ t free, exec (c steps) s = .next t ∧ exec (c steps) { s with imu.work := .free } = .next free ∧
        t.imu.events = free.imu.events ∧ t.imu.applying = free.imu.applying ∧ t.imu.items = free.imu.items ∧
        t.imu.changes = free.imu.changes ∧
        (free.imu.events ≠ [] ∨ free.imu.applying ≠ none →
          t.imu.work = .notice f ∧ t.imu.heldGate = s.imu.heldGate ∧ t.hpt = s.hpt) ∧
        (free.imu.events = [] → free.imu.applying = none →
          (∀ records, f.body = .update records →
            t.imu.work = (if records = [] then .free else .remoteRecords f.sender records) ∧ t.imu.heldGate = s.imu.heldGate ∧
            t.hpt = s.hpt) ∧
          (∀ check, f.body = .presence check → t.imu.work = .free ∧ t.imu.heldGate = s.imu.heldGate ∧ t.hpt = s.hpt) ∧
          (∀ g q, f.body = .gate g q → t.imu.work = .gate .remote g ∧ t.imu.heldGate = s.imu.heldGate.set g (some q) ∧
            t.hpt = { s.hpt with
              counters :=
                match s.imu.heldGate[g] with
                | none => s.hpt.counters
                | some held =>
                  if 2 ≤ (q - held).toNat then
                    s.hpt.counters.set (s.hpt.counters.get .missedGates).increment .missedGates
                  else s.hpt.counters }))

/-- A remote record that does not fit the plan is discarded and counted; if it names an item of this station it also marks the clash and
raises ITEM_CLASH. No value, condition, version, baseline, sample or change list entry comes of it. -/
def Obligations.ForeignRecordsDiscarded : Prop :=
  ∀ (s : State) (read : Option (Fin 16)) (sender : Station) (r : Record) (rest : List Record), imuSteps s = true →
    s.imu.work = .remoteRecords sender (r :: rest) →
    ∀ t, exec (.remoteRecord read) s = .next t →
      (findSlot s.imu.items r.item = none →
        t = { s with hpt := t.hpt, imu.work := t.imu.work } ∧ t.hpt.flags = s.hpt.flags) ∧
      (∀ k it, findSlot s.imu.items r.item = some k → s.imu.items[k]? = some it → r.value.length ≠ it.plan.length →
        t = { s with hpt := t.hpt, imu.work := t.imu.work } ∧ t.hpt.flags = s.hpt.flags) ∧
      (∀ k it, findSlot s.imu.items r.item = some k → s.imu.items[k]? = some it → r.value.length = it.plan.length →
        sender ≠ it.plan.owner → it.plan.owner ≠ stationNumber s →
        t = { s with hpt := t.hpt, imu.work := t.imu.work } ∧ t.hpt.flags = s.hpt.flags) ∧
      (∀ k it, findSlot s.imu.items r.item = some k → s.imu.items[k]? = some it → r.value.length = it.plan.length →
        sender ≠ it.plan.owner → it.plan.owner = stationNumber s →
        t = { s with hpt := t.hpt, imu := t.imu } ∧
        t.imu = { s.imu with
          work := t.imu.work
          items := s.imu.items.set k { it with owned := it.owned.map fun o => { o with clashMark := true } } } ∧
        t.hpt.flags = { s.hpt.flags with itemClash := true }) ∧
      ((findSlot s.imu.items r.item = none ∨ ∃ k it, findSlot s.imu.items r.item = some k ∧ s.imu.items[k]? = some it ∧
          (r.value.length ≠ it.plan.length ∨ sender ≠ it.plan.owner)) →
        t.hpt.counters = s.hpt.counters.set (s.hpt.counters.get .foreignRecords).increment .foreignRecords ∧
        t.imu.work = (if rest = [] then .free else .remoteRecords sender rest))

/-- A remote record that fits its item is accepted on an open baseline, in VACANT, or with a newer version than the held one; a duplicate
only turns DOUBTFUL into CURRENT; an older record changes nothing. The held part is the pending part when present, and otherwise the visible
part. The item is listed when its visible part or condition changed and
its notify bit is set. -/
def Obligations.RemoteRecordComparedWithItem : Prop :=
  ∀ (s : State) (read : Option (Fin 16)) (sender : Station) (r : Record) (rest : List Record) (k : Nat) (it : Item),
    imuSteps s = true → s.imu.work = .remoteRecords sender (r :: rest) → findSlot s.imu.items r.item = some k →
    s.imu.items[k]? = some it → r.value.length = it.plan.length → it.plan.owner = sender →
    it.heldPart = (match it.pendingPart with | some pending => some pending | none => it.visiblePart) ∧
    ∃ t after, exec (.remoteRecord read) s = .next t ∧ t.imu.items[k]? = some after ∧
      (∀ j, j ≠ k → t.imu.items[j]? = s.imu.items[j]?) ∧
      t = { s with imu.items := t.imu.items, imu.changes := t.imu.changes, imu.work := t.imu.work, stu := t.stu,
                   hpt.flags := t.hpt.flags, hpt.held := t.hpt.held, hpt.readData := t.hpt.readData } ∧
      t.imu.work = (if rest = [] then .free else .remoteRecords sender rest) ∧
      t.imu.changes =
        (if (after.visiblePart ≠ it.visiblePart ∨ after.condition ≠ it.condition) ∧ notifyBit s k = true ∧
            it.plan.item ∉ s.imu.changes then s.imu.changes ++ [it.plan.item] else s.imu.changes) ∧
      (it.plan.kind = .state → t.stu = s.stu ∧ t.hpt.flags = s.hpt.flags) ∧
      (∀ held, it.heldPart = some held →
        let d := (r.version - held.version).toNat
        let taken := it.baselineOpen = true ∨ it.condition = .vacant ∨ (1 ≤ d ∧ d ≤ 32767)
        (taken → after =
          match it.plan.gate with
          | none => { it with visiblePart := some { version := r.version, value := r.value }, condition := .current,
                              baselineOpen := false, stream := after.stream }
          | some _ => { it with pendingPart := some { version := r.version, value := r.value }, condition := .current,
                                baselineOpen := false, stream := after.stream }) ∧
        (¬taken → d = 0 →
          after = (if it.condition = .doubtful then { it with condition := .current } else it) ∧ t.stu = s.stu ∧
          t.hpt.flags = s.hpt.flags) ∧
        (¬taken → d ≠ 0 → after = it ∧ t.stu = s.stu ∧ t.hpt.flags = s.hpt.flags)) ∧
      (it.heldPart = none → it.baselineOpen = true ∨ it.condition = .vacant → after =
          match it.plan.gate with
          | none => { it with visiblePart := some { version := r.version, value := r.value }, condition := .current,
                              baselineOpen := false, stream := after.stream }
          | some _ => { it with pendingPart := some { version := r.version, value := r.value }, condition := .current,
                                baselineOpen := false, stream := after.stream })

/-- An accepted record of a stream item is appended to the sample queue with FIRST and GAP by the table of R140, or, on a full queue,
raises SAMPLE_OVERRUN and leaves LAST QUEUED VERSION, with FIRST OWED set after an open baseline. A host read of the sample view that comes
meanwhile is held by the append and served when it has ended, from the queue as the append left it; with no append it is served at once.
(That an append lies within REMOTE_RECORD: assumption log 11.) -/
def Obligations.SampleAppendedOrOverrun : Prop :=
  ∀ (s : State) (read : Option (Fin 16)) (sender : Station) (r : Record) (rest : List Record) (k : Nat) (it : Item)
      (fields : StreamFields),
    imuSteps s = true → s.imu.work = .remoteRecords sender (r :: rest) → findSlot s.imu.items r.item = some k →
    s.imu.items[k]? = some it → r.value.length = it.plan.length → it.plan.owner = sender → accepted it r = true →
    it.plan.kind = .stream → it.stream = some fields →
    ∃ t after, exec (.remoteRecord read) s = .next t ∧ t.imu.items[k]? = some after ∧
      (s.stu.queue.length < 256 → ∃ e, t.stu.queue = s.stu.queue ++ [e] ∧ t.hpt.flags = s.hpt.flags ∧
        after.stream = some { lastQueued := some r.version, firstOwed := false } ∧
        e.item = it.plan.item ∧ e.sender = sender ∧ e.version = r.version ∧ e.value = r.value ∧
        (it.baselineOpen = true ∨ fields.firstOwed = true → e.first = true ∧ e.gap = none) ∧
        (it.baselineOpen = false → fields.firstOwed = false → ∀ last, fields.lastQueued = some last →
          let d := (r.version - last).toNat
          (d = 0 ∨ 32768 ≤ d → e.first = true ∧ e.gap = none) ∧
          (d = 1 → e.first = false ∧ e.gap = none) ∧
          (2 ≤ d → d ≤ 256 → e.first = false ∧ e.gap = some (d - 1)) ∧
          (257 ≤ d → d ≤ 32767 → e.first = false ∧ e.gap = some 255))) ∧
      (256 ≤ s.stu.queue.length → t.stu = s.stu ∧ t.hpt.flags = { s.hpt.flags with sampleOverrun := true } ∧
        after.stream = some { fields with firstOwed := fields.firstOwed || it.baselineOpen }) ∧
      ∀ w, read = some w → portFree s →
        (s.stu.queue.length < 256 → t.hpt.held = some { access := .sampleWord w, released := true } ∧
          t.hpt.readData = s.hpt.readData ∧
          exec .heldAccessServed t = .next { t with hpt.held := none, hpt.readData := sampleViewWord t w.val }) ∧
        (256 ≤ s.stu.queue.length → t.hpt.held = none ∧ t.hpt.readData = sampleViewWord s w.val)

/-- A self record sets the visible part of a FOLLOW item or the pending part of a GATED one unless its version is the held one, makes the
item LOCAL and closes its baseline; the item is listed when that changed its visible part or condition and its notify bit is set. With the
last record of the frame a due refresh frame is built where it may (R129). -/
def Obligations.SelfRecordApplied : Prop :=
  ∀ (s : State) (r : Record) (rest : List Record) (k : Nat) (it : Item), imuSteps s = true →
    s.imu.work = .selfRecords (r :: rest) → findSlot s.imu.items r.item = some k → s.imu.items[k]? = some it →
    ∃ t after, exec .selfRecord s = .next t ∧ t.imu.items = s.imu.items.set k after ∧ t.stu = s.stu ∧
      t.hpt.flags = s.hpt.flags ∧ t.hpt.counters = s.hpt.counters ∧
      t.imu.work = (if rest = [] then .free else .selfRecords rest) ∧
      (rest ≠ [] → t.tsc = s.tsc ∧ t.lau = s.lau) ∧
      (rest = [] → RefreshLooked { s with imu := t.imu } t ∧ TransmitterSettled s.lau.transmitter t) ∧
      t.imu.changes =
        (if (after.visiblePart ≠ it.visiblePart ∨ after.condition ≠ it.condition) ∧ notifyBit s k = true ∧
            it.plan.item ∉ s.imu.changes then s.imu.changes ++ [it.plan.item] else s.imu.changes) ∧
      after =
        if it.heldPart.map Part.version = some r.version then { it with condition := .ownLocal, baselineOpen := false }
        else
          match it.plan.gate with
          | none => { it with visiblePart := some { version := r.version, value := r.value }, condition := .ownLocal,
                              baselineOpen := false }
          | some _ => { it with pendingPart := some { version := r.version, value := r.value }, condition := .ownLocal,
                                baselineOpen := false }

/-- A step of a gate application moves the pending part of the next item of the group that holds one, and lists it when its visible part
changed and its notify bit is set; with none left the application ends: GATE_APPLIED is raised and the IMU is free, and after a self frame a
due refresh frame is built where it may. That an item without a pending part takes no step, and that the end has no effect while an item
holds one, is read from the rules (assumption log 14, and log 1). -/
def Obligations.GateStepsAndEnds : Prop :=
  ∀ (s : State) (m : Mark) (g : Group), imuSteps s = true → s.imu.work = .gate m g →
    (∀ k it part, s.imu.items[k]? = some it → it.plan.gate = some g → it.pendingPart = some part →
      (∀ j < k, ∀ jt, s.imu.items[j]? = some jt → jt.plan.gate = some g → jt.pendingPart = none) →
      exec .gateApplicationEnd s = .next s ∧
      ∃ t, exec .gateItemStep s = .next t ∧
        t = { s with imu.items := s.imu.items.set k { it with visiblePart := some part, pendingPart := none },
                     imu.changes := t.imu.changes } ∧
        t.imu.changes =
          if it.visiblePart ≠ some part ∧ notifyBit s k = true ∧ it.plan.item ∉ s.imu.changes then
            s.imu.changes ++ [it.plan.item]
          else s.imu.changes) ∧
    ((∀ it ∈ s.imu.items, it.plan.gate = some g → it.pendingPart = none) →
      ∃ t, exec .gateApplicationEnd s = .next t ∧ t.hpt.flags = { s.hpt.flags with gateApplied := true } ∧
        t.imu = { s.imu with work := .free } ∧ t.hpt.counters = s.hpt.counters ∧ t.stu = s.stu ∧ t.pmn = s.pmn ∧
        t.lrx = s.lrx ∧ t.req = s.req ∧ t.stc = s.stc ∧
        (m = .remote → t.tsc = s.tsc ∧ t.lau = s.lau) ∧
        (m = .self → RefreshLooked { s with imu.work := .free } t ∧ TransmitterSettled s.lau.transmitter t))

/-- A gate application run to its end by the machine: with one step for each item of the group that holds a pending part and then the
end, every such item has its pending part made visible, no other item is changed, and GATE_APPLIED is raised. That the steps are as many as
the items that hold a pending part is the model's reading (assumption log 14). -/
def Obligations.GateApplicationMovesWholeGroup : Prop :=
  ∀ (s : State) (m : Mark) (g : Group), imuSteps s = true → s.imu.work = .gate m g →
    let inGroupPending := fun it : Item => it.plan.gate == some g && it.pendingPart.isSome
    let n := s.imu.items.countP inGroupPending
    ∃ t, Host.Core.run Sys2Proof.core (n + 1)
          { s with pending := List.replicate n .gateItemStep ++ .gateApplicationEnd :: s.pending } = .next t ∧
      t.pending = s.pending ∧ t.imu.work = .free ∧ t.hpt.flags.gateApplied = true ∧
      t.imu.items = (s.imu.items.map fun it =>
        if it.plan.gate = some g ∧ it.pendingPart.isSome = true then
          { it with visiblePart := it.pendingPart, pendingPart := none }
        else it)

/-! ## The timers -/

/-- A lost timer expires: the entry LOST with no sequence expected and its timer stopped, a lost event appended at once, PEER_LOST raised,
and nothing else changed. While a lost event of its station waits in the list, which holds at most one for each, a timer started again does
not expire; that no other time is asked for is the model's choice (assumption log 2). Expiries between the taking of a frame and its notice
(assumption log 13) are these same expiries in turn; that of the frame's own sender makes its notice a join, with the lost event ahead of
the rejoined one. -/
def Obligations.LostTimerExpires : Prop :=
  (∀ (s : State) (n : Station), { kind := .lost, station := n } ∈ s.imu.events → exec (.lostTimerExpiry n) s = .next s) ∧
  (∀ (s : State) (n : Station), (peerOf s n).state = .present → (peerOf s n).timeLeft.isSome = true →
    { kind := .lost, station := n } ∉ s.imu.events → ∃ t, exec (.lostTimerExpiry n) s = .next t ∧
      t = { s with pmn := t.pmn, imu.events := s.imu.events ++ [{ kind := .lost, station := n }],
                   hpt.flags := { s.hpt.flags with peerLost := true } } ∧
      ∀ m, peerOf t m =
        if m = n then { peerOf s n with state := .lost, expected := none, timeLeft := none } else peerOf s m) ∧
  (∀ s : State, expireAll [] s = s) ∧
  (∀ (s : State) (n : Station) (rest : List Station), ∃ t, exec (.lostTimerExpiry n) s = .next t ∧
    expireAll (n :: rest) s = expireAll rest t) ∧
  ∀ (s : State) (f : Frame) (rest : List Frame), takesFrames s = true → s.lrx.queue = f :: rest → f.mark = .remote →
    (peerOf s f.sender).state = .present → (peerOf s f.sender).timeLeft.isSome = true →
    ∃ t, exec (.imuTakeFrame [f.sender]) s = .next t ∧ t.imu.work = .notice f ∧
      t.imu.events = [{ kind := .lost, station := f.sender }, { kind := .rejoined, station := f.sender }] ∧
      (peerOf t f.sender).state = .present ∧ (peerOf t f.sender).expected = some (f.sequence + 1) ∧
      (peerOf t f.sender).timeLeft = some (lostTimeout s) ∧ t.hpt.flags.peerLost = true ∧ t.hpt.flags.peerJoined = true ∧
      t.hpt.counters = s.hpt.counters ∧ t.imu.items = s.imu.items

/-- The presence timer expires in ACTIVE: EXPIRED, and with no presence frame outstanding a PRESENCE frame without FIRST is offered,
admitted at once while the queue has room and waiting otherwise; with one outstanding none is offered. Admitted into an empty queue it takes
the transmitter out of IDLE, to GAP or DEFER by the line, with a receive queue entry free. -/
def Obligations.PresenceTimerExpires : Prop :=
  ∀ (s : State) (left : Nat), s.tsc.presenceTimer = .running left → s.stc.station = .active → s.stc.straps.listen = false →
    s.tsc.firstPending = false → s.lau.lastCompleted.isSome = true → ∃ t, exec .presenceTimerExpiry s = .next t ∧
      SendEffects s { t with tsc.presenceTimer := s.tsc.presenceTimer } ∧ t.imu = s.imu ∧ t.req = s.req ∧ t.hpt = s.hpt ∧
      t.tsc = { s.tsc with presenceTimer := .expired, presenceOutstanding := true } ∧ TransmitterSettled s.lau.transmitter t ∧
      (s.tsc.presenceOutstanding = false → ∀ f,
        f = { source := .presence, sender := stationNumber s, first := false, refresh := false,
              body := .presence (planCheckWord s) } →
        (s.lau.queue.length < 4 → s.lau.queue ++ [f] <+: t.lau.queue ∧ t.lau.presenceOffer = none) ∧
        (4 ≤ s.lau.queue.length → t.lau.queue = s.lau.queue ∧ t.lau.presenceOffer = some f)) ∧
      (s.tsc.presenceOutstanding = true → s.lau.presenceOffer = none → s.lau.reqOffer = none → t.lau.queue = s.lau.queue ∧
        t.lau.presenceOffer = none)

/-- The refresh timer expires in ACTIVE: EXPIRED while a condition of R129 fails; otherwise the frame is built from the owned LOCAL items
from the cursor on, at most 8, and stands alone in the queue, the cursor past the last item taken and the timer started again with S;
with no such item only the timer is started again. -/
def Obligations.RefreshTimerExpires : Prop :=
  ∀ (s : State) (left : Nat) (taken : List Nat), s.tsc.refreshTimer = .running left → s.stc.station = .active →
    taken = (((List.range s.imu.items.length).map fun k => (s.tsc.cursor + k) % s.imu.items.length).filter fun k =>
      (s.imu.items[k]?).any fun it => it.plan.owner == stationNumber s && it.condition == .ownLocal).take 8 →
    ∀ ready : Prop, ready = (s.tsc.firstPending = false ∧ s.lau.queue = [] ∧ (∀ f ∈ s.lrx.queue, f.mark = .remote) ∧
      s.imu.work.isSelf = false ∧ s.stc.straps.listen = false ∧ s.lau.lastCompleted.isSome = true) →
    ∃ t, exec .refreshTimerExpiry s = .next t ∧ t.imu = s.imu ∧ t.req = s.req ∧ t.hpt = s.hpt ∧ t.lrx = s.lrx ∧
      TransmitterSettled s.lau.transmitter t ∧
      (¬ready → t.tsc = { s.tsc with refreshTimer := .expired } ∧ t.lau.queue = s.lau.queue) ∧
      (ready → taken = [] → t.tsc = { s.tsc with refreshTimer := .running (refreshSpacing s) } ∧ t.lau.queue = []) ∧
      (ready → ∀ last, taken.getLast? = some last →
        t.tsc = { s.tsc with
          refreshTimer := .running (refreshSpacing s), cursor := (last + 1) % s.imu.items.length } ∧
        t.lau.queue =
          [{ source := .refresh, sender := stationNumber s, first := false, refresh := true,
             body := .update (taken.filterMap fun k => (s.imu.items[k]?).bind fun it => it.heldPart.map fun part =>
               { item := it.plan.item, version := part.version, value := part.value }) }] ∧
        (s.lau.transmitter = .idle → s.lrx.queue.length < 4 →
          t.lau.transmitter = if s.lrx.line = .quiet then .gap else .defer))

/-! ## What commands leave unchanged -/

/-- The commands of the transmitter change no value, condition or version of the image but versions issued, no change list entry, no peer
entry, no sample, no captured strap and no plan, and no flag or counter but those named for them. -/
def Obligations.SendCommandsFrame : Prop :=
  ∀ (c : Instr) (s t : State), isSendCommand c = true → exec c s = .next t →
    t.pmn = s.pmn ∧ t.stu = s.stu ∧ t.imu = { s.imu with items := t.imu.items } ∧ SameButIssued s.imu.items t.imu.items ∧
    (c ≠ .guardExpiry → t.stc = s.stc) ∧ t.stc.straps = s.stc.straps ∧ t.stc.plan = s.stc.plan ∧
    t.hpt =
      { s.hpt with
        counters := t.hpt.counters
        flags := { s.hpt.flags with
          requestDone := t.hpt.flags.requestDone, requestsIdle := t.hpt.flags.requestsIdle, guardTrip := t.hpt.flags.guardTrip } } ∧
    (∀ n, n ≠ .framesSent → n ≠ .collisions → n ≠ .abandoned → t.hpt.counters.get n = s.hpt.counters.get n) ∧
    (c ≠ .attemptComplete → t.lrx.queue = s.lrx.queue) ∧
    ∀ k w : Nat, 1 ≤ w → w ≤ 4 → ringWord t k w = ringWord s k w

/-- The steps of the IMU change no plan field and no LAST ISSUED VERSION of an item, nothing of the request engine or the start
controller, no flag or counter of another block, no peer entry but at a notice (or an expiry just before it), and no sample but at a
remote record; an attempt in progress and the offers waiting stay as they were. -/
def Obligations.ImageCommandsFrame : Prop :=
  ∀ (c : Instr) (s t : State), isImageCommand c = true → exec c s = .next t →
    t.req = s.req ∧ t.stc = s.stc ∧ t.freeCount = s.freeCount ∧
    t.imu.items.map Item.plan = s.imu.items.map Item.plan ∧
    (t.imu.items.map fun it => it.owned.map OwnedFields.lastIssued) =
      (s.imu.items.map fun it => it.owned.map OwnedFields.lastIssued) ∧
    t.lrx = { s.lrx with queue := t.lrx.queue } ∧ ((∀ x, c ≠ .imuTakeFrame x) → t.pmn = s.pmn) ∧
    ((∀ x, c ≠ .remoteRecord x) → t.stu = s.stu) ∧
    t.lau = { s.lau with queue := t.lau.queue, transmitter := t.lau.transmitter } ∧
    t.tsc = { s.tsc with cursor := t.tsc.cursor, refreshTimer := t.tsc.refreshTimer } ∧
    t.hpt =
      { s.hpt with
        held := t.hpt.held, readData := t.hpt.readData
        flags := { s.hpt.flags with
          peerLost := t.hpt.flags.peerLost, gateApplied := t.hpt.flags.gateApplied, peerJoined := t.hpt.flags.peerJoined,
          itemClash := t.hpt.flags.itemClash, sampleOverrun := t.hpt.flags.sampleOverrun, planMismatch := t.hpt.flags.planMismatch }
        counters := { s.hpt.counters with
          sequenceGaps := t.hpt.counters.sequenceGaps, foreignRecords := t.hpt.counters.foreignRecords,
          missedGates := t.hpt.counters.missedGates } }

/-- MUTED is left only by a reset: no other command changes the station state or the cause. -/
def Obligations.MutedLeftOnlyByReset : Prop :=
  ∀ (c : Instr) (s t : State), PlanPhase s → s.stc.station = .muted → isReset c = false → c.wellFormed = true →
    exec c s = .next t → t.stc.station = .muted ∧ t.stc.mutedCause = s.stc.mutedCause

/-! ## Invariants -/

/-- The state after reset meets every invariant stated below. -/
def Obligations.InvariantsHoldAtReset : Prop :=
  StoresCanonical State.reset ∧ SampleRules State.reset ∧ PlanPhase State.reset ∧ TransmitQueueRules State.reset ∧
    SendingRules State.reset ∧ OutcomeRules State.reset ∧ PeerRules State.reset ∧ EventListRules State.reset ∧ ImageRules State.reset ∧
    ItemRules State.reset ∧ TrafficRules State.reset

/-- Every step keeps the stores of words canonical and within their regions, and the sample queue at most 256 entries. -/
def Obligations.StepKeepsStoresAndSamples : Prop :=
  ∀ s t : State, StoresCanonical s → SampleRules s → step s = .next t → StoresCanonical t ∧ SampleRules t

/-- Every step keeps it that the driver is on only in SEND of an ACTIVE station, under its guard, with a receive queue entry free, and
the other rules of sending, and keeps the limits of the transmit queue. -/
def Obligations.StepKeepsSendingRules : Prop :=
  ∀ s t : State, PlanPhase s → SendingRules s → TransmitQueueRules s → step s = .next t →
    PlanPhase t ∧ SendingRules t ∧ TransmitQueueRules t

/-- Every step keeps the account of frames without an outcome: none is lost and none is told twice. -/
def Obligations.StepKeepsOutcomeRules : Prop :=
  ∀ s t : State, OutcomeRules s → step s = .next t → OutcomeRules t

/-- Every step keeps exactly the own entry SELF, and sequence and lost timer present exactly in PRESENT; and the owner event list with other
stations only, each at most once as lost, and at most one other event, so that it never holds more than 32. -/
def Obligations.StepKeepsPeerRules : Prop :=
  (∀ s t : State, PeerRules s → step s = .next t → PeerRules t) ∧
  ∀ s t : State, PeerRules s → EventListRules s → step s = .next t → EventListRules t ∧ t.imu.events.length ≤ 32

/-- Every step keeps the item table in ascending order, LENGTHs legal, pending parts in GATED items, ownership by station number, the change
list without a number twice, and an owner event in hand with items left, in slot order. -/
def Obligations.StepKeepsImageRules : Prop :=
  ∀ s t : State, ImageRules s → step s = .next t → ImageRules t

/-- Every step keeps the conditions of items true to what they hold: owned items are UNSET or LOCAL and no others are, an item has no
value exactly in VACANT and UNSET, every value has its item's LENGTH; this station's records on their way are of its own items, and an owner
event in hand is another station's, over items of that station, at an IMU with nothing else in hand but a frame in its notice. -/
def Obligations.StepKeepsItemConditions : Prop :=
  ∀ s t : State, PlanPhase s → PeerRules s → ImageRules s → ItemRules s ∧ TrafficRules s → step s = .next t →
    ItemRules t ∧ TrafficRules t

end
end

