-- ==== Sys2Proof/Laws/State.lean ====
section
/-! SUPPORT. One lemma per block for each small update of the state: the block it changes, and the blocks it leaves as they were. -/

namespace Sys2Proof.Laws

open Sys2Proof.Machine

@[simp] theorem raiseFlag_pending (name : FlagName) (s : State) : (raiseFlag name s).pending = s.pending := rfl
@[simp] theorem raiseFlag_lrx (name : FlagName) (s : State) : (raiseFlag name s).lrx = s.lrx := rfl
@[simp] theorem raiseFlag_lau (name : FlagName) (s : State) : (raiseFlag name s).lau = s.lau := rfl
@[simp] theorem raiseFlag_imu (name : FlagName) (s : State) : (raiseFlag name s).imu = s.imu := rfl
@[simp] theorem raiseFlag_pmn (name : FlagName) (s : State) : (raiseFlag name s).pmn = s.pmn := rfl
@[simp] theorem raiseFlag_req (name : FlagName) (s : State) : (raiseFlag name s).req = s.req := rfl
@[simp] theorem raiseFlag_tsc (name : FlagName) (s : State) : (raiseFlag name s).tsc = s.tsc := rfl
@[simp] theorem raiseFlag_stu (name : FlagName) (s : State) : (raiseFlag name s).stu = s.stu := rfl
@[simp] theorem raiseFlag_stc (name : FlagName) (s : State) : (raiseFlag name s).stc = s.stc := rfl
@[simp] theorem raiseFlag_hpt (name : FlagName) (s : State) : (raiseFlag name s).hpt = { s.hpt with flags := s.hpt.flags.raise name } := rfl
@[simp] theorem raiseFlag_freeCount (name : FlagName) (s : State) : (raiseFlag name s).freeCount = s.freeCount := rfl

@[simp] theorem countUp_pending (name : CounterName) (s : State) : (countUp name s).pending = s.pending := rfl
@[simp] theorem countUp_lrx (name : CounterName) (s : State) : (countUp name s).lrx = s.lrx := rfl
@[simp] theorem countUp_lau (name : CounterName) (s : State) : (countUp name s).lau = s.lau := rfl
@[simp] theorem countUp_imu (name : CounterName) (s : State) : (countUp name s).imu = s.imu := rfl
@[simp] theorem countUp_pmn (name : CounterName) (s : State) : (countUp name s).pmn = s.pmn := rfl
@[simp] theorem countUp_req (name : CounterName) (s : State) : (countUp name s).req = s.req := rfl
@[simp] theorem countUp_tsc (name : CounterName) (s : State) : (countUp name s).tsc = s.tsc := rfl
@[simp] theorem countUp_stu (name : CounterName) (s : State) : (countUp name s).stu = s.stu := rfl
@[simp] theorem countUp_stc (name : CounterName) (s : State) : (countUp name s).stc = s.stc := rfl
@[simp] theorem countUp_hpt (name : CounterName) (s : State) : (countUp name s).hpt = { s.hpt with counters := s.hpt.counters.set (s.hpt.counters.get name).increment name } := rfl
@[simp] theorem countUp_freeCount (name : CounterName) (s : State) : (countUp name s).freeCount = s.freeCount := rfl

@[simp] theorem holdAccess_pending (a : Access) (s : State) : (holdAccess a s).pending = s.pending := rfl
@[simp] theorem holdAccess_lrx (a : Access) (s : State) : (holdAccess a s).lrx = s.lrx := rfl
@[simp] theorem holdAccess_lau (a : Access) (s : State) : (holdAccess a s).lau = s.lau := rfl
@[simp] theorem holdAccess_imu (a : Access) (s : State) : (holdAccess a s).imu = s.imu := rfl
@[simp] theorem holdAccess_pmn (a : Access) (s : State) : (holdAccess a s).pmn = s.pmn := rfl
@[simp] theorem holdAccess_req (a : Access) (s : State) : (holdAccess a s).req = s.req := rfl
@[simp] theorem holdAccess_tsc (a : Access) (s : State) : (holdAccess a s).tsc = s.tsc := rfl
@[simp] theorem holdAccess_stu (a : Access) (s : State) : (holdAccess a s).stu = s.stu := rfl
@[simp] theorem holdAccess_stc (a : Access) (s : State) : (holdAccess a s).stc = s.stc := rfl
@[simp] theorem holdAccess_hpt (a : Access) (s : State) : (holdAccess a s).hpt = { s.hpt with held := some { access := a, released := false } } := rfl
@[simp] theorem holdAccess_freeCount (a : Access) (s : State) : (holdAccess a s).freeCount = s.freeCount := rfl

@[simp] theorem setPeer_pending (n : Station) (p : Peer) (s : State) : (setPeer n p s).pending = s.pending := rfl
@[simp] theorem setPeer_lrx (n : Station) (p : Peer) (s : State) : (setPeer n p s).lrx = s.lrx := rfl
@[simp] theorem setPeer_lau (n : Station) (p : Peer) (s : State) : (setPeer n p s).lau = s.lau := rfl
@[simp] theorem setPeer_imu (n : Station) (p : Peer) (s : State) : (setPeer n p s).imu = s.imu := rfl
@[simp] theorem setPeer_pmn (n : Station) (p : Peer) (s : State) : (setPeer n p s).pmn = { peers := s.pmn.peers.set n p } := rfl
@[simp] theorem setPeer_req (n : Station) (p : Peer) (s : State) : (setPeer n p s).req = s.req := rfl
@[simp] theorem setPeer_tsc (n : Station) (p : Peer) (s : State) : (setPeer n p s).tsc = s.tsc := rfl
@[simp] theorem setPeer_stu (n : Station) (p : Peer) (s : State) : (setPeer n p s).stu = s.stu := rfl
@[simp] theorem setPeer_stc (n : Station) (p : Peer) (s : State) : (setPeer n p s).stc = s.stc := rfl
@[simp] theorem setPeer_hpt (n : Station) (p : Peer) (s : State) : (setPeer n p s).hpt = s.hpt := rfl
@[simp] theorem setPeer_freeCount (n : Station) (p : Peer) (s : State) : (setPeer n p s).freeCount = s.freeCount := rfl

@[simp] theorem appendEvent_pending (e : OwnerEvent) (s : State) : (appendEvent e s).pending = s.pending := rfl
@[simp] theorem appendEvent_lrx (e : OwnerEvent) (s : State) : (appendEvent e s).lrx = s.lrx := rfl
@[simp] theorem appendEvent_lau (e : OwnerEvent) (s : State) : (appendEvent e s).lau = s.lau := rfl
@[simp] theorem appendEvent_imu (e : OwnerEvent) (s : State) : (appendEvent e s).imu = { s.imu with events := s.imu.events ++ [e] } := rfl
@[simp] theorem appendEvent_pmn (e : OwnerEvent) (s : State) : (appendEvent e s).pmn = s.pmn := rfl
@[simp] theorem appendEvent_req (e : OwnerEvent) (s : State) : (appendEvent e s).req = s.req := rfl
@[simp] theorem appendEvent_tsc (e : OwnerEvent) (s : State) : (appendEvent e s).tsc = s.tsc := rfl
@[simp] theorem appendEvent_stu (e : OwnerEvent) (s : State) : (appendEvent e s).stu = s.stu := rfl
@[simp] theorem appendEvent_stc (e : OwnerEvent) (s : State) : (appendEvent e s).stc = s.stc := rfl
@[simp] theorem appendEvent_hpt (e : OwnerEvent) (s : State) : (appendEvent e s).hpt = s.hpt := rfl
@[simp] theorem appendEvent_freeCount (e : OwnerEvent) (s : State) : (appendEvent e s).freeCount = s.freeCount := rfl

@[simp] theorem driverOff_pending (s : State) : (driverOff s).pending = s.pending := rfl
@[simp] theorem driverOff_lrx (s : State) : (driverOff s).lrx = s.lrx := rfl
@[simp] theorem driverOff_lau (s : State) : (driverOff s).lau = { s.lau with driver := false, guard := false, attempt := none } := rfl
@[simp] theorem driverOff_imu (s : State) : (driverOff s).imu = s.imu := rfl
@[simp] theorem driverOff_pmn (s : State) : (driverOff s).pmn = s.pmn := rfl
@[simp] theorem driverOff_req (s : State) : (driverOff s).req = s.req := rfl
@[simp] theorem driverOff_tsc (s : State) : (driverOff s).tsc = s.tsc := rfl
@[simp] theorem driverOff_stu (s : State) : (driverOff s).stu = s.stu := rfl
@[simp] theorem driverOff_stc (s : State) : (driverOff s).stc = s.stc := rfl
@[simp] theorem driverOff_hpt (s : State) : (driverOff s).hpt = s.hpt := rfl
@[simp] theorem driverOff_freeCount (s : State) : (driverOff s).freeCount = s.freeCount := rfl

/-! ## Flags and counters -/

/-- A flag raised is up. -/
@[simp] theorem get_raise_same (f : Flags) (n : FlagName) : (f.raise n).get n = true := by cases n <;> rfl

/-- A raise leaves every other flag as it was. -/
theorem get_raise_other (f : Flags) {n m : FlagName} (h : m ≠ n) : (f.raise n).get m = f.get m := by
  cases n <;> cases m <;> first | rfl | exact absurd rfl h

/-- The counter set reads as set. -/
@[simp] theorem get_set_same (c : Counters) (v : Counter) (n : CounterName) : (c.set v n).get n = v := by cases n <;> rfl

/-- Setting a counter leaves every other counter as it was. -/
theorem get_set_other (c : Counters) (v : Counter) {n m : CounterName} (h : m ≠ n) : (c.set v n).get m = c.get m := by
  cases n <;> cases m <;> first | rfl | exact absurd rfl h

/-! ## Peers -/

/-- The entry of a peer after a set of an entry. -/
theorem peerOf_setPeer (n m : Station) (p : Peer) (s : State) : peerOf (setPeer n p s) m = if m = n then p else peerOf s m := by
  unfold peerOf setPeer
  by_cases h : m = n
  · subst h; simp
  · have hv : ¬ n.val = m.val := fun e => h (Fin.ext e.symm)
    simp [h, hv]

/-- The peer table at a reset (R48, R49). -/
theorem resetPeers_get (n m : Station) : (resetPeers n)[m] = if m = n then Peer.selfEntry else Peer.absentEntry := by
  unfold resetPeers
  by_cases h : m = n
  · subst h; simp
  · have hv : ¬ n.val = m.val := fun e => h (Fin.ext e.symm)
    simp [h, hv]

end Sys2Proof.Laws
end

