-- ==== Sys2Proof/Laws/Stores.lean ====
section
/-! SUPPORT. The stores of words: what a read gives after a write, and that a write keeps the canonical form. -/

namespace Sys2Proof.Laws

open Sys2Proof.Machine

/-- In a store whose word numbers start at `least`, a smaller word number reads 0. -/
theorem read_below {limit : Nat} {m : WordStore} {least a : Nat} (h : WordStore.wfFrom limit least m = true) (ha : a < least) :
    m.read a = 0 := by
  induction m generalizing least with
  | nil => rfl
  | cons e rest ih =>
    obtain ⟨b, w⟩ := e
    simp only [WordStore.wfFrom, Bool.and_eq_true, decide_eq_true_eq] at h
    have hne : a ≠ b := by omega
    simp only [WordStore.read, if_neg hne]
    exact ih h.2 (by omega)

/-- The canonical form from a word number on is one from any smaller word number on. -/
theorem wfFrom_mono {limit : Nat} {m : WordStore} {least least' : Nat} (h : WordStore.wfFrom limit least m = true)
    (hle : least' ≤ least) : WordStore.wfFrom limit least' m = true := by
  cases m with
  | nil => rfl
  | cons e rest =>
    obtain ⟨b, w⟩ := e
    simp only [WordStore.wfFrom, Bool.and_eq_true, decide_eq_true_eq] at h ⊢
    exact ⟨⟨⟨by omega, h.1.1.2⟩, h.1.2⟩, h.2⟩

/-- A read of another word is what it was. -/
theorem read_write_other (m : WordStore) {a b : Nat} (v : Word) (h : a ≠ b) : (m.write b v).read a = m.read a := by
  induction m with
  | nil => simp only [WordStore.write]; split_ifs <;> simp [WordStore.read, h]
  | cons e rest ih =>
    obtain ⟨k, w⟩ := e
    simp only [WordStore.write]
    split_ifs with h1 h2 h3 h4
    · rfl
    · simp [WordStore.read, h]
    · subst h3; simp [WordStore.read, h]
    · subst h3; simp [WordStore.read, h]
    · simp only [WordStore.read, ih]

theorem read_write_same_from {limit : Nat} {m : WordStore} {least : Nat} (a : Nat) (v : Word)
    (h : WordStore.wfFrom limit least m = true) : (m.write a v).read a = v := by
  induction m generalizing least with
  | nil =>
    simp only [WordStore.write]
    split_ifs with hv
    · subst hv; rfl
    · simp [WordStore.read]
  | cons e rest ih =>
    obtain ⟨k, w⟩ := e
    simp only [WordStore.wfFrom, Bool.and_eq_true, decide_eq_true_eq] at h
    simp only [WordStore.write]
    split_ifs with h1 h2 h3 h4
    · subst h2
      have hne : a ≠ k := by omega
      simp only [WordStore.read, if_neg hne]
      exact read_below h.2 (by omega)
    · simp [WordStore.read]
    · subst h3; subst h4
      exact read_below h.2 (by omega)
    · simp [WordStore.read]
    · simp only [WordStore.read, if_neg h3]
      exact ih h.2

/-- A read of the word written gives the word. -/
theorem read_write_same {limit : Nat} {m : WordStore} (a : Nat) (v : Word) (h : m.wf limit = true) :
    (m.write a v).read a = v := read_write_same_from a v h

/-- A read after a write. -/
theorem read_write {limit : Nat} {m : WordStore} (a b : Nat) (v : Word) (h : m.wf limit = true) :
    (m.write b v).read a = if a = b then v else m.read a := by
  split_ifs with hab
  · subst hab; exact read_write_same a v h
  · exact read_write_other m v hab

theorem write_wfFrom {limit : Nat} {m : WordStore} {least : Nat} {a : Nat} (v : Word)
    (h : WordStore.wfFrom limit least m = true) (hl : least ≤ a) (ha : a < limit) :
    WordStore.wfFrom limit least (m.write a v) = true := by
  induction m generalizing least with
  | nil =>
    simp only [WordStore.write]
    split_ifs with hv
    · rfl
    · simpa [WordStore.wfFrom, hl, ha] using hv
  | cons e rest ih =>
    obtain ⟨k, w⟩ := e
    have h0 := h
    simp only [WordStore.wfFrom, Bool.and_eq_true, decide_eq_true_eq] at h
    simp only [WordStore.write]
    split_ifs with h1 h2 h3 h4
    · exact h0
    · simp only [WordStore.wfFrom, Bool.and_eq_true, decide_eq_true_eq]
      refine ⟨⟨⟨hl, ha⟩, by simpa using h2⟩, ⟨⟨by omega, h.1.1.2⟩, h.1.2⟩, h.2⟩
    · exact wfFrom_mono h.2 (by omega)
    · simp only [WordStore.wfFrom, Bool.and_eq_true, decide_eq_true_eq]
      refine ⟨⟨⟨hl, ha⟩, by simpa using h4⟩, wfFrom_mono h.2 (by omega)⟩
    · simp only [WordStore.wfFrom, Bool.and_eq_true, decide_eq_true_eq]
      exact ⟨h.1, ih h.2 (by omega)⟩

/-- A write within the region keeps the canonical form. -/
theorem write_wf {limit : Nat} {m : WordStore} {a : Nat} (v : Word) (h : m.wf limit = true) (ha : a < limit) :
    (m.write a v).wf limit = true := write_wfFrom v h (Nat.zero_le a) ha

end Sys2Proof.Laws
end

