-- ==== Sys2Proof/Laws/Requests.lean ====
section
/-! SUPPORT. Admissions, frame building, closing and the request process: induction principles for the two fuelled loops, and the one
lemma that says what all of it leaves unchanged. -/

namespace Sys2Proof.Laws

open Sys2Proof.Machine

/-! ## Induction over the loops -/

/-- A property kept by admissions and builds is kept by `pump`. -/
theorem pump_keeps {P : State → Prop} (hp : ∀ s, P s → P (admitPresence s)) (hr : ∀ s, P s → P (admitReq s))
    (hb : ∀ s w, P s → s.req.slot = some w → buildsNow s w = true → P (buildFrame w s)) :
    ∀ n s, P s → P (pump n s) := by
  intro n
  induction n with
  | zero => intro s h; exact hr _ (hp _ h)
  | succ n ih =>
    intro s h
    have ha : P (arbiter s) := hr _ (hp _ h)
    simp only [pump]
    cases hw : (arbiter s).req.slot with
    | none => exact ha
    | some w =>
      simp only
      split_ifs with hbn
      · exact ih _ (hb _ _ ha hw hbn)
      · exact ha

/-- A property kept by admissions, builds, closes and examinations is kept by `reqRun`. -/
theorem reqRun_keeps {P : State → Prop} (hp : ∀ s, P s → P (admitPresence s)) (hr : ∀ s, P s → P (admitReq s))
    (hb : ∀ s w, P s → s.req.slot = some w → buildsNow s w = true → P (buildFrame w s))
    (hc : ∀ s w, P s → s.req.slot = some w → closable s w = true → P (closeSlot w.status w.remaining w.lost w.frames s))
    (he : ∀ s, P s → s.req.slot = none → s.req.process = .running → examines s = true → P (examineSlot s)) :
    ∀ n s, P s → P (reqRun n s) := by
  intro n
  induction n with
  | zero => intro s h; exact h
  | succ n ih =>
    intro s h
    simp only [reqRun]
    cases hs : s.req.slot with
    | none =>
      simp only
      split_ifs with hx
      · exact ih _ (he _ h hs hx.1 hx.2)
      · exact h
    | some w0 =>
      simp only
      have hpmp := pump_keeps hp hr hb 8 s h
      cases hw : (pump 8 s).req.slot with
      | none => exact hpmp
      | some w =>
        simp only
        split_ifs with hcl
        · exact ih _ (hc _ _ hpmp hw hcl)
        · exact hpmp

/-! ## What is left unchanged -/

theorem kept_refl (a : TxState) : KeptOrLeftIdle a a := Or.inl rfl

theorem kept_trans {a b c : TxState} (h : KeptOrLeftIdle a b) (g : KeptOrLeftIdle b c) : KeptOrLeftIdle a c := by
  rcases h with rfl | ⟨rfl, h | h⟩
  · exact g
  all_goals
    subst h
    rcases g with rfl | ⟨g, -⟩
    · exact Or.inr ⟨rfl, by simp⟩
    · cases g

end Sys2Proof.Laws

namespace Sys2Proof.Machine

open Sys2Proof.Laws

/-- Nothing changed. -/
theorem RequestEffects.refl (s : State) : RequestEffects s s :=
  { pending := rfl, freeCount := rfl, lrx := rfl, pmn := rfl, tsc := rfl, stu := rfl, stc := rfl, imu := rfl, items := rfl, lau := rfl,
    queue := List.prefix_rfl, presenceOffer := Or.inl rfl, transmitter := kept_refl _, ring := fun _ _ _ _ => rfl, hpt := rfl,
    flags := ⟨id, id⟩ }

/-- One after the other. -/
theorem RequestEffects.trans {s t u : State} (h : RequestEffects s t) (g : RequestEffects t u) : RequestEffects s u where
  pending := g.pending.trans h.pending
  freeCount := g.freeCount.trans h.freeCount
  lrx := g.lrx.trans h.lrx
  pmn := g.pmn.trans h.pmn
  tsc := g.tsc.trans h.tsc
  stu := g.stu.trans h.stu
  stc := g.stc.trans h.stc
  imu := by rw [g.imu, h.imu]
  items := g.items.trans h.items
  lau := by rw [g.lau, h.lau]
  queue := h.queue.trans g.queue
  presenceOffer := by
    rcases g.presenceOffer with e | e
    · rw [e]; exact h.presenceOffer
    · exact Or.inr e
  transmitter := kept_trans h.transmitter g.transmitter
  ring := fun k w h1 h4 => (g.ring k w h1 h4).trans (h.ring k w h1 h4)
  hpt := by rw [g.hpt, h.hpt]
  flags := ⟨fun e => g.flags.1 (h.flags.1 e), fun e => g.flags.2 (h.flags.2 e)⟩

end Sys2Proof.Machine

namespace Sys2Proof.Laws

open Sys2Proof.Machine

theorem admitPresence_effects (s : State) : RequestEffects s (admitPresence s) := by
  unfold admitPresence
  split
  · exact .refl s
  · split_ifs
    · constructor <;> first | rfl | exact List.prefix_append _ _ | exact Or.inr rfl | exact kept_refl _ | exact ⟨id, id⟩ | exact fun _ _ _ _ => rfl
    · exact .refl s

theorem admitReq_effects (s : State) : RequestEffects s (admitReq s) := by
  unfold admitReq
  split
  · exact .refl s
  · split_ifs
    · constructor <;> first | rfl | exact List.prefix_append _ _ | exact Or.inl rfl | exact kept_refl _ | exact ⟨id, id⟩ | exact fun _ _ _ _ => rfl
    · exact .refl s

theorem arbiter_effects (s : State) : RequestEffects s (arbiter s) :=
  (admitPresence_effects s).trans (admitReq_effects _)

theorem idleExit_effects (s : State) : RequestEffects s (idleExit s) := by
  unfold idleExit
  split
  · rename_i h
    constructor <;> first | rfl | exact List.prefix_rfl | exact Or.inl rfl | exact ⟨id, id⟩ | exact fun _ _ _ _ => rfl | skip
    refine Or.inr ⟨h.1, ?_⟩
    by_cases hl : s.lrx.line = .quiet <;> simp [hl]
  · exact .refl s

theorem issue_withoutIssued (it : Item) : it.issue.withoutIssued = it.withoutIssued := by
  cases it with
  | mk p c v q b o st => cases o <;> rfl

theorem sameButIssued_set {items : List Item} {k : Nat} {it : Item} (h : items[k]? = some it) :
    SameButIssued items (items.set k it.issue) := by
  unfold SameButIssued
  rw [List.map_set, issue_withoutIssued]
  apply List.ext_getElem?
  intro j
  rw [List.getElem?_set]
  split_ifs with h1 h2
  · subst h1; simp [h]
  · subst h1; simp at h2; simp [h2]
  · rfl

theorem buildRecords_items (staging : WordStore) (slots : List Nat) :
    ∀ (items : List Item) (offset : Nat), SameButIssued items (buildRecords staging slots items offset).2.1 := by
  induction slots with
  | nil => intro items offset; rfl
  | cons k rest ih =>
    intro items offset
    simp only [buildRecords]
    cases h : items[k]? with
    | none => exact ih items offset
    | some it => exact (ih (items.set k it.issue) (offset + it.plan.length)).trans (sameButIssued_set h)

theorem buildFrame_effects (w : SlotWork) (s : State) : RequestEffects s (buildFrame w s) := by
  unfold buildFrame
  cases w.gate with
  | some g =>
    constructor <;> first | rfl | exact List.prefix_rfl | exact Or.inl rfl | exact kept_refl _ | exact ⟨id, id⟩ | exact fun _ _ _ _ => rfl
  | none =>
    constructor <;> first | rfl | exact buildRecords_items _ _ _ _ | exact List.prefix_rfl | exact Or.inl rfl | exact kept_refl _ | exact ⟨id, id⟩ | exact fun _ _ _ _ => rfl

/-- A close leaves words 1 to 4 of every slot as they were (R102, R116). -/
theorem closeSlot_ring (status : SlotStatus) (remaining lost frames : Nat) (s : State) (k w : Nat) (h1 : 1 ≤ w) (h4 : w ≤ 4) :
    ringWord (closeSlot status remaining lost frames s) k w = ringWord s k w := by
  unfold closeSlot ringWord
  simp only [raiseFlag_req]
  have hk : s.req.cursor.val < 16 := s.req.cursor.isLt
  rw [read_write_other _ _ (by omega), read_write_other _ _ (by omega), read_write_other _ _ (by omega),
    read_write_other _ _ (by omega)]

theorem raise_requestDone (f : Flags) : f.raise .requestDone = { f with requestDone := true } := rfl

theorem closeSlot_effects (status : SlotStatus) (remaining lost frames : Nat) (s : State) :
    RequestEffects s (closeSlot status remaining lost frames s) := by
  constructor <;> first | rfl | exact List.prefix_rfl | exact Or.inl rfl | exact kept_refl _ | exact ⟨fun _ => rfl, id⟩ | exact fun k w h1 h4 => closeSlot_ring _ _ _ _ s k w h1 h4

theorem process_effects (p : Process) (s : State) : RequestEffects s { s with req.process := p } := by
  constructor <;> first | rfl | exact List.prefix_rfl | exact Or.inl rfl | exact kept_refl _ | exact ⟨id, id⟩ | exact fun _ _ _ _ => rfl

theorem slot_effects (w : Option SlotWork) (s : State) : RequestEffects s { s with req.slot := w } := by
  constructor <;> first | rfl | exact List.prefix_rfl | exact Or.inl rfl | exact kept_refl _ | exact ⟨id, id⟩ | exact fun _ _ _ _ => rfl

theorem requestsIdle_effects (s : State) : RequestEffects s (raiseFlag .requestsIdle s) := by
  constructor <;> first | rfl | exact List.prefix_rfl | exact Or.inl rfl | exact kept_refl _ | exact ⟨id, fun _ => rfl⟩ | exact fun _ _ _ _ => rfl

theorem examineSlot_effects (s : State) : RequestEffects s (examineSlot s) := by
  unfold examineSlot
  simp only
  by_cases h1 : (cursorCopy s).stationOwned = true
  · rw [if_pos h1]
    split
    · exact (process_effects .running s).trans (closeSlot_effects _ _ _ _ _)
    · split
      · exact (process_effects .running s).trans (closeSlot_effects _ _ _ _ _)
      · exact (process_effects .running s).trans (slot_effects _ _)
  · rw [if_neg h1]
    exact (process_effects .suspended s).trans (requestsIdle_effects _)

theorem reqRun_effects (n : Nat) (s : State) : RequestEffects s (reqRun n s) :=
  reqRun_keeps (P := RequestEffects s) (fun t h => h.trans (admitPresence_effects t)) (fun t h => h.trans (admitReq_effects t))
    (fun t w h _ _ => h.trans (buildFrame_effects w t)) (fun t _ h _ _ => h.trans (closeSlot_effects _ _ _ _ t))
    (fun t h _ _ _ => h.trans (examineSlot_effects t)) n s (.refl s)

/-! ## How the loops go on -/

/-- With nothing to build now, `pump` is an admission decision. -/
theorem pump_rests {s : State} {w : SlotWork} (h : (arbiter s).req.slot = some w) (hb : buildsNow (arbiter s) w = false) (n : Nat) :
    pump (n + 1) s = arbiter s := by
  simp [pump, h, hb]

/-- `pump` builds a frame when it can. -/
theorem pump_builds {s : State} {w : SlotWork} (h : (arbiter s).req.slot = some w) (hb : buildsNow (arbiter s) w = true) (n : Nat) :
    pump (n + 1) s = pump n (buildFrame w (arbiter s)) := by
  simp [pump, h, hb]

/-- The process rests when no slot is in progress and it may not examine one. -/
theorem reqRun_rests {s : State} (h : s.req.slot = none) (hx : s.req.process ≠ .running ∨ examines s = false) (n : Nat) :
    reqRun n s = s := by
  cases n with
  | zero => rfl
  | succ n =>
    simp only [reqRun, h]
    rw [if_neg]
    rintro ⟨h1, h2⟩
    rcases hx with hx | hx
    · exact hx h1
    · rw [hx] at h2; cases h2

/-- A running process with no slot in progress examines the cursor slot. -/
theorem reqRun_examines {s : State} (h : s.req.slot = none) (h1 : s.req.process = .running) (h2 : examines s = true) (n : Nat) :
    reqRun (n + 1) s = reqRun n (examineSlot s) := by
  simp only [reqRun, h]
  rw [if_pos ⟨h1, h2⟩]

/-- A slot in progress that may not close yet rests after its builds. -/
theorem reqRun_waits {s : State} {w w' : SlotWork} (h : s.req.slot = some w) (hp : (pump 8 s).req.slot = some w')
    (hc : closable (pump 8 s) w' = false) (n : Nat) : reqRun (n + 1) s = pump 8 s := by
  simp only [reqRun, h, hp]
  rw [if_neg (by simp [hc])]

/-- A slot in progress that may close after its builds closes, and the process goes on. -/
theorem reqRun_closes {s : State} {w w' : SlotWork} (h : s.req.slot = some w) (hp : (pump 8 s).req.slot = some w')
    (hc : closable (pump 8 s) w' = true) (n : Nat) :
    reqRun (n + 1) s = reqRun n (closeSlot w'.status w'.remaining w'.lost w'.frames (pump 8 s)) := by
  simp only [reqRun, h, hp]
  rw [if_pos hc]

/-- A HOST-owned cursor slot suspends the process (R104). -/
theorem examineSlot_host {s : State} (h : (cursorCopy s).stationOwned = false) :
    examineSlot s = raiseFlag .requestsIdle { s with req.process := .suspended } := by
  simp [examineSlot, h]

/-- A refused cursor slot is closed (R108). -/
theorem examineSlot_refused {s : State} {status : SlotStatus} (h : (cursorCopy s).stationOwned = true)
    (hc : slotCheck s (cursorCopy s) = some status) :
    examineSlot s = closeSlot status (cursorCopy s).size 0 0 { s with req.process := .running } := by
  simp [examineSlot, h, hc]

/-- A valid cursor slot is closed SILENT while the station is MUTED or strapped LISTEN (R109). -/
theorem examineSlot_silent {s : State} (h : (cursorCopy s).stationOwned = true) (hc : slotCheck s (cursorCopy s) = none)
    (hm : s.stc.station = .muted ∨ s.stc.straps.listen = true) :
    examineSlot s = closeSlot .silent (cursorCopy s).size 0 0 { s with req.process := .running } := by
  simp [examineSlot, h, hc, hm]

/-- A valid cursor slot is in progress otherwise (R104). -/
theorem examineSlot_works {s : State} (h : (cursorCopy s).stationOwned = true) (hc : slotCheck s (cursorCopy s) = none)
    (hm : ¬(s.stc.station = .muted ∨ s.stc.straps.listen = true)) :
    examineSlot s = { s with req.process := .running, req.slot := some (slotWork s (cursorCopy s)) } := by
  simp only [examineSlot, h, if_true, hc, if_neg hm]

/-- The checks of a slot look at the item table and the captured station number, and at nothing else of the state. -/
theorem slotCheck_congr {s s' : State} (hi : s'.imu.items = s.imu.items) (hs : s'.stc.straps = s.stc.straps) (copy : SlotCopy) :
    slotCheck s' copy = slotCheck s copy := by
  have hl : slotLength s' = slotLength s := by funext k; simp only [slotLength, hi]
  have hu : stagingUsed s' copy = stagingUsed s copy := by unfold stagingUsed namedSlots; rw [hl, hi]
  have hc : itemChecks s' copy = itemChecks s copy := by unfold itemChecks namedSlots stationNumber; rw [hu, hi, hs]
  unfold slotCheck
  rw [hc]

/-! ## Closing -/

/-- What a close writes into the slot (R116). -/
theorem closeSlot_handsBack (status : SlotStatus) (remaining lost frames : Nat) {s : State} (h : s.req.ring.wf 128 = true) :
    HandedBack s (closeSlot status remaining lost frames s) status remaining lost frames := by
  have hk : s.req.cursor.val < 16 := s.req.cursor.isLt
  have w1 := write_wf (a := 8 * s.req.cursor.val + 5) (closedWord5 (ringWord s s.req.cursor.val 5) frames status) h (by omega)
  have w2 := write_wf (a := 8 * s.req.cursor.val + 6) (BitVec.ofNat 16 remaining) w1 (by omega)
  have w3 := write_wf (a := 8 * s.req.cursor.val + 7) (BitVec.ofNat 16 lost) w2 (by omega)
  simp only [ringWord] at w1 w2 w3
  refine ⟨?_, ?_, ?_, ?_⟩ <;> simp only [closeSlot, ringWord, raiseFlag_req] <;>
    rw [read_write _ _ _ w3, read_write _ _ _ w2, read_write _ _ _ w1, read_write _ _ _ h]
  · rw [if_pos (by omega)]; rfl
  · rw [if_neg (by omega), if_neg (by omega), if_neg (by omega), if_pos rfl]; rfl
  · rw [if_neg (by omega), if_neg (by omega), if_pos rfl]
  · rw [if_neg (by omega), if_pos rfl]

/-- A close leaves the words of every other slot as they were. -/
theorem closeSlot_otherSlots (status : SlotStatus) (remaining lost frames : Nat) (s : State) {k w : Nat}
    (h : k ≠ s.req.cursor.val) (hw : w < 8) : ringWord (closeSlot status remaining lost frames s) k w = ringWord s k w := by
  simp only [closeSlot, ringWord, raiseFlag_req]
  rw [read_write_other _ _ (by omega), read_write_other _ _ (by omega), read_write_other _ _ (by omega),
    read_write_other _ _ (by omega)]

/-! ## Blocks that admissions and the leaving of IDLE do not touch -/

theorem admitPresence_req (s : State) : (admitPresence s).req = s.req := by
  unfold admitPresence; split
  · rfl
  · split <;> rfl

theorem admitReq_req (s : State) : (admitReq s).req = s.req := by
  unfold admitReq; split
  · rfl
  · split <;> rfl

@[simp] theorem arbiter_req (s : State) : (arbiter s).req = s.req := (admitReq_req _).trans (admitPresence_req _)

theorem admitPresence_imu (s : State) : (admitPresence s).imu = s.imu := by
  unfold admitPresence; split
  · rfl
  · split <;> rfl

theorem admitReq_imu (s : State) : (admitReq s).imu = s.imu := by
  unfold admitReq; split
  · rfl
  · split <;> rfl

@[simp] theorem arbiter_imu (s : State) : (arbiter s).imu = s.imu := (admitReq_imu _).trans (admitPresence_imu _)

theorem admitPresence_hpt (s : State) : (admitPresence s).hpt = s.hpt := by
  unfold admitPresence; split
  · rfl
  · split <;> rfl

theorem admitReq_hpt (s : State) : (admitReq s).hpt = s.hpt := by
  unfold admitReq; split
  · rfl
  · split <;> rfl

@[simp] theorem arbiter_hpt (s : State) : (arbiter s).hpt = s.hpt := (admitReq_hpt _).trans (admitPresence_hpt _)

@[simp] theorem arbiter_stc (s : State) : (arbiter s).stc = s.stc := (arbiter_effects s).stc

/-- The leaving of IDLE touches nothing but the transmitter. -/
theorem idleExit_eq (s : State) : idleExit s = { s with lau.transmitter := (idleExit s).lau.transmitter } := by
  unfold idleExit; split <;> rfl

@[simp] theorem idleExit_req (s : State) : (idleExit s).req = s.req := by unfold idleExit; split <;> rfl
@[simp] theorem idleExit_imu (s : State) : (idleExit s).imu = s.imu := by unfold idleExit; split <;> rfl
@[simp] theorem idleExit_hpt (s : State) : (idleExit s).hpt = s.hpt := by unfold idleExit; split <;> rfl
@[simp] theorem idleExit_tsc (s : State) : (idleExit s).tsc = s.tsc := by unfold idleExit; split <;> rfl
@[simp] theorem idleExit_stc (s : State) : (idleExit s).stc = s.stc := by unfold idleExit; split <;> rfl
@[simp] theorem idleExit_lrx (s : State) : (idleExit s).lrx = s.lrx := by unfold idleExit; split <;> rfl
@[simp] theorem idleExit_pmn (s : State) : (idleExit s).pmn = s.pmn := by unfold idleExit; split <;> rfl
@[simp] theorem idleExit_stu (s : State) : (idleExit s).stu = s.stu := by unfold idleExit; split <;> rfl

/-- Outside ACTIVE the transmitter does not leave IDLE. -/
theorem idleExit_inactive {s : State} (h : s.stc.station ≠ .active) : idleExit s = s := by
  unfold idleExit; rw [if_neg]; rintro ⟨-, -, -, e⟩; exact h e

/-- All that the request process and the leaving of IDLE may change. -/
theorem runRequests_effects (s : State) : RequestEffects s (runRequests s) := (reqRun_effects 40 s).trans (idleExit_effects _)

/-- All that a settling of the sending side may change. -/
theorem settle_effects (s : State) : RequestEffects s (settle s) := (arbiter_effects s).trans (runRequests_effects _)

end Sys2Proof.Laws
end

