-- ==== Sys2Proof/Laws/Building.lean ====
section
/-! SUPPORT. Frames built one after another: what admissions and builds in turn leave of the slot in progress, the item table and the
frames, and when the building stops. -/

namespace Sys2Proof.Laws

open Sys2Proof.Machine

/-- Records are built part by part, each from the item table and the offset that the part before leaves. -/
theorem buildRecords_append (staging : WordStore) (slots more : List Nat) (items : List Item) (offset : Nat) :
    buildRecords staging (slots ++ more) items offset =
      let first := buildRecords staging slots items offset
      let then_ := buildRecords staging more first.2.1 first.2.2
      (first.1 ++ then_.1, then_.2) := by
  induction slots generalizing items offset with
  | nil => rfl
  | cons k rest ih =>
    simp only [List.cons_append, buildRecords]
    cases items[k]? with
    | none => exact ih items offset
    | some it => simp only [ih, List.cons_append]

/-! ## Admissions -/

/-- An admission of a presence offer leaves the REQ's offer and loses no frame of the REQ. -/
theorem admitPresence_reqQueued (s : State) :
    reqQueued s ≤ reqQueued (admitPresence s) ∧ (admitPresence s).lau.reqOffer = s.lau.reqOffer := by
  unfold admitPresence
  split
  · exact ⟨Nat.le_refl _, rfl⟩
  · split
    · exact ⟨by simp only [reqQueued, List.countP_append]; omega, rfl⟩
    · exact ⟨Nat.le_refl _, rfl⟩

/-- An admission decision with no offer of the REQ waiting makes none and loses no frame of the REQ. -/
theorem arbiter_none {s : State} (h : s.lau.reqOffer = none) : (arbiter s).lau.reqOffer = none ∧ reqQueued s ≤ reqQueued (arbiter s) := by
  have hp := admitPresence_reqQueued s
  have e : arbiter s = admitPresence s := by
    unfold arbiter admitReq
    rw [hp.2, h]
  rw [e]
  exact ⟨hp.2.trans h, hp.1⟩

/-- An admission decision admits the REQ's offer, one of at most 3 frames of the REQ, or leaves it waiting. -/
theorem arbiter_some {s : State} {g : TxFrame} (h : s.lau.reqOffer = some g) (hg : g.source = .req) :
    ((arbiter s).lau.reqOffer = some g ∧ reqQueued s ≤ reqQueued (arbiter s)) ∨
      ((arbiter s).lau.reqOffer = none ∧ g ∈ (arbiter s).lau.queue ∧ reqQueued s ≤ 2 ∧ reqQueued s + 1 ≤ reqQueued (arbiter s)) := by
  have hp := admitPresence_reqQueued s
  have ho := hp.2.trans h
  unfold arbiter admitReq
  rw [ho]
  simp only
  split
  · rename_i ha
    have hq : reqQueued (admitPresence s) < 3 := by
      simp only [admissible, hg, Bool.and_eq_true] at ha
      simpa using ha.1.1.2
    refine Or.inr ⟨rfl, List.mem_append_right _ (List.mem_singleton.mpr rfl), by omega, ?_⟩
    simp only [reqQueued, List.countP_append] at hp ⊢
    simp only [hg, List.countP_singleton, beq_self_eq_true, if_true]
    omega
  · exact Or.inl ⟨ho, hp.1⟩

/-- Frames queued stay queued through admissions and builds. -/
theorem pump_queue (n : Nat) (s : State) : s.lau.queue <+: (pump n s).lau.queue := by
  refine pump_keeps (P := fun t => s.lau.queue <+: t.lau.queue) (fun t h => h.trans (admitPresence_effects t).queue)
    (fun t h => h.trans (admitReq_effects t).queue) (fun t w h _ _ => h.trans (buildFrame_effects w t).queue) n s List.prefix_rfl

/-! ## Building -/

/-- The work on a slot after its next frame has been built (R110 to R112). -/
def workAfter (s : State) (w : SlotWork) : SlotWork :=
  let built := buildRecords s.hpt.staging (w.todo.take 8) s.imu.items w.offset
  { w with todo := w.todo.drop 8, offset := built.2.2, frames := w.frames + 1, outstanding := w.outstanding + 1 }

/-- The next frame of a PUBLISH or STREAM slot (R110 to R112). -/
def nextFrame (s : State) (w : SlotWork) : TxFrame :=
  { source := .req, sender := stationNumber s, first := false, refresh := false,
    body := .update (buildRecords s.hpt.staging (w.todo.take 8) s.imu.items w.offset).1 }

/-- What a build of a PUBLISH or STREAM slot's next frame leaves. -/
theorem buildFrame_update {w : SlotWork} (h : w.gate = none) (s : State) :
    buildFrame w s =
      { s with
        imu.items := (buildRecords s.hpt.staging (w.todo.take 8) s.imu.items w.offset).2.1
        lau.reqOffer := some (nextFrame s w)
        req.slot := some (workAfter s w) } := by
  unfold buildFrame workAfter nextFrame
  simp only [h]

/-- No frame built: everything is as it was, and none may be built. -/
theorem builtFrames_zero {s t : State} {w : SlotWork} (hi : t.imu.items = s.imu.items)
    (ho : t.lau.reqOffer.isSome = true ∨ w.todo = []) : BuiltFrames s t w w 0 := by
  refine ⟨?_, hi, fun j hj => absurd hj (Nat.not_lt_zero j), fun hl => ?_⟩
  · simp [buildRecords]
  · rcases ho with ho | ho
    · exact ho
    · rw [ho] at hl; exact absurd hl (Nat.lt_irrefl 0)

/-- One frame built, and then `n` more: one more than `n` frames built. -/
theorem builtFrames_succ {s u t : State} {w w' : SlotWork} {n : Nat} (hu : u.hpt.staging = s.hpt.staging)
    (hn : stationNumber u = stationNumber s)
    (hi : u.imu.items = (buildRecords s.hpt.staging (w.todo.take 8) s.imu.items w.offset).2.1) (hw : 0 < w.todo.length)
    (hf : nextFrame s w ∈ t.lau.queue ∨ t.lau.reqOffer = some (nextFrame s w))
    (h : BuiltFrames u t (workAfter s w) w' n) : BuiltFrames s t w w' (n + 1) := by
  obtain ⟨h1, h2, h3, h4⟩ := h
  have split8 : ∀ j, w.todo.take (8 * (j + 1)) = w.todo.take 8 ++ (w.todo.drop 8).take (8 * j) := by
    intro j
    rw [show 8 * (j + 1) = 8 + 8 * j by omega, List.take_add]
  have key : ∀ j, (buildRecords s.hpt.staging (w.todo.take (8 * (j + 1))) s.imu.items w.offset).2 =
      (buildRecords u.hpt.staging ((workAfter s w).todo.take (8 * j)) u.imu.items (workAfter s w).offset).2 := by
    intro j
    rw [split8, buildRecords_append, hu, hi]
    rfl
  refine ⟨?_, ?_, ?_, ?_⟩
  · rw [h1, ← key]
    simp only [workAfter, List.drop_drop, SlotWork.mk.injEq, true_and, and_true]
    refine ⟨by congr 1; omega, by omega, by omega⟩
  · rw [h2, ← key]
  · intro j hj
    cases j with
    | zero =>
      refine ⟨by omega, ?_⟩
      simpa [buildRecords, nextFrame] using hf
    | succ j =>
      obtain ⟨hl, hm⟩ := h3 j (by omega)
      simp only [workAfter, List.length_drop] at hl
      refine ⟨by omega, ?_⟩
      beta_reduce at hm ⊢
      rw [← key, hu, hn] at hm
      rw [show w.todo.drop (8 * (j + 1)) = (w.todo.drop 8).drop (8 * j) by rw [List.drop_drop]; congr 1; omega]
      exact hm
  · intro hl
    apply h4
    simp only [workAfter, List.length_drop]
    omega

/-- The frames built are the same between states that agree in staging, item table and station number before, and in item table and offer
after, with no frame taken out of the queue. -/
theorem builtFrames_congr {s s' t t' : State} {w w' : SlotWork} {n : Nat} (h : BuiltFrames s t w w' n)
    (h1 : s'.hpt.staging = s.hpt.staging) (h2 : s'.imu.items = s.imu.items) (h3 : stationNumber s' = stationNumber s)
    (h4 : t'.imu.items = t.imu.items) (h5 : t'.lau.reqOffer = t.lau.reqOffer) (h6 : t.lau.queue <+: t'.lau.queue) :
    BuiltFrames s' t' w w' n := by
  obtain ⟨a, b, c, d⟩ := h
  unfold BuiltFrames
  rw [h1, h2, h3, h4, h5]
  exact ⟨a, b, fun j hj => ⟨(c j hj).1, (c j hj).2.imp (fun m => h6.subset m) id⟩, d⟩

/-- Admissions and builds in turn on a PUBLISH or STREAM slot of an ACTIVE station: frames are built until the offer waits or nothing is
left, one at least where no offer waited; an offer that waited before is admitted before any is built. The fuel is enough when it covers the
frames the queue still takes. -/
theorem pump_built (fuel : Nat) : ∀ (s : State) (w : SlotWork), s.req.slot = some w → w.gate = none → w.halted = false →
    s.stc.station = .active → (∀ g, s.lau.reqOffer = some g → g.source = .req) →
    (if s.lau.reqOffer.isSome then 3 ≤ fuel + reqQueued s else 4 ≤ fuel + reqQueued s ∧ 1 ≤ fuel) →
    ∃ n w', (pump fuel s).req = { s.req with slot := some w' } ∧ BuiltFrames s (pump fuel s) w w' n ∧
      (s.lau.reqOffer = none → w.todo ≠ [] → 1 ≤ n) ∧
      ∀ g, s.lau.reqOffer = some g →
        (g ∈ (pump fuel s).lau.queue ∧ (w.todo ≠ [] → 1 ≤ n)) ∨ ((pump fuel s).lau.reqOffer = some g ∧ n = 0) := by
  induction fuel with
  | zero =>
    intro s w hs hg hh hst ho hfuel
    cases hoff : s.lau.reqOffer with
    | none => simp [hoff] at hfuel
    | some g =>
      simp only [hoff, Option.isSome_some, if_true] at hfuel
      have e : pump 0 s = arbiter s := rfl
      rcases arbiter_some hoff (ho g hoff) with ⟨h1, _⟩ | ⟨_, _, h2, _⟩
      · refine ⟨0, w, ?_, builtFrames_zero (by rw [e, arbiter_imu]) (Or.inl (by rw [e, h1]; rfl)), nofun, ?_⟩
        · rw [e, arbiter_req, ← hs]
        · intro g' hg'; cases hg'; exact Or.inr ⟨h1, rfl⟩
      · omega
  | succ fuel ih =>
    intro s w hs hg hh hst ho hfuel
    have hslot : (arbiter s).req.slot = some w := by rw [arbiter_req, hs]
    have hact : (arbiter s).stc.station = .active := by rw [arbiter_stc]; exact hst
    by_cases hb : buildsNow (arbiter s) w = true
    · have hnone : (arbiter s).lau.reqOffer = none := by
        simp only [buildsNow, Bool.and_eq_true] at hb
        simpa using hb.1.1.1
      have htodo : 0 < w.todo.length := by
        simp only [buildsNow, SlotWork.remaining, hg, Bool.and_eq_true] at hb
        have := hb.1.1.2
        simp at this
        exact List.length_pos_iff.mpr this
      have hq : 3 ≤ fuel + reqQueued (arbiter s) ∧ ∀ g, s.lau.reqOffer = some g → g ∈ (arbiter s).lau.queue := by
        cases hoff : s.lau.reqOffer with
        | none =>
          have := (arbiter_none hoff).2
          simp only [hoff, Option.isSome_none, Bool.false_eq_true, if_false] at hfuel
          exact ⟨by omega, nofun⟩
        | some g =>
          simp only [hoff, Option.isSome_some, if_true] at hfuel
          rcases arbiter_some hoff (ho g hoff) with ⟨h1, _⟩ | ⟨_, h1, _, h2⟩
          · rw [h1] at hnone; cases hnone
          · exact ⟨by omega, fun g' hg' => by cases hg'; exact h1⟩
      rw [pump_builds hslot hb]
      have hu := buildFrame_update hg (arbiter s)
      generalize hdef : buildFrame w (arbiter s) = u at hu ⊢
      have huo : u.lau.reqOffer = some (nextFrame (arbiter s) w) := by rw [hu]
      have hwa : workAfter (arbiter s) w = workAfter s w := by simp only [workAfter, arbiter_hpt, arbiter_imu]
      have hsn : stationNumber (arbiter s) = stationNumber s := by simp only [stationNumber, arbiter_stc]
      obtain ⟨n, w', h1, h2, -, h3⟩ := ih u (workAfter s w) (by rw [hu, hwa]) hg hh (by rw [hu]; exact hact)
        (by intro g hg'; rw [huo] at hg'; cases hg'; rfl)
        (by rw [huo]; simp only [Option.isSome_some, if_true]; rw [hu]; exact hq.1)
      refine ⟨n + 1, w', ?_, ?_, fun _ _ => by omega, ?_⟩
      · rw [h1, hu]; simp only [arbiter_req]
      · refine builtFrames_succ (u := u) (by rw [hu]; simp only [arbiter_hpt]) (by rw [hu]; exact hsn)
          (by rw [hu]; simp only [arbiter_hpt, arbiter_imu]) htodo ?_ h2
        have hf : nextFrame (arbiter s) w = nextFrame s w := by simp only [nextFrame, arbiter_hpt, arbiter_imu, hsn]
        rw [hf] at huo
        rcases h3 _ huo with h | h
        · exact Or.inl h.1
        · exact Or.inr h.1
      · intro g hg'
        refine Or.inl ⟨(pump_queue fuel u).subset ?_, fun _ => by omega⟩
        rw [hu]
        exact hq.2 g hg'
    · rw [pump_rests hslot (by simpa using hb)]
      have hstop : (arbiter s).lau.reqOffer.isSome = true ∨ w.todo = [] := by
        by_contra hc
        simp only [not_or] at hc
        apply hb
        have : (arbiter s).lau.reqOffer = none := by simpa using hc.1
        simp [buildsNow, this, SlotWork.remaining, hc.2, hst, hh]
      refine ⟨0, w, by rw [arbiter_req, ← hs], builtFrames_zero (by rw [arbiter_imu]) hstop, fun h ht => ?_, ?_⟩
      · rcases hstop with e | e
        · rw [(arbiter_none h).1] at e; cases e
        · exact absurd e ht
      intro g hg'
      rcases arbiter_some hg' (ho g hg') with ⟨h1, _⟩ | ⟨h1, h2, _⟩
      · exact Or.inr ⟨h1, rfl⟩
      · refine Or.inl ⟨h2, fun ht => ?_⟩
        rcases hstop with h | h
        · rw [h1] at h; cases h
        · exact absurd h ht

/-- The request process on a PUBLISH or STREAM slot of an ACTIVE station with records left to build: it builds as far as it may, and the
slot stays in progress. -/
theorem reqRun_built (n : Nat) {s : State} {w : SlotWork} (hs : s.req.slot = some w) (hg : w.gate = none) (hh : w.halted = false)
    (ht : w.todo ≠ []) (hst : s.stc.station = .active) (ho : ∀ g, s.lau.reqOffer = some g → g.source = .req) :
    ∃ k w', (reqRun (n + 1) s).req = { s.req with slot := some w' } ∧ BuiltFrames s (reqRun (n + 1) s) w w' k ∧
      (s.lau.reqOffer = none → 1 ≤ k) ∧
      ∀ g, s.lau.reqOffer = some g →
        (g ∈ (reqRun (n + 1) s).lau.queue ∧ 1 ≤ k) ∨ ((reqRun (n + 1) s).lau.reqOffer = some g ∧ k = 0) := by
  obtain ⟨k, w', h1, h2, h3, h4⟩ := pump_built 8 s w hs hg hh hst ho (by split <;> omega)
  have hp : (pump 8 s).req.slot = some w' := by rw [h1]
  have hc : closable (pump 8 s) w' = false := by
    have hst' : (pump 8 s).stc.station = .active := by
      exact pump_keeps (P := fun t => t.stc.station = .active) (fun t h => (admitPresence_effects t).stc ▸ h)
        (fun t h => (admitReq_effects t).stc ▸ h) (fun t w h _ _ => (buildFrame_effects w t).stc ▸ h) 8 s hst
    rw [h2.1]
    by_cases hk : k = 0
    · subst hk
      simp [closable, hst', hh, SlotWork.remaining, ht]
    · simp only [closable, Bool.and_eq_false_iff]
      exact Or.inl (by simp; omega)
  rw [reqRun_waits hs hp hc n]
  exact ⟨k, w', h1, h2, fun h => h3 h ht, fun g hg' => (h4 g hg').imp (fun x => ⟨x.1, x.2 ht⟩) id⟩

end Sys2Proof.Laws
end

