-- ==== Sys2Proof/Laws/Examine.lean ====
section
/-! SUPPORT. The examination of slots one after another: the run of slots handed back, the slot at which it ends, HOST-owned or in
progress, and that a HOST-owned slot is touched by none of it. -/

namespace Sys2Proof.Laws

open Sys2Proof.Machine

/-! ## Slots that the process leaves alone -/

/-- A close leaves its slot HOST-owned. -/
theorem closeSlot_hostOwned (status : SlotStatus) (remaining lost frames : Nat) {s : State} (h : s.req.ring.wf 128 = true) :
    (ringWord (closeSlot status remaining lost frames s) s.req.cursor.val 0).getLsbD 15 = false := by
  rw [(closeSlot_handsBack status remaining lost frames h).1]
  simp

/-- A close keeps the ring canonical. -/
theorem closeSlot_wf (status : SlotStatus) (remaining lost frames : Nat) {s : State} (h : s.req.ring.wf 128 = true) :
    (closeSlot status remaining lost frames s).req.ring.wf 128 = true := by
  have hk : s.req.cursor.val < 16 := s.req.cursor.isLt
  simp only [closeSlot, raiseFlag_req]
  iterate 4 refine write_wf _ ?_ (by omega)
  exact h

/-- A build leaves cursor, process and ring as they were, and its slot in progress. -/
theorem buildFrame_req (w : SlotWork) (s : State) :
    (buildFrame w s).req = { s.req with slot := (buildFrame w s).req.slot } ∧ (buildFrame w s).req.slot.isSome = true := by
  unfold buildFrame
  split <;> exact ⟨rfl, rfl⟩

/-- Words of the ring are those of the ring alone. -/
theorem ringWord_congr {s t : State} (h : t.req.ring = s.req.ring) (k w : Nat) : ringWord t k w = ringWord s k w := by
  simp only [ringWord, h]

/-- The process running on leaves the words of every HOST-owned slot but the one in progress as they were. -/
theorem reqRun_hostSlots (n : Nat) {s : State} {k : Nat} (hk : (ringWord s k 0).getLsbD 15 = false)
    (hc : s.req.slot.isSome = true → k ≠ s.req.cursor.val) : ∀ w < 8, ringWord (reqRun n s) k w = ringWord s k w := by
  refine (reqRun_keeps
    (P := fun t => (∀ w < 8, ringWord t k w = ringWord s k w) ∧ (t.req.slot.isSome = true → k ≠ t.req.cursor.val))
    ?_ ?_ ?_ ?_ ?_ n s ⟨fun _ _ => rfl, hc⟩).1
  · intro t ⟨h1, h2⟩
    exact ⟨fun w hw => (ringWord_congr (by rw [admitPresence_req]) k w).trans (h1 w hw), by rw [admitPresence_req]; exact h2⟩
  · intro t ⟨h1, h2⟩
    exact ⟨fun w hw => (ringWord_congr (by rw [admitReq_req]) k w).trans (h1 w hw), by rw [admitReq_req]; exact h2⟩
  · intro t w ⟨h1, h2⟩ hw _
    have hr := (buildFrame_req w t).1
    exact ⟨fun j hj => (ringWord_congr (by rw [hr]) k j).trans (h1 j hj), fun _ => by rw [hr]; exact h2 (by rw [hw]; rfl)⟩
  · intro t w ⟨h1, h2⟩ hw _
    exact ⟨fun j hj => (closeSlot_otherSlots _ _ _ _ t (h2 (by rw [hw]; rfl)) hj).trans (h1 j hj), nofun⟩
  · intro t ⟨h1, _⟩ hs _ _
    by_cases ho : (cursorCopy t).stationOwned = true
    · have hne : k ≠ t.req.cursor.val := by
        rintro rfl
        have e : (cursorCopy t).stationOwned = (ringWord t t.req.cursor.val 0).getLsbD 15 := rfl
        rw [e, h1 0 (by omega), hk] at ho
        cases ho
      have closed : ∀ status, (∀ w < 8, ringWord (closeSlot status (cursorCopy t).size 0 0 { t with req.process := .running }) k w =
          ringWord s k w) := fun status w hw => (closeSlot_otherSlots _ _ _ _ _ hne hw).trans (h1 w hw)
      cases hc : slotCheck t (cursorCopy t) with
      | some status => rw [examineSlot_refused ho hc]; exact ⟨closed status, nofun⟩
      | none =>
        by_cases hm : t.stc.station = .muted ∨ t.stc.straps.listen = true
        · rw [examineSlot_silent ho hc hm]; exact ⟨closed _, nofun⟩
        · rw [examineSlot_works ho hc hm]; exact ⟨h1, fun _ => hne⟩
    · rw [examineSlot_host (by simpa using ho)]
      refine ⟨h1, fun h => ?_⟩
      rw [show (raiseFlag .requestsIdle { t with req.process := .suspended }).req.slot = none from hs] at h
      cases h

/-- A slot handed back is seen in its words. -/
theorem HandedBack_congr {s t t' : State} {status : SlotStatus} {remaining lost frames : Nat}
    (h : HandedBack s t status remaining lost frames)
    (hw : ∀ w < 8, ringWord t' s.req.cursor.val w = ringWord t s.req.cursor.val w) : HandedBack s t' status remaining lost frames := by
  simpa [HandedBack, hw] using h

/-- What stands in a slot handed back stays, as the process runs on with none in progress. -/
theorem reqRun_handedBack (n : Nat) {s u : State} {status : SlotStatus} {remaining lost frames : Nat} (hs : u.req.slot = none)
    (h : HandedBack s u status remaining lost frames) : HandedBack s (reqRun n u) status remaining lost frames := by
  exact HandedBack_congr h (reqRun_hostSlots n (by rw [h.1]; simp) (by rw [hs]; nofun))

/-- An examination in MUTED leaves no slot in progress. -/
theorem examineSlot_muted {s : State} (h : s.stc.station = .muted) (hs : s.req.slot = none) : (examineSlot s).req.slot = none := by
  by_cases ho : (cursorCopy s).stationOwned = true
  · cases hc : slotCheck s (cursorCopy s) with
    | some status => rw [examineSlot_refused ho hc]; rfl
    | none => rw [examineSlot_silent ho hc (Or.inl h)]; rfl
  · rw [examineSlot_host (by simpa using ho)]; exact hs

/-- The process running on in MUTED with no slot in progress ends with none. -/
theorem reqRun_muted (n : Nat) {s : State} (h : s.stc.station = .muted) (hs : s.req.slot = none) : (reqRun n s).req.slot = none :=
  (reqRun_keeps (P := fun t => t.stc.station = .muted ∧ t.req.slot = none)
    (fun t ⟨h1, h2⟩ => ⟨by rw [(admitPresence_effects t).stc]; exact h1, by rw [admitPresence_req]; exact h2⟩)
    (fun t ⟨h1, h2⟩ => ⟨by rw [(admitReq_effects t).stc]; exact h1, by rw [admitReq_req]; exact h2⟩)
    (fun t w ⟨_, h2⟩ hw _ => by rw [h2] at hw; cases hw) (fun t w ⟨_, h2⟩ hw _ => by rw [h2] at hw; cases hw)
    (fun t ⟨h1, h2⟩ _ _ _ => ⟨by rw [(examineSlot_effects t).stc]; exact h1, examineSlot_muted h1 h2⟩) n s ⟨h, hs⟩).2

/-- A RUNNING process that comes to a HOST-owned cursor slot with none in progress suspends. -/
theorem reqRun_suspends (n : Nat) {s : State} (hs : s.req.slot = none) (hr : s.req.process = .running) (hx : examines s = true)
    (hc : (ringWord s s.req.cursor.val 0).getLsbD 15 = false) :
    reqRun (n + 1) s = raiseFlag .requestsIdle { s with req.process := .suspended } := by
  rw [reqRun_examines hs hr hx, examineSlot_host hc, reqRun_rests]
  · exact hs
  · exact Or.inl (by simp)

/-! ## A run of slots handed back (R108, R109) -/

/-- The fields of a slot's copy are those of its words. -/
theorem cursorCopy_congr {s t : State} (hc : t.req.cursor = s.req.cursor)
    (h : ∀ w < 8, ringWord t s.req.cursor.val w = ringWord s s.req.cursor.val w) : cursorCopy t = cursorCopy s := by
  simp [cursorCopy, hc, h]

/-- Two of the 16 slots from a cursor on are different. -/
theorem cursorOn_ne (s : State) {i j : Nat} (hi : i < 16) (hj : j < 16) (h : i ≠ j) :
    (cursorOn s i).req.cursor.val ≠ (cursorOn s j).req.cursor.val := by
  intro e
  have e' : s.req.cursor + Fin.ofNat 16 i = s.req.cursor + Fin.ofNat 16 j := Fin.ext e
  have := congrArg Fin.val (add_left_cancel e')
  simp only [Fin.ofNat] at this
  omega

/-- A RUNNING process that examines a slot to be refused, or one that is SILENT, closes it. -/
theorem examineSlot_closes {s : State} {status : SlotStatus} (hr : s.req.process = .running)
    (ho : (cursorCopy s).stationOwned = true)
    (hc : slotCheck s (cursorCopy s) = some status ∨
      slotCheck s (cursorCopy s) = none ∧ (s.stc.station = .muted ∨ s.stc.straps.listen = true) ∧ status = .silent) :
    examineSlot s = closeSlot status (cursorCopy s).size 0 0 s := by
  have e : ({ s with req.process := .running } : State) = s := by rw [← hr]
  rcases hc with h | ⟨h, hm, rfl⟩
  · rw [examineSlot_refused ho h, e]
  · rw [examineSlot_silent ho h hm, e]

/-- The state behind `n` slots handed back: the ring as it then stands, the cursor moved on, and the flags. -/
def behind (s : State) (n : Nat) (ring : WordStore) (flags : Flags) : State :=
  { s with req := { s.req with ring := ring, cursor := s.req.cursor + Fin.ofNat 16 n }, hpt.flags := flags }

/-- One slot more handed back. -/
theorem closeSlot_behind {s : State} (hs : s.req.slot = none) (n : Nat) (ring : WordStore) (flags : Flags) (status : SlotStatus)
    (remaining : Nat) : ∃ ring' flags', closeSlot status remaining 0 0 (behind s n ring flags) = behind s (n + 1) ring' flags' := by
  have e : s.req.cursor + Fin.ofNat 16 n + 1 = s.req.cursor + Fin.ofNat 16 (n + 1) := by
    rw [add_assoc]
    congr 1
    apply Fin.ext
    simp [Fin.ofNat, Fin.val_add]
  unfold behind
  rw [← e]
  simp only [closeSlot, raiseFlag, hs]
  exact ⟨_, _, rfl⟩

/-- With `n` slots from the cursor on refused or SILENT, the process hands each back and comes to the next. -/
theorem reqRun_closesRun (n m : Nat) {s : State} (status : Nat → SlotStatus) (hs : s.req.slot = none)
    (hr : s.req.process = .running) (hx : examines s = true) (hn : n ≤ 16) (hw : n ≠ 0 → s.req.ring.wf 128 = true)
    (hall : ∀ j < n, (cursorCopy (cursorOn s j)).stationOwned = true ∧ (slotCheck s (cursorCopy (cursorOn s j)) = some (status j) ∨
      slotCheck s (cursorCopy (cursorOn s j)) = none ∧ (s.stc.station = .muted ∨ s.stc.straps.listen = true) ∧
        status j = .silent)) :
    ∃ ring flags, reqRun (n + m) s = reqRun m (behind s n ring flags) ∧ (n = 0 → ring = s.req.ring) ∧
      (n ≠ 0 → ring.wf 128 = true ∧ flags.requestDone = true) ∧
      (∀ j < n, HandedBack (cursorOn s j) (behind s n ring flags) (status j) (cursorCopy (cursorOn s j)).size 0 0) ∧
      ∀ k, (∀ j < n, k ≠ (cursorOn s j).req.cursor.val) → ∀ w < 8, ringWord (behind s n ring flags) k w = ringWord s k w := by
  induction n generalizing m with
  | zero =>
    refine ⟨s.req.ring, s.hpt.flags, ?_, fun _ => rfl, fun h => absurd rfl h, nofun, fun _ _ _ _ => rfl⟩
    have e : s.req.cursor + Fin.ofNat 16 0 = s.req.cursor := by simp
    rw [Nat.zero_add, behind, e]
  | succ n ih =>
    have hwf := hw (Nat.succ_ne_zero n)
    obtain ⟨ring, flags, hrun, hsame, hwn, hback, hkept⟩ :=
      ih (m + 1) (by omega) (fun _ => hwf) fun j hj => hall j (Nat.lt_succ_of_lt hj)
    have hring : ring.wf 128 = true := if h : n = 0 then hsame h ▸ hwf else (hwn h).1
    have hother : ∀ j < n, (cursorOn s n).req.cursor.val ≠ (cursorOn s j).req.cursor.val :=
      fun j hj => cursorOn_ne s (by omega) (by omega) (by omega)
    have hcopy : cursorCopy (behind s n ring flags) = cursorCopy (cursorOn s n) :=
      cursorCopy_congr (s := cursorOn s n) rfl (hkept _ hother)
    have hclose : examineSlot (behind s n ring flags) =
        closeSlot (status n) (cursorCopy (cursorOn s n)).size 0 0 (behind s n ring flags) := by
      rw [← hcopy]
      exact examineSlot_closes hr (hcopy ▸ (hall n n.lt_succ_self).1) (hcopy ▸ (hall n n.lt_succ_self).2)
    have hb := closeSlot_handsBack (status n) (cursorCopy (cursorOn s n)).size 0 0 (s := behind s n ring flags) hring
    have ho := @closeSlot_otherSlots (status n) (cursorCopy (cursorOn s n)).size 0 0 (behind s n ring flags)
    have hwf' := closeSlot_wf (status n) (cursorCopy (cursorOn s n)).size 0 0 (s := behind s n ring flags) hring
    have hd : (closeSlot (status n) (cursorCopy (cursorOn s n)).size 0 0 (behind s n ring flags)).hpt.flags.requestDone = true := rfl
    obtain ⟨ring', flags', hv⟩ := closeSlot_behind hs n ring flags (status n) (cursorCopy (cursorOn s n)).size
    rw [hv] at hclose hb ho hwf' hd
    refine ⟨ring', flags', ?_, nofun, fun _ => ⟨hwf', hd⟩, fun j hj => ?_, fun k hk w h => ?_⟩
    · rw [show n + 1 + m = n + (m + 1) by omega, hrun, reqRun_examines (s := behind s n ring flags) hs hr hx, hclose]
    · rcases Nat.lt_succ_iff_lt_or_eq.mp hj with h | rfl
      · exact HandedBack_congr (hback j h) fun _ => ho (hother j h).symm
      · have hown : ∀ w < 8, ringWord (behind s j ring flags) (cursorOn s j).req.cursor.val w =
            ringWord (cursorOn s j) (cursorOn s j).req.cursor.val w := hkept _ hother
        change HandedBack (behind s j ring flags) _ _ _ _ _ at hb
        have e : (behind s j ring flags).req.cursor = (cursorOn s j).req.cursor := rfl
        simpa [HandedBack, e, hown] using hb
    · rw [ho (hk n n.lt_succ_self) h, hkept k (fun j hj => hk j (Nat.lt_succ_of_lt hj)) w h]

/-! ## A valid slot in progress (R104, R110 to R113) -/

/-- A slot that passes checks 4 to 8 of table 6-3 and names an item names an item of the table. -/
theorem namedSlots_ne_nil {s : State} {copy : SlotCopy} (hi : itemChecks s copy = none) (hn : namedItems copy ≠ []) :
    namedSlots s copy ≠ [] := by
  intro he
  obtain ⟨n, hmem⟩ := List.exists_mem_of_ne_nil _ hn
  have unknown : ((namedItems copy).any fun n => (findNumber s.imu.items n).isNone) = true :=
    List.any_eq_true.mpr ⟨n, hmem, by simp [List.filterMap_eq_nil_iff.mp he n hmem]⟩
  revert hi
  simp only [itemChecks, unknown]
  split <;> nofun

/-- A valid slot names a gate group, or work of at least one record. -/
theorem slotCheck_valid {s : State} {copy : SlotCopy} (h : slotCheck s copy = none) :
    (copy.kind = some .gate ∧ copy.group ≤ 3) ∨ (copy.kind ≠ some .gate ∧ (slotWork s copy).todo ≠ []) := by
  obtain hk | ⟨kind, hk⟩ : copy.kind = none ∨ ∃ kind, copy.kind = some kind := by cases copy.kind <;> simp
  · simp [slotCheck, hk] at h
  cases kind
  case gate => exact Or.inl ⟨hk, by simpa [slotCheck, hk] using h⟩
  all_goals
    simp only [slotCheck, hk] at h
    have counted : copy.count ≠ 0 := by rintro h0; simp [h0] at h
    rw [if_neg (by by_contra hc; simp [hc] at h)] at h
    have named := namedSlots_ne_nil h (by simp [namedItems, hk, counted])
    exact Or.inr ⟨by simp [hk], by simp [slotWork, hk, named, counted, List.exists_mem_of_ne_nil _ named]⟩

/-- The request process on a GATE slot whose frame is yet to be built, of an ACTIVE station with no offer waiting: it builds and offers
the one frame, and the slot stays in progress. -/
theorem reqRun_gate (n : Nat) {s : State} {w : SlotWork} {g : Group} (hs : s.req.slot = some w) (hg : w.gate = some g)
    (ht : w.todo = []) (hh : w.halted = false) (hst : s.stc.station = .active) (ho : s.lau.reqOffer = none) :
    let f : TxFrame := { source := .req, sender := stationNumber s, first := false, refresh := false, body := .gate g }
    let t := reqRun (n + 1) s
    t.req = { s.req with
        slot := some { w with gate := none, frames := w.frames + 1, outstanding := w.outstanding + 1 } } ∧
      t.imu = s.imu ∧ (f ∈ t.lau.queue ∨ t.lau.reqOffer = some f) := by
  intro f t
  have ha : (arbiter s).lau.reqOffer = none := (arbiter_none ho).1
  have hslot : (arbiter s).req.slot = some w := by rw [arbiter_req, hs]
  have hb : buildsNow (arbiter s) w = true := by simp [buildsNow, ha, SlotWork.remaining, hg, hst, hh]
  let w' : SlotWork := { w with gate := none, frames := w.frames + 1, outstanding := w.outstanding + 1 }
  have hu : buildFrame w (arbiter s) = { arbiter s with lau.reqOffer := some f, req.slot := some w' } := by
    unfold buildFrame
    rw [hg]
    simp only [stationNumber, arbiter_stc, f, w']
  let u : State := { arbiter s with lau.reqOffer := some f, req.slot := some w' }
  have hp : pump 8 s = arbiter u := by
    rw [pump_builds hslot hb, hu]
    refine pump_rests (w := w') (by rw [arbiter_req]) ?_ 6
    simp [buildsNow, SlotWork.remaining, w', ht]
  have hreq : (arbiter u).req = { s.req with slot := some w' } := by
    rw [arbiter_req]
    show ({ (arbiter s).req with slot := some w' } : Req) = _
    rw [arbiter_req]
  have e : t = arbiter u := by
    show reqRun (n + 1) s = _
    rw [reqRun_waits hs (w' := w') (by rw [hp, hreq]) (by simp [closable, w']) n, hp]
  rw [e]
  refine ⟨hreq, ?_, ?_⟩
  · rw [arbiter_imu]; exact arbiter_imu s
  · rcases arbiter_some (s := u) rfl rfl with h | h
    · exact Or.inr h.1
    · exact Or.inl h.2.1

/-- A RUNNING process that comes to a valid STATION-owned slot that may be sent puts it in progress and builds. -/
theorem reqRun_starts (n : Nat) {s : State} (hs : s.req.slot = none) (hr : s.req.process = .running) (hst : s.stc.station = .active)
    (hl : s.stc.straps.listen = false) (ho : (cursorCopy s).stationOwned = true) (hc : slotCheck s (cursorCopy s) = none)
    (hf : s.lau.reqOffer = none) : SlotStarted s (reqRun (n + 2) s) := by
  rw [reqRun_examines hs hr (by simp [examines, hst]), examineSlot_works ho hc (by simp [hst, hl])]
  let z : State := { s with req.process := .running, req.slot := some (slotWork s (cursorCopy s)) }
  show SlotStarted s (reqRun (n + 1) z)
  rcases slotCheck_valid hc with ⟨hk, hg⟩ | ⟨hk, ht⟩
  · have hslots : namedSlots s (cursorCopy s) = [] := by simp [namedSlots, namedItems, hk]
    obtain ⟨h1, h2, h3⟩ := reqRun_gate n (s := z) (w := slotWork s (cursorCopy s)) (g := Fin.ofNat 4 (cursorCopy s).group) rfl
      (by simp [slotWork, hk]) (by simp [slotWork, hk, hslots]) rfl hst hf
    refine ⟨by rw [h1], by rw [h1], _, by rw [h1], by simp [slotWork], by simp [slotWork], rfl, rfl, ?_, fun h => absurd hk h⟩
    intro g _ hgg
    have e : Fin.ofNat 4 (cursorCopy s).group = g := by
      apply Fin.ext
      have := g.isLt
      simp [Fin.ofNat, hgg]
    rw [e] at h3
    exact ⟨by simp [SlotWork.remaining, slotWork, hk, hslots], by simp [slotWork], by rw [h2], _, rfl, h3⟩
  · obtain ⟨k, w', h1, h2, h3, _⟩ := reqRun_built n (s := z) (w := slotWork s (cursorCopy s)) rfl (by simp [slotWork, hk]) rfl ht hst
      (by rw [show z.lau.reqOffer = none from hf]; nofun)
    have hw : w'.frames = k ∧ w'.outstanding = k ∧ w'.lost = 0 ∧ w'.halted = false := by
      rw [h2.1]
      simp [slotWork]
    refine ⟨by rw [h1], by rw [h1], w', by rw [h1], ?_, by rw [hw.1, hw.2.1], hw.2.2.1, hw.2.2.2, fun _ h => absurd h hk, fun _ => ?_⟩
    · rw [hw.1]; exact h3 hf
    · rw [hw.1]
      have e : slotWork s (cursorCopy s) =
          { todo := (if (cursorCopy s).kind = some .stream then
              (namedSlots s (cursorCopy s)).flatMap (List.replicate (cursorCopy s).count) else namedSlots s (cursorCopy s)),
            gate := none, offset := (cursorCopy s).offset, frames := 0, outstanding := 0, lost := 0, halted := false } := by
        simp [slotWork, hk]
      rw [← e]
      exact builtFrames_congr h2 rfl rfl rfl rfl rfl List.prefix_rfl

/-- What an examination and a build look at beside the request engine (R104, R107, R111): item table, staging, straps. -/
def lookedAt (s : State) : List Item × WordStore × Straps := (s.imu.items, s.hpt.staging, s.stc.straps)

/-- What an examination and a build leave beside the transmit queue: request engine, item table, flags, station, offer. -/
def leftBy (t : State) : Req × List Item × Flags × Stc × Option TxFrame :=
  (t.req, t.imu.items, t.hpt.flags, t.stc, t.lau.reqOffer)

/-- A slot in progress alike, between states that agree in what its frames are built from before, and in what is left after, with no frame
taken out of the queue. -/
theorem SlotStarted_congr {s s' t t' : State} (started : SlotStarted s t) (copy : cursorCopy s' = cursorCopy s)
    (cursor : s'.req.cursor = s.req.cursor) (looked : lookedAt s' = lookedAt s) (left : leftBy t' = leftBy t)
    (queue : t.lau.queue <+: t'.lau.queue) : SlotStarted s' t' := by
  simp only [lookedAt, leftBy, Prod.mk.injEq] at looked left
  obtain ⟨items, staging, straps⟩ := looked
  obtain ⟨req, itemsAfter, -, -, offer⟩ := left
  have number : stationNumber s' = stationNumber s := congrArg Straps.station straps
  have named : namedSlots s' (cursorCopy s) = namedSlots s (cursorCopy s) := by simp only [namedSlots, items]
  obtain ⟨hcursor, hprocess, w, hslot, hframes, hout, hlost, hhalted, gate, update⟩ := started
  unfold SlotStarted
  simp only [copy, cursor, req, named, number]
  refine ⟨hcursor, hprocess, w, hslot, hframes, hout, hlost, hhalted, fun g hk hg => ?_, fun hk => ?_⟩
  · obtain ⟨hleft, hone, hitems, f, hf, sent⟩ := gate g hk hg
    exact ⟨hleft, hone, by rw [itemsAfter, hitems, items], f, hf, sent.imp (fun m => queue.subset m) offer.trans⟩
  · exact builtFrames_congr (update hk) staging items number itemsAfter offer queue

/-! ## The examination as a whole -/

/-- A RUNNING process with no slot in progress examines the cursor slot, and the slots after it, in ACTIVE and MUTED. -/
theorem reqRun_examined {s : State} (m : Nat) (hs : s.req.slot = none) (hr : s.req.process = .running) (hx : examines s = true) :
    CursorSlotExamined s (reqRun (m + 18) s) := by
  have hst : (reqRun (m + 18) s).stc = s.stc := (reqRun_effects (m + 18) s).stc
  intro n status hn hw hall
  rw [hst] at hall ⊢
  obtain ⟨ring, flags, hrun, hsame, hfull, hback, hkept⟩ :=
    reqRun_closesRun n (m + 18 - n) status hs hr hx hn (fun h => (hw.resolve_left h).2.1) hall
  rw [show n + (m + 18 - n) = m + 18 by omega, show m + 18 - n = m + 16 - n + 2 by omega] at hrun
  have hcopy : n < 16 → cursorCopy (behind s n ring flags) = cursorCopy (cursorOn s n) := fun h =>
    cursorCopy_congr (s := cursorOn s n) rfl (hkept _ fun j hj => cursorOn_ne s h (by omega) (by omega))
  rw [hrun]
  refine ⟨fun j hj => reqRun_handedBack _ (s := cursorOn s j) hs (hback j hj), fun h => ?_, fun h => ?_, fun h ho hc hmu hl hf => ?_⟩
  · exact (reqRun_effects _ (behind s n ring flags)).flags.1 (hfull h).2
  · have hhost : (ringWord (behind s n ring flags) (behind s n ring flags).req.cursor.val 0).getLsbD 15 = false := by
      by_cases h16 : n = 16
      · subst h16
        have e : (behind s 16 ring flags).req.cursor.val = (cursorOn s 0).req.cursor.val := rfl
        rw [e, (hback 0 (by omega)).1]
        simp
      · have hlast : (cursorCopy (cursorOn s n)).stationOwned = false := h.resolve_left h16
        rw [← hcopy (by omega)] at hlast
        exact hlast
    rw [reqRun_suspends (m + 16 - n + 1) (s := behind s n ring flags) hs hr hx hhost]
    exact ⟨rfl, hsame, rfl, rfl⟩
  · have hact : s.stc.station = .active := by
      simp only [examines, Bool.or_eq_true, beq_iff_eq] at hx
      exact hx.resolve_right hmu
    simp only [← hcopy h] at ho hc
    exact SlotStarted_congr (reqRun_starts (s := behind s n ring flags) (m + 16 - n) hs hr hact hl ho hc hf) (hcopy h).symm rfl rfl rfl
      List.prefix_rfl

/-- The examination alike, between states that agree in what it looks at before, and in what it leaves after. -/
theorem CursorSlotExamined_congr {s s' t t' : State} (examined : CursorSlotExamined s t) (req : s'.req = s.req)
    (looked : lookedAt s' = lookedAt s) (stores : StoresCanonical s' → StoresCanonical s)
    (noOffer : s'.lau.reqOffer = none → s.lau.reqOffer = none) (left : leftBy t' = leftBy t)
    (queue : t.lau.queue <+: t'.lau.queue) : CursorSlotExamined s' t' := by
  have looked' := looked
  have left' := left
  simp only [lookedAt, leftBy, Prod.mk.injEq] at looked' left'
  obtain ⟨items, -, straps⟩ := looked'
  obtain ⟨reqAfter, itemsAfter, flags, stc, -⟩ := left'
  have copy : ∀ n, cursorCopy (cursorOn s' n) = cursorCopy (cursorOn s n) := fun n => by
    simp only [cursorCopy, cursorOn, ringWord, req]
  intro n status hn hw hall
  simp only [copy, slotCheck_congr items straps, straps, stc] at hall ⊢
  obtain ⟨back, done, host, started⟩ := examined n status hn (hw.imp id stores) hall
  refine ⟨fun j hj => ?_, by rw [flags]; exact done, fun hx => ?_, fun h16 ho hc hm hl hf => ?_⟩
  · have hon : cursorOn s' j = { s' with req := (cursorOn s j).req } := by simp only [cursorOn, req]
    rw [hon]
    exact HandedBack_congr (t := t) (back j hj) fun w _ => ringWord_congr (by rw [reqAfter]) _ w
  · rw [req, items, reqAfter, itemsAfter, flags]
    exact host hx
  · exact SlotStarted_congr (started h16 ho hc hm hl (noOffer hf)) (copy n) (by simp only [cursorOn, req]) looked left queue

/-! ## A close and the examination behind it (R116) -/

/-- The slot in progress closed, and the process running on: handed back, and the next slot examined by a RUNNING process. The close may
come of a state `x` that differs from `s` in what neither the slot nor the examination looks at. -/
theorem closeSlot_nextExamined (m : Nat) {s x : State} (status : SlotStatus) (remaining lost frames : Nat) (hs : StoresCanonical s)
    (hc : StoresCanonical x) (hr : x.req = { s.req with slot := x.req.slot }) (hl : lookedAt x = lookedAt s)
    (ho : s.lau.reqOffer = none → x.lau.reqOffer = none) (hx : examines x = true) :
    SlotClosedNextExamined s (reqRun (m + 18) (closeSlot status remaining lost frames x)) status remaining lost frames := by
  let y := closeSlot status remaining lost frames x
  let v : State := { s with req := y.req }
  have hwf : x.req.ring.wf 128 = true := by rw [hr]; exact hs.2.1
  have hring : ∀ k w, ringWord x k w = ringWord s k w := fun k w => ringWord_congr (by rw [hr]) k w
  have hcur : x.req.cursor = s.req.cursor := by rw [hr]
  have hproc : y.req.process = s.req.process := by show x.req.process = _; rw [hr]
  have hback : HandedBack s y status remaining lost frames := by
    have h := closeSlot_handsBack status remaining lost frames hwf
    unfold HandedBack at h ⊢
    simp only [hring, hcur] at h
    exact h
  have hyx : examines y = true := hx
  refine ⟨reqRun_handedBack _ (u := y) rfl hback, (reqRun_effects _ y).flags.1 rfl, v, ⟨?_, ?_, ?_, ?_⟩, fun h => ?_, fun h => ?_⟩
  · have e : y.req = { s.req with ring := y.req.ring, cursor := s.req.cursor + 1, slot := none } := by
      show ({ x.req with ring := y.req.ring, cursor := x.req.cursor + 1, slot := none } : Req) = _
      rw [hr]
    show ({ s with req := y.req } : State) = { s with req := { s.req with ring := y.req.ring, cursor := s.req.cursor + 1, slot := none } }
    rw [← e]
  · exact hback
  · exact ⟨hs.1, closeSlot_wf _ _ _ _ hwf, hs.2.2⟩
  · intro k hk w hw
    exact (closeSlot_otherSlots status remaining lost frames x (by rw [hcur]; exact hk) hw).trans (hring k w)
  · rw [reqRun_rests (s := y) rfl (Or.inl (by rw [hproc]; exact h))]
  · exact CursorSlotExamined_congr (reqRun_examined m (s := y) rfl (hproc.trans h) hyx) rfl hl.symm
      (fun _ => ⟨hc.1, closeSlot_wf _ _ _ _ hwf, hc.2.2⟩) ho rfl List.prefix_rfl

/-- A close and what is behind it alike, where the state after differs in nothing that they look at. -/
theorem SlotClosedNextExamined_congr {s t t' : State} {status : SlotStatus} {remaining lost frames : Nat}
    (closed : SlotClosedNextExamined s t status remaining lost frames) (left : leftBy t' = leftBy t)
    (queue : t.lau.queue <+: t'.lau.queue) : SlotClosedNextExamined s t' status remaining lost frames := by
  have left' := left
  simp only [leftBy, Prod.mk.injEq] at left'
  obtain ⟨req, -, flags, -⟩ := left'
  obtain ⟨back, done, v, hv, stopped, running⟩ := closed
  exact ⟨HandedBack_congr back fun w _ => ringWord_congr (by rw [req]) _ w, by rw [flags]; exact done, v, hv,
    fun h => req.trans (stopped h), fun h => CursorSlotExamined_congr (running h) rfl rfl id id left queue⟩

end Sys2Proof.Laws
end

