-- ==== Sys2Proof/Laws/Frames.lean ====
section
/-! SUPPORT. The acceptance checks of R71 as numbers: when words and records are read from bytes, when a body and a frame are. -/

namespace Sys2Proof.Laws

open Sys2Proof.Machine

/-- The number of a word by its bytes. -/
theorem wordOf_toNat (high low : Byte) : (wordOf high low).toNat = 256 * high.toNat + low.toNat := by
  have h : low.toNat < 2 ^ 8 := low.isLt
  rw [wordOf, BitVec.toNat_append, Nat.shiftLeft_eq, Nat.mul_comm, ← Nat.two_pow_add_eq_or_of_lt h]

/-- The last two bytes are those of a word when their number is the word's. -/
theorem wordBytes_eq_iff (high low : Byte) (w : Word) : [high, low] = wordBytes w ↔ 256 * high.toNat + low.toNat = w.toNat := by
  have h : low.toNat < 256 := low.isLt
  have h' : high.toNat < 256 := high.isLt
  have hw : w.toNat < 65536 := w.isLt
  simp only [wordBytes, List.cons.injEq, and_true, ← BitVec.toNat_inj, BitVec.extractLsb'_toNat, Nat.shiftRight_eq_div_pow]
  omega

/-- The check of one byte more (R68). -/
theorem crc_concat (bytes : List Byte) (b : Byte) : crc (bytes ++ [b]) = crcByte (crc bytes) b := List.foldl_append

/-- Words are read while two bytes are left for each, and the bytes behind them are left. -/
theorem takeWords_cases (n : Nat) (bytes : List Byte) :
    (bytes.length < 2 * n ∧ takeWords n bytes = none) ∨
      (2 * n ≤ bytes.length ∧ ∃ value, takeWords n bytes = some (value, bytes.drop (2 * n))) := by
  induction n generalizing bytes with
  | zero => exact Or.inr ⟨by omega, [], rfl⟩
  | succ n ih =>
    match bytes with
    | [] => exact Or.inl ⟨by simp, rfl⟩
    | [a] => exact Or.inl ⟨by simp; omega, rfl⟩
    | a :: b :: rest =>
      rcases ih rest with ⟨h, g⟩ | ⟨h, value, g⟩
      · exact Or.inl ⟨by simp; omega, by simp [takeWords, g]⟩
      · refine Or.inr ⟨by simp; omega, wordOf a b :: value, ?_⟩
        simp [takeWords, g, Nat.mul_add]

/-- LENGTH of a record by its second byte (table 11-3). -/
theorem bitField_wordOf (a b : Byte) : bitField 0 4 (wordOf a b) = b.toNat % 16 := by
  simp only [bitField, wordOf_toNat]
  omega

/-- Records are read from a run of bytes unless a LENGTH is not 1 to 8 or they do not fill the bytes exactly (check 7 of R71). `start j` is
the place of record `j`, `length p` the LENGTH that byte `p` gives. -/
theorem parseRecords_none_iff (n : Nat) (bytes : List Byte) (start length : Nat → Nat) (h0 : start 0 = 0)
    (hs : ∀ j < n, start (j + 1) = start j + 4 + 2 * length (start j + 1))
    (hl : ∀ p b, bytes[p]? = some b → length p = b.toNat % 16) :
    parseRecords n bytes = none ↔
      (∃ j < n, length (start j + 1) = 0 ∨ 8 < length (start j + 1)) ∨ start n ≠ bytes.length := by
  induction n generalizing bytes start length with
  | zero => cases bytes <;> simp [parseRecords, h0]
  | succ n ih =>
    have hmono : ∀ j, j ≤ n → start 1 ≤ start (j + 1) := by
      intro j
      induction j with
      | zero => intro _; exact Nat.le_refl _
      | succ j ihj =>
        intro hj
        have e1 := hs (j + 1) (by omega)
        have e2 := ihj (by omega)
        omega
    have h1 := hs 0 (by omega)
    rw [h0] at h1
    simp only [Nat.zero_add] at h1
    match bytes with
    | [] | [_] | [_, _] | [_, _, _] =>
      simp only [parseRecords, true_iff]
      have := hmono n (Nat.le_refl _)
      exact Or.inr (by simp only [List.length_cons, List.length_nil]; omega)
    | a :: b :: c :: d :: rest =>
      have hb : length 1 = b.toNat % 16 := hl 1 b rfl
      unfold parseRecords
      simp only [bitField_wordOf, ← hb]
      by_cases hok : 1 ≤ length 1 ∧ length 1 ≤ 8
      · rw [if_pos hok]
        rcases takeWords_cases (length 1) rest with ⟨hr, ht⟩ | ⟨hr, value, ht⟩
        · have := hmono n (Nat.le_refl _)
          simp only [ht, true_iff]
          exact Or.inr (by simp only [List.length_cons]; omega)
        · have key := ih (rest.drop (2 * length 1)) (fun j => start (j + 1) - start 1) (fun p => length (start 1 + p)) (by simp)
            (by
              intro j hj
              have e1 := hs (j + 1) (by omega)
              have e2 := hmono j (by omega)
              have e3 := hmono (j + 1) (by omega)
              have e4 : start 1 + (start (j + 1) - start 1 + 1) = start (j + 1) + 1 := by omega
              simp only [e4]
              omega)
            (by
              intro p x hp
              refine hl _ x ?_
              rw [h1]
              rw [List.getElem?_drop] at hp
              rw [show 0 + 4 + 2 * length 1 + p = (2 * length 1 + p) + 1 + 1 + 1 + 1 by omega]
              simpa using hp)
          simp only [ht, Option.map_eq_none_iff, key, List.length_drop, List.length_cons]
          have hn := hmono n (Nat.le_refl _)
          constructor
          · rintro (⟨j, hj, h⟩ | h)
            · have e2 := hmono j (by omega)
              rw [show start 1 + (start (j + 1) - start 1 + 1) = start (j + 1) + 1 by omega] at h
              exact Or.inl ⟨j + 1, by omega, h⟩
            · exact Or.inr (by omega)
          · rintro (⟨j, hj, h⟩ | h)
            · cases j with
              | zero => rw [h0] at h; simp only [Nat.zero_add] at h; omega
              | succ j =>
                have e2 := hmono j (by omega)
                refine Or.inl ⟨j, by omega, ?_⟩
                rw [show start 1 + (start (j + 1) - start 1 + 1) = start (j + 1) + 1 by omega]
                exact h
            · exact Or.inr (by omega)
      · rw [if_neg hok]
        simp only [true_iff]
        refine Or.inl ⟨0, by omega, ?_⟩
        rw [h0]; simp only [Nat.zero_add]
        omega

/-- The body of a GATE frame is two bytes with GROUP 0 to 3, that of a PRESENCE frame two bytes, both with RECORD COUNT 0; no other KIND
but UPDATE has one (checks 4 and 7 of R71). -/
theorem parseBody_none_iff (kind : Byte) (count : Nat) (bytes : List Byte) : parseBody kind count bytes = none ↔
    (kind ≠ 0x51#8 ∧ kind ≠ 0x52#8 ∧ kind ≠ 0x53#8) ∨
      (kind = 0x51#8 ∧ (count = 0 ∨ 8 < count ∨ parseRecords count bytes = none)) ∨
      (kind = 0x52#8 ∧ (count ≠ 0 ∨ bytes.length ≠ 2 ∨ 3 < (bytes.getD 0 0).toNat)) ∨
      (kind = 0x53#8 ∧ (count ≠ 0 ∨ bytes.length ≠ 2)) := by
  unfold parseBody
  by_cases h1 : kind = 0x51#8
  · subst h1
    by_cases h : 1 ≤ count ∧ count ≤ 8
    · have h' : ¬count = 0 ∧ ¬8 < count := by omega
      simp [h, h']
    · have h' : count = 0 ∨ 8 < count := by omega
      rcases h' with h' | h' <;> simp [h, h']
  by_cases h2 : kind = 0x52#8
  · subst h2
    match bytes with
    | [] | [_] | _ :: _ :: _ :: _ => simp
    | [g, q] => simp; omega
  by_cases h3 : kind = 0x53#8
  · subst h3
    match bytes with
    | [] | [_] | _ :: _ :: _ :: _ => simp
    | [a, b] => by_cases h : count = 0 <;> simp [h]
  · simp [h1, h2, h3]

/-- Checks 4 to 7 of R71 on the bytes between start pattern and check, as numbers. -/
theorem parseFrame_none_iff (kind sender sequence control : Byte) (body : List Byte) :
    parseFrame (kind :: sender :: sequence :: control :: body) = none ↔
      31 < sender.toNat ∨ control.toNat / 16 % 4 ≠ 0 ∨ (control.toNat / 128 = 1 ∧ kind ≠ 0x53#8) ∨
        (control.toNat / 64 % 2 = 1 ∧ kind ≠ 0x51#8) ∨ parseBody kind (control.toNat % 16) body = none := by
  have hc : control.toNat < 256 := control.isLt
  have bit : ∀ k, control.getLsbD k = decide (control.toNat / 2 ^ k % 2 = 1) := fun k => by
    simp [BitVec.getLsbD, Nat.testBit_eq_decide_div_mod_eq]
  unfold parseFrame
  simp only [bit, decide_eq_false_iff_not, decide_eq_true_eq]
  norm_num only
  split_ifs with h
  · obtain ⟨h1, h2, h3, h4, h5⟩ := h
    rw [Option.map_eq_none_iff]
    constructor
    · intro g; exact Or.inr (Or.inr (Or.inr (Or.inr g)))
    · rintro (g | g | ⟨g, g'⟩ | ⟨g, g'⟩ | g)
      · omega
      · omega
      · exact absurd (h4 (by omega)) g'
      · exact absurd (h5 g) g'
      · exact g
  · simp only [true_iff]
    by_contra g
    simp only [not_or, not_and, not_not] at g
    exact h ⟨by omega, by omega, by omega, fun e => g.2.2.1 (by omega), g.2.2.2.1⟩

end Sys2Proof.Laws
end

