-- ==== Sys2Proof/Laws/HostPort.lean ====
section
/-! SUPPORT. The host port: a free port takes an access; which region a written address falls into. -/

namespace Sys2Proof.Laws

open Sys2Proof.Machine

/-- A free port takes a write. -/
theorem hostWrite_free {s : State} (h : portFree s) (op : State → State) : hostWrite op s = op s := by
  simp [hostWrite, h.1, h.2]

/-- A free port takes a read. -/
theorem hostRead_free {s : State} (h : portFree s) (op : State → State) : hostRead op s = op s := by
  simp [hostRead, h.1, h.2]

/-- A host write is its operation, or nothing. -/
theorem hostWrite_cases (op : State → State) (s : State) : hostWrite op s = op s ∨ hostWrite op s = s := by
  unfold hostWrite; split
  · exact Or.inr rfl
  · exact Or.inl rfl

/-- A host read is its operation, or returns 0, or does nothing. -/
theorem hostRead_cases (op : State → State) (s : State) :
    hostRead op s = op s ∨ hostRead op s = { s with hpt.readData := 0 } ∨ hostRead op s = s := by
  unfold hostRead; split
  · exact Or.inr (Or.inr rfl)
  · split
    · exact Or.inr (Or.inl rfl)
    · exact Or.inl rfl

/-- A write to an item view is ignored. -/
theorem writeWord_views {a : Word} (v : Word) (s : State) (h : a.toNat ≤ 0x1FFF) : writeWord a v s = s := by
  unfold writeWord; simp only []; rw [if_pos h]

/-- A write to staging. -/
theorem writeWord_staging {a : Word} (v : Word) (s : State) (h : 0x2000 ≤ a.toNat) (h' : a.toNat ≤ 0x23FF) :
    writeWord a v s = { s with hpt.staging := s.hpt.staging.write (a.toNat - 0x2000) v } := by
  unfold writeWord; simp only []; rw [if_neg (by omega), if_pos h']

/-- A write to the request ring. -/
theorem writeWord_ring {a : Word} (v : Word) (s : State) (h : 0x2400 ≤ a.toNat) (h' : a.toNat ≤ 0x247F) :
    writeWord a v s = { s with req.ring := s.req.ring.write (a.toNat - 0x2400) v } := by
  unfold writeWord; simp only []; rw [if_neg (by omega), if_neg (by omega), if_pos h']

/-- A write to the notify map. -/
theorem writeWord_notify {a : Word} (v : Word) (s : State) (h : 0x2480 ≤ a.toNat) (h' : a.toNat ≤ 0x249F) :
    writeWord a v s = { s with hpt.notify := s.hpt.notify.write (a.toNat - 0x2480) v } := by
  unfold writeWord; simp only []; rw [if_neg (by omega), if_neg (by omega), if_neg (by omega), if_pos h']

/-- A write to the sample view, the peer view or the unmapped words below the plan window is ignored. -/
theorem writeWord_readOnly {a : Word} (v : Word) (s : State) (h : 0x24A0 ≤ a.toNat) (h' : a.toNat ≤ 0x27FF) : writeWord a v s = s := by
  unfold writeWord; simp only []
  rw [if_neg (by omega), if_neg (by omega), if_neg (by omega), if_neg (by omega), if_pos (by omega)]

/-- A write to the plan window. -/
theorem writeWord_plan {a : Word} (v : Word) (s : State) (h : 0x2800 ≤ a.toNat) (h' : a.toNat - 0x2800 < 1032) :
    writeWord a v s = writePlanWindow ⟨a.toNat - 0x2800, h'⟩ v s := by
  unfold writeWord; simp only []
  rw [if_neg (by omega), if_neg (by omega), if_neg (by omega), if_neg (by omega), if_neg (by omega), dif_pos h']

/-- A write above the plan window. -/
theorem writeWord_register {a : Word} (v : Word) (s : State) (h : 0x2C08 ≤ a.toNat) : writeWord a v s = writeRegister a.toNat v s := by
  unfold writeWord; simp only []
  rw [if_neg (by omega), if_neg (by omega), if_neg (by omega), if_neg (by omega), if_neg (by omega), dif_neg (by omega)]

/-- A write to a word from 0x3005 on that neither stores nor acts is ignored. -/
theorem writeRegister_other {a : Nat} (v : Word) (s : State)
    (h : a ≤ 0x3004 ∨ a = 0x3007 ∨ 0x300E ≤ a) : writeRegister a v s = s := by
  unfold writeRegister
  split <;> first | omega | rfl

end Sys2Proof.Laws
end

