-- ==== Sys2Proof/Laws/Scheduler.lean ====
section
/-! SUPPORT. The traffic scheduler's two steps, the exit from IDLE, and the end of a work item of the IMU: what each does, and what it
leaves unchanged. -/

namespace Sys2Proof.Machine

open Sys2Proof.Laws

/-- What the request process may change is part of what the sending side may change. -/
theorem RequestEffects.toSend {s t : State} (h : RequestEffects s t) : SendEffects s t :=
  { pending := h.pending, freeCount := h.freeCount, lrx := h.lrx, pmn := h.pmn, tsc := by rw [h.tsc], stu := h.stu, stc := h.stc,
    imu := h.imu, items := h.items, lau := h.lau, queue := h.queue, transmitter := h.transmitter, ring := h.ring, hpt := h.hpt,
    flags := h.flags }

/-- Nothing changed. -/
theorem SendEffects.refl (s : State) : SendEffects s s := (RequestEffects.refl s).toSend

/-- One after the other. -/
theorem SendEffects.trans {s t u : State} (h : SendEffects s t) (g : SendEffects t u) : SendEffects s u where
  pending := g.pending.trans h.pending
  freeCount := g.freeCount.trans h.freeCount
  lrx := g.lrx.trans h.lrx
  pmn := g.pmn.trans h.pmn
  tsc := by rw [g.tsc, h.tsc]
  stu := g.stu.trans h.stu
  stc := g.stc.trans h.stc
  imu := by rw [g.imu, h.imu]
  items := g.items.trans h.items
  lau := by rw [g.lau, h.lau]
  queue := h.queue.trans g.queue
  transmitter := kept_trans h.transmitter g.transmitter
  ring := fun k w h1 h4 => (g.ring k w h1 h4).trans (h.ring k w h1 h4)
  hpt := by rw [g.hpt, h.hpt]
  flags := ⟨fun e => g.flags.1 (h.flags.1 e), fun e => g.flags.2 (h.flags.2 e)⟩

end Sys2Proof.Machine

namespace Sys2Proof.Laws

open Sys2Proof.Machine

theorem presenceStep_effects (s : State) : SendEffects s (presenceStep s) := by
  unfold presenceStep
  split
  · constructor <;> first | rfl | exact List.prefix_rfl | exact kept_refl _ | exact ⟨id, id⟩ | exact fun _ _ _ _ => rfl
  · exact .refl s

theorem refreshStep_effects (s : State) : SendEffects s (refreshStep s) := by
  unfold refreshStep
  split
  · split
    · constructor <;> first | rfl | exact List.prefix_rfl | exact kept_refl _ | exact ⟨id, id⟩ | exact fun _ _ _ _ => rfl
    · constructor <;> first | rfl | exact List.prefix_append _ _ | exact kept_refl _ | exact ⟨id, id⟩ | exact fun _ _ _ _ => rfl
  · exact .refl s

/-- An offer of a presence frame changes that offer and PRESENCE OUTSTANDING, and nothing else. -/
theorem presenceStep_only (s : State) :
    presenceStep s =
      { s with
        lau.presenceOffer := (presenceStep s).lau.presenceOffer
        tsc.presenceOutstanding := (presenceStep s).tsc.presenceOutstanding } := by
  unfold presenceStep
  split <;> rfl

/-- The scheduler's look changes the transmit queue, REFRESH CURSOR and REFRESH TIMER, and nothing else. -/
theorem refreshStep_only (s : State) :
    refreshStep s =
      { s with
        lau.queue := (refreshStep s).lau.queue
        tsc.cursor := (refreshStep s).tsc.cursor
        tsc.refreshTimer := (refreshStep s).tsc.refreshTimer } := by
  unfold refreshStep
  split
  · split <;> rfl
  · rfl

/-! ## The exit from IDLE (R85) and the look at the conditions of R129 -/

/-- The leaving of IDLE is the exit of R85. -/
theorem idleExit_settled (s : State) : TransmitterSettled s.lau.transmitter (idleExit s) := by
  unfold TransmitterSettled idleExit receiveRoom
  simp only [decide_eq_true_eq]
  split <;> rfl

/-- The exit of R85 taken once more changes nothing. -/
theorem idleExit_settled_again {before : TxState} {s : State} (h : TransmitterSettled before s) :
    TransmitterSettled before (idleExit s) := by
  have e := idleExit_eq s
  have h1 := idleExit_settled s
  unfold TransmitterSettled at h h1 ⊢
  rw [h1]
  rw [e]
  simp only at h ⊢
  by_cases hb : before = .idle ∧ s.lau.queue ≠ [] ∧ s.lrx.queue.length < 4 ∧ s.stc.station = .active
  · rw [if_pos hb] at h ⊢
    by_cases hl : s.lrx.line = .quiet <;> simp [h, hl]
  · rw [if_neg hb] at h ⊢
    rw [h, if_neg hb]

/-! ## The transmitter as the sending side settles -/

/-- The scheduler's look leaves the transmitter where it is. -/
theorem refreshStep_transmitter (s : State) : (refreshStep s).lau.transmitter = s.lau.transmitter := by
  rw [refreshStep_only]

theorem admitPresence_transmitter (s : State) : (admitPresence s).lau.transmitter = s.lau.transmitter := by
  unfold admitPresence
  split
  · rfl
  · split <;> rfl

theorem admitReq_transmitter (s : State) : (admitReq s).lau.transmitter = s.lau.transmitter := by
  unfold admitReq
  split
  · rfl
  · split <;> rfl

/-- An admission leaves the transmitter where it is. -/
theorem arbiter_transmitter (s : State) : (arbiter s).lau.transmitter = s.lau.transmitter :=
  (admitReq_transmitter _).trans (admitPresence_transmitter s)

theorem buildFrame_transmitter (w : SlotWork) (s : State) : (buildFrame w s).lau.transmitter = s.lau.transmitter := by
  unfold buildFrame
  split <;> rfl

theorem examineSlot_transmitter (s : State) : (examineSlot s).lau.transmitter = s.lau.transmitter := by
  unfold examineSlot
  simp only
  split
  · split
    · rfl
    · split <;> rfl
  · rfl

/-- The request process leaves the transmitter where it is. -/
theorem reqRun_transmitter (n : Nat) (s : State) : (reqRun n s).lau.transmitter = s.lau.transmitter :=
  reqRun_keeps (P := fun t => t.lau.transmitter = s.lau.transmitter) (fun t h => (admitPresence_transmitter t).trans h)
    (fun t h => (admitReq_transmitter t).trans h) (fun t w h _ _ => (buildFrame_transmitter w t).trans h) (fun _ _ h _ _ => h)
    (fun t h _ _ _ => (examineSlot_transmitter t).trans h) n s rfl

/-- A transmitter settled from one state on and then from where that left it, with the queue not emptied meanwhile, is settled. -/
theorem settled_trans {before : TxState} {s t : State} (h : TransmitterSettled before s)
    (g : TransmitterSettled s.lau.transmitter t) (hl : t.lrx = s.lrx) (hs : t.stc = s.stc) (hq : s.lau.queue <+: t.lau.queue) :
    TransmitterSettled before t := by
  unfold TransmitterSettled at *
  rw [g, h, hl, hs]
  by_cases hb : before = .idle ∧ s.lau.queue ≠ [] ∧ s.lrx.queue.length < 4 ∧ s.stc.station = .active
  · rw [if_pos hb]
    have ht : t.lau.queue ≠ [] := fun e => hb.2.1 (List.prefix_nil.mp (e ▸ hq))
    have hi : ¬((if s.lrx.line = .quiet then TxState.gap else .defer) = .idle) := by split <;> simp
    simp [hi, hb, ht]
  · rw [if_neg hb]

/-- The request process and then the exit from IDLE. -/
theorem runRequests_settled (s : State) : TransmitterSettled s.lau.transmitter (runRequests s) := by
  have h := idleExit_settled (reqRun 40 s)
  rwa [reqRun_transmitter] at h

/-- The request process, the scheduler's look and the exits from IDLE. -/
theorem runRequests_looked_settled (s : State) : TransmitterSettled s.lau.transmitter (idleExit (refreshStep (runRequests s))) := by
  refine settled_trans (runRequests_settled s) ?_ ?_ ?_ ?_
  · have h := idleExit_settled (refreshStep (runRequests s))
    rwa [refreshStep_transmitter] at h
  · rw [idleExit_lrx, (refreshStep_effects _).lrx]
  · rw [idleExit_stc, (refreshStep_effects _).stc]
  · exact (refreshStep_effects _).queue.trans (idleExit_effects _).queue

/-- The scheduler's conditions, one by one (R129, R83). -/
theorem refreshReady_iff (u : State) : refreshReady u = true ↔
    u.tsc.refreshTimer = .expired ∧ u.tsc.firstPending = false ∧ u.lau.queue = [] ∧ (∀ f ∈ u.lrx.queue, f.mark = .remote) ∧
      u.imu.work.isSelf = false ∧ u.stc.station = .active ∧ u.stc.straps.listen = false ∧ u.lau.lastCompleted.isSome = true := by
  have hm : ∀ f : Frame, ¬f.mark = .self ↔ f.mark = .remote := fun f => by cases f.mark <;> simp
  simp [refreshReady, maySend, and_assoc, hm]

/-- The look at the conditions builds a due refresh frame that may be built, and no other. -/
theorem refreshStep_looked (u : State) : RefreshLooked u (refreshStep u) := by
  have hs : refreshSlots u = (((List.range u.imu.items.length).map fun k => (u.tsc.cursor + k) % u.imu.items.length).filter fun k =>
      (u.imu.items[k]?).any fun it => it.plan.owner == stationNumber u && it.condition == .ownLocal).take 8 := rfl
  have hr : ∀ k, refreshRecord u k = (u.imu.items[k]?).bind fun it => it.heldPart.map fun part =>
      ({ item := it.plan.item, version := part.version, value := part.value } : Record) := by
    intro k
    unfold refreshRecord
    cases u.imu.items[k]? <;> rfl
  unfold RefreshLooked
  simp only [← hs, ← refreshReady_iff]
  refine ⟨fun h => ?_, fun h ht => ?_, fun h last ht => ?_⟩
  · simp [refreshStep, h]
  · have hq := ((refreshReady_iff u).mp h).2.2.1
    simp [refreshStep, h, ht, hq]
  · have hq := ((refreshReady_iff u).mp h).2.2.1
    simp only [refreshStep, h, if_true, ht, hq, List.nil_append, refreshFrame, true_and]
    refine congrArg (fun b => [TxFrame.mk .refresh (stationNumber u) false true (.update b)]) ?_
    exact List.filterMap_congr fun k _ => hr k

/-- The look has been made alike where cursor, timer and queue are. -/
theorem RefreshLooked_congr {u t t' : State} (h : RefreshLooked u t) (h1 : t'.tsc.refreshTimer = t.tsc.refreshTimer)
    (h2 : t'.tsc.cursor = t.tsc.cursor) (h3 : t'.lau.queue = t.lau.queue) : RefreshLooked u t' := by
  unfold RefreshLooked at h ⊢
  simpa only [h1, h2, h3] using h

/-- The end of a self work item: the look, and then the exit from IDLE. -/
theorem endWork_looked {s : State} (h : s.imu.work.isSelf = true) :
    RefreshLooked { s with imu.work := .free } (endWork s) ∧ TransmitterSettled s.lau.transmitter (endWork s) := by
  unfold endWork
  simp only [h, if_true]
  constructor
  · refine RefreshLooked_congr (refreshStep_looked _) (by rw [idleExit_tsc]) (by rw [idleExit_tsc]) ?_
    rw [idleExit_eq]
  · have h := idleExit_settled (refreshStep { s with imu.work := .free })
    rwa [refreshStep_transmitter] at h

/-- The end of a work item: the IMU is free, and the sending side may have settled. -/
theorem endWork_effects (s : State) : SendEffects { s with imu.work := .free } (endWork s) := by
  unfold endWork
  simp only
  split
  · exact (refreshStep_effects _).trans (idleExit_effects _).toSend
  · exact .refl _

/-- A work item that is no self frame ends with the IMU free and nothing else. -/
theorem endWork_remote {s : State} (h : s.imu.work.isSelf = false) : endWork s = { s with imu.work := .free } := by
  unfold endWork
  simp [h]

/-- The two ways a refill of the queue may go. -/
theorem refresh_idle_effects (s : State) : SendEffects s (idleExit (refreshStep s)) :=
  (refreshStep_effects s).trans (idleExit_effects _).toSend

end Sys2Proof.Laws
end

