-- ==== Sys2Proof/Laws/Image.lean ====
section
/-! SUPPORT. The image updater's shared operations: one item changed, the steps of an owner event, a record taken, a gate started, the work
item moved on; of each, all that it does. -/

namespace Sys2Proof.Laws

open Sys2Proof.Machine

/-! ## One item -/

/-- A feed of the change list changes the list, and only by appending the item's number once. -/
theorem feedChange_eq (slot : Nat) (n : ItemNo) (s : State) :
    feedChange slot n s =
      { s with
        imu.changes := if notifyBit s slot = true ∧ n ∉ s.imu.changes then s.imu.changes ++ [n] else s.imu.changes } := by
  unfold feedChange
  by_cases h : notifyBit s slot = true <;> by_cases g : n ∈ s.imu.changes <;> simp [h, g]

/-- The test of R25. -/
theorem visiblyChanged_iff {before after : Item} :
    visiblyChanged before after = true ↔ after.visiblePart ≠ before.visiblePart ∨ after.condition ≠ before.condition := by
  simp only [visiblyChanged, Bool.or_eq_true, bne_iff_ne]
  exact or_congr ne_comm ne_comm

/-- A change of a slot that holds no item does nothing. -/
theorem updateItem_empty {s : State} {slot : Nat} (h : s.imu.items[slot]? = none) (f : Item → Item) : updateItem slot f s = s := by
  unfold updateItem; rw [h]

/-- A change of an item sets it, and lists it by the test of R25 and its notify bit. -/
theorem updateItem_eq {s : State} {slot : Nat} {it : Item} (h : s.imu.items[slot]? = some it) (f : Item → Item)
    (hn : (f it).plan = it.plan) :
    updateItem slot f s =
      { s with
        imu.items := s.imu.items.set slot (f it)
        imu.changes :=
          if ((f it).visiblePart ≠ it.visiblePart ∨ (f it).condition ≠ it.condition) ∧ notifyBit s slot = true ∧
              it.plan.item ∉ s.imu.changes then s.imu.changes ++ [it.plan.item] else s.imu.changes } := by
  have hb : ∀ items, notifyBit { s with imu.items := items } slot = notifyBit s slot := fun _ => rfl
  unfold updateItem
  simp only [h, hn, feedChange_eq, hb]
  by_cases hv : visiblyChanged it (f it) = true
  · have hv' : (f it).visiblePart ≠ it.visiblePart ∨ (f it).condition ≠ it.condition :=
      visiblyChanged_iff.mp hv
    simp only [hv, if_true, hv', true_and]
  · have hv' : ¬((f it).visiblePart ≠ it.visiblePart ∨ (f it).condition ≠ it.condition) :=
      fun g => hv (visiblyChanged_iff.mpr g)
    rw [if_neg hv, if_neg (fun g => hv' g.1)]

/-- A change of an item changes the item table and the change list only. -/
theorem updateItem_only (slot : Nat) (f : Item → Item) (s : State) :
    ∃ items changes, updateItem slot f s = { s with imu.items := items, imu.changes := changes } := by
  unfold updateItem
  split
  · exact ⟨_, _, rfl⟩
  · simp only [feedChange_eq]
    split <;> exact ⟨_, _, rfl⟩

/-- The item table after a change of one slot. -/
theorem updateItem_items (slot : Nat) (f : Item → Item) (s : State) : (updateItem slot f s).imu.items = s.imu.items.modify slot f := by
  unfold updateItem
  cases h : s.imu.items[slot]? with
  | none =>
    simp only
    rw [List.modify_eq_set_getElem?, h]; rfl
  | some it =>
    simp only [feedChange_eq]
    rw [List.modify_eq_set_getElem?, h]
    split <;> rfl

/-- Entries of the change list stay where they are. -/
theorem updateItem_changes (slot : Nat) (f : Item → Item) (s : State) : s.imu.changes <+: (updateItem slot f s).imu.changes := by
  unfold updateItem
  split
  · exact List.prefix_rfl
  · simp only [feedChange_eq]
    split
    · show _ <+: (if _ then _ else _)
      split
      · exact List.prefix_append _ _
      · exact List.prefix_rfl
    · exact List.prefix_rfl

/-! ## Owner events -/

/-- What an owner event does to an item it does once only. -/
theorem takeEvent_twice (e : OwnerEvent) (it : Item) : Item.takeEvent e (Item.takeEvent e it) = Item.takeEvent e it := by
  unfold Item.takeEvent
  cases e.kind <;> split_ifs <;> simp_all

/-- The steps of an owner event on a run of slots: the item in each of them as the event leaves it, entries of the change list kept, nothing
else changed. -/
theorem applyEvent_only (e : OwnerEvent) (slots : List Nat) (s : State) :
    ∃ items changes, applyEvent e slots s = { s with imu.items := items, imu.changes := changes } ∧ s.imu.changes <+: changes ∧
      ∀ k, items[k]? = (s.imu.items[k]?).map fun it => if k ∈ slots then Item.takeEvent e it else it := by
  induction slots generalizing s with
  | nil => exact ⟨_, _, rfl, List.prefix_rfl, fun k => by simp⟩
  | cons slot rest ih =>
    obtain ⟨items, changes, h1, h2, h3⟩ := ih (updateItem slot (Item.takeEvent e) s)
    have hc := updateItem_changes slot (Item.takeEvent e) s
    have hi := updateItem_items slot (Item.takeEvent e) s
    obtain ⟨_, _, hu⟩ := updateItem_only slot (Item.takeEvent e) s
    refine ⟨items, changes, ?_, hc.trans h2, fun k => ?_⟩
    · show applyEvent e rest (updateItem slot (Item.takeEvent e) s) = _
      rw [h1, hu]
    · rw [h3, hi, List.getElem?_modify]
      by_cases hk : slot = k
      · subst hk
        by_cases hr : slot ∈ rest <;> cases s.imu.items[slot]? <;> simp [hr, takeEvent_twice]
      · have hk' : k ≠ slot := Ne.symm hk
        cases s.imu.items[k]? <;> simp [hk, hk']

/-- An owner event leaves an item's plan fields. -/
theorem takeEvent_plan (e : OwnerEvent) (it : Item) : (Item.takeEvent e it).plan = it.plan := by
  unfold Item.takeEvent
  cases e.kind <;> simp only <;> split_ifs <;> rfl

/-- An owner event leaves an item's visible part (R16 to R18). -/
theorem takeEvent_visiblePart (e : OwnerEvent) (it : Item) : (Item.takeEvent e it).visiblePart = it.visiblePart := by
  unfold Item.takeEvent
  cases e.kind <;> simp only <;> split_ifs <;> rfl

/-- The number that an owner event's step on a slot appends to the change list, if it appends one (R24, R25). -/
def eventFeed (e : OwnerEvent) (s : State) (slot : Nat) : Option ItemNo :=
  (s.imu.items[slot]?).bind fun it =>
    if (Item.takeEvent e it).condition ≠ it.condition ∧ notifyBit s slot = true ∧ it.plan.item ∉ s.imu.changes then
      some it.plan.item
    else none

/-- The change list behind one step of an owner event. -/
theorem updateItem_eventFeed (e : OwnerEvent) (slot : Nat) (s : State) :
    (updateItem slot (Item.takeEvent e) s).imu.changes = s.imu.changes ++ (eventFeed e s slot).toList := by
  unfold updateItem eventFeed
  cases s.imu.items[slot]? with
  | none => simp
  | some it =>
    simp only [visiblyChanged_iff, takeEvent_visiblePart, takeEvent_plan, ne_eq, not_true_eq_false, false_or, Option.bind_some]
    by_cases hc : (Item.takeEvent e it).condition = it.condition
    · simp [hc]
    · rw [if_pos hc, feedChange_eq]
      show (if notifyBit s slot = true ∧ it.plan.item ∉ s.imu.changes then s.imu.changes ++ [it.plan.item] else s.imu.changes) = _
      by_cases hn : notifyBit s slot = true ∧ it.plan.item ∉ s.imu.changes <;> simp [hc, hn]

/-- An item's step of an owner event leaves the notify map. -/
theorem updateItem_notifyBit (slot : Nat) (f : Item → Item) (s : State) (k : Nat) :
    notifyBit (updateItem slot f s) k = notifyBit s k := by
  obtain ⟨_, _, h⟩ := updateItem_only slot f s
  rw [h]
  rfl

/-- The numbers on the change list behind the steps of an owner event: those of before, and those of the items whose condition it changes
and whose notify bits are set. -/
theorem applyEvent_changes (e : OwnerEvent) (slots : List Nat) (s : State) (n : ItemNo) :
    n ∈ (applyEvent e slots s).imu.changes ↔ n ∈ s.imu.changes ∨ ∃ k ∈ slots, ∃ it, s.imu.items[k]? = some it ∧ it.plan.item = n ∧
      (Item.takeEvent e it).condition ≠ it.condition ∧ notifyBit s k = true := by
  induction slots generalizing s with
  | nil => simp [applyEvent]
  | cons slot rest ih =>
    show n ∈ (applyEvent e rest (updateItem slot (Item.takeEvent e) s)).imu.changes ↔ _
    have hc : n ∈ (updateItem slot (Item.takeEvent e) s).imu.changes ↔ n ∈ s.imu.changes ∨ ∃ it, s.imu.items[slot]? = some it ∧
        it.plan.item = n ∧ (Item.takeEvent e it).condition ≠ it.condition ∧ notifyBit s slot = true := by
      rw [updateItem_eventFeed]
      simp only [List.mem_append, Option.mem_toList, eventFeed, Option.bind_eq_some_iff, Option.ite_none_right_eq_some,
        Option.some.injEq]
      constructor
      · rintro (h | ⟨it, h1, ⟨h2, h3, _⟩, rfl⟩)
        · exact Or.inl h
        · exact Or.inr ⟨it, h1, rfl, h2, h3⟩
      · rintro (h | ⟨it, h1, rfl, h2, h3⟩)
        · exact Or.inl h
        · by_cases h4 : it.plan.item ∈ s.imu.changes
          · exact Or.inl h4
          · exact Or.inr ⟨it, h1, ⟨h2, h3, h4⟩, rfl⟩
    rw [ih, hc]
    simp only [updateItem_notifyBit, updateItem_items, List.getElem?_modify, List.mem_cons, exists_eq_or_imp, or_assoc]
    refine or_congr_right (or_congr_right' fun hno => exists_congr fun k => and_congr_right fun _ => ?_)
    by_cases he : slot = k
    · subst he
      cases hi : s.imu.items[slot]? with
      | none => simp
      | some it =>
        have : it.plan.item = n → ¬(Item.takeEvent e it).condition = it.condition → ¬notifyBit s slot = true := fun h1 h2 h3 =>
          hno ⟨it, hi, h1, h2, h3⟩
        simp only [if_true, Option.map_eq_map, Option.map_some, Option.some.injEq, exists_eq_left', takeEvent_twice]
        simpa using this
    · simp [he]

/-- A step on an earlier slot leaves what a later one appends. -/
theorem eventFeed_kept {e : OwnerEvent} {s : State} {slot k : Nat} (h : slot < k)
    (hi : s.imu.items.Pairwise fun a b => a.plan.item.toNat < b.plan.item.toNat) :
    eventFeed e (updateItem slot (Item.takeEvent e) s) k = eventFeed e s k := by
  unfold eventFeed
  rw [updateItem_items, List.getElem?_modify, updateItem_eventFeed, updateItem_notifyBit]
  cases hk : s.imu.items[k]? with
  | none => simp
  | some it =>
    have fresh : it.plan.item ∉ (eventFeed e s slot).toList := by
      intro hm
      obtain ⟨before, hb, hm⟩ := Option.bind_eq_some_iff.mp (Option.mem_toList.mp hm)
      obtain ⟨hkl, hke⟩ := List.getElem?_eq_some_iff.mp hk
      obtain ⟨hbl, hbe⟩ := List.getElem?_eq_some_iff.mp hb
      have hlt := List.pairwise_iff_getElem.mp hi slot k hbl hkl h
      rw [hbe, hke, ← Option.some.inj (Option.ite_none_right_eq_some.mp hm).2] at hlt
      exact lt_irrefl _ hlt
    simp only [if_neg h.ne, Option.map_eq_map, Option.map_some, Option.bind_some, List.mem_append, fresh, or_false]

/-- The steps of an owner event list the items they change in slot order. -/
theorem applyEvent_order {e : OwnerEvent} {slots : List Nat} {s : State} (hp : slots.Pairwise (· < ·))
    (hi : s.imu.items.Pairwise fun a b => a.plan.item.toNat < b.plan.item.toNat) :
    (applyEvent e slots s).imu.changes = s.imu.changes ++ slots.filterMap (eventFeed e s) := by
  induction slots generalizing s with
  | nil => simp [applyEvent]
  | cons slot rest ih =>
    obtain ⟨hlt, hrest⟩ := List.pairwise_cons.mp hp
    have hi' : (updateItem slot (Item.takeEvent e) s).imu.items.Pairwise fun a b => a.plan.item.toNat < b.plan.item.toNat := by
      rw [updateItem_items, List.pairwise_iff_getElem]
      intro i j hx hy hij
      have := List.pairwise_iff_getElem.mp hi i j (by simpa using hx) (by simpa using hy) hij
      simp only [List.getElem_modify]
      split <;> split <;> simpa only [takeEvent_plan] using this
    show (applyEvent e rest (updateItem slot (Item.takeEvent e) s)).imu.changes = _
    rw [ih hrest hi', updateItem_eventFeed, List.filterMap_cons, List.filterMap_congr fun k hk => eventFeed_kept (hlt k hk) hi]
    cases eventFeed e s slot <;> simp

/-- A slot is one of a station's when it holds an item of the station. -/
theorem mem_ownerSlots {items : List Item} {n : Station} {k : Nat} :
    k ∈ ownerSlots items n ↔ ∃ it, items[k]? = some it ∧ it.plan.owner = n := by
  simp only [ownerSlots, List.mem_filter, List.mem_range, Option.any_eq_true, beq_iff_eq]
  exact ⟨fun h => h.2, fun ⟨it, h1, h2⟩ => ⟨(List.getElem?_eq_some_iff.mp h1).1, it, h1, h2⟩⟩

/-- The slots of a station stand in slot order. -/
theorem ownerSlots_pairwise (items : List Item) (n : Station) : (ownerSlots items n).Pairwise (· < ·) :=
  List.pairwise_lt_range.filter _

/-- An owner event applied whole: every item as the event leaves it. -/
theorem applyEvent_whole (e : OwnerEvent) (s : State) :
    (applyEvent e (ownerSlots s.imu.items e.station) s).imu.items = s.imu.items.map (Item.takeEvent e) := by
  obtain ⟨items, changes, h1, _, h3⟩ := applyEvent_only e (ownerSlots s.imu.items e.station) s
  rw [h1]
  refine List.ext_getElem? fun k => ?_
  rw [List.getElem?_map]
  refine (h3 k).trans ?_
  cases hk : s.imu.items[k]? with
  | none => rfl
  | some it =>
    by_cases ho : it.plan.owner = e.station
    · simp [mem_ownerSlots, hk, ho]
    · simp [mem_ownerSlots, hk, ho, Item.takeEvent]

/-- The steps of an event in parts are its steps in one. -/
theorem applyEvent_append (e : OwnerEvent) (first second : List Nat) (s : State) :
    applyEvent e (first ++ second) s = applyEvent e second (applyEvent e first s) := List.foldl_append

/-- A change of an item is the same whatever the IMU has in hand. -/
theorem updateItem_work (slot : Nat) (f : Item → Item) (s : State) (w : Work) :
    updateItem slot f { s with imu.work := w } = { updateItem slot f s with imu.work := w } := by
  unfold updateItem feedChange notifyBit
  simp only
  split
  · rfl
  · split
    · split <;> rfl
    · rfl

/-- An owner event does the same whatever the IMU has in hand. -/
theorem applyEvent_work (e : OwnerEvent) (slots : List Nat) (s : State) (w : Work) :
    applyEvent e slots { s with imu.work := w } = { applyEvent e slots s with imu.work := w } := by
  induction slots generalizing s with
  | nil => rfl
  | cons slot rest ih =>
    show applyEvent e rest (updateItem slot _ { s with imu.work := w }) = _
    rw [updateItem_work]
    exact ih _

/-- An owner event does the same whichever event is in hand. -/
theorem applyEvent_applying (e : OwnerEvent) (slots : List Nat) (s : State) (a : Option EventWork) :
    applyEvent e slots { s with imu.applying := a } = { applyEvent e slots s with imu.applying := a } := by
  have one : ∀ slot (t : State), updateItem slot (Item.takeEvent e) { t with imu.applying := a } =
      { updateItem slot (Item.takeEvent e) t with imu.applying := a } := by
    intro slot t
    unfold updateItem feedChange notifyBit
    simp only
    split
    · rfl
    · split <;> [split <;> rfl; rfl]
  induction slots generalizing s with
  | nil => rfl
  | cons slot rest ih =>
    show applyEvent e rest (updateItem slot _ { s with imu.applying := a }) = _
    rw [one]
    exact ih _

/-- The event that the IMU applies next is the one in hand or the oldest of the list (R12). -/
theorem nextEvent_event (s : State) :
    (nextEvent s).map (fun next => next.1.event) = (s.imu.applying.map EventWork.event).or s.imu.events.head? := by
  unfold nextEvent
  cases s.imu.applying with
  | some w => rfl
  | none => cases s.imu.events <;> rfl

/-- An event with items left stays in hand, and no frame goes on. -/
theorem eventSteps_goesOn {n : Nat} {w : EventWork} (h : n < w.todo.length) (s : State) :
    eventSteps n w s = { applyEvent w.event (w.todo.take n) s with imu.applying := some { w with todo := w.todo.drop n } } := by
  unfold eventSteps
  rw [if_neg (by omega)]

/-- Behind the last of its items the event ends, and a frame may go on. -/
theorem eventSteps_ends {n : Nat} {w : EventWork} (h : w.todo.length ≤ n) (s : State) :
    eventSteps n w s = finishNotice { applyEvent w.event w.todo s with imu.applying := none } := by
  unfold eventSteps
  rw [if_pos h, List.take_of_length_le h]

/-- An owner event that the IMU may go on with takes its steps. -/
theorem takeEvent_steps {s : State} {w : EventWork} {rest : List OwnerEvent} (h : nextEvent s = some (w, rest))
    (ht : takesEvents s = true) (steps : Option Nat) :
    takeEvent w.event.kind steps s = eventSteps (steps.getD w.todo.length) w { s with imu.events := rest } := by
  unfold takeEvent
  rw [h]
  exact if_pos ⟨ht, rfl⟩

/-- An owner event taken in two parts ends as it does taken whole. -/
theorem takeEvent_inParts {s : State} {w : EventWork} {rest : List OwnerEvent} (h : nextEvent s = some (w, rest))
    (ht : takesEvents s = true) {n : Nat} (hn : n < w.todo.length) :
    takeEvent w.event.kind none (takeEvent w.event.kind (some n) s) = takeEvent w.event.kind none s := by
  obtain ⟨items, changes, ha, _⟩ := applyEvent_only w.event (w.todo.take n) { s with imu.events := rest }
  have hpart : takeEvent w.event.kind (some n) s =
      { applyEvent w.event (w.todo.take n) { s with imu.events := rest } with
        imu.applying := some { w with todo := w.todo.drop n } } := by
    rw [takeEvent_steps h ht]
    exact eventSteps_goesOn hn _
  let t := takeEvent w.event.kind (some n) s
  have hnext : nextEvent t = some ({ w with todo := w.todo.drop n }, rest) := by
    show nextEvent (takeEvent w.event.kind (some n) s) = _
    rw [hpart, ha]
    rfl
  have htt : takesEvents t = true := by
    show takesEvents (takeEvent w.event.kind (some n) s) = _
    rw [hpart, ha]
    exact ht
  have hsame : ({ t with imu.events := rest } : State) = t := by
    show ({ takeEvent w.event.kind (some n) s with imu.events := rest } : State) = takeEvent w.event.kind (some n) s
    rw [hpart, ha]
  refine (takeEvent_steps hnext htt none).trans ?_
  rw [takeEvent_steps h ht none, hsame]
  refine (eventSteps_ends (Nat.le_refl _) t).trans ?_
  refine Eq.trans ?_ (eventSteps_ends (Nat.le_refl _) _).symm
  show finishNotice { applyEvent w.event (w.todo.drop n) (takeEvent w.event.kind (some n) s) with imu.applying := none } = _
  rw [hpart, applyEvent_applying, ← applyEvent_append, List.take_append_drop]

/-! ## Held accesses, samples, records -/

/-- A release changes the held access only. -/
theorem releaseHeld_only (p : Access → Bool) (s : State) : ∃ held, releaseHeld p s = { s with hpt.held := held } := by
  unfold releaseHeld
  split
  · exact ⟨_, rfl⟩
  · split <;> exact ⟨_, rfl⟩

/-- A release marks the held access when the operation that ended held it, and leaves it otherwise. -/
theorem releaseHeld_held (p : Access → Bool) (s : State) :
    (releaseHeld p s).hpt.held = s.hpt.held.map fun h => if p h.access then { h with released := true } else h := by
  unfold releaseHeld
  cases h : s.hpt.held with
  | none => simp [h]
  | some a => simp only [Option.map_some]; split <;> simp [h]

/-- A sample taken changes the sample queue and the flags only. -/
theorem takeSample_only (it : Item) (sender : Station) (r : Record) (s : State) :
    ∃ queue flags, takeSample it sender r s = { s with stu.queue := queue, hpt.flags := flags } := by
  unfold takeSample
  split <;> exact ⟨_, _, rfl⟩

/-- An append is in flight exactly while a record in hand goes to the stream unit, which has room for it. -/
theorem appendInFlight_iff {s : State} {sender : Station} {r : Record} {rest : List Record} {k : Nat} {it : Item}
    (hw : s.imu.work = .remoteRecords sender (r :: rest)) (hk : findSlot s.imu.items r.item = some k)
    (hi : s.imu.items[k]? = some it) :
    appendInFlight s = true ↔
      sampleRoom s = true ∧ recordFits sender r it = true ∧ accepted it r = true ∧ it.plan.kind = .stream := by
  simp [appendInFlight, hw, hk, hi, and_assoc]

/-- A sample view read that comes with a record changes the held access and the word returned only. -/
theorem sampleReadArrives_only (read : Option (Fin 16)) (s : State) :
    ∃ held data, sampleReadArrives read s = { s with hpt.held := held, hpt.readData := data } := by
  cases read with
  | none => exact ⟨_, _, rfl⟩
  | some w =>
    rw [sampleReadArrives]
    rcases hostRead_cases (readSampleView w) s with h | h | h <;> rw [h]
    · unfold readSampleView
      split <;> exact ⟨_, _, rfl⟩
    · exact ⟨_, _, rfl⟩
    · exact ⟨_, _, rfl⟩

/-- At a free port the read is held by an append in flight, and served at once without one. -/
theorem sampleReadArrives_free {s : State} (h : portFree s) (w : Fin 16) :
    sampleReadArrives (some w) s =
      if appendInFlight s = true then holdAccess (.sampleWord w) s else { s with hpt.readData := sampleViewWord s w.val } :=
  hostRead_free h _

/-- A remote record changes items, change list, samples, flags and counters, and nothing else. -/
theorem applyRemoteRecord_only (sender : Station) (r : Record) (s : State) :
    ∃ items changes queue flags counters, applyRemoteRecord sender r s =
      { s with
        imu.items := items, imu.changes := changes, stu.queue := queue, hpt.flags := flags, hpt.counters := counters } := by
  unfold applyRemoteRecord
  split
  · exact ⟨_, _, _, _, _, rfl⟩
  rename_i slot _
  split
  · exact ⟨_, _, _, _, _, rfl⟩
  rename_i it _
  split_ifs
  · exact ⟨_, _, _, _, _, rfl⟩
  · obtain ⟨items, changes, h⟩ := updateItem_only slot Item.markClash (countUp .foreignRecords s)
    rw [ownershipClash, h]
    exact ⟨_, _, _, _, _, rfl⟩
  · exact ⟨_, _, _, _, _, rfl⟩
  · unfold acceptRecord
    split
    · obtain ⟨items, changes, h⟩ := updateItem_only slot (Item.accept r it.stream) s
      rw [h]
      exact ⟨_, _, _, _, _, rfl⟩
    · obtain ⟨queue, flags, g⟩ := takeSample_only it sender r s
      obtain ⟨items, changes, h⟩ := updateItem_only slot
        (Item.accept r (some (streamAfter (sampleRoom s) it.baselineOpen it.streamFields r.version))) (takeSample it sender r s)
      rw [h, g]
      exact ⟨_, _, _, _, _, rfl⟩
  · obtain ⟨items, changes, h⟩ := updateItem_only slot Item.duplicate s
    rw [h]
    exact ⟨_, _, _, _, _, rfl⟩
  · exact ⟨_, _, _, _, _, rfl⟩

/-- A self record changes items and change list, and nothing else. -/
theorem applySelfRecord_only (r : Record) (s : State) :
    ∃ items changes, applySelfRecord r s = { s with imu.items := items, imu.changes := changes } := by
  unfold applySelfRecord
  split
  · exact ⟨_, _, rfl⟩
  · exact updateItem_only _ _ _

/-! ## Work items -/

/-- Records left: they are the work item. -/
theorem workOn_cons (r : Record) (rest : List Record) (work : List Record → Work) (s : State) :
    workOn (r :: rest) work s = { s with imu.work := work (r :: rest) } := rfl

/-- No remote record left: the IMU is free. -/
theorem workOn_remote_nil (sender : Station) (s : State) : workOn [] (.remoteRecords sender) s = { s with imu.work := .free } := rfl

/-- Remote records as the work item, or the IMU free when none is left. -/
theorem workOn_remote (sender : Station) (records : List Record) (s : State) :
    workOn records (.remoteRecords sender) s =
      { s with imu.work := if records = [] then .free else .remoteRecords sender records } := by
  cases records <;> rfl

/-- No self record left: the work item ends, and the sending side may have settled. -/
theorem workOn_self_nil (s : State) : SendEffects { s with imu.work := .free } (workOn [] .selfRecords s) :=
  endWork_effects { s with imu.work := .selfRecords [] }

/-- A gate started: the held sequence set, the application in flight, and MISSED_GATES counted if the gate counts as missed. -/
theorem startGate_eq (mark : Mark) (g : Group) (q : Byte) (s : State) :
    startGate mark g q s =
      { s with
        imu.heldGate := s.imu.heldGate.set g (some q)
        imu.work := .gate mark g
        hpt.counters :=
          if gateMissed s.imu.heldGate[g] q = true then
            s.hpt.counters.set (s.hpt.counters.get .missedGates).increment .missedGates
          else s.hpt.counters } := by
  unfold startGate
  simp only
  split <;> rfl

/-- The end of a work item leaves the held access alone. -/
theorem endWork_held (s : State) : (endWork s).hpt.held = s.hpt.held := by
  rw [(endWork_effects s).hpt]

/-- Records as the work item, or its end, leave the held access alone. -/
theorem workOn_held (records : List Record) (work : List Record → Work) (s : State) :
    (workOn records work s).hpt.held = s.hpt.held := by
  unfold workOn
  simp only
  split
  · rw [endWork_held]
  · rfl

/-! ## The ends of applications (R15, R39, R166) -/

/-- While an access is held no sample view read reaches the port. -/
theorem sampleReadArrives_held {s : State} {h : HeldAccess} (hh : s.hpt.held = some h) (read : Option (Fin 16)) :
    sampleReadArrives read s = s := by
  cases read <;> simp [sampleReadArrives, hostRead, hh]

/-- The end of a remote record releases the accesses that its application held. -/
theorem finishRemoteRecord_held (sender : Station) (r : Record) (rest : List Record) (s : State) :
    (finishRemoteRecord sender r rest s).hpt.held =
      s.hpt.held.map fun h => if endsWithRecord (findSlot s.imu.items r.item) h.access then { h with released := true } else h := by
  obtain ⟨_, _, _, _, _, h⟩ := applyRemoteRecord_only sender r s
  rw [finishRemoteRecord, workOn_held, releaseHeld_held, h]

/-- The end of a self record releases the word-0 read that its application held. -/
theorem finishSelfRecord_held (r : Record) (rest : List Record) (s : State) :
    (finishSelfRecord r rest s).hpt.held =
      s.hpt.held.map fun h => if endsWithSelfRecord (findSlot s.imu.items r.item) h.access then { h with released := true } else h := by
  obtain ⟨_, _, h⟩ := applySelfRecord_only r s
  rw [finishSelfRecord, workOn_held, releaseHeld_held, h]

/-- The end of a gate application releases the word-0 reads of its group. -/
theorem finishGate_held (g : Group) (s : State) :
    (finishGate g s).hpt.held =
      s.hpt.held.map fun h => if endsWithGate s g h.access then { h with released := true } else h := by
  rw [finishGate, endWork_held, releaseHeld_held]
  rfl

/-- A slot is in a group when it holds an item GATED in it (R29). -/
theorem inGroup_iff {s : State} {g : Group} {slot : Nat} :
    inGroup s g slot = true ↔ ∃ it, s.imu.items[slot]? = some it ∧ it.plan.gate = some g := by
  simp [inGroup, Option.any_eq_true]

/-- The slot of an item number is the first that holds it (R1). -/
theorem findSlot_iff {items : List Item} {n : ItemNo} {k : Nat} : findSlot items n = some k ↔
    (∃ it, items[k]? = some it ∧ it.plan.item = n) ∧ ∀ j < k, ∀ jt, items[j]? = some jt → jt.plan.item ≠ n := by
  rw [findSlot, List.findIdx?_eq_some_iff_getElem]
  constructor
  · rintro ⟨h, h1, h2⟩
    refine ⟨⟨_, List.getElem?_eq_getElem h, by simpa using h1⟩, fun j hj jt hjt he => ?_⟩
    obtain ⟨_, rfl⟩ := List.getElem?_eq_some_iff.mp hjt
    exact h2 j hj (by simpa using he)
  · rintro ⟨⟨it, h1, h2⟩, h3⟩
    obtain ⟨hk, rfl⟩ := List.getElem?_eq_some_iff.mp h1
    exact ⟨hk, by simpa using h2, fun j hj => by simpa using h3 j hj _ (List.getElem?_eq_getElem (by omega))⟩

/-! ## Notices -/

/-- With events waiting, or with no frame in its notice step, nothing more happens to the work item. -/
theorem finishNotice_waits {s : State} (h : s.imu.events ≠ [] ∨ ∀ f, s.imu.work ≠ .notice f) : finishNotice s = s := by
  unfold finishNotice
  split
  · rename_i f hw
    rcases h with h | h
    · rw [if_neg (by simpa using h)]
    · exact absurd hw (h f)
  · rfl

/-- With no event waiting the frame in its notice step is applied by its kind. -/
theorem finishNotice_applies {s : State} {f : Frame} (hw : s.imu.work = .notice f) (he : s.imu.events = []) :
    finishNotice s = applyByKind f s := by
  unfold finishNotice
  simp [hw, he]

/-- A frame that goes on by its kind, or waits: at most the work in hand, the held gate sequences and the counters change. -/
theorem finishNotice_only (s : State) :
    ∃ work heldGate counters, finishNotice s =
      { s with imu.work := work, imu.heldGate := heldGate, hpt.counters := counters } := by
  by_cases h : s.imu.events = [] ∧ ∃ f, s.imu.work = .notice f
  · obtain ⟨he, f, hw⟩ := h
    rw [finishNotice_applies hw he]
    unfold applyByKind
    split
    · rw [workOn_remote]; exact ⟨_, _, _, rfl⟩
    · rw [startGate_eq]; exact ⟨_, _, _, rfl⟩
    · rw [endWork_remote (by rw [hw]; rfl)]; exact ⟨_, _, _, rfl⟩
  · refine ⟨s.imu.work, s.imu.heldGate, s.hpt.counters, finishNotice_waits ?_⟩
    by_cases he : s.imu.events = []
    · exact Or.inr fun f hw => h ⟨he, f, hw⟩
    · exact Or.inl he

end Sys2Proof.Laws
end

