-- ==== Sys2Proof/Laws/LineCode.lean ====
section
/-! SUPPORT. The line's bits and cells: what is encoded is decoded, what is sent as bytes is assembled to those bytes, where the start
pattern is found, when the comparison of sensed cells differs. -/

namespace Sys2Proof.Laws

open Sys2Proof.Machine

/-! ## Bits and bytes -/

@[simp] theorem byteBits_length (b : Byte) : (byteBits b).length = 8 := by simp [byteBits]

/-- The bits of a byte give the byte. -/
theorem byteOfBits_byteBits : ∀ b : Byte, byteOfBits (byteBits b) = b := by decide +kernel

/-- Bits of a byte and more bits: the byte is collected first. -/
theorem collectBytes_byteBits (b : Byte) (bits : List Bool) : collectBytes (byteBits b ++ bits) = b :: collectBytes bits := by
  have h : byteBits b = [b.getLsbD 0, b.getLsbD 1, b.getLsbD 2, b.getLsbD 3, b.getLsbD 4, b.getLsbD 5, b.getLsbD 6, b.getLsbD 7] := rfl
  have g := byteOfBits_byteBits b
  rw [h] at g ⊢
  simp only [List.cons_append, List.nil_append, collectBytes, g]

/-- Fewer than 8 bits make no byte. -/
theorem collectBytes_short {bits : List Bool} (h : bits.length < 8) : collectBytes bits = [] := by
  unfold collectBytes
  split
  · simp at h; omega
  · rfl

/-- Bytes as bits, with fewer than 8 bits behind them, are collected as those bytes. -/
theorem collectBytes_bytes (bytes : List Byte) {extra : List Bool} (h : extra.length < 8) :
    collectBytes (bytes.flatMap byteBits ++ extra) = bytes := by
  induction bytes with
  | nil => exact collectBytes_short h
  | cons b rest ih => rw [List.flatMap_cons, List.append_assoc, collectBytes_byteBits, ih]

/-- Eight bits for each byte. -/
theorem length_flatMap_byteBits (bytes : List Byte) : (bytes.flatMap byteBits).length = 8 * bytes.length := by
  induction bytes with
  | nil => rfl
  | cons b rest ih => rw [List.flatMap_cons, List.length_append, ih, byteBits_length, List.length_cons]; omega

/-! ## Cells -/

/-- The level of the line behind a run of cells. -/
def levelAfter (before : Bool) (cells : List LineCell) : Bool := (cells.getLast?.map LineCell.secondHalf).getD before

@[simp] theorem levelAfter_nil (before : Bool) : levelAfter before [] = before := rfl

@[simp] theorem levelAfter_cons (before : Bool) (cell : LineCell) (cells : List LineCell) :
    levelAfter before (cell :: cells) = levelAfter cell.secondHalf cells := by
  cases cells with
  | nil => rfl
  | cons c rest => simp [levelAfter, List.getLast?_cons_cons, List.getLast?_eq_getLast_of_ne_nil (List.cons_ne_nil c rest)]

/-- One cell for each bit. -/
@[simp] theorem encodeCells_length (before : Bool) (bits : List Bool) : (encodeCells before bits).length = bits.length := by
  induction bits generalizing before with
  | nil => rfl
  | cons bit rest ih => simp [encodeCells, ih]

/-- What is encoded is decoded. -/
theorem decodeCells_encodeCells (before : Bool) (bits : List Bool) : decodeCells before (encodeCells before bits) = bits.map some := by
  induction bits generalizing before with
  | nil => rfl
  | cons bit rest ih =>
    simp only [encodeCells, decodeCells, ih, List.map_cons]
    cases before <;> cases bit <;> rfl

/-- A run of bits is encoded part by part, each from the level the part before leaves. -/
theorem encodeCells_append (before : Bool) (bits more : List Bool) :
    encodeCells before (bits ++ more) = encodeCells before bits ++ encodeCells (levelAfter before (encodeCells before bits)) more := by
  induction bits generalizing before with
  | nil => rfl
  | cons bit rest ih => simp only [List.cons_append, encodeCells, ih, levelAfter_cons]

/-- A run of cells is decoded part by part. -/
theorem decodeCells_append (before : Bool) (cells more : List LineCell) :
    decodeCells before (cells ++ more) = decodeCells before cells ++ decodeCells (levelAfter before cells) more := by
  induction cells generalizing before with
  | nil => rfl
  | cons cell rest ih => simp only [List.cons_append, decodeCells, ih, levelAfter_cons]

/-- The cell of each bit: a transition at its start, and one at its middle for a 1 (R176). -/
theorem encodeCells_getElem? (before : Bool) (bits : List Bool) (k : Nat) :
    (encodeCells before bits)[k]? = bits[k]?.map fun bit =>
      let level := levelAfter before ((encodeCells before bits).take k)
      { firstHalf := !level, secondHalf := if bit then level else !level } := by
  induction bits generalizing before k with
  | nil => rfl
  | cons bit rest ih =>
    cases k with
    | zero => rfl
    | succ k => simp only [encodeCells, List.getElem?_cons_succ, ih, List.take_succ_cons, levelAfter_cons]

/-- Bytes encoded, with fewer than 8 bits behind them, as the receiver assembles them (R70). -/
theorem assembleFrame_encodeCells (before : Bool) (bytes : List Byte) {extra : List Bool} (h : extra.length < 8) :
    assembleFrame { before := before, cells := encodeCells before (bytes.flatMap byteBits ++ extra) } =
      { bytes := bytes.take 166, tooLong := decide (166 < bytes.length ∨ bytes.length = 166 ∧ extra ≠ []), codingBad := false,
        partialByte := decide (extra ≠ []) } := by
  have hb : heardBits { before := before, cells := encodeCells before (bytes.flatMap byteBits ++ extra) } =
      (bytes.flatMap byteBits ++ extra).map some := decodeCells_encodeCells before _
  have hf : ∀ bits : List Bool, (bits.map some).filterMap id = bits := fun bits => by simp
  have hn : ∀ bits : List Bool, (bits.map some).any Option.isNone = false := fun bits => by simp
  have hl : (bytes.flatMap byteBits ++ extra).length = 8 * bytes.length + extra.length := by
    rw [List.length_append, length_flatMap_byteBits]
  have he : extra ≠ [] ↔ 0 < extra.length := List.length_pos_iff.symm
  unfold assembleFrame
  simp only [hb, hf, hn, collectBytes_bytes bytes h, hl, maxFrameBytes, he]
  congr 1 <;> rw [decide_eq_decide] <;> omega

/-- A cell with no transition at its start makes the frame bad (R70, R71). -/
theorem assembleFrame_codingBad (before : Bool) (early late : List LineCell) (cell : LineCell)
    (h : cell.firstHalf = levelAfter before early) :
    (assembleFrame { before := before, cells := early ++ cell :: late }).codingBad = true := by
  simp only [assembleFrame, heardBits, decodeCells_append, decodeCells, if_pos h, List.any_append, List.any_cons, Option.isNone_none,
    Bool.true_or, Bool.or_true]

/-- A frame bad in coding is a bad frame (R71). -/
theorem acceptFrame_codingBad {heard : HeardFrame} (h : heard.codingBad = true) : acceptFrame heard = none := by
  simp [acceptFrame, h]

/-! ## The start pattern (R70) -/

/-- The search ends where the bits begin with the start pattern. -/
theorem huntStart_found (bits : List Bool) : huntStart ((byteBits startPattern ++ bits).map some) = some (bits.map some) := by
  have h : byteBits startPattern = [true, true, false, false, true, false, true, true] := by decide
  simp only [h, List.cons_append, List.nil_append, List.map_cons, huntStart]
  rw [if_pos (by simp)]
  rfl

/-- The search goes on where they do not. -/
theorem huntStart_next {bit : Bool} {bits : List Bool} (h : (bit :: bits).take 8 ≠ byteBits startPattern) :
    huntStart ((bit :: bits).map some) = huntStart (bits.map some) := by
  have hp : ((byteBits startPattern).map some).isPrefixOf ((bit :: bits).map some) = false := by
    rw [Bool.eq_false_iff]
    intro hp
    rw [List.isPrefixOf_iff_prefix, List.prefix_iff_eq_take, ← List.map_take] at hp
    exact h (List.map_injective_iff.mpr (Option.some_injective _) (by simpa using hp.symm))
  rw [List.map_cons, huntStart, ← List.map_cons, hp, if_neg Bool.false_ne_true]

/-- With no start pattern anywhere nothing is found. -/
theorem huntStart_absent {bits : List Bool} (h : ∀ m, (bits.drop m).take 8 ≠ byteBits startPattern) :
    huntStart (bits.map some) = none := by
  induction bits with
  | nil => rfl
  | cons bit rest ih => rw [huntStart_next (h 0), ih fun m => h (m + 1)]

/-- The first start pattern is the one found, here at the end of the bits. -/
theorem huntStart_first {bits : List Bool} {n : Nat} (h : bits.drop n = byteBits startPattern)
    (hm : ∀ m < n, (bits.drop m).take 8 ≠ byteBits startPattern) : huntStart (bits.map some) = some [] := by
  induction n generalizing bits with
  | zero =>
    have e := huntStart_found []
    rw [List.append_nil] at e
    rw [← List.drop_zero (l := bits), h, e]
    rfl
  | succ n ih =>
    cases bits with
    | nil => simp at h; exact absurd h.symm (by decide)
    | cons bit rest => rw [huntStart_next (hm 0 (by omega))]; exact ih h fun m hl => hm (m + 1) (by omega)

/-! ## The comparison (R89) -/

/-- Cells that agree with those driven show no difference. -/
theorem sensesDifference_prefix {driven sensed : List LineCell} (h : sensed <+: driven) : sensesDifference driven sensed = false := by
  induction sensed generalizing driven with
  | nil => cases driven <;> rfl
  | cons c rest ih =>
    obtain ⟨more, rfl⟩ := h
    cases rest with
    | nil => simp [sensesDifference]
    | cons d rest =>
      simp only [List.cons_append, sensesDifference, beq_self_eq_true, Bool.true_and]
      exact ih ⟨more, rfl⟩

/-- The first cell that differs is the difference sensed. -/
theorem sensesDifference_first {driven : List LineCell} {n : Nat} {cell heard : LineCell} (h : driven[n]? = some cell)
    (hd : heard ≠ cell) : sensesDifference driven (driven.take n ++ [heard]) = true := by
  induction n generalizing driven with
  | zero =>
    cases driven with
    | nil => simp at h
    | cons c rest =>
      simp only [List.getElem?_cons_zero, Option.some.injEq] at h
      subst h
      simpa [sensesDifference] using hd
  | succ n ih =>
    cases driven with
    | nil => simp at h
    | cons c rest =>
      have g := ih (driven := rest) (by simpa using h)
      cases hs : rest.take n ++ [heard] with
      | nil => simp at hs
      | cons d more =>
        rw [hs] at g
        simp only [List.take_succ_cons, List.cons_append, hs, sensesDifference, beq_self_eq_true, Bool.true_and, g]

/-! ## The cells of an attempt (R89, R176) -/

/-- The bits of an attempt: 24 of lead-in and start pattern, and 8 for each byte. -/
theorem lineBits_length (bytes : List Byte) : (lineBits bytes).length = 24 + 8 * bytes.length := by
  rw [lineBits, List.length_append, length_flatMap_byteBits]
  rfl

/-- The cells of an attempt: those of lead-in and start pattern, and those of the frame's bytes from the level these leave. -/
theorem sentCells_eq (a : SentFrame) :
    a.cells = encodeCells a.rest (leadIn ++ byteBits startPattern) ++
      encodeCells (levelAfter a.rest (encodeCells a.rest (leadIn ++ byteBits startPattern))) (a.lineBytes.flatMap byteBits) := by
  rw [SentFrame.cells, lineBits, encodeCells_append]

/-- A receiver in HUNT finds the start pattern at the end of the first 24 cells of an attempt. -/
theorem huntStart_leadIn (rest : Bool) :
    huntStart (heardBits { before := rest, cells := encodeCells rest (leadIn ++ byteBits startPattern) }) = some [] := by
  rw [heardBits, decodeCells_encodeCells]
  decide

end Sys2Proof.Laws
end

