-- ==== Sys2Proof/Laws/Mute.lean ====
section
/-! SUPPORT. Outcomes told to their sources, frames counted in ABANDONED, the flush of the line access unit at entry to MUTED, and what the
request process then does with its slots. -/

namespace Sys2Proof.Laws

open Sys2Proof.Machine

/-- An outcome at the REQ changes the slot in progress only. -/
theorem reqOutcome_frame (lost : Nat) (s : State) : reqOutcome lost s = { s with req.slot := (reqOutcome lost s).req.slot } := by
  unfold reqOutcome
  split <;> rfl

/-- What an abandoned frame's source does: the REQ counts it in its slot, the TSC clears PRESENCE OUTSTANDING. -/
theorem tellAbandoned_eq (f : TxFrame) (s : State) :
    tellAbandoned f s =
      { s with
        req.slot :=
          if f.source = .req then
            s.req.slot.map fun w => { w with outstanding := w.outstanding - 1, lost := w.lost + f.size }
          else s.req.slot
        tsc.presenceOutstanding := if f.source = .presence then false else s.tsc.presenceOutstanding } := by
  unfold tellAbandoned
  cases hs : f.source
  · cases h : s.req.slot
    · simp only [reqOutcome, h, Option.map_none]; rw [← h]; rfl
    · simp [reqOutcome, h]
  all_goals simp

/-- The three sources are told apart. -/
theorem source_beq : (Source.req == Source.presence) = false ∧ (Source.refresh == Source.presence) = false ∧
    (Source.refresh == Source.req) = false ∧ (Source.presence == Source.req) = false := ⟨rfl, rfl, rfl, rfl⟩

/-- A run of abandoned frames told: the slot in progress and PRESENCE OUTSTANDING, and nothing else. -/
theorem tellAll_eq (frames : List TxFrame) (s : State) :
    tellAll frames s =
      { s with
        req.slot :=
          s.req.slot.map fun w =>
            { w with
              outstanding := w.outstanding - (frames.countP fun f => f.source == .req)
              lost := w.lost + ((frames.filter fun f => f.source == .req).map TxFrame.size).sum }
        tsc.presenceOutstanding := s.tsc.presenceOutstanding && !(frames.any fun f => f.source == .presence) } := by
  unfold tellAll
  induction frames generalizing s with
  | nil =>
    cases h : s.req.slot with
    | none => simp only [List.foldl_nil, List.any_nil, Bool.not_false, Bool.and_true, Option.map_none]; rw [← h]
    | some w =>
      simp only [List.foldl_nil, List.any_nil, Bool.not_false, Bool.and_true, Option.map_some, List.countP_nil, List.filter_nil,
        List.map_nil, List.sum_nil, Nat.sub_zero, Nat.add_zero]
      rw [← h]
  | cons f rest ih =>
    rw [List.foldl_cons, ih, tellAbandoned_eq]
    cases hs : f.source <;> cases h : s.req.slot <;>
      simp [hs, Nat.sub_sub, Nat.add_assoc, Nat.add_comm 1, source_beq]

/-- A run of frames counted: ABANDONED goes up once for each, nothing else changes. -/
theorem countAbandoned_eq (frames : List TxFrame) (s : State) :
    countAbandoned frames s =
      { s with
        hpt.counters :=
          s.hpt.counters.set (Nat.repeat Counter.increment frames.length (s.hpt.counters.get .abandoned)) .abandoned } := by
  have key : ∀ (n : Nat) (c : Counter), Nat.repeat Counter.increment n c.increment = Nat.repeat Counter.increment (n + 1) c := by
    intro n c
    induction n with
    | zero => rfl
    | succ n ih => exact congrArg Counter.increment ih
  unfold countAbandoned
  induction frames generalizing s with
  | nil => rfl
  | cons f rest ih =>
    rw [List.foldl_cons, ih]
    simp only [countUp, Counters.get, Counters.set, List.length_cons, key]

/-- The LAU after a flush: nothing queued or offered, the transmitter OFF, the driver off; only LAST COMPLETED SEQUENCE stays (R96). -/
theorem flushLau_lau (before : List TxFrame) (s : State) :
    (flushLau before s).lau = { State.reset.lau with lastCompleted := s.lau.lastCompleted } := by
  simp only [flushLau, tellAll_eq, countAbandoned_eq]
  rfl

/-- What a flush changes: the LAU, the slot in progress, PRESENCE OUTSTANDING and ABANDONED. -/
theorem flushLau_frame (before : List TxFrame) (s : State) :
    flushLau before s =
      { s with
        lau := (flushLau before s).lau
        req.slot := (flushLau before s).req.slot
        tsc.presenceOutstanding := (flushLau before s).tsc.presenceOutstanding
        hpt.counters :=
          s.hpt.counters.set (Nat.repeat Counter.increment s.lau.queue.length (s.hpt.counters.get .abandoned)) .abandoned } := by
  simp only [flushLau, tellAll_eq, countAbandoned_eq]
  rfl

/-- A mute notice in any other station state changes nothing (R161). -/
theorem muteNotice_ignored {s : State} (h : s.stc.station ≠ .joining) (h' : s.stc.station ≠ .active) (cause : MutedCause)
    (before : List TxFrame) : muteNotice cause before s = s := by
  unfold muteNotice
  rw [if_neg (by rintro (e | e) <;> contradiction)]

/-- A mute notice in JOINING and ACTIVE: the flush, and then no more than the request process does. -/
theorem muteNotice_effects {s : State} (h : s.stc.station = .joining ∨ s.stc.station = .active) (cause : MutedCause)
    (before : List TxFrame) : RequestEffects (flushLau before (stopStation cause s)) (muteNotice cause before s) := by
  unfold muteNotice
  rw [if_pos h]
  exact reqRun_effects _ _

/-- A clash notice taken in any other station state only ceases to wait (R161). -/
theorem takeClashNotice_ignored {s : State} (h : s.stc.station ≠ .joining) (h' : s.stc.station ≠ .active) :
    takeClashNotice s = { s with stc.clashNotice := false } :=
  muteNotice_ignored (s := { s with stc.clashNotice := false }) h h' _ _

/-- A clash notice taken in JOINING and ACTIVE: the flush, and then no more than the request process does. -/
theorem takeClashNotice_effects {s : State} (h : s.stc.station = .joining ∨ s.stc.station = .active) :
    RequestEffects (flushLau [] (stopStation .identity { s with stc.clashNotice := false })) (takeClashNotice s) :=
  muteNotice_effects (s := { s with stc.clashNotice := false }) h _ _

/-! ## The request process after a mute (R106, R116, R119) -/

/-- A slot in progress with every outcome known closes in MUTED (R119). -/
theorem reqRun_mutedCloses (n : Nat) {s : State} {w : SlotWork} (h : s.stc.station = .muted) (hs : s.req.slot = some w)
    (ho : s.lau.reqOffer = none) (hp : s.lau.presenceOffer = none) (h0 : w.outstanding = 0) :
    reqRun (n + 1) s = reqRun n (closeSlot w.status w.remaining w.lost w.frames s) := by
  have ha : arbiter s = s := by
    have e : admitPresence s = s := by unfold admitPresence; rw [hp]
    unfold arbiter
    rw [e]
    unfold admitReq
    rw [ho]
  have hpump : pump 8 s = s := by
    rw [pump_rests (w := w) (by rw [ha]; exact hs) (by rw [ha]; simp [buildsNow, h]), ha]
  rw [reqRun_closes hs (by rw [hpump]; exact hs) (by rw [hpump]; simp [closable, h0, h]), hpump]

/-- The records of the REQ's frames among some. -/
def lostRecords (frames : List TxFrame) : Nat := ((frames.filter fun f => f.source == .req).map TxFrame.size).sum

/-- A slot in progress at a mute notice in JOINING and ACTIVE (R96, R119): handed back with the records of every frame of its own that is
told as abandoned, and a RUNNING process examines the next slot. -/
theorem muteNotice_closes {s : State} (h : s.stc.station = .joining ∨ s.stc.station = .active) (cause : MutedCause)
    (before : List TxFrame) {w : SlotWork} (hs : s.req.slot = some w) (hc : StoresCanonical s) (lost : Nat)
    (hl : lost = w.lost + lostRecords (before ++ s.lau.queue ++ (s.lau.reqOffer.toList ++ s.lau.presenceOffer.toList)))
    (ho : w.outstanding ≤ (before ++ s.lau.queue ++ (s.lau.reqOffer.toList ++ s.lau.presenceOffer.toList)).countP
      fun f => f.source == .req) :
    let t := muteNotice cause before s
    SlotClosedNextExamined s t (if w.halted then .halted else if lost ≠ 0 ∨ w.remaining ≠ 0 then .lineFailed else .done)
        w.remaining lost w.frames ∧
      t.req.slot = none ∧
      (s.req.process ≠ .running → t.req.process = s.req.process ∧ t.req.cursor = s.req.cursor + 1) ∧
      (s.req.process = .running → (ringWord t (s.req.cursor + 1).val 0).getLsbD 15 = false ∧
        (NextSlotHostOwned s → t.req.process = .suspended ∧ t.req.cursor = s.req.cursor + 1 ∧ t.hpt.flags.requestsIdle = true)) := by
  intro t
  have hne : (s.req.cursor + 1).val ≠ s.req.cursor.val := by generalize s.req.cursor = c; revert c; decide
  let u := flushLau before (stopStation cause s)
  let w' : SlotWork := { w with outstanding := 0, lost := lost }
  let status : SlotStatus := if w.halted then .halted else if lost ≠ 0 ∨ w.remaining ≠ 0 then .lineFailed else .done
  let v := closeSlot status w.remaining lost w.frames u
  have hu : u.req = { s.req with slot := some w' } := by
    show (flushLau before (stopStation cause s)).req = _
    simp only [flushLau, tellAll_eq, countAbandoned_eq]
    show ({ s.req with slot := s.req.slot.map _ } : Req) = _
    rw [hs, Option.map_some]
    simp only [w', hl, lostRecords, List.append_assoc] at ho ⊢
    have : w.outstanding - List.countP (fun f => f.source == Source.req)
        (before ++ (s.lau.queue ++ (s.lau.reqOffer.toList ++ s.lau.presenceOffer.toList))) = 0 := by omega
    simp only [stopStation] at this ⊢
    rw [this]
  have hul := flushLau_lau before (stopStation cause s)
  have hum : u.stc.station = .muted := by
    show (flushLau before (stopStation cause s)).stc.station = _
    rw [flushLau_frame]
    rfl
  have ht : t = reqRun 39 v := by
    show muteNotice cause before s = _
    unfold muteNotice
    rw [if_pos h]
    exact reqRun_mutedCloses 39 (w := w') hum (by rw [hu]) (by show (flushLau before (stopStation cause s)).lau.reqOffer = _; rw [hul]; rfl)
      (by show (flushLau before (stopStation cause s)).lau.presenceOffer = _; rw [hul]; rfl) rfl
  have hring : ∀ k j, ringWord u k j = ringWord s k j := fun k j => by simp only [ringWord, hu]
  have hcur : u.req.cursor = s.req.cursor := by rw [hu]
  have huw : u.req.ring.wf 128 = true := by rw [hu]; exact hc.2.1
  have hvm : v.stc.station = .muted := hum
  have hvs : v.req.slot = none := rfl
  have hvp : v.req.process = s.req.process := by show u.req.process = _; rw [hu]
  have hvc : v.req.cursor = s.req.cursor + 1 := by show u.req.cursor + 1 = _; rw [hu]
  have hkept := reqRun_muted 39 hvm hvs
  have hnextv : ringWord v (s.req.cursor + 1).val 0 = ringWord s (s.req.cursor + 1).val 0 := by
    rw [← hring]
    exact closeSlot_otherSlots _ _ _ _ _ (by rw [hcur]; exact hne) (by omega)
  rw [ht]
  refine ⟨?_, hkept, ?_, ?_⟩
  · have hf := flushLau_frame before (stopStation cause s)
    have hlook : lookedAt u = lookedAt s := by simp only [u]; rw [hf]; rfl
    have hstores : (u.hpt.staging, u.hpt.notify, u.stc.window) = (s.hpt.staging, s.hpt.notify, s.stc.window) := by
      simp only [u]; rw [hf]; rfl
    have hcanon : StoresCanonical u := by
      simp only [Prod.mk.injEq] at hstores
      rw [StoresCanonical, hstores.1, hstores.2.1, hstores.2.2]
      exact ⟨hc.1, huw, hc.2.2⟩
    exact closeSlot_nextExamined 21 status w.remaining lost w.frames hc hcanon (by rw [hu]) hlook
      (fun _ => by simp only [u]; rw [hul]; rfl) (by simp [examines, hum])
  · intro hp
    rw [reqRun_rests hvs (Or.inl (by rw [hvp]; exact hp))]
    exact ⟨hvp, hvc⟩
  · intro hp
    have hvr : v.req.process = .running := hvp.trans hp
    have hvx : examines v = true := by simp [examines, hvm]
    constructor
    · rw [reqRun_examines hvs hvr hvx]
      have hev := examineSlot_muted hvm hvs
      have hclear : (ringWord (examineSlot v) (s.req.cursor + 1).val 0).getLsbD 15 = false := by
        rw [← hvc]
        have hvw : v.req.ring.wf 128 = true := closeSlot_wf _ _ _ _ huw
        by_cases hown : (cursorCopy v).stationOwned = true
        · cases hc : slotCheck v (cursorCopy v) with
          | some st => rw [examineSlot_refused hown hc]; exact closeSlot_hostOwned _ _ _ _ hvw
          | none => rw [examineSlot_silent hown hc (Or.inl hvm)]; exact closeSlot_hostOwned _ _ _ _ hvw
        · rw [examineSlot_host (by simpa using hown)]
          exact Bool.eq_false_iff.mpr hown
      rw [reqRun_hostSlots 38 hclear (by rw [hev]; nofun) 0 (by omega)]
      exact hclear
    · intro hnext
      rw [reqRun_suspends 38 hvs hvr hvx (by rw [hvc, hnextv]; exact hnext)]
      exact ⟨rfl, hvc, rfl⟩

end Sys2Proof.Laws
end

