-- ==== Sys2Proof/Laws/Peers.lean ====
section
/-! SUPPORT. The notice of a remote frame and the expiry of lost timers: the entries they leave, the owner event list, and everything
else they change. -/

namespace Sys2Proof.Laws

open Sys2Proof.Machine

/-- Steps 1 and 2 of a notice change the owner event list, the flags and the counters only. -/
theorem noticeAnswer_only (p : Peer) (f : Frame) (s : State) :
    ∃ events flags counters, noticeAnswer p f s =
      { s with imu.events := events, hpt.flags := flags, hpt.counters := counters } := by
  unfold noticeAnswer
  split
  · exact ⟨_, _, _, rfl⟩
  · split <;> exact ⟨_, _, _, rfl⟩

/-- A frame under this station's own entry is no notice (R48). -/
theorem noticeFrame_own {s : State} {f : Frame} (h : (peerOf s f.sender).state = .self) : noticeFrame f s = s := by
  unfold noticeFrame
  rw [if_pos h]

/-- A notice changes the peer table, the owner event list, the flags and the counters only. -/
theorem noticeFrame_only (f : Frame) (s : State) :
    ∃ pmn events flags counters, noticeFrame f s =
      { s with pmn := pmn, imu.events := events, hpt.flags := flags, hpt.counters := counters } := by
  unfold noticeFrame
  simp only
  obtain ⟨events, flags, counters, h⟩ := noticeAnswer_only (peerOf s f.sender) f s
  rw [h]
  split
  · exact ⟨_, _, _, _, rfl⟩
  · split <;> exact ⟨_, _, _, _, rfl⟩

/-- The entries after a notice: the sender's as R51 to R56 leave it, every other as it was. -/
theorem noticeFrame_peerOf {s : State} {f : Frame} (h : (peerOf s f.sender).state ≠ .self) (n : Station) :
    peerOf (noticeFrame f s) n =
      if n = f.sender then
        { state := .present, expected := some (f.sequence + 1),
          agreement :=
            agreementAfter (if f.first then .unknown else (peerOf s f.sender).agreement) (planCheckWord s) f.body,
          timeLeft := some (lostTimeout s) }
      else peerOf s n := by
  have hk : ∀ (name : FlagName) (t : State), peerOf (raiseFlag name t) n = peerOf t n := fun _ _ => rfl
  have ha : peerOf (noticeAnswer (peerOf s f.sender) f s) n = peerOf s n := by
    obtain ⟨events, flags, counters, h⟩ := noticeAnswer_only (peerOf s f.sender) f s
    rw [h]; rfl
  unfold noticeFrame
  simp only
  rw [if_neg h]
  split <;> (try rw [hk]) <;> rw [peerOf_setPeer, ha] <;> rfl

/-- A notice that joins its sender (R51): a rejoined event and PEER_JOINED. -/
theorem noticeAnswer_joins {p : Peer} {f : Frame} (h : joins p f.first = true) (s : State) :
    noticeAnswer p f s = raiseFlag .peerJoined (appendEvent { kind := .rejoined, station := f.sender } s) := by
  unfold noticeAnswer
  rw [if_pos h]

/-- A frame in sequence (R52): nothing. -/
theorem noticeAnswer_match {p : Peer} {f : Frame} (h : joins p f.first = false) (he : p.expected = some f.sequence) (s : State) :
    noticeAnswer p f s = s := by
  unfold noticeAnswer
  rw [if_neg (by simp [h]), if_pos he]

/-- A frame out of sequence (R52): a doubtful event, and the gap counted. -/
theorem noticeAnswer_gap {p : Peer} {f : Frame} (h : joins p f.first = false) (he : p.expected ≠ some f.sequence) (s : State) :
    noticeAnswer p f s = countUp .sequenceGaps (appendEvent { kind := .doubtful, station := f.sender } s) := by
  unfold noticeAnswer
  rw [if_neg (by simp [h]), if_neg he]

/-! ## Expiries -/

/-- An expiry, whole (R54). -/
theorem losePeer_eq (n : Station) (s : State) :
    losePeer n s =
      { s with
        pmn := (setPeer n { peerOf s n with state := .lost, expected := none, timeLeft := none } s).pmn
        imu.events := s.imu.events ++ [{ kind := .lost, station := n }]
        hpt.flags := { s.hpt.flags with peerLost := true } } := rfl

/-- The entries after an expiry. -/
theorem losePeer_peerOf (n m : Station) (s : State) :
    peerOf (losePeer n s) m =
      if m = n then { peerOf s n with state := .lost, expected := none, timeLeft := none } else peerOf s m := peerOf_setPeer n m _ s

/-- When a lost timer may expire. -/
theorem lostTimerExpires_iff (n : Station) (s : State) :
    lostTimerExpires n s = true ↔
      (peerOf s n).state = .present ∧ (peerOf s n).timeLeft.isSome = true ∧ { kind := .lost, station := n } ∉ s.imu.events := by
  simp [lostTimerExpires, and_assoc]

/-- A lost timer that runs, with no lost event of its station waiting, expires. -/
theorem expireLost_runs {s : State} {n : Station} (h : (peerOf s n).state = .present) (ht : (peerOf s n).timeLeft.isSome = true)
    (hw : { kind := .lost, station := n } ∉ s.imu.events) : expireLost n s = losePeer n s :=
  if_pos ((lostTimerExpires_iff n s).mpr ⟨h, ht, hw⟩)

/-- With a lost event of its station waiting a lost timer does not expire. -/
theorem expireLost_waits {s : State} {n : Station} (hw : { kind := .lost, station := n } ∈ s.imu.events) : expireLost n s = s :=
  if_neg fun h => ((lostTimerExpires_iff n s).mp h).2.2 hw

/-- A lost timer either expires, in PRESENT and with no lost event of its station waiting, or nothing happens. -/
theorem expireLost_cases (n : Station) (s : State) :
    expireLost n s = losePeer n s ∧ (peerOf s n).state = .present ∧ { kind := .lost, station := n } ∉ s.imu.events ∨
      expireLost n s = s := by
  unfold expireLost
  split
  · next h => exact Or.inl ⟨rfl, ((lostTimerExpires_iff n s).mp h).1, ((lostTimerExpires_iff n s).mp h).2.2⟩
  · exact Or.inr rfl

/-- Expiries change the peer table, append lost events and raise PEER_LOST, and nothing else; without an event they change nothing. -/
theorem expireAll_only (stations : List Station) (s : State) :
    ∃ pmn events lost, expireAll stations s =
        { s with pmn := pmn, imu.events := s.imu.events ++ events, hpt.flags := { s.hpt.flags with peerLost := lost } } ∧
      (∀ e ∈ events, e.kind = .lost) ∧ (events = [] → expireAll stations s = s) := by
  induction stations generalizing s with
  | nil => exact ⟨s.pmn, [], s.hpt.flags.peerLost, by simp [expireAll], by simp, fun _ => rfl⟩
  | cons n rest ih =>
    rcases expireLost_cases n s with ⟨h, -⟩ | h
    · obtain ⟨pmn, events, lost, e, hk, -⟩ := ih (losePeer n s)
      refine ⟨pmn, { kind := .lost, station := n } :: events, lost, ?_, ?_, nofun⟩
      · show expireAll rest (expireLost n s) = _
        rw [h, e, losePeer_eq]
        simp only [List.append_assoc, List.singleton_append]
      · intro e he
        rcases List.mem_cons.mp he with rfl | he
        · rfl
        · exact hk e he
    · have hs : expireAll (n :: rest) s = expireAll rest s := by
        show expireAll rest (expireLost n s) = _
        rw [h]
      rw [hs]
      exact ih s

/-- What holds and is kept by an expiry, in PRESENT and with no lost event of the station waiting, is kept by expiries. -/
theorem expireAll_keeps {P : State → Prop}
    (h : ∀ n s, (peerOf s n).state = .present → { kind := .lost, station := n } ∉ s.imu.events → P s → P (losePeer n s))
    (stations : List Station) {s : State} (hs : P s) : P (expireAll stations s) := by
  induction stations generalizing s with
  | nil => exact hs
  | cons n rest ih =>
    show P (expireAll rest (expireLost n s))
    rcases expireLost_cases n s with ⟨e, hp, hw⟩ | e
    · rw [e]; exact ih (h n s hp hw hs)
    · rw [e]; exact ih hs

/-! ## The owner event list (R11, R53, R54) -/

/-- The owner event list has room for 32 events: a lost one for each other station, and the answer to one frame (R11). -/
theorem events_room {s : State} (h : EventListRules s) : s.imu.events.length ≤ 32 := by
  obtain ⟨other, once, answer⟩ := h
  have stations : (stationNumber s :: (s.imu.events.filter fun e => e.kind == .lost).map OwnerEvent.station).Nodup := by
    refine List.nodup_cons.mpr ⟨?_, List.Nodup.map_on ?_ once⟩
    · rintro hm
      obtain ⟨e, he, hs⟩ := List.mem_map.mp hm
      exact other e (List.mem_filter.mp he).1 hs
    · rintro ⟨k, a⟩ ha ⟨l, b⟩ hb rfl
      simp_all
  have hc := stations.length_le_card
  have hl := List.length_eq_countP_add_countP (fun e : OwnerEvent => e.kind == .lost) (l := s.imu.events)
  simp only [List.length_cons, List.length_map, Fintype.card_fin, ← List.countP_eq_length_filter] at hc
  have hn : (s.imu.events.countP fun e => decide ¬(e.kind == .lost) = true) = s.imu.events.countP fun e => e.kind != .lost :=
    List.countP_congr fun e _ => by cases e.kind <;> simp
  omega

/-- An owner event list whose oldest events are taken off keeps its rules. -/
theorem eventListRules_suffix {s t : State} (h : EventListRules s) (hs : t.imu.events <:+ s.imu.events)
    (hn : stationNumber t = stationNumber s) : EventListRules t :=
  ⟨fun e he => hn ▸ h.1 e (hs.subset he), h.2.1.sublist (hs.sublist.filter _), hs.sublist.countP_le.trans h.2.2⟩

/-- A lost timer that expires keeps them. -/
theorem expireLost_eventListRules {s : State} (n : Station) (hp : (peerOf s n).state = .present → n ≠ stationNumber s)
    (h : EventListRules s) : EventListRules (expireLost n s) := by
  rcases expireLost_cases n s with ⟨e, present, waits⟩ | e
  · rw [e, losePeer_eq]
    refine ⟨fun e he => ?_, ?_, ?_⟩
    · rcases List.mem_append.mp he with he | he
      · exact h.1 e he
      · rw [List.mem_singleton.mp he]
        exact hp present
    · simp only [List.filter_append, List.filter_cons, beq_self_eq_true, ite_true, List.filter_nil]
      exact List.nodup_append.mpr ⟨h.2.1, List.nodup_singleton _, fun a ha b hb => by
        rw [List.mem_singleton.mp hb]
        rintro rfl
        exact waits (List.mem_filter.mp ha).1⟩
    · simpa [List.countP_append] using h.2.2
  · rwa [e]

end Sys2Proof.Laws
end

