-- ==== Sys2Proof/Laws/Plan.lean ====
section
/-! SUPPORT. The plan in a window as numbers: the fields of an entry by the places of table 11-7, when an entry is bad, the plan mark, the
sum of the plan check, and the first entry that fails. -/

namespace Sys2Proof.Laws

open Sys2Proof.Machine

/-- A bit of a word as a digit of its number. -/
theorem getLsbD_eq_decide (w : Word) (k : Nat) : w.getLsbD k = decide (w.toNat / 2 ^ k % 2 = 1) := by
  simp [BitVec.getLsbD, Nat.testBit_eq_decide_div_mod_eq]

/-! ## Entries (table 11-7) -/

/-- ITEM of an entry. -/
theorem planEntry_item (m : WordStore) (k : Nat) : (planEntry m k).item.toNat = (m.read (8 + 2 * k)).toNat / 16 := by
  have h : (m.read (8 + 2 * k)).toNat < 65536 := BitVec.isLt _
  simp only [planEntry, planEntryOf, BitVec.extractLsb'_toNat, Nat.shiftRight_eq_div_pow]
  omega

/-- LENGTH of an entry. -/
theorem planEntry_length (m : WordStore) (k : Nat) : (planEntry m k).length = (m.read (8 + 2 * k)).toNat % 16 := by
  simp [planEntry, planEntryOf, bitField]

/-- OWNER of an entry. -/
theorem planEntry_owner (m : WordStore) (k : Nat) : (planEntry m k).owner = (m.read (9 + 2 * k)).toNat % 64 := by
  simp [planEntry, planEntryOf, bitField]

/-- KIND of an entry. -/
theorem planEntry_stream (m : WordStore) (k : Nat) :
    (planEntry m k).stream = decide ((m.read (9 + 2 * k)).toNat / 64 % 2 = 1) := getLsbD_eq_decide _ 6

/-- CAPTURE of an entry. -/
theorem planEntry_gated (m : WordStore) (k : Nat) :
    (planEntry m k).gated = decide ((m.read (9 + 2 * k)).toNat / 128 % 2 = 1) := getLsbD_eq_decide _ 7

/-- GROUP of an entry. -/
theorem planEntry_group (m : WordStore) (k : Nat) : (planEntry m k).group = (m.read (9 + 2 * k)).toNat / 256 % 8 := by
  simp [planEntry, planEntryOf, bitField]

/-- The spare bits of an entry. -/
theorem planEntry_spare (m : WordStore) (k : Nat) : (planEntry m k).spare = (m.read (9 + 2 * k)).toNat / 2048 := by
  have h : (m.read (9 + 2 * k)).toNat < 65536 := BitVec.isLt _
  simp only [planEntry, planEntryOf, bitField]
  omega

/-- Test 5 of table 9-4 by the words of the entry. -/
theorem planEntry_bad_iff (m : WordStore) (k : Nat) : (planEntry m k).bad = true ↔
    31 < (m.read (9 + 2 * k)).toNat % 64 ∨ (m.read (8 + 2 * k)).toNat % 16 = 0 ∨ 8 < (m.read (8 + 2 * k)).toNat % 16 ∨
      3 < (m.read (9 + 2 * k)).toNat / 256 % 8 ∨
      ((m.read (9 + 2 * k)).toNat / 128 % 2 = 0 ∧ (m.read (9 + 2 * k)).toNat / 256 % 8 ≠ 0) ∨
      ((m.read (9 + 2 * k)).toNat / 64 % 2 = 1 ∧ (m.read (9 + 2 * k)).toNat / 128 % 2 = 1) ∨
      (m.read (9 + 2 * k)).toNat / 2048 ≠ 0 := by
  simp [PlanEntry.bad, planEntry_length, planEntry_owner, planEntry_stream, planEntry_gated, planEntry_group, planEntry_spare, or_assoc]

/-! ## The header and the tests of table 9-4 -/

/-- Test 1: the plan mark, and no spare bit in words 2 to 6. -/
theorem planMarked_iff (m : WordStore) : planMarked m = true ↔
    (m.read 0).toNat = 0x7A41 ∧ (m.read 2).toNat / 8 = 0 ∧ (m.read 3).toNat / 256 = 0 ∧ (m.read 4).toNat / 256 = 0 ∧
      (m.read 5).toNat / 256 = 0 ∧ (m.read 6).toNat = 0 := by
  have h2 : (m.read 2).toNat < 65536 := BitVec.isLt _
  have h3 : (m.read 3).toNat < 65536 := BitVec.isLt _
  have h4 : (m.read 4).toNat < 65536 := BitVec.isLt _
  have h5 : (m.read 5).toNat < 65536 := BitVec.isLt _
  simp only [planMarked, bitField, Bool.and_eq_true, beq_iff_eq, and_assoc, ← BitVec.toNat_inj, show (0 : Word).toNat = 0 from rfl,
    show (0x7A41#16).toNat = 0x7A41 from rfl]
  norm_num
  omega

/-- Words added up modulo 65536. -/
theorem foldl_add_toNat (m : WordStore) (ks : List Nat) (start : Word) :
    (ks.foldl (fun sum k => sum + m.read k) start).toNat = (start.toNat + (ks.map fun k => (m.read k).toNat).sum) % 65536 := by
  induction ks generalizing start with
  | nil => simpa using (Nat.mod_eq_of_lt start.isLt).symm
  | cons k rest ih => simp only [List.foldl_cons, ih, List.map_cons, List.sum_cons, BitVec.toNat_add]; omega

/-- Test 3: the words add up to 0 modulo 65536. -/
theorem planSum_iff (m : WordStore) :
    planSum m = 0 ↔ ((List.range (8 + 2 * (m.read 1).toNat)).map fun k => (m.read k).toNat).sum % 65536 = 0 := by
  rw [← BitVec.toNat_inj, planSum, foldl_add_toNat]
  simp [planCount]

/-- Tests 5 and 6 on an entry fail in no way. -/
theorem entryFault_none_iff (m : WordStore) (k : Nat) : entryFault m k = none ↔
    (planEntry m k).bad = false ∧ (1 ≤ k → (planEntry m (k - 1)).item.toNat < (planEntry m k).item.toNat) := by
  unfold entryFault
  split_ifs <;> simp_all

/-- The first entry that fails tests 5 and 6 is the one that the plan check names. -/
theorem findSome_entryFault {m : WordStore} {n k : Nat} {code : PlanFault} (hk : k < n) (hbefore : ∀ j < k, entryFault m j = none)
    (h : entryFault m k = some code) :
    ((List.range n).findSome? fun j => (entryFault m j).map fun c => (c, some j)) = some (code, some k) := by
  have hn : n = k + (n - k) := by omega
  rw [hn, List.range_add, List.findSome?_append, List.findSome?_eq_none_iff.mpr]
  · rw [show n - k = (n - k - 1) + 1 by omega, List.range_succ_eq_map]
    simp [h]
  · intro j hj
    rw [hbefore j (List.mem_range.mp hj)]; rfl

/-! ## A good plan -/

/-- A good plan passes test 1. -/
theorem planMarked_of_good {m : WordStore} (h : planCheck m = none) : planMarked m = true := by
  by_contra g
  simp [planCheck, headerFault, Bool.eq_false_iff.mpr g] at h

/-- Every entry of a good plan passes tests 5 and 6. -/
theorem entryFault_of_good {m : WordStore} (h : planCheck m = none) {k : Nat} (hk : k < planCount m) : entryFault m k = none := by
  unfold planCheck at h
  split at h
  · cases h
  · split_ifs at h
    simpa using List.findSome?_eq_none_iff.mp h k (List.mem_range.mpr hk)

/-- The figures of a good plan are its header words whole (table 11-6). -/
theorem planOf_good {m : WordStore} (h : planCheck m = none) :
    planOf m = { count := (m.read 1).toNat, rate := (m.read 2).toNat, presence := (m.read 3).toNat,
                 lostTimeout := 8 * (m.read 4).toNat, refresh := (m.read 5).toNat, check := m.read 7 } := by
  obtain ⟨_, h2, h3, h4, h5, _⟩ := (planMarked_iff m).mp (planMarked_of_good h)
  simp only [planOf, planCount, bitField, Plan.mk.injEq, true_and, and_true]
  norm_num only
  omega

end Sys2Proof.Laws
end

