-- ==== Sys2Proof/Laws/PlanPort.lean ====
section
/-! SUPPORT. The plan memory port: the clocks of instruction and address, the bits of a word, a word formed, and all that a plan read
changes. -/

namespace Sys2Proof.Laws

open Sys2Proof.Machine

/-- The port sends 24 bits. -/
theorem readCommand_length : readCommand.length = 24 := rfl

@[simp] theorem portBits_length (b : Byte) : (portBits b).length = 8 := by simp [portBits]

/-- Two bytes taken in form their word, the first high. -/
theorem portWord_portBits (high low : Byte) : portWord (portBits high ++ portBits low) = wordOf high low := by
  have key : ∀ b : Byte, ∀ n : Nat, (portBits b).foldl (fun n bit => 2 * n + bit.toNat) n = 256 * n + b.toNat := by
    intro b n
    have h : ∀ b : Byte, (portBits b).foldl (fun n bit => 2 * n + bit.toNat) 0 = b.toNat := by decide +kernel
    have g : ∀ (bits : List Bool) (n : Nat), bits.foldl (fun n bit => 2 * n + bit.toNat) n =
        2 ^ bits.length * n + bits.foldl (fun n bit => 2 * n + bit.toNat) 0 := by
      intro bits
      induction bits with
      | nil => intro n; simp
      | cons bit rest ih =>
        intro n
        rw [List.foldl_cons, List.foldl_cons, ih, ih (2 * 0 + bit.toNat), List.length_cons, pow_succ]
        ring
    rw [g, h, portBits_length]
    norm_num
  apply BitVec.eq_of_toNat_eq
  rw [portWord, List.foldl_append, key, key, wordOf, BitVec.toNat_append, BitVec.toNat_ofNat, Nat.shiftLeft_eq, Nat.mul_comm high.toNat,
    ← Nat.two_pow_add_eq_or_of_lt low.isLt high.toNat]
  have h1 := high.isLt
  have h2 := low.isLt
  omega

/-! ## Clocks -/

/-- With no read in flight the port is not clocked. -/
theorem clockPlan_none {stc : Stc} (h : stc.planRead = none) (levels : List Bool) : levels.foldl clockPlan stc = stc := by
  induction levels with
  | nil => rfl
  | cons level rest ih =>
    have h1 : clockPlan stc level = stc := by simp [clockPlan, h]
    rw [List.foldl_cons, h1, ih]

/-- One clock of a read in flight. -/
theorem clockPlan_some {stc : Stc} {n : Nat} {shift : List Bool} (h : stc.planRead = some { clocks := n, shift := shift })
    (level : Bool) :
    clockPlan stc level =
      if n < 24 then { stc with planRead := some { clocks := n + 1, shift := shift } }
      else if shift.length + 1 < 16 then { stc with planRead := some { clocks := n + 1, shift := shift ++ [level] } }
      else takePlanWord ((n - 24) / 16) (portWord (shift ++ [level])) { clocks := n + 1, shift := [] } stc := by
  have hl : (shift ++ [level]).length = shift.length + 1 := by rw [List.length_append, List.length_singleton]
  rw [← hl]
  unfold clockPlan
  rw [h]
  rfl

/-- The clocks of instruction and address take nothing in. -/
theorem clockPlan_command {stc : Stc} {n : Nat} {shift : List Bool} (h : stc.planRead = some { clocks := n, shift := shift })
    (levels : List Bool) (hn : n + levels.length ≤ 24) :
    levels.foldl clockPlan stc = { stc with planRead := some { clocks := n + levels.length, shift := shift } } := by
  induction levels generalizing n stc with
  | nil => rw [List.foldl_nil, List.length_nil, Nat.add_zero, ← h]
  | cons level rest ih =>
    rw [List.length_cons] at hn
    have h1 : clockPlan stc level = { stc with planRead := some { clocks := n + 1, shift := shift } } := by
      rw [clockPlan_some h, if_pos (by omega)]
    rw [List.foldl_cons, h1, ih rfl (by omega), List.length_cons]
    congr 3
    omega

/-- Bits short of a word are kept. -/
theorem clockPlan_bits {stc : Stc} {n : Nat} {shift : List Bool} (h : stc.planRead = some { clocks := n, shift := shift })
    (hn : 24 ≤ n) (levels : List Bool) (hl : shift.length + levels.length < 16) :
    levels.foldl clockPlan stc = { stc with planRead := some { clocks := n + levels.length, shift := shift ++ levels } } := by
  induction levels generalizing n stc shift with
  | nil => rw [List.foldl_nil, List.length_nil, Nat.add_zero, List.append_nil, ← h]
  | cons level rest ih =>
    rw [List.length_cons] at hl
    have h1 : clockPlan stc level = { stc with planRead := some { clocks := n + 1, shift := shift ++ [level] } } := by
      rw [clockPlan_some h, if_neg (by omega), if_pos (by omega)]
    rw [List.foldl_cons, h1, ih rfl (by omega) (by rw [List.length_append, List.length_singleton]; omega), List.length_cons,
      List.append_assoc, List.singleton_append]
    congr 3
    omega

/-- The 16th bit of word `k` forms the word. -/
theorem clockPlan_word {stc : Stc} {k : Nat} (h : stc.planRead = some { clocks := 24 + 16 * k, shift := [] }) {levels : List Bool}
    (hl : levels.length = 16) :
    levels.foldl clockPlan stc = takePlanWord k (portWord levels) { clocks := 24 + 16 * (k + 1), shift := [] } stc := by
  obtain ⟨bits, last, rfl⟩ : ∃ bits last, levels = bits ++ [last] := by
    rcases List.eq_nil_or_concat levels with rfl | ⟨bits, last, rfl⟩
    · simp at hl
    · exact ⟨bits, last, by rw [List.concat_eq_append]⟩
  rw [List.length_append, List.length_singleton] at hl
  rw [List.foldl_append, clockPlan_bits h (by omega) bits (by rw [List.length_nil]; omega), List.foldl_cons, List.foldl_nil]
  rw [clockPlan_some rfl, List.nil_append, if_neg (by omega), if_neg (by omega), show (24 + 16 * k + bits.length - 24) / 16 = k by omega,
    show 24 + 16 * k + bits.length + 1 = 24 + 16 * (k + 1) by omega]
  rfl

/-! ## Words -/

/-- All that a word can do: it is written within the window, and the read goes on, or stops at a bad header, or ends with the check
begun. -/
theorem takePlanWord_cases (k : Nat) (value : Word) (next : PlanRead) (stc : Stc) :
    ∃ window, window = (if k < 1032 then stc.window.write k value else stc.window) ∧
      (takePlanWord k value next stc = { stc with window := window, planRead := some next } ∨
        (∃ code, takePlanWord k value next stc =
          { stc with window := window, station := .planFault, faultCode := code, faultEntry := none, planRead := none }) ∨
        takePlanWord k value next stc = { stc with window := window, planRead := none, checking := true }) := by
  refine ⟨_, rfl, ?_⟩
  unfold takePlanWord
  simp only
  generalize (if k < 1032 then stc.window.write k value else stc.window) = window
  split
  · exact Or.inl rfl
  · split
    · exact Or.inr (Or.inl ⟨_, rfl⟩)
    · split
      · exact Or.inr (Or.inr rfl)
      · exact Or.inl rfl

/-- Word 7 with a bad header stops the read (step 3 of R156, R157). -/
theorem takePlanWord_badHeader {value : Word} {stc : Stc} {code : PlanFault} (h : headerFault (stc.window.write 7 value) = some code)
    (next : PlanRead) :
    takePlanWord 7 value next stc =
      { stc with
        window := stc.window.write 7 value, station := .planFault, faultCode := code, faultEntry := none, planRead := none } := by
  unfold takePlanWord
  simp [h]

/-- A word of the header before the last is written, and the read goes on. -/
theorem takePlanWord_header {k : Nat} (h : k < 7) (value : Word) (next : PlanRead) (stc : Stc) :
    takePlanWord k value next stc = { stc with window := stc.window.write k value, planRead := some next } := by
  unfold takePlanWord
  simp only
  rw [if_pos h, if_pos (show k < 1032 by omega)]

/-- With a good header a word is written, and the last entry word ends the read and begins the check (step 5 of R156). -/
theorem takePlanWord_goodHeader {k : Nat} {value : Word} {stc : Stc} (h7 : 7 ≤ k) (hk : k < 1032)
    (h : k = 7 → headerFault (stc.window.write k value) = none) (next : PlanRead) :
    takePlanWord k value next stc =
      if 7 + 2 * planCount (stc.window.write k value) ≤ k then
        { stc with window := stc.window.write k value, planRead := none, checking := true }
      else { stc with window := stc.window.write k value, planRead := some next } := by
  unfold takePlanWord
  simp only
  rw [if_pos hk, if_neg (show ¬k < 7 by omega)]
  by_cases e : k = 7
  · rw [if_pos e, h e]
  · rw [if_neg e]

/-! ## What a plan read changes -/

/-- All that a clock can do: nothing but the port's own state, or a word. -/
theorem clockPlan_cases (stc : Stc) (level : Bool) :
    clockPlan stc level = stc ∧ stc.planRead = none ∨
      ∃ read, stc.planRead = some read ∧
        ((∃ next, clockPlan stc level = { stc with planRead := some next }) ∨
          ∃ k value next, clockPlan stc level = takePlanWord k value next stc) := by
  cases h : stc.planRead with
  | none => exact Or.inl ⟨clockPlan_none h [level], rfl⟩
  | some read =>
    refine Or.inr ⟨read, rfl, ?_⟩
    rw [clockPlan_some (n := read.clocks) (shift := read.shift) h]
    split
    · exact Or.inl ⟨_, rfl⟩
    · split
      · exact Or.inl ⟨_, rfl⟩
      · exact Or.inr ⟨_, _, _, rfl⟩

/-- What holds of the controller and is kept by a word, by a bad header and by the end of the read is kept by a plan read. -/
theorem clockPlan_keeps {P : Stc → Prop} (hnext : ∀ stc next, stc.planRead.isSome = true → P stc → P { stc with planRead := some next })
    (hwrite : ∀ stc k value, k < 1032 → stc.planRead.isSome = true → P stc → P { stc with window := stc.window.write k value })
    (hstop : ∀ stc code, stc.planRead.isSome = true → P stc →
      P { stc with station := .planFault, faultCode := code, faultEntry := none, planRead := none })
    (hend : ∀ stc, stc.planRead.isSome = true → P stc → P { stc with planRead := none, checking := true })
    (levels : List Bool) {stc : Stc} (h : P stc) : P (levels.foldl clockPlan stc) := by
  induction levels generalizing stc with
  | nil => exact h
  | cons level rest ih =>
    apply ih
    rcases clockPlan_cases stc level with ⟨e, -⟩ | ⟨read, hr, ⟨next, e⟩ | ⟨k, value, next, e⟩⟩
    · rw [e]; exact h
    · rw [e]; exact hnext stc next (by rw [hr]; rfl) h
    · obtain ⟨window, hw, c⟩ := takePlanWord_cases k value next stc
      have hs : stc.planRead.isSome = true := by rw [hr]; rfl
      have hp : P { stc with window := window } := by
        rw [hw]
        split
        · next hk => exact hwrite stc k value hk hs h
        · exact h
      rw [e]
      rcases c with c | ⟨code, c⟩ | c
      · rw [c]; exact hnext { stc with window := window } next hs hp
      · rw [c]; exact hstop { stc with window := window } code hs hp
      · rw [c]; exact hend { stc with window := window } hs hp

/-- A plan read keeps the window in canonical form. -/
theorem clockPlan_wf (levels : List Bool) {stc : Stc} (h : stc.window.wf 1032 = true) :
    (levels.foldl clockPlan stc).window.wf 1032 = true :=
  clockPlan_keeps (P := fun stc => stc.window.wf 1032 = true) (fun _ _ _ h => h) (fun _ _ value hk _ h => write_wf value h hk)
    (fun _ _ _ h => h) (fun _ _ h => h) levels h

/-- A plan read changes the read itself, the window, the station with its plan fault, and the check in flight, and nothing else. -/
theorem clockPlan_only (levels : List Bool) (stc : Stc) :
    ∃ planRead window station faultCode faultEntry checking, levels.foldl clockPlan stc =
      { stc with
        planRead := planRead, window := window, station := station, faultCode := faultCode, faultEntry := faultEntry,
        checking := checking } := by
  refine clockPlan_keeps (P := fun t => ∃ planRead window station faultCode faultEntry checking, t =
    { stc with
      planRead := planRead, window := window, station := station, faultCode := faultCode, faultEntry := faultEntry,
      checking := checking }) ?_ ?_ ?_ ?_ levels ⟨_, _, _, _, _, _, rfl⟩
  · rintro _ next - ⟨_, _, _, _, _, _, rfl⟩; exact ⟨_, _, _, _, _, _, rfl⟩
  · rintro _ k value - - ⟨_, _, _, _, _, _, rfl⟩; exact ⟨_, _, _, _, _, _, rfl⟩
  · rintro _ code - ⟨_, _, _, _, _, _, rfl⟩; exact ⟨_, _, _, _, _, _, rfl⟩
  · rintro _ - ⟨_, _, _, _, _, _, rfl⟩; exact ⟨_, _, _, _, _, _, rfl⟩

end Sys2Proof.Laws
end

