-- ==== Sys2Proof/Tests/Slice0.lean ====
section
/-! SUPPORT. The author's tests: ill-formed commands refused, the formats' worked examples, and, for every statement of
Certificates/Slice0/Obligations.lean that has hypotheses, a state and operands that meet them together, clause by clause. -/

namespace Sys2Proof.Tests

open Sys2Proof.Machine

-- Every test waits for the kernel; tests elaborated at once would need a thread each.
set_option Elab.async false

/-! ## A small station to test on -/

/-- The state a command leaves. -/
def after (c : Instr) (s : State) : State :=
  match exec c s with
  | .next t => t
  | .fault _ => s
  | .refused _ => s

def part (version : Version) (value : List Word) : Part := { version := version, value := value }

def itemPlan (item : ItemNo) (owner : Station) (length : Nat) (kind : ItemKind) (gate : Option Group) : ItemPlan :=
  { item := item, owner := owner, length := length, kind := kind, gate := gate }

/-- An item of this station, LOCAL. -/
def ownItem (item : ItemNo) (length : Nat) (kind : ItemKind) (gate : Option Group) (visible pending : Option Part) : Item :=
  { plan := itemPlan item 0 length kind gate, condition := .ownLocal, visiblePart := visible, pendingPart := pending,
    baselineOpen := false, owned := some { clashMark := true, lastIssued := 3 }, stream := none }

/-- An item of another station, CURRENT. -/
def otherItem (item : ItemNo) (owner : Station) (length : Nat) (kind : ItemKind) (gate : Option Group)
    (visible pending : Option Part) : Item :=
  { plan := itemPlan item owner length kind gate, condition := .current, visiblePart := visible, pendingPart := pending,
    baselineOpen := false, owned := none,
    stream := if kind = .stream then some { lastQueued := some 2, firstOwed := false } else none }

/-- Three items of station 0 in slots 0 to 2, three of station 1 in slots 3 to 5, one of station 2 in slot 6. -/
def table : List Item :=
  [ownItem 5 1 .state none (some (part 3 [10])) none, ownItem 6 2 .state (some 1) (some (part 2 [1, 2])) (some (part 3 [3, 4])),
    ownItem 7 1 .stream none (some (part 3 [5])) none, otherItem 9 1 1 .state none (some (part 2 [7])) none,
    otherItem 10 1 2 .state (some 1) none (some (part 2 [8, 9])), otherItem 11 1 1 .stream none (some (part 2 [6])) none,
    otherItem 12 2 1 .state none (some (part 2 [6])) none]

def presentPeer : Peer := { state := .present, expected := some 5, agreement := .agrees, timeLeft := some 24 }

/-- Station 0 ACTIVE with a free IMU, an idle transmitter and a quiet line; station 1 PRESENT; every notify bit of the table set. -/
def active : State :=
  { State.reset with
    lrx := { line := .quiet, assembly := .idle, queue := [] }
    lau := { State.reset.lau with transmitter := .idle, lastCompleted := some 7 }
    imu := { State.reset.imu with items := table, heldGate := State.reset.imu.heldGate.set 1 (some 4) }
    pmn := { peers := State.reset.pmn.peers.set 1 presentPeer }
    tsc := { State.reset.tsc with refreshTimer := .running 1, presenceTimer := .running 10 }
    stc :=
      { State.reset.stc with
        station := .active, planRead := none
        plan := some { count := 7, rate := 0, presence := 10, lostTimeout := 24, refresh := 1, check := 0x1234 } }
    hpt := { State.reset.hpt with notify := [(0, 0x7F)] } }

/-- The IMU comes to a frame. -/
def withFrame (f : Frame) (s : State) : State := { s with lrx.queue := [f] }

def frame (mark : Mark) (sender : Station) (sequence : Byte) (first : Bool) (body : Body) : Frame :=
  { mark := mark, sender := sender, sequence := sequence, first := first, body := body }

def record (item : ItemNo) (version : Version) (value : List Word) : Record := { item := item, version := version, value := value }

def reqFrame (body : TxBody) : TxFrame := { source := .req, sender := 0, first := false, refresh := false, body := body }

def presence (first : Bool) : TxFrame := { source := .presence, sender := 0, first := first, refresh := false, body := .presence 0x1234 }

/-- A collision of the twelfth attempt of `f`, alone in the queue, the refresh frame or the REQ's taken first. -/
def abandoned (f : TxFrame) (refreshFirst : Bool) (s : State) : State :=
  abandonHead f [] refreshFirst (countUp .collisions { driverOff s with freeCount := s.freeCount + 1 })

/-- A slot in progress whose one frame has been built. -/
def lastFrameOut (halted : Bool) (lost : Nat) : SlotWork :=
  { todo := [], gate := none, offset := 1, frames := 1, outstanding := 1, lost := lost, halted := halted }

/-- An attempt of the head frame `f`, its `n`-th. -/
def sending (f : TxFrame) (n : Nat) : State :=
  { active with
    lrx.assembly := .own, lrx.line := .busy
    lau := { active.lau with
      queue := [f], transmitter := .send, attempts := n, attempt := some (sentFrame active false f), driver := true, guard := true } }

/-- Request slot 0 with the given words 0 to 4, under process state STOPPED. -/
def withSlot (words : List (Nat × Word)) (s : State) : State := { s with req.ring := words }

/-- A PUBLISH of items 5 and 6, KIND 1, offset 0. -/
def publishSlot : List (Nat × Word) := [(0, 0x8001), (1, 5), (2, 2)]

/-- A STREAM of two values of item 7. -/
def streamSlot : List (Nat × Word) := [(0, 0x8002), (1, 7), (2, 2), (3, 1022)]

/-- A GATE of group 3. -/
def gateSlot : List (Nat × Word) := [(0, 0x8003), (4, 3)]

/-- A station in PLAN_WAIT. -/
def waiting : State := { State.reset with stc := { State.reset.stc with station := .planWait, planRead := none } }

/-- A plan of two items, one of them a stream: the words of its window. -/
def planWords : List Word :=
  [0x7A41, 2, 0, 10, 3, 1, 0, 0x848C, 0x0051, 0, 0x0091, 0x0041]

/-- The bytes of that plan in plan memory. -/
def planBytes : List Byte := planWords.flatMap wordBytes

/-- The levels on the data input in a plan read of memory with these bytes, undriven through instruction and address. -/
def planLevels (bytes : List Byte) : List Bool := List.replicate 24 true ++ bytes.flatMap portBits

/-- The plan in the window. -/
def planWindow (words : List Word) : WordStore := words.zipIdx.foldl (fun m (w, k) => m.write k w) []

/-- Bytes as heard behind a start pattern. -/
def heardBytes (bytes : List Byte) : Heard := { before := true, cells := encodeCells true (bytes.flatMap byteBits) }

/-- A frame as heard behind its start pattern. -/
def heardFrame (sender : Station) (sequence : Byte) (first refresh : Bool) (body : Body) : Heard :=
  let bytes := frameBytes sender sequence first refresh body
  heardBytes (bytes ++ wordBytes (crc bytes))

/-- The byte at which each record of a frame starts. -/
def recordStart (bytes : List Byte) : Nat → Nat
  | 0 => 4
  | j + 1 => recordStart bytes j + 4 + 2 * ((bytes.getD (recordStart bytes j + 1) 0).toNat % 16)

/-! ## Syntax and formats -/

/-- A write to the control word is not HOST_REGISTER_WRITE, nor is one to the last word of the plan window. -/
theorem test_wellFormed_registerWrite : (Instr.hostRegisterWrite 0x3005 1).wellFormed = false ∧
    (Instr.hostRegisterWrite 0x2C07 1).wellFormed = false ∧ (Instr.hostRegisterWrite 0x300C 1).wellFormed = true := by decide

/-- A plan read takes 24 clocks and 8 for each of at most 2064 bytes. -/
theorem test_wellFormed_planReadEnd : (Instr.planReadEnd (List.replicate 16537 true)).wellFormed = false ∧
    (Instr.planReadEnd (List.replicate 16536 true)).wellFormed = true := by decide +kernel

/-- The table gives no row any bits, so a word spells no command. -/
theorem test_no_word_spells_a_command : ∀ nbits w, decodeTableWord nbits w = none ∧
    State.reset.withFetchWord nbits w = State.reset := fun _ _ => ⟨rfl, rfl⟩

/-- The check of the nine bytes 0x31 to 0x39 (R68). -/
theorem test_crc_example : crc [0x31, 0x32, 0x33, 0x34, 0x35, 0x36, 0x37, 0x38, 0x39] = 0x29B1 := by decide +kernel

/-- A frame as sent is accepted as heard, and a flipped bit is caught. -/
theorem test_frame_heard :
    let bytes := (sentFrame active false (presence true)).lineBytes
    acceptFrame ⟨bytes, false, false, false⟩ = some (frame .remote 0 8 true (.presence 0x1234)) ∧
      acceptFrame ⟨bytes.set 1 1, false, false, false⟩ = none := by decide +kernel

/-- The cells of a 1 and a 0 from either level, the bits of the start pattern in line order, and the cells it gives (R176). -/
theorem test_cells : encodeCells false [true, false] = [⟨true, false⟩, ⟨true, true⟩] ∧
    encodeCells true [true, false] = [⟨false, true⟩, ⟨false, false⟩] ∧
    byteBits startPattern = [true, true, false, false, true, false, true, true] ∧
    encodeCells false (byteBits startPattern) = startPatternCells := by decide

/-- The port sends 0x03, 0x00, 0x00 (R177), and 16 bits taken in form a word, first bit highest (R156). -/
theorem test_plan_port : readCommand = List.replicate 6 false ++ [true, true] ++ List.replicate 16 false ∧
    portWord (portBits 0x7A ++ portBits 0x41) = 0x7A41 := by decide

/-- The plan of `planWords` is good; with an owner of 32 its second entry is bad (table 9-4). -/
theorem test_planCheck : planCheck (planWindow planWords) = none ∧
    planCheck (planWindow ((planWords.set 7 0x846D).set 11 0x0060)) = some (.badEntry, some 1) := by decide +kernel

/-! ## States that meet the hypotheses of the statements -/

theorem test_meets_IdleStep : State.reset.pending = [] ∧ State.reset.stc.clashNotice = false ∧ active.tsc.refreshTimer = .running 1 ∧
    active.tsc.presenceTimer = .running 10 ∧ State.reset.tsc.refreshTimer = .stopped ∧
    (idleTick active).tsc.refreshTimer = .running 0 ∧ (peerOf (idleTick active) 1).timeLeft = some 23 := by decide +kernel

theorem test_meets_Resets : (after .powerOnReset active).stc.inReset = true ∧ (after .powerOnReset active).stc.planRead = none ∧
    AtResetValues 0 (after .powerOnReset active) ∧ isReset .kick = false ∧ isReset (.lostTimerExpiry 1) = false ∧ portFree active := by
  unfold AtResetValues portFree; decide +kernel

theorem test_meets_HostAccessesDuringReset : (after .pinReset active).stc.inReset = true ∧ (after .pinReset active).hpt.held = none ∧
    isHostRead .nextChange = true ∧ isHostWrite .runSet = true := by decide

theorem test_meets_WindowAfterReset : AtResetValues 0 State.reset ∧ State.reset.stc.inReset = false := by
  unfold AtResetValues; decide +kernel

/-- A sample with a GAP and one without, the peer view of the own and of a PRESENT station, the status words, a gate sequence. -/
theorem test_meets_Views :
    let e : Sample := { item := 11, sender := 31, version := 9, value := [6, 7], gap := some 255, first := false }
    let s := { active with stu.queue := [e, { e with gap := none, first := true }], req.process := .running, req.cursor := 15 }
    s.stc.inReset = false ∧ s.stu.queue.length ≤ 256 ∧ e.value.length ≤ 8 ∧ windowWord s 0x24A0 = 0xBF02 ∧
      windowWord s 0x24A1 = 2 ∧ windowWord s 0x24A4 = 255 ∧ windowWord s 0x24A9 = 7 ∧ windowWord s 0x24AF = 0 ∧
      windowWord (after .sampleTake s) 0x24A0 = 0xDF02 ∧ active.stu.queue = [] ∧ (peerOf s 1).timeLeft.getD 0 ≤ 2040 ∧
      windowWord s 0x24C2 = 0x0585 ∧ windowWord s 0x24C3 = 24 ∧ windowWord s 0x3000 = 0x1004 ∧ windowWord s 0x3001 = 0xFFFF ∧
      windowWord s 0x3003 = 0xF000 ∧ windowWord s 0x3019 = 0x8004 ∧ windowWord s 0x301A = 0 := by decide +kernel

/-- The edges of the ranges that read 0 after a reset. -/
theorem test_window_edges : windowWord State.reset 0x24BF = 0 ∧ windowWord State.reset 0x24C0 = 3 ∧
    windowWord State.reset 0x24FF = 0 ∧ windowWord State.reset 0x2C07 = 0 ∧ windowWord State.reset 0x3008 = 0 ∧
    windowWord State.reset 0x301F = 0 := by decide +kernel

/-- Both ends of the regions that show stored words, the counters with OVERFLOW, a live item view beside a latched one, and the edges of
the unmapped words. -/
theorem test_meets_Reads :
    let s := { after (.itemViewWord0Read 3) active with
      stc.window := [(0, 1), (1031, 2)], hpt.staging := [(0, 3), (1023, 4)], req.ring := [(0, 5), (127, 6)], hpt.notify := [(0, 7), (31, 8)]
      imu.changes := [9, 5], imu.items := table.set 3 (otherItem 9 1 1 .state none (some (part 4 [8])) none)
      hpt.counters := (active.hpt.counters.set { count := 1, overflow := true } .framesSent).set
        { count := 2, overflow := false } .missedGates }
    s.stc.inReset = false ∧
      [0x2800, 0x2C07, 0x2000, 0x23FF, 0x2400, 0x247F, 0x2480, 0x249F].map (windowWord s) = [1, 2, 3, 4, 5, 6, 7, 8] ∧
      [2, 3, 499, 511].map (notifyBit s) = [true, false, true, false] ∧
      s.hpt.latch.slot = some 3 ∧ windowWord s 0x33 = 2 ∧ windowWord s 0x30 = itemViewWord s 3 0 ∧
      windowWord s 0x43 = itemViewWord s 4 3 ∧ windowWord s 0x3007 = 9 ∧ windowWord s 0x3010 = 0x8001 ∧ windowWord s 0x3017 = 2 ∧
      [0x24B0, 0x24BF, 0x2500, 0x27FF, 0x2C08, 0x2FFF, 0x300F, 0x301C, 0xFFFF].map (windowWord s) = List.replicate 9 0 := by
  decide +kernel

/-- The clauses of RunSetAndClear in turn: RUNNING; not running with no slot, before JOINING and in ACTIVE; a halted slot. -/
theorem test_meets_RunSetAndClear : portFree active ∧ active.req.process = .stopped ∧ active.req.slot = none ∧
    examines active = true ∧ examines waiting = false ∧ (cursorCopy active).stationOwned = false ∧
    (after .runSet active).req.process = .suspended ∧ (after .runSet waiting).req.process = .running ∧
    (after .runClear { active with req.process := .running }).req.process = .stopped ∧
    (after .runClear { active with req.process := .running, req.slot := some (lastFrameOut false 0) }).req.slot =
      some (lastFrameOut true 0) ∧
    (after .runSet { active with req.slot := some (lastFrameOut true 0) }).req.process = .running := by
  unfold portFree; decide +kernel

theorem test_meets_KickReexamines : portFree (after .runSet active) ∧ (after .runSet active).req.process = .suspended ∧
    examines (after .runSet active) = true ∧ (after .runSet active).req.slot = none ∧
    (cursorCopy (after .runSet active)).stationOwned = false ∧ active.req.process ≠ .suspended := by
  unfold portFree; decide +kernel

/-- The status that each check of table 6-3 gives, at the edge of the check. -/
theorem test_meets_SlotChecksInOrder :
    let check := fun words => slotCheck active (cursorCopy (withSlot words active))
    check [(0, 0x8004)] = some .badKind ∧ check [(0, 0x8003), (4, 4)] = some .badGroup ∧ check gateSlot = none ∧
      check [(0, 0x8001), (1, 5)] = some .badCount ∧ check [(0, 0x8001), (1, 5), (2, 257)] = some .badCount ∧
      check [(0, 0x8001), (1, 4094), (2, 3)] = some .range ∧ check [(0, 0x8101), (1, 1), (2, 3)] = some .range ∧
      check [(0, 0x8001), (1, 7), (2, 2)] = some .unknownItem ∧ check [(0, 0x8001), (1, 9), (2, 1)] = some .notOwned ∧
      check [(0, 0x8002), (1, 5), (2, 1)] = some .wrongKind ∧ check [(0, 0x8002), (1, 7), (2, 65)] = some .badCount ∧
      check [(0, 0x8002), (1, 7), (2, 2), (3, 1023)] = some .badOffset ∧ check streamSlot = none ∧ check publishSlot = none := by
  decide +kernel

/-- The items named with STEP +1 and −1, by STREAM and by GATE, the staging words used by each, the last word of staging used, and the
fields of a slot whose every bit is set, in the last slot of the ring. -/
theorem test_meets_SlotNames :
    let copy := fun words => cursorCopy (withSlot words active)
    let full := cursorCopy { active with req.ring := (List.range 8).map fun w => (120 + w, 0xFFFF), req.cursor := 15 }
    namedItems (copy publishSlot) = [5, 6] ∧ namedItems (copy [(0, 0x8101), (1, 1), (2, 3)]) = [1, 0, -1] ∧
      namedItems (copy streamSlot) = [7] ∧ namedItems (copy gateSlot) = [] ∧ namedSlots active (copy publishSlot) = [0, 1] ∧
      stagingUsed active (copy publishSlot) = 3 ∧ stagingUsed active (copy streamSlot) = 2 ∧
      slotCheck active (copy (publishSlot ++ [(3, 1021)])) = none ∧
      slotCheck active (copy (publishSlot ++ [(3, 1022)])) = some .badOffset ∧
      full = { stationOwned := true, stepDown := true, kind := none, item := 65535, count := 65535, offset := 65535, group := 65535 } := by
  decide +kernel

/-- A refused slot in ACTIVE, and a valid one in MUTED. -/
theorem test_meets_RefusedOrSilentSlot :
    let s := withSlot [(0, 0x8003), (4, 4)] active
    let m := withSlot gateSlot { active with stc.station := .muted }
    (portFree s ∧ StoresCanonical s ∧ s.req.slot = none ∧ examines s = true ∧ s.req.process ≠ .running ∧
      (cursorCopy s).stationOwned = true ∧ NextSlotHostOwned s ∧ slotCheck s (cursorCopy s) = some .badGroup) ∧
    portFree m ∧ StoresCanonical m ∧ m.req.slot = none ∧ examines m = true ∧ m.req.process ≠ .running ∧
      (cursorCopy m).stationOwned = true ∧ NextSlotHostOwned m ∧ slotCheck m (cursorCopy m) = none ∧ m.stc.station = .muted ∧
      ringWord (after .runSet m) 0 5 = 4 ∧ ringWord (after .runSet m) 0 6 = 1 := by
  unfold portFree StoresCanonical NextSlotHostOwned; decide +kernel

/-- A refused slot in front of another refused one, and of 15 more; and two valid ones in MUTED. -/
theorem test_meets_SlotsInARow :
    let refused : List (Nat × Word) := (List.range 16).flatMap fun k => [(8 * k, 0x8003), (8 * k + 4, 4)]
    let all := after .runSet (withSlot refused active)
    let both := after .runSet (withSlot (refused.take 4) active)
    let silent := after .runSet (withSlot [(0, 0x8003), (4, 3), (8, 0x8002), (9, 7), (10, 2)] { active with stc.station := .muted })
    StoresCanonical (withSlot refused active) ∧ (cursorCopy (cursorOn (withSlot refused active) 15)).stationOwned = true ∧
      slotCheck active (cursorCopy (cursorOn (withSlot refused active) 15)) = some .badGroup ∧
      (List.range 16).map (fun k => (ringWord all k 0, ringWord all k 5)) = List.replicate 16 (3, 6) ∧
      (all.req.cursor, all.req.process) = (0, .suspended) ∧
      [ringWord both 0 5, ringWord both 1 5] = [6, 6] ∧ (both.req.cursor, both.req.process) = (2, .suspended) ∧
      [ringWord silent 0 5, ringWord silent 1 5] = [4, 4] ∧ (silent.req.cursor, silent.req.process) = (2, .suspended) := by
  unfold StoresCanonical; decide +kernel

/-- A refused slot in front of a valid GATE slot, which is then in progress. -/
theorem test_meets_SlotBehindRefused :
    let s := withSlot [(0, 0x8003), (4, 4), (8, 0x8003), (12, 3)] active
    let t := after .runSet s
    (ringWord t 0 5, ringWord t 1 0) = (6, 0x8003) ∧ SlotStarted (cursorOn s 1) t := by
  intro s t
  have work : t.req = { t.req with cursor := 1, process := .running, slot := some { lastFrameOut false 0 with offset := 0 } } ∧
      t.imu.items = table ∧ t.lau.queue = [reqFrame (.gate 3)] ∧
      (cursorCopy (cursorOn s 1)).kind = some .gate ∧ (cursorCopy (cursorOn s 1)).group = 3 ∧
      (ringWord t 0 5, ringWord t 1 0) = (6, 0x8003) := by decide +kernel
  obtain ⟨hreq, hitems, hqueue, hkind, hgroup, hwords⟩ := work
  refine ⟨hwords, by rw [hreq]; rfl, by rw [hreq], _, by rw [hreq], Nat.le_refl 1, rfl, rfl, rfl, fun g _ hg => ?_, fun h => absurd hkind h⟩
  rw [hgroup] at hg
  obtain rfl : g = 3 := Fin.ext hg.symm
  exact ⟨rfl, rfl, hitems, _, rfl, Or.inl (hqueue ▸ List.mem_singleton_self _)⟩

theorem test_meets_GateRequest :
    let s := withSlot gateSlot active
    portFree s ∧ s.stc.station = .active ∧ s.stc.straps.listen = false ∧ s.req.slot = none ∧ s.lau.reqOffer = none ∧
      s.req.process ≠ .running ∧ (cursorCopy s).stationOwned = true ∧ (cursorCopy s).kind = some .gate ∧
      (cursorCopy s).group = (3 : Group).val ∧ (after .runSet s).lau.queue = [reqFrame (.gate 3)] := by
  unfold portFree; decide +kernel

/-- A frame admitted into an empty queue by RUN_SET or KICK, or a PRESENCE frame at its timer's expiry, takes the transmitter out of IDLE on
a QUIET line and on a BUSY one; with the receive queue full it stays. -/
theorem test_meets_IdleLeftAtAdmission :
    let quiet := withSlot gateSlot active
    let s := fun line rx => ({ quiet with lrx.line := line, lrx.queue := rx } : State)
    let full := List.replicate 4 (frame .remote 1 5 false (.presence 0x1234))
    let moves := fun c (t : State) => (t.lau.transmitter, (after c t).lau.queue.length, (after c t).lau.transmitter)
    let suspended := fun t : State => ({ t with req.process := .suspended } : State)
    portFree quiet ∧ examines quiet = true ∧
      [moves .runSet (s .quiet []), moves .runSet (s .busy []), moves .runSet (s .quiet full)] =
        [(.idle, 1, .gap), (.idle, 1, .defer), (.idle, 1, .idle)] ∧
      [moves .kick (suspended (s .quiet [])), moves .kick (suspended (s .busy []))] = [(.idle, 1, .gap), (.idle, 1, .defer)] ∧
      [moves .presenceTimerExpiry (s .quiet []), moves .presenceTimerExpiry (s .busy [])] =
        [(.idle, 1, .gap), (.idle, 1, .defer)] := by
  unfold portFree; decide +kernel

theorem test_meets_BuiltRecords : table[2]? = some (ownItem 7 1 .stream none (some (part 3 [5])) none) ∧
    (ownItem 7 1 .stream none (some (part 3 [5])) none).owned = some { clashMark := true, lastIssued := 3 } ∧
    (buildRecords [(0, 8)] [2, 2] table 0).1 = [record 7 4 [8], record 7 5 [0]] := by decide +kernel

/-- A PUBLISH and a STREAM request. -/
theorem test_meets_UpdateRequest :
    let s := withSlot publishSlot active
    let r := withSlot streamSlot active
    (portFree s ∧ s.stc.station = .active ∧ s.stc.straps.listen = false ∧ s.req.slot = none ∧ s.lau.reqOffer = none ∧
      s.req.process ≠ .running ∧ (cursorCopy s).stationOwned = true ∧ (cursorCopy s).kind = some .publish ∧
      slotCheck s (cursorCopy s) = none ∧
      (after .runSet s).lau.queue = [reqFrame (.update [record 5 4 [0], record 6 4 [0, 0]])]) ∧
    portFree r ∧ r.req.slot = none ∧ (cursorCopy r).kind = some .stream ∧ slotCheck r (cursorCopy r) = none ∧
      (after .runSet r).lau.queue = [reqFrame (.update [record 7 4 [0], record 7 5 [0]])] := by
  unfold portFree; decide +kernel

/-- A STREAM of 20 values: three frames, all admitted; of 40: three admitted and a fourth that waits; and its records so far. -/
theorem test_meets_BuiltFrames :
    let run := fun n : Nat => after .runSet (withSlot [(0, 0x8002), (1, 7), (2, BitVec.ofNat 16 n)] active)
    let work : SlotWork :=
      { todo := List.replicate 40 2, gate := none, offset := 0, frames := 0, outstanding := 0, lost := 0, halted := false }
    BuiltFrames active (run 40) work { work with todo := List.replicate 8 2, offset := 32, frames := 4, outstanding := 4 } 4 ∧
      (run 40).lau.queue.length = 3 ∧ (run 40).lau.reqOffer.isSome = true ∧
      (run 40).imu.items.map (fun it => it.owned.map OwnedFields.lastIssued) = [some 3, some 3, some 35, none, none, none, none] ∧
      (run 20).req.slot.map SlotWork.frames = some 3 ∧ (run 20).lau.reqOffer = none := by
  unfold BuiltFrames; decide +kernel

/-- A slot in progress with 10 items' records left, where a frame of its own completes and where one is abandoned, with no offer waiting
and with one; and one behind which the queue stays full of the REQ's frames. -/
theorem test_meets_NextFrames :
    let f := reqFrame (.update [record 7 4 [1]])
    let w : SlotWork :=
      { todo := List.replicate 10 2, gate := none, offset := 1, frames := 1, outstanding := 1, lost := 0, halted := false }
    let s := fun n => ({ sending f n with req.slot := some w } : State)
    let o := fun n => ({ s n with req.slot := some { w with frames := 2, outstanding := 2 }, lau.reqOffer := some f } : State)
    (s 1).lau.transmitter = .send ∧ (s 1).lau.queue = [f] ∧ (s 1).lau.attempt = some (sentFrame active false f) ∧
      (s 1).stc.station = .active ∧ f.source = .req ∧ 12 ≤ (s 12).lau.attempts ∧
      sensesDifference ((sentFrame active false f).cells ++ []) [⟨false, false⟩] = true ∧
      BuiltFrames (s 1) (after .attemptComplete (s 1)) { w with outstanding := 0 }
        { w with todo := [], offset := 11, frames := 3, outstanding := 2 } 2 ∧
      BuiltFrames (o 1) (after .attemptComplete (o 1)) { w with frames := 2, outstanding := 1 }
        { w with todo := [], offset := 11, frames := 4, outstanding := 3 } 2 ∧
      f ∈ (after .attemptComplete (o 1)).lau.queue ∧
      (∀ b, BuiltFrames (s 12) (abandoned f b (s 12)) { w with outstanding := 0, lost := 1 }
        { w with todo := [], offset := 11, frames := 3, outstanding := 2, lost := 1 } 2) ∧
      (let full := { sending (presence false) 1 with
        lau.queue := [presence false, f, f, f], lau.reqOffer := some f, req.slot := some { w with frames := 5, outstanding := 4 } }
      (after .attemptComplete full).req = full.req ∧ (after .attemptComplete full).lau.reqOffer = some f) := by
  unfold BuiltFrames; decide +kernel

theorem test_meets_LastOutcome :
    let f := reqFrame (.gate 3)
    let s := withSlot gateSlot { sending f 1 with req.slot := some (lastFrameOut false 1), req.process := .running }
    let c := withSlot gateSlot { sending f 12 with req.slot := some (lastFrameOut false 0), req.process := .running }
    StoresCanonical s ∧ s.lau.transmitter = .send ∧ s.lau.queue = [f] ∧ s.lau.attempt = some (sentFrame active false f) ∧
      f.source = .req ∧ s.req.slot = some (lastFrameOut false 1) ∧ examines s = true ∧ NextSlotHostOwned s ∧
      ringWord (after .attemptComplete s) 0 5 = 0x0102 ∧ (after .attemptComplete s).req.process = .suspended ∧
      sensesDifference ((sentFrame active false f).cells ++ []) [⟨false, false⟩] = true ∧ 12 ≤ c.lau.attempts ∧
      ∀ b, ringWord (abandoned f b c) 0 5 = 0x0102 ∧ ringWord (abandoned f b c) 0 7 = 1 := by
  unfold StoresCanonical NextSlotHostOwned; decide +kernel

/-- The last outcome with the next slot STATION-owned: refused, valid and then in progress, and under a STOPPED process not examined. -/
theorem test_meets_NextSlot :
    let f := reqFrame (.gate 3)
    let s := fun process word => withSlot (gateSlot ++ [(8, 0x8003), (12, word)])
      { sending f 12 with req.slot := some (lastFrameOut false 0), req.process := process }
    let close := fun process word => after .attemptComplete (s process word)
    let words := fun t : State => [ringWord t 0 0, ringWord t 0 5, ringWord t 1 0, ringWord t 1 5]
    StoresCanonical (s .running 3) ∧ examines (s .running 3) = true ∧ ¬NextSlotHostOwned (s .running 3) ∧
      words (close .running 4) = [3, 0x0101, 3, 6] ∧ (close .running 4).req.cursor = 2 ∧ (close .running 4).req.process = .suspended ∧
      words (close .running 3) = [3, 0x0101, 0x8003, 0] ∧ (close .running 3).req.cursor = 1 ∧
      (close .running 3).req.process = .running ∧ (close .running 3).req.slot.isSome = true ∧
      (close .running 3).lau.queue = [f] ∧
      words (close .stopped 3) = [3, 0x0101, 0x8003, 0] ∧ (close .stopped 3).req.process = .stopped ∧
      (close .stopped 3).req.cursor = 1 ∧ (close .stopped 3).req.slot = none ∧
      ∀ b, words (abandoned f b (s .running 4)) = [3, 0x0102, 3, 6] ∧ (abandoned f b (s .running 3)).req.slot.isSome = true := by
  unfold StoresCanonical NextSlotHostOwned; decide +kernel

/-- RESET; RUN alone; RUN with START, in ACTIVE and in PLAN_WAIT. -/
theorem test_meets_ControlWord : portFree active ∧ portFree waiting ∧ (examines waiting = false → waiting.req.slot = none) ∧
    (7#16).getLsbD 1 = true ∧ (5#16).getLsbD 1 = false ∧ (5#16).getLsbD 2 = true ∧ (1#16).getLsbD 2 = false ∧
    (after (.hostRegisterWrite 0x3005 5) waiting).stc.checking = true ∧
    (after (.hostRegisterWrite 0x3005 5) waiting).req.process = .running := by
  unfold portFree; decide +kernel

theorem test_meets_HeadsAreTaken : portFree active ∧ active.imu.changes = [] ∧ active.stu.queue = [] ∧
    (after .nextChange active).hpt.readData = 0xFFFF ∧
    (after .nextChange { active with imu.changes := [5, 9] }).imu.changes = [9] ∧
    (after .nextChange { active with imu.changes := [5, 9] }).hpt.readData = 5 := by
  unfold portFree; decide +kernel

/-- A view not held, and one held by a record application, and one by a gate application. -/
theorem test_meets_ViewWord0Read :
    let held := fun (k : Fin 512) work => (after (.itemViewWord0Read k) { active with imu.work := work }).hpt.held.isSome
    portFree active ∧ findSlot active.imu.items 9 = some 3 ∧ findSlot active.imu.items 8 = none ∧ held 3 .free = false ∧
      held 3 (.remoteRecords 1 [record 9 3 [1], record 10 3 [1, 2]]) = true ∧
      held 4 (.remoteRecords 1 [record 9 3 [1], record 10 3 [1, 2]]) = false ∧
      held 0 (.selfRecords [record 5 4 [1]]) = true ∧ held 1 (.selfRecords [record 5 4 [1]]) = false ∧
      held 1 (.gate .self 1) = true ∧ held 4 (.gate .remote 1) = true ∧ held 3 (.gate .remote 1) = false ∧
      held 4 (.gate .remote 2) = false ∧ held 511 (.gate .remote 1) = false ∧
      (after (.itemViewWord0Read 511) active).hpt.readData = 0 ∧ (after (.itemViewWord0Read 0) active).hpt.readData = 0x8095 := by
  unfold portFree; decide +kernel

/-- A count at 32767 and one below. -/
theorem test_meets_Counters : portFree active ∧
    ({ count := 32767, overflow := false } : Counter).increment = { count := 0, overflow := true } ∧
    ({ count := 32766, overflow := true } : Counter).increment = { count := 32767, overflow := true } := by
  unfold portFree; decide +kernel

theorem test_meets_FlagsClear : portFree active ∧
    (after (.flagsClear .fault 2) active).imu.items.map (fun it => it.owned.map OwnedFields.clashMark) =
      [some false, some false, some false, none, none, none, none] ∧
    intAsserted { active with imu.changes := [5], hpt.ordinaryMask := 0x10 } = true := by
  unfold portFree; decide +kernel

/-- The words 0x3009 to 0x300E as the host reads them: VIEW PART, flags, masks written with every bit set, the summary word. -/
theorem test_meets_FlagReads :
    let write := fun a v s => after (.hostRegisterWrite a v) s
    let s := write 0x300D 0xFFFF (write 0x300C 0xFFFF (write 0x3009 0xFFFF { active with
      imu.changes := [5], hpt.flags := { active.hpt.flags with requestDone := true, planMismatch := true } }))
    s.stc.inReset = false ∧ windowWord s 0x3009 = 1 ∧ windowWord s 0x300A = 0x11 ∧ windowWord s 0x300B = 0x40 ∧
      windowWord s 0x300C = 0x3F ∧ windowWord s 0x300D = 0x7F ∧ windowWord s 0x300E = 7 ∧
      windowWord (write 0x300D 0 s) 0x300E = 5 ∧ windowWord (write 0x300C 0 (write 0x300D 0 s)) 0x300E = 0 ∧
      windowWord (write 0x3009 0xFFFE s) 0x3009 = 0 := by decide +kernel

/-- A write in PLAN_WAIT, one during a check, one in ACTIVE. -/
theorem test_meets_PlanWindowWrite : portFree waiting ∧ waiting.stc.station = .planWait ∧ waiting.stc.checking = false ∧
    portFree (after .start waiting) ∧ (after .start waiting).stc.checking = true ∧ portFree active ∧
    active.stc.station ≠ .planWait ∧ active.stc.station ≠ .planFault ∧
    (after (.planWindowWrite 1031 9) waiting).stc.window = [(1031, 9)] := by
  unfold portFree; decide +kernel

/-- The edges of the stored regions and of the words that ignore writes. -/
theorem test_meets_HostRegisterWrites : portFree active ∧ StoresCanonical active ∧
    windowWord (after (.hostRegisterWrite 0x2000 9) active) 0x2000 = 9 ∧
    windowWord (after (.hostRegisterWrite 0x23FF 9) active) 0x23FF = 9 ∧
    windowWord (after (.hostRegisterWrite 0x2400 9) active) 0x2400 = 9 ∧
    windowWord (after (.hostRegisterWrite 0x249F 9) active) 0x249F = 9 ∧
    after (.hostRegisterWrite 0x1FFF 9) active = active ∧ after (.hostRegisterWrite 0x24A0 9) active = active ∧
    after (.hostRegisterWrite 0x2C08 9) active = active ∧ after (.hostRegisterWrite 0x3004 9) active = active ∧
    after (.hostRegisterWrite 0x300E 9) active = active := by
  unfold portFree StoresCanonical; decide +kernel

/-- Each kind of held access, released, and one not released. -/
theorem test_meets_HeldAccess :
    let h := fun (a : Access) (r : Bool) (s : State) => ({ s with hpt.held := some { access := a, released := r } } : State)
    (after .heldAccessServed (h (.viewWord0 0) true active)).hpt.readData = 0x8095 ∧
      (after .heldAccessServed (h (.sampleWord 0) true active)).hpt.held = none ∧
      (after .heldAccessServed (h (.planWrite 0 9) true { waiting with stc.station := .planFault })).stc.window = [(0, 9)] ∧
      receiving (h (.planWrite 0 9) true active) = true ∧
      after .heldAccessServed (h (.viewWord0 0) false active) = h (.viewWord0 0) false active ∧
      after .heldAccessServed active = active := by decide +kernel

/-- A held word-0 read of slot 3, 0, 1 or 4, released by the record of its slot or the gate of its group, and by no other; a held sample
view read and a held plan window write, by a record and by a check. -/
theorem test_meets_HeldAccessReleased :
    let hold := fun (a : Access) work =>
      ({ active with imu.work := work, hpt.held := some { access := a, released := false } } : State)
    let released := fun c a work => (after c (hold a work)).hpt.held.map HeldAccess.released
    let remote : Work := .remoteRecords 1 [record 9 3 [1], record 10 3 [1, 2]]
    let own : Work := .selfRecords [record 5 4 [1]]
    let moved := table.map fun it => { it with pendingPart := none }
    let gated := fun k g => (after .gateApplicationEnd { hold (.viewWord0 k) (.gate .remote g) with imu.items := moved }).hpt.held.map
      HeldAccess.released
    receiving (hold (.viewWord0 3) remote) = true ∧ released .remoteRecord (.viewWord0 3) remote = some true ∧
      released .remoteRecord (.viewWord0 4) remote = some false ∧
      released (.remoteRecord (some 1)) (.viewWord0 3) remote = some true ∧
      released .selfRecord (.viewWord0 0) own = some true ∧ released .selfRecord (.viewWord0 1) own = some false ∧
      released .gateApplicationEnd (.viewWord0 1) (.gate .remote 1) = some false ∧
      (∀ it ∈ moved, it.plan.gate = some 1 → it.pendingPart = none) ∧
      gated 1 1 = some true ∧ gated 4 1 = some true ∧ gated 3 1 = some false ∧ gated 4 2 = some false ∧ gated 511 1 = some false ∧
      released .remoteRecord (.sampleWord 15) remote = some true ∧
      released .gateApplicationEnd (.sampleWord 0) (.gate .remote 2) = some false ∧
      (after .planCheckEnd { waiting with stc.checking := true, hpt.held := (hold (.planWrite 1031 9) .free).hpt.held }).hpt.held =
        some { access := .planWrite 1031 9, released := true } := by decide +kernel

/-- Commands that leave a held access alone, and ones that find none held. -/
theorem test_meets_HeldAccessKept :
    let hold := fun (a : Access) (r : Bool) => ({ active with
      imu.work := .selfRecords [record 5 4 [1]], stc.checking := true, hpt.held := some { access := a, released := r } } : State)
    let kept := fun c s => (after c s).hpt.held = s.hpt.held
    isReset .start = false ∧ (∀ c ∈ [Instr.start, .softReset, .itemViewWord0Read 1, .lostTimerExpiry 1, .gateApplicationEnd],
      kept c (hold (.viewWord0 0) false)) ∧
      kept .selfRecord (hold (.sampleWord 3) false) ∧ kept .planCheckEnd (hold (.sampleWord 3) false) ∧
      kept .selfRecord (hold (.planWrite 3 9) false) ∧ ¬kept .planCheckEnd (hold (.planWrite 3 9) false) ∧
      kept .selfRecord (hold (.viewWord0 0) true) ∧ kept .planCheckEnd (hold (.planWrite 3 9) true) ∧
      active.hpt.held = none ∧ kept .refreshTimerExpiry active ∧ kept .remoteRecord active := by decide +kernel

/-- A good plan, a blank memory, and a read that has come as far as 15 bytes, 16 bytes, and all but the last byte of a good plan. -/
theorem test_meets_PlanReadEnds :
    let read := fun bytes => after (.planReadEnd (planLevels bytes)) State.reset
    State.reset.stc.planRead = some { clocks := 0, shift := [] } ∧ StoresCanonical State.reset ∧
      (after (.planReadEnd (List.replicate 24 true)) State.reset).stc.planRead = some { clocks := 24, shift := [] } ∧
      (read planBytes).stc.checking = true ∧ (read planBytes).stc.window = planWindow planWords ∧
      (read (planBytes ++ [7])).stc = (read planBytes).stc ∧
      (read (List.replicate 16 0xFF)).stc.faultCode = .noPlan ∧ (read (List.replicate 16 0xFF)).stc.planRead = none ∧
      (read (planBytes.take 15)).stc.window = planWindow (planWords.take 7) ∧ (read (planBytes.take 15)).stc.planRead.isSome = true ∧
      (read (planBytes.take 16)).stc.window = planWindow (planWords.take 8) ∧ (read (planBytes.take 16)).stc.station = .loading ∧
      (read (planBytes.take 23)).stc.window = planWindow (planWords.take 11) ∧ (read (planBytes.take 23)).stc.checking = false := by
  unfold StoresCanonical; decide +kernel

/-- One plan that fails at each test, the one before it met. -/
theorem test_meets_PlanCheckTests :
    planCheck [] = some (.noPlan, none) ∧ planCheck (planWindow (planWords.set 1 513)) = some (.badCount, none) ∧
    planCheck (planWindow (planWords.set 1 0)) = some (.badCount, none) ∧
    planCheck (planWindow (planWords.set 7 0)) = some (.badCheck, none) ∧
    planCheck (planWindow ((planWords.set 4 2).set 7 0x848D)) = some (.badTiming, none) ∧
    planCheck (planWindow ((planWords.set 9 0x0020).set 7 0x846C)) = some (.badEntry, some 0) ∧
    planCheck (planWindow ((planWords.set 10 0x0051).set 7 0x84CC)) = some (.badOrder, some 1) := by decide +kernel

/-- The fields of an entry whose words have every bit set, and an entry that is bad in each way of test 5, at its edge. -/
theorem test_meets_PlanEntries :
    let entry := fun a b => planEntry [(8, a), (9, b)] 0
    entry 0xFFFF 0xFFFF =
        { item := 4095, length := 15, owner := 63, stream := true, gated := true, group := 7, spare := 31 } ∧
      (entry 0x0018 0x039F).bad = false ∧ (entry 0x0018 0x005F).bad = false ∧ (entry 0x0018 0x03A0).bad = true ∧
      (entry 0x0010 0x039F).bad = true ∧ (entry 0x0019 0x039F).bad = true ∧ (entry 0x0018 0x049F).bad = true ∧
      (entry 0x0018 0x011F).bad = true ∧ (entry 0x0018 0x00DF).bad = true ∧ (entry 0x0018 0x0B9F).bad = true ∧
      planOf (planWindow planWords) =
        { count := 2, rate := 0, presence := 10, lostTimeout := 24, refresh := 1, check := 0x848C } ∧
      ((planWindow planWords).read 1).toNat = 2 ∧ ((List.range 12).map fun k => ((planWindow planWords).read k).toNat).sum % 65536 = 0 := by
  decide +kernel

/-- A check of a good plan with a write held, and of a failed one. -/
theorem test_meets_PlanCheckEnds :
    let w : HeldAccess := { access := .planWrite 0 9, released := false }
    let s := { waiting with stc.checking := true, stc.window := planWindow planWords, hpt.held := some w }
    let t := { waiting with stc.checking := true }
    s.stc.checking = true ∧ planCheck s.stc.window = none ∧ planCheck t.stc.window = some (.noPlan, none) ∧
      (after .planCheckEnd s).stc.station = .joining ∧ (after .planCheckEnd s).imu.items.length = 2 ∧
      (after .planCheckEnd s).hpt.held = some { w with released := true } ∧
      (after .planCheckEnd t).stc.station = .planFault := by decide +kernel

/-- Without and with LISTEN. -/
theorem test_meets_JoinTimer :
    let s := { active with stc.station := .joining, stc.joinTimer := some 0, lau := State.reset.lau }
    let t := { s with stc.straps.listen := true }
    s.stc.station = .joining ∧ s.stc.joinTimer.isSome = true ∧ s.lau.queue = [] ∧ s.lau.lastCompleted = none ∧
      s.tsc.presenceOutstanding = false ∧ (after .joinTimerExpiry s).lau.queue = [presence true] ∧
      (after .joinTimerExpiry s).lau.transmitter = .gap ∧ (after .joinTimerExpiry t).lau.transmitter = .off := by decide +kernel

/-- A RUNNING process that has waited: the cursor slot HOST-owned, refused, SILENT under LISTEN, a GATE and a STREAM of 10 values. -/
theorem test_meets_JoinTimerExamines :
    let s := { active with
      stc.station := .joining, stc.joinTimer := some 0, lau := State.reset.lau, req := { active.req with process := .running } }
    let join := fun (words : List (Nat × Word)) (listen : Bool) =>
      after .joinTimerExpiry { withSlot words s with stc.straps.listen := listen }
    s.req.slot = none ∧ s.req.process = .running ∧ s.lau.reqOffer = none ∧ StoresCanonical (withSlot gateSlot s) ∧
      NextSlotHostOwned (withSlot gateSlot s) ∧ (cursorCopy s).stationOwned = false ∧
      slotCheck s (cursorCopy (withSlot gateSlot s)) = none ∧ slotCheck s (cursorCopy (withSlot streamSlot s)) = none ∧
      (join [] false).req.process = .suspended ∧ (join [] false).hpt.flags.requestsIdle = true ∧
      ringWord (join [(0, 0x8003), (4, 4)] false) 0 5 = 6 ∧ (join [(0, 0x8003), (4, 4)] false).req.process = .suspended ∧
      ringWord (join gateSlot true) 0 5 = 4 ∧ ringWord (join gateSlot true) 0 6 = 1 ∧ (join gateSlot true).req.cursor = 1 ∧
      (join gateSlot false).lau.queue = [presence true] ∧ (join gateSlot false).lau.reqOffer = some (reqFrame (.gate 3)) ∧
      (join gateSlot false).req.process = .running ∧
      (join [(0, 0x8002), (1, 7), (2, 10)] false).lau.queue = [presence true] ∧
      (join [(0, 0x8002), (1, 7), (2, 10)] false).req.slot.map (fun w => (w.todo, w.frames, w.outstanding)) = some ([2, 2], 1, 1) := by
  unfold StoresCanonical NextSlotHostOwned; decide +kernel

theorem test_meets_LineState :
    active.lrx.line = .quiet ∧ active.lrx.assembly ≠ .off ∧ active.lrx.assembly ≠ .assemble ∧
    (after .lineBusy active).lrx.line = .busy ∧ (after .lineBusy active).lau.driver = false ∧
    (after .lineBusy active).lrx.assembly = .hunt ∧
    (after .startPatternFound (after .lineBusy active)).lrx.assembly = .assemble ∧
    (after (.startPatternFound ⟨false, encodeCells false (leadIn ++ byteBits 0xD3)⟩) (after .lineBusy active)).lrx.assembly =
      .assemble ∧
    (after (.startPatternFound ⟨false, encodeCells false (leadIn ++ byteBits 0xD2)⟩) (after .lineBusy active)).lrx.assembly = .hunt ∧
    (after .lineQuiet (after .lineBusy { active with lau.transmitter := .gap })).lau.transmitter = .gap := by decide +kernel

/-- A bad frame, a good one with 3 frames queued, and one with 4; a bit left over, a cell that cannot be decoded, and a 167th byte. -/
theorem test_meets_FrameEnd :
    let s := { active with lrx.assembly := .assemble, lrx.line := .busy }
    let f := frame .remote 1 5 false (.presence 0x1234)
    let heard := heardFrame 1 5 false false (.presence 0x1234)
    let broken : Heard := { heard with cells := ⟨true, true⟩ :: heard.cells.tail }
    let long := assembleFrame (heardBytes (List.replicate 167 0))
    s.lrx.assembly = .assemble ∧ acceptFrame (assembleFrame heard) = some f ∧ f.sender ≠ stationNumber s ∧
      acceptFrame (assembleFrame broken) = none ∧ (assembleFrame broken).codingBad = true ∧
      (assembleFrame { heard with cells := heard.cells.dropLast }).partialByte = true ∧
      long.tooLong = true ∧ long.bytes.length = 166 ∧
      (after (.frameEnd broken) s).hpt.counters.badFrames.count = 1 ∧
      (after (.frameEnd heard) { s with lrx.queue := [f, f, f] }).lrx.queue = [f, f, f, f] ∧
      (after (.frameEnd heard) { s with lrx.queue := [f, f, f, f] }).hpt.counters.rxOverruns.count = 1 := by decide +kernel

/-- Frames that fail each check of R71, and at its edge ones that pass: too short, a wrong check, KIND, SENDER, the CONTROL bits, RECORD
COUNT, LENGTH, GROUP, a byte too few or too many; and where the records of a frame start. -/
theorem test_meets_BadFrames :
    let good := fun (bytes : List Byte) => (acceptFrame ⟨bytes ++ wordBytes (crc bytes), false, false, false⟩).isSome
    let words := fun n : Nat => List.replicate (2 * n) (0 : Byte)
    let two : List Byte := [0x51, 1, 0, 2, 0, 0x11, 0, 0, 9, 9, 0, 0x22, 0, 0, 9, 9]
    good [0x53, 31, 0, 0x80, 1, 2] = true ∧ good [0x53, 31, 0, 0, 1] = false ∧
      acceptFrame ⟨[0x53, 31, 0, 0x80, 1, 2, 0, 0], false, false, false⟩ = none ∧
      good [0x50, 31, 0, 0, 1, 2] = false ∧ good [0x54, 31, 0, 0, 1, 2] = false ∧ good [0x53, 32, 0, 0, 1, 2] = false ∧
      good [0x53, 31, 0, 0x20, 1, 2] = false ∧ good [0x53, 31, 0, 0x10, 1, 2] = false ∧ good [0x52, 31, 0, 0x80, 1, 2] = false ∧
      good [0x53, 31, 0, 0x40, 1, 2] = false ∧ good [0x53, 31, 0, 1, 1, 2] = false ∧ good [0x53, 31, 0, 0, 1, 2, 3] = false ∧
      good [0x52, 31, 0, 0, 3, 2] = true ∧ good [0x52, 31, 0, 0, 4, 2] = false ∧ good [0x52, 31, 0, 1, 3, 2] = false ∧
      good [0x52, 31, 0, 0, 3, 2, 0] = false ∧ good ([0x51, 1, 0, 0x41, 0, 0x18, 0, 0] ++ words 8) = true ∧
      good ([0x51, 1, 0, 0x81, 0, 0x18, 0, 0] ++ words 8) = false ∧ good ([0x51, 1, 0, 1, 0, 0x19, 0, 0] ++ words 9) = false ∧
      good [0x51, 1, 0, 1, 0, 0x10, 0, 0] = false ∧ good [0x51, 1, 0, 0, 0, 0x11] = false ∧
      good ([0x51, 1, 0, 1, 0, 0x18, 0, 0] ++ words 7) = false ∧ good ([0x51, 1, 0, 1, 0, 0x18, 0, 0] ++ words 9) = false ∧
      good ([0x51, 1, 0, 9] ++ (List.replicate 9 [0, 0x11, 0, 0, 0, 0]).flatten) = false ∧
      good (two ++ words 1) = true ∧ good two = false ∧
      (List.range 3).map (recordStart (two ++ words 1)) = [4, 10, 18] := by decide +kernel

/-- Frames written out byte by byte from tables 11-2 to 11-5, of two records, a gate and a FIRST presence frame: what is read from them, and
that the same fields are sent as the same bytes. -/
theorem test_meets_FrameFields :
    let read := fun (bytes : List Byte) => acceptFrame ⟨bytes ++ wordBytes (crc bytes), false, false, false⟩
    let update : List Byte := [0x51, 31, 9, 0x42, 0x12, 0x32, 0xAB, 0xCD, 1, 2, 3, 4, 0xFF, 0xF1, 0, 5, 6, 7]
    let records := [record 0x123 0xABCD [0x0102, 0x0304], record 0xFFF 5 [0x0607]]
    read update = some (frame .remote 31 9 false (.update records)) ∧ frameBytes 31 9 false true (.update records) = update ∧
      (List.range 3).map (recordStart update) = [4, 12, 18] ∧
      read [0x52, 1, 255, 0, 3, 254] = some (frame .remote 1 255 false (.gate 3 254)) ∧
      frameBytes 1 255 false false (.gate 3 254) = [0x52, 1, 255, 0, 3, 254] ∧
      read [0x53, 1, 0, 0x80, 0xAB, 0xCD] = some (frame .remote 1 0 true (.presence 0xABCD)) ∧
      frameBytes 1 0 true false (.presence 0xABCD) = [0x53, 1, 0, 0x80, 0xAB, 0xCD] := by decide +kernel

/-- There are such places for the bytes of every frame. -/
theorem test_meets_RecordStarts (bytes : List Byte) : recordStart bytes 0 = 4 ∧ ∀ j < 15,
    recordStart bytes (j + 1) = recordStart bytes j + 4 + 2 * ((bytes.getD (recordStart bytes j + 1) 0).toNat % 16) :=
  ⟨rfl, fun _ _ => rfl⟩

/-- In ACTIVE with a frame of the REQ queued and a presence offer waiting, and in MUTED; a notice that waits, over an attempt that begins
meanwhile, and one that waits in MUTED. -/
theorem test_meets_IdentityClash :
    let heard := heardFrame 0 5 false false (.presence 0x1234)
    let s := { active with
      lrx.assembly := .assemble, lrx.line := .busy, lau.queue := [reqFrame (.gate 3)], lau.presenceOffer := some (presence false)
      lau.transmitter := .defer, tsc.presenceOutstanding := true, req.slot := some (lastFrameOut false 0) }
    let w := after .gapEnd (after (.frameEnd heard true) s)
    s.lrx.assembly = .assemble ∧ acceptFrame (assembleFrame heard) = some (frame .remote 0 5 false (.presence 0x1234)) ∧
      (0 : Station) = stationNumber s ∧ s.stc.station = .active ∧ OutcomeRules s ∧
      (after (.frameEnd heard) s).stc.mutedCause = .identity ∧ (after (.frameEnd heard) s).hpt.counters.abandoned.count = 1 ∧
      (let m := after (.frameEnd heard) { s with stc.station := .muted }
      m.hpt.flags.identityClash = true ∧ m.req = s.req ∧ m.tsc = s.tsc ∧ m.lau = { s.lau with transmitter := .gap }) ∧
      w.pending = [] ∧ w.stc.clashNotice = true ∧ w.stc.station = .active ∧ w.lau.driver = true ∧
      (idleStep w).stc.mutedCause = .identity ∧ (idleStep w).lau.driver = false ∧ (idleStep w).hpt.flags.guardTrip = false ∧
      (idleStep w).hpt.counters.abandoned.count = 1 ∧
      (after .guardExpiry w).stc.clashNotice = true ∧ (idleStep (after .guardExpiry w)).stc.mutedCause = .guard := by
  refine ⟨rfl, by decide +kernel, rfl, rfl, ⟨nofun, ?_, rfl, rfl⟩, by decide +kernel⟩
  rintro f h; cases h; rfl

/-- A slot in progress at a mute: halted, with records lost, with records never built, and with all of them completed; the offer waiting
counted among the lost. Under a RUNNING process the next slot is HOST-owned, or STATION-owned and closed in turn. -/
theorem test_meets_MuteHandsBack :
    let f := reqFrame (.update [record 7 4 [1], record 7 5 [2]])
    let muted := fun w process ring =>
      after (.frameEnd (heardFrame 0 5 false false (.presence 0x1234))) (withSlot ring { active with
        lrx.assembly := .assemble, lrx.line := .busy, lau.queue := [f], lau.reqOffer := some f,
        req := { active.req with slot := some w, process := process } })
    let words := fun t : State => (List.range 8).map (ringWord t 0)
    let w : SlotWork := { lastFrameOut false 0 with frames := 2, outstanding := 2 }
    let own := withSlot streamSlot { active with lau.queue := [f], lau.reqOffer := some f, req.slot := some w }
    OutcomeRules own ∧ StoresCanonical own ∧ NextSlotHostOwned own ∧
      words (muted w .running streamSlot) = [0x0002, 7, 2, 1022, 0, 0x0202, 0, 4] ∧
      (muted w .running streamSlot).req.process = .suspended ∧ (muted w .running streamSlot).req.cursor = 1 ∧
      (muted w .running streamSlot).hpt.flags.requestDone = true ∧ (muted w .running streamSlot).hpt.flags.requestsIdle = true ∧
      words (muted { w with halted := true } .stopped streamSlot) = [0x0002, 7, 2, 1022, 0, 0x0203, 0, 4] ∧
      (muted { w with halted := true } .stopped streamSlot).req.process = .stopped ∧
      words (muted { w with todo := [2, 2, 2] } .running streamSlot) = [0x0002, 7, 2, 1022, 0, 0x0202, 3, 4] ∧
      (let t := muted w .running (streamSlot ++ [(8, 0x8003), (12, 3)])
      ringWord t 0 5 = 0x0202 ∧ ringWord t 1 0 = 3 ∧ ringWord t 1 5 = 4 ∧ t.req.cursor = 2 ∧ t.req.process = .suspended) := by
  unfold StoresCanonical NextSlotHostOwned
  refine ⟨⟨?_, nofun, rfl, rfl⟩, by decide +kernel⟩
  rintro f h; cases h; rfl

/-- A mute in JOINING: a RUNNING process that has waited finds the cursor slot HOST-owned, or closes it SILENT. -/
theorem test_meets_MuteExamines :
    let s := fun ring => withSlot ring { active with
      stc.station := .joining, stc.joinTimer := some 5, lau := State.reset.lau, stc.clashNotice := true,
      req := { active.req with process := .running } }
    (s []).pending = [] ∧ (s []).req.slot = none ∧ (s []).req.process = .running ∧ (cursorCopy (s [])).stationOwned = false ∧
      StoresCanonical (s gateSlot) ∧ NextSlotHostOwned (s gateSlot) ∧ slotCheck (s gateSlot) (cursorCopy (s gateSlot)) = none ∧
      (idleStep (s [])).req.process = .suspended ∧ (idleStep (s [])).hpt.flags.requestsIdle = true ∧
      ringWord (idleStep (s gateSlot)) 0 5 = 4 ∧ (idleStep (s gateSlot)).req.cursor = 1 ∧
      (idleStep (s gateSlot)).req.process = .suspended := by
  unfold StoresCanonical NextSlotHostOwned; decide +kernel

set_option maxRecDepth 20000 in
/-- The longest UPDATE frame, of 8 records of 8 words, driven from a line at rest high; the start pattern ends with its 24th cell. -/
theorem test_meets_SentFrames :
    let f := { reqFrame (.update (List.replicate 8 (record 0xFFF 9 (List.replicate 8 0x55AA)))) with refresh := true }
    let a := sentFrame active true f
    let early := a.cells.take 24
    (∀ r ∈ f.body.records, 1 ≤ r.value.length ∧ r.value.length ≤ 8) ∧ f.body.records.length = 8 ∧ f.first = false ∧
      a.lineBytes.length = 166 ∧ huntStart (heardBits ⟨true, early⟩) = some [] ∧
      (early.getLast?.bind fun cell => acceptFrame (assembleFrame ⟨cell.secondHalf, a.cells.drop 24⟩)).map Frame.sequence =
        some 8 := by decide +kernel

/-- With 3 frames received a GATE frame's attempt begins; with 4 none does. -/
theorem test_meets_GapEnd :
    let f := frame .remote 1 5 false (.presence 0x1234)
    let s := { active with lau.transmitter := .gap, lau.queue := [reqFrame (.gate 1)], lrx.queue := [f, f, f] }
    s.lau.transmitter = .gap ∧ s.lrx.assembly ≠ .assemble ∧ s.lau.queue = [reqFrame (.gate 1)] ∧
      (after .gapEnd s).lau.attempt.map SentFrame.body = some (.gate 1 5) ∧
      (after .gapEnd { s with lrx.queue := [f, f, f, f] }).lau.transmitter = .idle := by decide +kernel

/-- A collision of the eleventh attempt and one of the twelfth, of a frame of the REQ with another outstanding and of a presence frame with
the presence timer EXPIRED; cells that agree, and a difference in the second cell. -/
theorem test_meets_Collision :
    let f := reqFrame (.gate 1)
    (sending f 11).lau.transmitter = .send ∧ (sending f 11).lau.queue = [f] ∧ (sending f 11).lau.attempts = 11 ∧
      (sending f 12).lau.transmitter = .send ∧ (sending f 12).lau.queue = [f] ∧ (sending f 12).lau.attempts = 12 ∧
      (after .collision (sending f 11)).lau.transmitter = .backoff ∧
      (after .backoffEnd (after (.counterRead .collisions) (after .collision (sending f 11)))).lau.transmitter = .defer ∧
      [⟨true, false⟩] <+: (sentFrame active false f).cells ∧
      after (.collision [⟨true, false⟩]) (sending f 11) = sending f 11 ∧
      (after (.collision [⟨true, false⟩, ⟨true, false⟩]) (sending f 11)).lau.transmitter = .backoff ∧
      maySend (sending f 12) = true ∧ ∀ b,
        (abandoned f b { sending f 12 with req.slot := some { lastFrameOut false 0 with outstanding := 2 } }).req.slot.map
          SlotWork.lost = some 1 ∧
        (abandoned (presence false) b { sending (presence false) 12 with
          tsc.presenceTimer := .expired, tsc.presenceOutstanding := true }).lau.queue = [presence false] ∧
        (abandoned (presence false) b { sending (presence false) 12 with
          tsc.presenceOutstanding := true }).tsc.presenceOutstanding = false := by
  decide +kernel

/-- A drive that does not end with its frame: a difference in the cell of the guard's expiry is a collision, after which the guard does not
trip; one behind that cell has no effect; and after the expiry none is sensed. -/
theorem test_meets_CollisionBehindFrame :
    let f := reqFrame (.gate 1)
    let beyond := List.replicate 2000 (⟨true, false⟩ : LineCell)
    let drive := (sentFrame active false f).cells ++ beyond
    let s := after (.collision (drive.take 2047 ++ [⟨false, false⟩]) beyond) (sending f 11)
    (sentFrame active false f).cells.length = 88 ∧ drive[2047]? = some ⟨true, false⟩ ∧ s.lau.transmitter = .backoff ∧
      ((after .guardExpiry s).lau.transmitter, (after .guardExpiry s).stc.station) = (.backoff, .active) ∧
      after (.collision (drive.take 2048 ++ [⟨false, false⟩]) beyond) (sending f 11) = sending f 11 ∧
      (after .guardExpiry (sending f 11)).lau.transmitter = .off ∧
      after .collision (after .guardExpiry (sending f 11)) = after .guardExpiry (sending f 11) := by decide +kernel

/-- A due refresh frame where the queue empties at an abandonment, of the REQ's last frame or of a refresh frame: built, or waiting while
another condition fails, or the timer alone started again with no item to send. -/
theorem test_meets_RefreshAtAbandonment :
    let f : TxFrame := { reqFrame (.update [record 7 4 [1]]) with source := .refresh, refresh := true }
    let s := { sending f 12 with tsc.refreshTimer := .expired, lrx.line := .quiet }
    OutcomeRules s ∧ s.lau.queue = [f] ∧ 12 ≤ s.lau.attempts ∧ ∀ b,
      ((abandoned f b s).lau.queue.map TxFrame.source = [.refresh] ∧ (abandoned f b s).tsc.cursor = 3 ∧
        (abandoned f b s).tsc.refreshTimer = .running 1 ∧ (abandoned f b s).lau.transmitter = .gap) ∧
      (abandoned f b { s with lrx.line := .busy }).lau.transmitter = .defer ∧
      ((abandoned f b { s with tsc.firstPending := true }).tsc.refreshTimer = .expired ∧
        (abandoned f b { s with tsc.firstPending := true, tsc.presenceOutstanding := true }).lau.queue = []) ∧
      ((abandoned f b { s with imu.items := [] }).tsc.refreshTimer = .running 1 ∧
        (abandoned f b { s with imu.items := [] }).lau.transmitter = .idle) := by
  refine ⟨⟨nofun, nofun, rfl, rfl⟩, by decide +kernel⟩

/-- A presence frame, in ACTIVE. -/
theorem test_meets_AttemptCompletes :
    let f := presence false
    let s := { sending f 1 with tsc.presenceOutstanding := true }
    s.lau.transmitter = .send ∧ s.lau.queue = [f] ∧ s.lau.attempt = some (sentFrame active false f) ∧ s.stc.station = .active ∧
      (after .attemptComplete s).tsc.presenceTimer = .running 10 ∧
      (after .attemptComplete s).lrx.queue = [frame .self 0 8 false (.presence 0x1234)] := by decide +kernel

/-- The exit from IDLE at a completion with another frame queued: to GAP or DEFER by the line, and none with the receive queue full. -/
theorem test_meets_IdleExit :
    let f := presence false
    let g := frame .remote 1 5 false (.presence 0x1234)
    let s := { sending f 1 with tsc.presenceOutstanding := true, lau.queue := [f, reqFrame (.gate 1)] }
    (after .attemptComplete { s with lrx.line := .quiet }).lau.transmitter = .gap ∧
      (after .attemptComplete s).lau.transmitter = .defer ∧
      (after .attemptComplete { s with lrx.queue := [g, g, g] }).lau.transmitter = .idle := by decide +kernel

theorem test_meets_GuardExpiry :
    let f := presence false
    let s := { sending f 1 with tsc.presenceOutstanding := true }
    s.lau.transmitter = .send ∧ s.lau.queue = [f] ∧ s.stc.station = .active ∧ OutcomeRules s ∧
      (after .guardExpiry s).stc.mutedCause = .guard ∧ (after .guardExpiry s).tsc.presenceOutstanding = false := by
  refine ⟨rfl, rfl, rfl, ⟨nofun, nofun, rfl, rfl⟩, by decide +kernel⟩

/-- A frame of an ABSENT station, and a FIRST presence frame of a PRESENT one with another plan check. -/
theorem test_meets_NoticeJoins :
    let f := frame .remote 2 9 false (.update [record 12 3 [1]])
    let g := frame .remote 1 0 true (.presence 0x4321)
    takesFrames (withFrame f active) = true ∧ (peerOf active 2).state = .absent ∧
      (peerOf (after .imuTakeFrame (withFrame f active)) 2).expected = some 10 ∧
      (after (.imuTakeFrame [1, 2]) (withFrame f active)).imu.events =
        [{ kind := .lost, station := 1 }, { kind := .rejoined, station := 2 }] ∧
      takesFrames (withFrame g active) = true ∧ (peerOf active 1).state = .present ∧
      (after .imuTakeFrame (withFrame g active)).hpt.flags.planMismatch = true := by decide +kernel

/-- A gap, and a match of each kind of frame. -/
theorem test_meets_NoticeChecks :
    let take := fun q body => after .imuTakeFrame (withFrame (frame .remote 1 q false body) active)
    takesFrames (withFrame (frame .remote 1 6 false (.presence 0x1234)) active) = true ∧ (peerOf active 1).state = .present ∧
      (peerOf active 1).expected = some 5 ∧ (take 6 (.presence 0x1234)).hpt.counters.sequenceGaps.count = 1 ∧
      (take 5 (.presence 0x1234)).imu = active.imu ∧
      (take 5 (.update [record 9 3 [1]])).imu.work = .remoteRecords 1 [record 9 3 [1]] ∧
      (take 5 (.gate 1 5)).imu.work = .gate .remote 1 ∧
      (let two := { withFrame (frame .remote 1 5 false (.gate 1 5)) active with
        pmn.peers := active.pmn.peers.set 2 { presentPeer with timeLeft := some 0 } }
      (after (.imuTakeFrame [2]) two).imu.events = [{ kind := .lost, station := 2 }] ∧
        (after (.imuTakeFrame [2]) two).imu.work = .notice (frame .remote 1 5 false (.gate 1 5))) := by decide +kernel

/-- A transmitter in IDLE behind a full receive queue leaves it at the taking of a frame, remote or its own. -/
theorem test_meets_EntryFreed :
    let f := fun mark sender q => frame mark sender q false (.presence 0x1234)
    let s := fun mark sender q =>
      ({ active with lau.queue := [reqFrame (.gate 1)], lrx.queue := List.replicate 4 (f mark sender q) } : State)
    takesFrames (s .remote 1 5) = true ∧ takesFrames (s .self 0 8) = true ∧
      (after .imuTakeFrame (s .remote 1 5)).lau.transmitter = .gap ∧ (after .imuTakeFrame (s .remote 1 6)).lau.transmitter = .gap ∧
      (after .imuTakeFrame { s .remote 2 9 with lrx.line := .busy }).lau.transmitter = .defer ∧
      (after .selfFrameTake (s .self 0 8)).lau.transmitter = .gap ∧
      (after .selfFrameTake { s .self 0 8 with lrx.line := .busy }).lau.transmitter = .defer := by decide +kernel

theorem test_meets_SelfFrame :
    let take := fun body => after .selfFrameTake (withFrame (frame .self 0 8 false body) active)
    takesFrames (withFrame (frame .self 0 8 false (.gate 1 5)) active) = true ∧ (take (.gate 1 5)).imu.work = .gate .self 1 ∧
      (take (.update [record 5 4 [1]])).imu.work = .selfRecords [record 5 4 [1]] ∧ (take (.presence 0)).imu = active.imu := by
  decide +kernel

/-- A refresh frame that is due while self work is in hand: built at the end of a self PRESENCE frame, of the last self record and of a
self gate, not after a record that is not the last, and not at the end of a remote gate. -/
theorem test_meets_RefreshAfterSelfWork :
    let s := { active with tsc.refreshTimer := .expired }
    let sent := fun c (t : State) => ((after c t).lau.queue.map TxFrame.source, (after c t).tsc.cursor, (after c t).lau.transmitter)
    let gate := fun mark => ({ s with imu.work := .gate mark 2 } : State)
    let records := fun rs => ({ s with imu.work := .selfRecords rs } : State)
    sent .selfFrameTake (withFrame (frame .self 0 8 false (.presence 0)) s) = ([.refresh], 3, .gap) ∧
      sent .selfRecord (records [record 5 4 [1]]) = ([.refresh], 3, .gap) ∧
      sent .selfRecord (records [record 5 4 [1], record 7 4 [1]]) = ([], 0, .idle) ∧
      sent .gateApplicationEnd (gate .self) = ([.refresh], 3, .gap) ∧
      sent .gateApplicationEnd (gate .remote) = ([], 0, .idle) := by decide +kernel

/-- The held sequence itself and the next count nothing; the one after that and the one before count. -/
theorem test_meets_GateSequence :
    let missed := fun q => (after .selfFrameTake (withFrame (frame .self 0 8 false (.gate 1 q)) active)).hpt.counters.missedGates.count
    active.imu.heldGate[(1 : Group)] = some 4 ∧ active.imu.heldGate[(2 : Group)] = none ∧ missed 4 = 0 ∧ missed 5 = 0 ∧
      missed 6 = 1 ∧ missed 3 = 1 := by decide +kernel

/-- Each kind of owner event; the items are listed in slot order behind those listed already. -/
theorem test_meets_OwnerEvents :
    let s := fun kind => ({ active with imu.events := [{ kind := kind, station := 1 }] } : State)
    takesEvents (s .rejoined) = true ∧ (s .rejoined).imu.work = .free ∧
      ((after .ownerRejoined (s .rejoined)).imu.items.map Item.baselineOpen) = [false, false, false, true, true, true, false] ∧
      ((after .ownerDoubtful (s .doubtful)).imu.changes) = [9, 10, 11] ∧
      ((after .ownerLost { s .lost with imu.changes := [10] }).imu.changes) = [10, 9, 11] ∧
      ((after .ownerLost (s .lost)).imu.items.map Item.condition) =
        [.ownLocal, .ownLocal, .ownLocal, .stale, .stale, .stale, .current] := by decide +kernel

/-- An owner event in parts: one item STALE and the next still CURRENT for a read between their steps, the first fed already; the steps
left; and the event taken with no step yet, and with more steps than items. -/
theorem test_meets_OwnerEventInParts :
    let e : OwnerEvent := { kind := .lost, station := 1 }
    let s := { withFrame (frame .remote 1 5 false (.presence 0x1234)) active with imu.events := [e] }
    let one := after (.ownerLost (some 1)) s
    let read := fun k => (after (.itemViewWord0Read k) one).hpt.readData &&& 0xF#16
    takesEvents s = true ∧ takesEvents one = true ∧ takesFrames one = false ∧ portFree one ∧ ImageRules one ∧
      one.imu.applying = some { event := e, todo := [4, 5] } ∧ one.imu.events = [] ∧ one.imu.changes = [9] ∧
      [read 3, read 4, read 5] = [3, 1, 1] ∧ (after .nextChange one).hpt.readData = 9 ∧
      after (.ownerLost (some 2)) one = after .ownerLost s ∧ after .imuTakeFrame one = one ∧ after .ownerDoubtful one = one ∧
      (after (.ownerLost (some 0)) s).imu = { s.imu with events := [], applying := some { event := e, todo := [3, 4, 5] } } ∧
      after (.ownerLost (some 4)) s = after .ownerLost s ∧ (after .ownerLost s).imu.applying = none := by
  unfold portFree ImageRules; decide +kernel

/-- Each kind of owner event with a remote frame in its notice, the last and not the last. -/
theorem test_meets_OwnerEventsInNotice :
    let f := frame .remote 1 9 false (.gate 1 6)
    let s := fun kind more => ({ active with
      imu.work := .notice f, imu.events := { kind := kind, station := 1 } :: List.replicate more { kind := .lost, station := 2 } } : State)
    takesEvents (s .rejoined 0) = true ∧ takesEvents (s .lost 1) = true ∧
      ((after .ownerRejoined (s .rejoined 0)).imu.items.map Item.baselineOpen) = [false, false, false, true, true, true, false] ∧
      (after .ownerRejoined (s .rejoined 0)).imu.work = .gate .remote 1 ∧
      (after .ownerRejoined (s .rejoined 1)).imu.work = .notice f ∧
      (after .ownerDoubtful (s .doubtful 0)).imu.changes = [9, 10, 11] ∧
      (after .ownerDoubtful (s .doubtful 1)).imu.heldGate = active.imu.heldGate ∧
      (after .ownerLost (s .lost 1)).imu.changes = [9, 10, 11] ∧
      (after .ownerLost (s .lost 1)).imu.events = [{ kind := .lost, station := 2 }] := by decide +kernel

/-- What the IMU may not take: a frame while an event waits or work is in hand, an event while records or a gate are in hand or of another
kind than the oldest, and nothing while a released read waits or before JOINING. -/
theorem test_meets_Arbitration :
    let f := frame .remote 1 5 false (.update [record 9 3 [1]])
    let g := frame .self 0 8 false (.gate 1 5)
    let e : OwnerEvent := { kind := .lost, station := 1 }
    let s := fun frame work events => ({ withFrame frame active with imu.work := work, imu.events := events } : State)
    let still := fun c (t : State) => after c t = t
    let hold := fun (a : Access) => ({ s f .free [e] with hpt.held := some { access := a, released := true } } : State)
    let busy := [Work.remoteRecords 1 [record 9 3 [1]], Work.selfRecords [record 5 4 [1]], Work.gate .self 1, Work.gate .remote 1]
    takesFrames (s f .free []) = true ∧ takesFrames (s f .free [e]) = false ∧ takesEvents (s f .free [e]) = true ∧
      still .imuTakeFrame (s f .free [e]) ∧ still .selfFrameTake (s g .free [e]) ∧ still .ownerDoubtful (s f .free [e]) ∧
      still .ownerLost (s f .free []) ∧ ¬still .ownerLost (s f .free [e]) ∧
      (∀ w ∈ busy, takesEvents (s f w [e]) = false ∧ still .imuTakeFrame (s f w []) ∧ still .selfFrameTake (s g w []) ∧
        still .ownerLost (s f w [e])) ∧
      imuSteps (hold (.viewWord0 3)) = false ∧ imuSteps (hold (.sampleWord 3)) = false ∧ imuSteps (hold (.planWrite 3 9)) = true ∧
      still .ownerLost (hold (.viewWord0 3)) ∧ imuSteps State.reset = false ∧
      imuSteps { active with stc.station := .joining } = true ∧ imuSteps { active with stc.station := .muted } = true := by
  decide +kernel

/-- Two events waiting, and one, before a frame of each kind. -/
theorem test_meets_WaitingEvents :
    let f := frame .remote 1 9 false (.update [record 9 3 [1]])
    let e : OwnerEvent := { kind := .lost, station := 1 }
    let s := { active with imu.work := .notice f, imu.events := [e, { e with kind := .rejoined }] }
    let last := fun body => after .ownerLost { s with imu.work := .notice { f with body := body }, imu.events := [e] }
    imuSteps s = true ∧ s.imu.work = .notice f ∧ (after .ownerLost s).imu.work = .notice f ∧
      (after .ownerRejoined (after .ownerLost s)).imu.work = .remoteRecords 1 [record 9 3 [1]] ∧
      (let two := after (.ownerRejoined (some 2)) (after .ownerLost s)
      two.imu.work = .notice f ∧ two.imu.events = [] ∧ two.imu.applying = some { event := { e with kind := .rejoined }, todo := [5] } ∧
        (after .ownerRejoined two).imu.work = .remoteRecords 1 [record 9 3 [1]]) ∧
      (last (.gate 1 6)).imu.work = .gate .remote 1 ∧ (last (.gate 1 6)).hpt.counters.missedGates.count = 1 ∧
      (last (.presence 0x1234)).imu.work = .free := by decide +kernel

/-- The four ways of a record that does not fit: unknown item, wrong length, wrong sender, an item of this station. -/
theorem test_meets_ForeignRecords :
    let s := fun sender r => ({ active with imu.work := .remoteRecords sender [r] } : State)
    imuSteps (s 1 (record 8 3 [1])) = true ∧ findSlot table 8 = none ∧ findSlot table 9 = some 3 ∧ findSlot table 5 = some 0 ∧
      (after .remoteRecord (s 1 (record 8 3 [1]))).hpt.counters.foreignRecords.count = 1 ∧
      (after .remoteRecord (s 1 (record 9 3 [1, 2]))).hpt.counters.foreignRecords.count = 1 ∧
      (after .remoteRecord (s 2 (record 9 3 [1]))).hpt.counters.foreignRecords.count = 1 ∧
      (after .remoteRecord (s 1 (record 5 4 [1]))).hpt.flags.itemClash = true := by decide +kernel

/-- Versions 1 newer, equal, 32767 newer and 32768 away from the held one. -/
theorem test_meets_RemoteRecord :
    let s := fun version => ({ active with imu.work := .remoteRecords 1 [record 9 version [1]] } : State)
    let visible := fun version => ((after .remoteRecord (s version)).imu.items[3]?).bind Item.visiblePart
    imuSteps (s 3) = true ∧ findSlot (s 3).imu.items 9 = some 3 ∧
      (s 3).imu.items[3]? = some (otherItem 9 1 1 .state none (some (part 2 [7])) none) ∧
      visible 3 = some (part 3 [1]) ∧ visible 2 = some (part 2 [7]) ∧ visible 32769 = some (part 32769 [1]) ∧
      visible 32770 = some (part 2 [7]) ∧ (after .remoteRecord (s 3)).imu.changes = [9] ∧
      [(part 5 [1], part 2 [8]), (part 2 [8], part 5 [1])].map (fun p =>
        (otherItem 10 1 1 .state (some 1) (some p.1) (some p.2)).heldPart) = [some (part 2 [8]), some (part 5 [1])] ∧
      (otherItem 9 1 1 .state none (some (part 5 [1])) none).heldPart = some (part 5 [1]) := by decide +kernel

/-- Differences of 1, 2, 256, 257 and 32767 from LAST QUEUED VERSION, and a queue that is full; a sample view read held by the append, and
one at a full queue. -/
theorem test_meets_Sample :
    let s := fun version => ({ active with imu.work := .remoteRecords 1 [record 11 version [1]] } : State)
    let queued := fun version => (after .remoteRecord (s version)).stu.queue.map fun e => (e.first, e.gap)
    let queuedAlready : Sample := { item := 11, sender := 1, version := 2, value := [6], gap := none, first := true }
    let full : State := { active with imu := (s 3).imu, stu.queue := List.replicate 256 queuedAlready }
    imuSteps (s 3) = true ∧ findSlot table 11 = some 5 ∧
      (table[5]?).map (fun it => accepted it (record 11 3 [1])) = some true ∧
      (table[5]?).bind Item.stream = some { lastQueued := some 2, firstOwed := false } ∧
      queued 3 = [(false, none)] ∧ queued 4 = [(false, some 1)] ∧ queued 258 = [(false, some 255)] ∧
      queued 259 = [(false, some 255)] ∧ queued 32769 = [(false, some 255)] ∧
      (after .remoteRecord full).hpt.flags.sampleOverrun = true ∧ portFree (s 3) ∧ portFree full ∧
      (after (.remoteRecord (some 1)) (s 3)).hpt.held = some { access := .sampleWord 1, released := true } ∧
      (after .heldAccessServed (after (.remoteRecord (some 1)) (s 3))).hpt.readData = 1 ∧
      (after (.remoteRecord (some 1)) full).hpt.held = none ∧ (after (.remoteRecord (some 1)) full).hpt.readData = 256 := by
  unfold portFree; decide +kernel

/-- A FOLLOW item with a new version and with the held one, and a GATED item. -/
theorem test_meets_SelfRecord :
    let s := fun r => ({ active with imu.work := .selfRecords [r] } : State)
    imuSteps (s (record 5 4 [1])) = true ∧ findSlot table 5 = some 0 ∧ findSlot table 6 = some 1 ∧
      ((after .selfRecord (s (record 5 4 [1]))).imu.items[0]?).bind Item.visiblePart = some (part 4 [1]) ∧
      ((after .selfRecord (s (record 5 3 [1]))).imu.items[0]?).bind Item.visiblePart = some (part 3 [10]) ∧
      ((after .selfRecord (s (record 6 4 [1, 2]))).imu.items[1]?).bind Item.pendingPart = some (part 4 [1, 2]) := by decide +kernel

/-- A group with items to move, the last of them moved, and a group with none. -/
theorem test_meets_GateSteps :
    let s := { active with imu.work := .gate .remote 1 }
    imuSteps s = true ∧ nextGateSlot s 1 = some 1 ∧ (after .gateItemStep s).imu.changes = [6] ∧
      nextGateSlot (after .gateItemStep s) 1 = some 4 ∧ after .gateApplicationEnd s = s ∧
      (after .gateApplicationEnd (after .gateItemStep (after .gateItemStep s))).hpt.flags.gateApplied = true ∧
      (∀ it ∈ active.imu.items, it.plan.gate = some 2 → it.pendingPart = none) := by decide +kernel

theorem test_meets_GateWhole :
    let s := { active with imu.work := .gate .remote 1 }
    imuSteps s = true ∧ s.imu.work = .gate .remote 1 ∧
      (s.imu.items.countP fun it => it.plan.gate == some 1 && it.pendingPart.isSome) = 2 := by decide +kernel

theorem test_meets_LostTimer : (peerOf active 1).state = .present ∧ (peerOf active 1).timeLeft.isSome = true ∧
    (after (.lostTimerExpiry 1) active).imu.events = [{ kind := .lost, station := 1 }] ∧
    (after (.imuTakeFrame [1]) (withFrame (frame .remote 1 9 false (.presence 0x1234)) active)).imu.events =
      [{ kind := .lost, station := 1 }, { kind := .rejoined, station := 1 }] := by decide +kernel

/-- A timer started again behind a lost event of its own station does not expire until that event has been taken. -/
theorem test_meets_LostEventWaits :
    let s := after (.imuTakeFrame [1]) (withFrame (frame .remote 1 9 false (.presence 0x1234)) active)
    (peerOf s 1).timeLeft = some 24 ∧ { kind := .lost, station := 1 } ∈ s.imu.events ∧ after (.lostTimerExpiry 1) s = s ∧
      (after (.lostTimerExpiry 1) (after .ownerLost s)).imu.events =
        [{ kind := .rejoined, station := 1 }, { kind := .lost, station := 1 }] := by decide +kernel

/-- With 3 frames queued, with 4, and with a presence frame outstanding. -/
theorem test_meets_PresenceTimer :
    let f := presence false
    active.tsc.presenceTimer = .running 10 ∧ active.stc.station = .active ∧ active.stc.straps.listen = false ∧
      active.tsc.firstPending = false ∧ active.lau.lastCompleted.isSome = true ∧
      (after .presenceTimerExpiry { active with lau.queue := [f, f, f] }).lau.queue = [f, f, f, f] ∧
      (after .presenceTimerExpiry { active with lau.queue := [f, f, f, f] }).lau.presenceOffer = some f ∧
      (after .presenceTimerExpiry { active with tsc.presenceOutstanding := true }).lau.queue = [] := by decide +kernel

/-- Ready with items to send, ready with none, and not ready. -/
theorem test_meets_RefreshTimer :
    active.tsc.refreshTimer = .running 1 ∧ active.stc.station = .active ∧ active.tsc.firstPending = false ∧
      active.lau.queue = [] ∧ active.imu.work.isSelf = false ∧ active.lau.lastCompleted.isSome = true ∧
      refreshSlots active = [0, 1, 2] ∧ (after .refreshTimerExpiry active).tsc.cursor = 3 ∧
      (after .refreshTimerExpiry { active with imu.items := [] }).tsc.refreshTimer = .running 1 ∧
      (after .refreshTimerExpiry { active with tsc.firstPending := true }).tsc.refreshTimer = .expired := by decide +kernel

theorem test_meets_Frames : isSendCommand (.gapEnd true) = true ∧ isImageCommand (.remoteRecord none) = true ∧ isReset .kick = false ∧
    (Instr.kick).wellFormed = true ∧ PlanPhase { active with stc.station := .muted } := by
  refine ⟨rfl, rfl, rfl, rfl, nofun, nofun, by decide⟩

/-- The premises of the invariants' statements hold together of a station in an attempt. -/
theorem test_meets_SendingInvariants :
    let s := { sending (reqFrame (.gate 1)) 1 with req.slot := some (lastFrameOut false 0) }
    PlanPhase s ∧ SendingRules s ∧ TransmitQueueRules s ∧ OutcomeRules s ∧ StoresCanonical s ∧ SampleRules s := by
  refine ⟨⟨nofun, nofun, by decide⟩, ?_, by unfold TransmitQueueRules; decide +kernel, ⟨nofun, nofun, rfl, rfl⟩,
    by unfold StoresCanonical; decide +kernel, by unfold SampleRules; decide⟩
  refine ⟨by decide, by decide, by decide, rfl, rfl, by decide, by decide, by decide, by decide, by decide, ?_⟩
  rintro a h; cases h; rfl

/-- An owner event list as full as its rules allow: a lost event of each other station and the answer to a frame. -/
theorem test_meets_EventList :
    let lost : List OwnerEvent := (List.finRange 32).tail.map fun n => { kind := .lost, station := n }
    let s := { active with imu.events := lost ++ [{ kind := .rejoined, station := 1 }] }
    EventListRules s ∧ s.imu.events.length = 32 ∧ PeerRules s := by
  unfold EventListRules PeerRules; decide +kernel

theorem test_meets_ImageInvariants : PlanPhase active ∧ PeerRules active ∧ ImageRules active ∧ ItemRules active ∧
    TrafficRules active := by
  refine ⟨⟨nofun, nofun, by decide⟩, by unfold PeerRules; decide +kernel, by unfold ImageRules; decide +kernel, ⟨by decide, ?_⟩, ?_⟩
  · intro it h
    fin_cases h <;> refine ⟨by decide, by decide, ?_⟩ <;> rintro p (h | h) <;> cases h <;> rfl
  · unfold TrafficRules
    repeat' constructor
    all_goals nofun

end Sys2Proof.Tests
end

section
/-! SUPPORT. A record of an UPDATE frame taken whole: the command that takes it, the item it leaves and the state around it, and the
obligations on remote and self records (R19 to R23). -/

namespace Sys2Proof.Laws

open Sys2Proof.Machine

/-! ## The item a record leaves -/

/-- A record leaves an item's plan fields. -/
@[simp] theorem withRecord_plan (it : Item) (r : Record) : (it.withRecord r).plan = it.plan := by
  unfold Item.withRecord; split <;> rfl

/-- An accepted record sets the visible part of a FOLLOW item or the pending part of a GATED one, makes the item CURRENT and closes its
baseline (R22). -/
theorem accept_eq (it : Item) (r : Record) (stream : Option StreamFields) :
    Item.accept r stream it =
      match it.plan.gate with
      | none => { it with visiblePart := some { version := r.version, value := r.value }, condition := .current,
                          baselineOpen := false, stream := stream }
      | some _ => { it with pendingPart := some { version := r.version, value := r.value }, condition := .current,
                            baselineOpen := false, stream := stream } := by
  unfold Item.accept Item.withRecord
  cases it.plan.gate <;> rfl

/-- A duplicate leaves an item's plan fields. -/
@[simp] theorem duplicate_plan (it : Item) : it.duplicate.plan = it.plan := by
  unfold Item.duplicate; split <;> rfl

/-- A self record leaves an item's plan fields. -/
@[simp] theorem takeSelf_plan (r : Record) (it : Item) : (Item.takeSelf r it).plan = it.plan := by
  unfold Item.takeSelf
  simp only
  split
  · rfl
  · exact withRecord_plan it r

/-- A self record whose version is held sets no part (R23). -/
theorem takeSelf_held {it : Item} {r : Record} (h : it.heldPart.map Part.version = some r.version) :
    Item.takeSelf r it = { it with condition := .ownLocal, baselineOpen := false } := by
  simp [Item.takeSelf, h]

/-- A self record with another version sets the visible part of a FOLLOW item (R23). -/
theorem takeSelf_follow {it : Item} {r : Record} (h : it.heldPart.map Part.version ≠ some r.version) (hg : it.plan.gate = none) :
    Item.takeSelf r it =
      { it with visiblePart := some { version := r.version, value := r.value }, condition := .ownLocal, baselineOpen := false } := by
  simp only [Item.takeSelf, if_neg h, Item.withRecord, hg]

/-- A self record with another version sets the pending part of a GATED item (R23). -/
theorem takeSelf_gated {it : Item} {r : Record} {g : Group} (h : it.heldPart.map Part.version ≠ some r.version)
    (hg : it.plan.gate = some g) :
    Item.takeSelf r it =
      { it with pendingPart := some { version := r.version, value := r.value }, condition := .ownLocal, baselineOpen := false } := by
  simp only [Item.takeSelf, if_neg h, Item.withRecord, hg]

/-! ## The test of R21 -/

/-- The test of R21 on an item that holds a part. -/
theorem accepted_of_held {it : Item} {held : Part} (h : it.heldPart = some held) (r : Record) :
    accepted it r = true ↔ it.baselineOpen = true ∨ it.condition = .vacant ∨
      (1 ≤ (r.version - held.version).toNat ∧ (r.version - held.version).toNat ≤ 32767) := by
  simp [accepted, newer, h, or_assoc]

/-- The test of R21 on an item that holds no part. -/
theorem accepted_of_not_held {it : Item} (h : it.heldPart = none) (r : Record) :
    accepted it r = true ↔ it.baselineOpen = true ∨ it.condition = .vacant := by
  simp [accepted, h]

/-- Versions with difference 0 are equal. -/
theorem version_sub_eq_zero {a b : Version} : (a - b).toNat = 0 ↔ b = a := by
  constructor <;> intro h <;> bv_omega

/-! ## One item changed -/

/-- The state with the item of slot `k` changed from `it` to `after`, and listed by the test of R25 and its notify bit. -/
def changeItem (k : Nat) (it after : Item) (s : State) : State :=
  { s with
    imu.items := s.imu.items.set k after
    imu.changes :=
      if (after.visiblePart ≠ it.visiblePart ∨ after.condition ≠ it.condition) ∧ notifyBit s k = true ∧
          it.plan.item ∉ s.imu.changes then s.imu.changes ++ [it.plan.item] else s.imu.changes }

/-- An update that leaves the item's plan fields changes the item and lists it. -/
theorem updateItem_eq_changeItem {s : State} {k : Nat} {it : Item} (h : s.imu.items[k]? = some it) (f : Item → Item)
    (hn : (f it).plan = it.plan) : updateItem k f s = changeItem k it (f it) s := updateItem_eq h f hn

/-- An item left as it was is no change. -/
theorem changeItem_same {s : State} {k : Nat} {it : Item} (h : s.imu.items[k]? = some it) : changeItem k it it s = s := by
  obtain ⟨hk, rfl⟩ := List.getElem?_eq_some_iff.mp h
  simp [changeItem]

/-! ## A remote record that does not fit the plan (R19, R20) -/

/-- A record of an item that the plan does not name is counted, and nothing else is done. -/
theorem applyRemoteRecord_unknown {s : State} {r : Record} (h : findSlot s.imu.items r.item = none) (sender : Station) :
    applyRemoteRecord sender r s = countUp .foreignRecords s := by
  simp [applyRemoteRecord, h]

section Known

variable {s : State} {sender : Station} {r : Record} {k : Nat} {it : Item}

/-- A record of another LENGTH than its item's, or from another station than the owner of an item that is not this station's, is counted,
and nothing else is done. -/
theorem applyRemoteRecord_foreign (hk : findSlot s.imu.items r.item = some k) (hi : s.imu.items[k]? = some it)
    (h : r.value.length ≠ it.plan.length ∨ sender ≠ it.plan.owner ∧ it.plan.owner ≠ stationNumber s) :
    applyRemoteRecord sender r s = countUp .foreignRecords s := by
  simp only [applyRemoteRecord, hk, hi]
  rcases h with hl | ⟨ho, hs⟩
  · rw [if_pos hl]
  · rw [if_pos ho, if_neg hs, ite_self]

/-- A record of an own item from another station is counted, marks the clash and raises ITEM_CLASH. -/
theorem applyRemoteRecord_clash (hk : findSlot s.imu.items r.item = some k) (hi : s.imu.items[k]? = some it)
    (hl : r.value.length = it.plan.length) (ho : sender ≠ it.plan.owner) (hs : it.plan.owner = stationNumber s) :
    applyRemoteRecord sender r s = raiseFlag .itemClash (changeItem k it it.markClash (countUp .foreignRecords s)) := by
  have hu : updateItem k Item.markClash (countUp .foreignRecords s) = changeItem k it it.markClash (countUp .foreignRecords s) :=
    updateItem_eq_changeItem (s := countUp .foreignRecords s) hi Item.markClash rfl
  simp only [applyRemoteRecord, hk, hi]
  rw [if_neg (not_not.mpr hl), if_pos ho, if_pos hs, ownershipClash, hu]

/-- Every record that does not fit the plan is counted once. -/
theorem applyRemoteRecord_unfit_counters
    (h : findSlot s.imu.items r.item = none ∨ ∃ k it, findSlot s.imu.items r.item = some k ∧ s.imu.items[k]? = some it ∧
      (r.value.length ≠ it.plan.length ∨ sender ≠ it.plan.owner)) :
    (applyRemoteRecord sender r s).hpt.counters =
      s.hpt.counters.set (s.hpt.counters.get .foreignRecords).increment .foreignRecords := by
  rcases h with hk | ⟨k, it, hk, hi, hbad⟩
  · rw [applyRemoteRecord_unknown hk]; rfl
  · by_cases hl : r.value.length = it.plan.length
    · have ho : sender ≠ it.plan.owner := hbad.resolve_left (not_not.mpr hl)
      by_cases hs : it.plan.owner = stationNumber s
      · rw [applyRemoteRecord_clash hk hi hl ho hs]; rfl
      · rw [applyRemoteRecord_foreign hk hi (.inr ⟨ho, hs⟩)]; rfl
    · rw [applyRemoteRecord_foreign hk hi (.inl hl)]; rfl

/-! ## A remote record that fits its item (R21, R22) -/

/-- An accepted record changes its item, and the stream unit when it is a stream item's. -/
theorem acceptRecord_eq (hi : s.imu.items[k]? = some it) (sender : Station) (r : Record) :
    ∃ stream queue flags,
      acceptRecord k it sender r s =
        { changeItem k it (Item.accept r stream it) s with stu.queue := queue, hpt.flags := flags } ∧
      (it.plan.kind = .state → queue = s.stu.queue ∧ flags = s.hpt.flags) := by
  have hp : ∀ stream, (Item.accept r stream it).plan = it.plan := fun _ => withRecord_plan it r
  cases hkind : it.plan.kind with
  | state =>
    refine ⟨it.stream, s.stu.queue, s.hpt.flags, ?_, fun _ => ⟨rfl, rfl⟩⟩
    simp only [acceptRecord, hkind]
    exact updateItem_eq_changeItem hi _ (hp _)
  | stream =>
    obtain ⟨queue, flags, hq⟩ := takeSample_only it sender r s
    refine ⟨some (streamAfter (sampleRoom s) it.baselineOpen it.streamFields r.version), queue, flags, ?_, nofun⟩
    simp only [acceptRecord, hkind, hq]
    exact updateItem_eq_changeItem (s := { s with stu.queue := queue, hpt.flags := flags }) hi _ (hp _)

/-- A fitting record changes its item: by acceptance when the test of R21 passes, which alone may reach the stream unit; otherwise as a
duplicate when its version is the held one, and not at all when it is older. -/
theorem applyRemoteRecord_fits (hk : findSlot s.imu.items r.item = some k) (hi : s.imu.items[k]? = some it)
    (hl : r.value.length = it.plan.length) (ho : sender = it.plan.owner) :
    ∃ after queue flags,
      applyRemoteRecord sender r s = { changeItem k it after s with stu.queue := queue, hpt.flags := flags } ∧
      (it.plan.kind = .state → queue = s.stu.queue ∧ flags = s.hpt.flags) ∧
      (accepted it r = true → ∃ stream, after = Item.accept r stream it) ∧
      (accepted it r = false → queue = s.stu.queue ∧ flags = s.hpt.flags ∧
        after = if it.heldPart.map Part.version = some r.version then it.duplicate else it) := by
  have hfit : applyRemoteRecord sender r s =
      if accepted it r = true then acceptRecord k it sender r s
      else if it.heldPart.map Part.version = some r.version then updateItem k Item.duplicate s
      else s := by
    simp only [applyRemoteRecord, hk, hi]
    rw [if_neg (not_not.mpr hl), if_neg (not_not.mpr ho)]
  rw [hfit]
  cases hacc : accepted it r with
  | true =>
    obtain ⟨stream, queue, flags, h, hstate⟩ := acceptRecord_eq hi sender r
    exact ⟨_, queue, flags, by rw [if_pos rfl, h], hstate, fun _ => ⟨stream, rfl⟩, nofun⟩
  | false =>
    refine ⟨_, s.stu.queue, s.hpt.flags, ?_, fun _ => ⟨rfl, rfl⟩, nofun, fun _ => ⟨rfl, rfl, rfl⟩⟩
    rw [if_neg Bool.false_ne_true]
    split_ifs with hd
    · exact updateItem_eq_changeItem hi _ (duplicate_plan it)
    · exact (changeItem_same hi).symm

end Known

/-! ## The commands -/

/-- An item's change is the same whatever access the port holds and whatever word it returned last. -/
theorem updateItem_port (k : Nat) (f : Item → Item) (s : State) (held : Option HeldAccess) (data : Word) :
    updateItem k f { s with hpt.held := held, hpt.readData := data } =
      { updateItem k f s with hpt.held := held, hpt.readData := data } := by
  unfold updateItem feedChange notifyBit
  simp only
  split
  · rfl
  · split
    · split <;> rfl
    · rfl

/-- A remote record does the same whatever access the port holds and whatever word it returned last. -/
theorem applyRemoteRecord_port (sender : Station) (r : Record) (s : State) (held : Option HeldAccess) (data : Word) :
    applyRemoteRecord sender r { s with hpt.held := held, hpt.readData := data } =
      { applyRemoteRecord sender r s with hpt.held := held, hpt.readData := data } := by
  have sample : ∀ it, takeSample it sender r { s with hpt.held := held, hpt.readData := data } =
      { takeSample it sender r s with hpt.held := held, hpt.readData := data } := by
    intro it
    unfold takeSample sampleRoom
    simp only
    split <;> rfl
  have number : stationNumber { s with hpt.held := held, hpt.readData := data } = stationNumber s := rfl
  unfold applyRemoteRecord
  simp only [number]
  split
  · rfl
  split
  · rfl
  split
  · rfl
  split
  · split
    · exact congrArg (raiseFlag .itemClash) (updateItem_port _ _ (countUp .foreignRecords s) held data)
    · rfl
  split
  · unfold acceptRecord
    split
    · exact updateItem_port ..
    · rw [sample]
      exact updateItem_port ..
  split
  · exact updateItem_port ..
  · rfl

/-- REMOTE_RECORD applies the first record of the frame in hand and moves the work on; beside that, a sample view read that comes meanwhile
and the release of a held access change the port's held access and the word returned. -/
theorem exec_remoteRecord {s : State} {sender : Station} {r : Record} {rest : List Record} (hs : imuSteps s = true)
    (hw : s.imu.work = .remoteRecords sender (r :: rest)) (read : Option (Fin 16)) :
    ∃ held data,
      exec (.remoteRecord read) s = .next
        { applyRemoteRecord sender r s with
          imu.work := if rest = [] then .free else .remoteRecords sender rest
          hpt.held := held
          hpt.readData := data } := by
  obtain ⟨before, data, ha⟩ := sampleReadArrives_only read s
  obtain ⟨held, hr⟩ := releaseHeld_only (endsWithRecord (findSlot s.imu.items r.item))
    { applyRemoteRecord sender r s with hpt.held := before, hpt.readData := data }
  refine ⟨held, data, ?_⟩
  show execRemoteRecord s read = _
  simp only [execRemoteRecord, hw, if_pos hs, finishRemoteRecord, ha, applyRemoteRecord_port, hr, workOn_remote]

/-- The end of a work item changes what the IMU has in hand, and may change the transmit side and the scheduler. -/
theorem endWork_only (s : State) :
    endWork s = { s with imu.work := .free, lau := (endWork s).lau, tsc := (endWork s).tsc } := by
  unfold endWork
  simp only
  split
  · rw [idleExit_eq, refreshStep_only]
  · rfl

/-- Self records as the work item, or the IMU free when none is left; beside that only the transmit side and the scheduler may change. -/
theorem workOn_self_only (records : List Record) (s : State) :
    workOn records .selfRecords s =
      { s with
        imu.work := if records = [] then .free else .selfRecords records
        lau := (workOn records .selfRecords s).lau
        tsc := (workOn records .selfRecords s).tsc } := by
  cases records with
  | nil => exact endWork_only { s with imu.work := .selfRecords [] }
  | cons r rest => rfl

@[simp] theorem workOn_self_imu (records : List Record) (s : State) :
    (workOn records .selfRecords s).imu =
      { s.imu with work := if records = [] then .free else .selfRecords records } := by rw [workOn_self_only]

@[simp] theorem workOn_self_stu (records : List Record) (s : State) : (workOn records .selfRecords s).stu = s.stu := by
  rw [workOn_self_only]

@[simp] theorem workOn_self_hpt (records : List Record) (s : State) : (workOn records .selfRecords s).hpt = s.hpt := by
  rw [workOn_self_only]

/-- SELF_RECORD applies the first record of the frame in hand and moves the work on; beside that, the release of a held access changes the
port's held access. -/
theorem exec_selfRecord {s : State} {r : Record} {rest : List Record} (hs : imuSteps s = true)
    (hw : s.imu.work = .selfRecords (r :: rest)) :
    ∃ held, exec .selfRecord s = .next (workOn rest .selfRecords { applySelfRecord r s with hpt.held := held }) := by
  obtain ⟨held, hr⟩ := releaseHeld_only (endsWithSelfRecord (findSlot s.imu.items r.item)) (applySelfRecord r s)
  refine ⟨held, ?_⟩
  show execSelfRecord s = _
  simp only [execSelfRecord, hw, if_pos hs, finishSelfRecord, hr]

/-- A self record of a known item changes the item (R23). -/
theorem applySelfRecord_eq {s : State} {r : Record} {k : Nat} {it : Item} (hk : findSlot s.imu.items r.item = some k)
    (hi : s.imu.items[k]? = some it) : applySelfRecord r s = changeItem k it (Item.takeSelf r it) s := by
  simp only [applySelfRecord, hk]
  exact updateItem_eq_changeItem hi _ (takeSelf_plan r it)

/-! ## The obligations -/

/-- Settles O42: by the reason why the record does not fit. -/
theorem foreignRecordsDiscarded : Obligations.ForeignRecordsDiscarded := by
  intro s read sender r rest hs hw t ht
  obtain ⟨held, data, he⟩ := exec_remoteRecord hs hw read
  obtain rfl := Host.Outcome.next.inj (he.symm.trans ht)
  refine ⟨fun hk => ?_, fun k it hk hi hl => ?_, fun k it hk hi hl ho hn => ?_, fun k it hk hi hl ho hn => ?_,
    fun h => ⟨applyRemoteRecord_unfit_counters h, rfl⟩⟩
  · rw [applyRemoteRecord_unknown hk]
    exact ⟨rfl, rfl⟩
  · rw [applyRemoteRecord_foreign hk hi (.inl hl)]
    exact ⟨rfl, rfl⟩
  · rw [applyRemoteRecord_foreign hk hi (.inr ⟨ho, hn⟩)]
    exact ⟨rfl, rfl⟩
  · rw [applyRemoteRecord_clash hk hi hl ho hn]
    refine ⟨rfl, ?_, rfl⟩
    simp [changeItem, Item.markClash]

/-- Settles O43: by the test of R21 on the held part. -/
theorem remoteRecordComparedWithItem : Obligations.RemoteRecordComparedWithItem := by
  intro s read sender r rest k it hs hw hk hi hl ho
  obtain ⟨held, data, he⟩ := exec_remoteRecord hs hw read
  obtain ⟨after, queue, flags, ht, hstate, htaken, hleft⟩ := applyRemoteRecord_fits hk hi hl ho.symm
  have hlen : k < s.imu.items.length := (List.getElem?_eq_some_iff.mp hi).1
  rw [ht] at he
  refine ⟨rfl, _, after, he, List.getElem?_set_self hlen, fun j hj => List.getElem?_set_ne hj.symm, rfl, rfl, rfl, ?_, ?_, ?_⟩
  · intro hkind
    obtain ⟨rfl, rfl⟩ := hstate hkind
    exact ⟨rfl, rfl⟩
  · intro part hpart
    have hiff := accepted_of_held hpart r
    refine ⟨fun h => ?_, fun h hd => ?_, fun h hd => ?_⟩
    · obtain ⟨stream, rfl⟩ := htaken (hiff.mpr h)
      exact accept_eq it r stream
    · obtain ⟨rfl, rfl, rfl⟩ := hleft (Bool.eq_false_iff.mpr fun g => h (hiff.mp g))
      have hv : it.heldPart.map Part.version = some r.version := by simp [hpart, version_sub_eq_zero.mp hd]
      exact ⟨if_pos hv, rfl, rfl⟩
    · obtain ⟨rfl, rfl, rfl⟩ := hleft (Bool.eq_false_iff.mpr fun g => h (hiff.mp g))
      have hv : it.heldPart.map Part.version ≠ some r.version := by
        simpa [hpart] using fun e => hd (version_sub_eq_zero.mpr e)
      exact ⟨if_neg hv, rfl, rfl⟩
  · intro hnone h
    obtain ⟨stream, rfl⟩ := htaken ((accepted_of_not_held hnone r).mpr h)
    exact accept_eq it r stream

/-- Settles O45: by whether the version is held and whether the item is GATED, and by whether the record is the frame's last. -/
theorem selfRecordApplied : Obligations.SelfRecordApplied := by
  intro s r rest k it hs hw hk hi
  obtain ⟨held, he⟩ := exec_selfRecord hs hw
  rw [applySelfRecord_eq hk hi] at he
  let u : State := { changeItem k it (Item.takeSelf r it) s with hpt.held := held }
  refine ⟨workOn rest .selfRecords u, Item.takeSelf r it, he, by simp [u, changeItem], by simp [u, changeItem],
    by simp [u, changeItem], by simp [u, changeItem], by simp, fun hrest => ?_, fun hrest => ?_, by simp [u, changeItem], ?_⟩
  · obtain ⟨next, more, rfl⟩ := List.exists_cons_of_ne_nil hrest
    exact ⟨rfl, rfl⟩
  · subst hrest
    rw [workOn_self_imu]
    exact endWork_looked (s := { u with imu.work := .selfRecords [] }) rfl
  · split_ifs with hv
    · exact takeSelf_held hv
    · cases hg : it.plan.gate with
      | none => exact takeSelf_follow hv hg
      | some g => exact takeSelf_gated hv hg

end Sys2Proof.Laws
end

section
/-! SUPPORT. The slots that a setting of RUN or a KICK has examined: what the two commands run, what the examination says of a HOST-owned
cursor slot and of one handed back, that the process changes nothing but the request engine where no slot comes to be in progress, and the
obligations on KICK and on refused and SILENT slots (R105, R108, R109). -/

namespace Sys2Proof.Laws

open Sys2Proof.Machine

/-! ## The commands that set the process going -/

/-- A setting of RUN in STOPPED or SUSPENDED makes the process RUNNING and lets it go on (R103). -/
theorem setRun_starts {s : State} (h : s.req.process ≠ .running) : setRun s = runRequests { s with req.process := .running } := by
  unfold setRun
  cases hp : s.req.process with
  | running => exact absurd hp h
  | stopped => rfl
  | suspended => rfl

/-- A KICK in SUSPENDED, where the process examines slots, is a setting of RUN (R105). -/
theorem kickProcess_suspended {s : State} (h : s.req.process = .suspended) (hx : examines s = true) : kickProcess s = setRun s := by
  rw [setRun_starts (by simp [h]), kickProcess, if_pos ⟨h, hx⟩]

/-- A KICK in any other process state changes nothing (R105). -/
theorem kickProcess_ignored {s : State} (h : s.req.process ≠ .suspended) : kickProcess s = s :=
  if_neg fun hk => h hk.1

theorem exec_runSet {s : State} (h : portFree s) : exec .runSet s = .next (setRun s) := by
  show execRunSet s = _
  rw [execRunSet, hostWrite_free h]

theorem exec_kick {s : State} (h : portFree s) : exec .kick s = .next (kickProcess s) := by
  show execKick s = _
  rw [execKick, hostWrite_free h]

/-- A write of any word to KICK is a KICK (R170). -/
theorem exec_hostRegisterWrite_kick (v : Word) (s : State) : exec (.hostRegisterWrite 0x3006#16 v) s = exec .kick s := by
  have kick : writeWord 0x3006#16 v = kickProcess := funext fun t => writeWord_register v t (by decide)
  show execHostRegisterWrite 0x3006#16 v s = execKick s
  rw [execHostRegisterWrite, kick, execKick]

theorem setRun_effects {s : State} (h : s.req.process ≠ .running) : RequestEffects s (setRun s) :=
  setRun_starts h ▸ (process_effects .running s).trans (runRequests_effects _)

theorem setRun_settled {s : State} (h : s.req.process ≠ .running) : TransmitterSettled s.lau.transmitter (setRun s) :=
  setRun_starts h ▸ runRequests_settled { s with req.process := .running }

/-! ## The examination that a setting of RUN makes -/

@[simp] theorem cursorOn_zero (s : State) : cursorOn s 0 = s := by simp [cursorOn]

/-- The exit from IDLE leaves everything that an examination leaves, and the transmit queue. -/
theorem leftBy_idleExit (s : State) : leftBy (idleExit s) = leftBy s ∧ (idleExit s).lau.queue = s.lau.queue := by
  rw [idleExit_eq]
  exact ⟨rfl, rfl⟩

/-- A setting of RUN with no slot in progress examines the cursor slot, and the slots after it (R103, R104). -/
theorem setRun_examined {s : State} (h : s.req.process ≠ .running) (hs : s.req.slot = none) (hx : examines s = true) :
    CursorSlotExamined s (setRun s) := by
  let u : State := { s with req.process := .running }
  have ran : CursorSlotExamined u (reqRun 40 u) := reqRun_examined 22 hs rfl hx
  have left := leftBy_idleExit (reqRun 40 u)
  have settled : CursorSlotExamined u (runRequests u) := CursorSlotExamined_congr ran rfl rfl id id left.1 (left.2 ▸ List.prefix_rfl)
  rw [setRun_starts h]
  -- what is said of `s` is said of ring, cursor and slot alone, which `u` has from `s`
  exact fun n status => settled n status

/-- An examined cursor slot that is HOST-owned suspends the process and leaves the ring and the cursor (R104). -/
theorem examined_hostOwned {s t : State} (h : CursorSlotExamined s t) (ho : (cursorCopy s).stationOwned = false) :
    t.req = { s.req with process := .suspended } ∧ t.hpt.flags.requestsIdle = true := by
  obtain ⟨-, -, rests, -⟩ := h 0 (fun _ => .none) (Nat.zero_le _) (Or.inl rfl) nofun
  obtain ⟨req, ring, -, idle⟩ := rests (Or.inr (by simpa only [cursorOn_zero] using ho))
  refine ⟨?_, idle⟩
  rw [req, ring rfl]
  simp

/-- An examined cursor slot that is refused or SILENT is handed back, and a HOST-owned one behind it suspends the process (R108, R109). -/
theorem examined_handedBack {s t : State} (h : CursorSlotExamined s t) (hc : StoresCanonical s)
    (ho : (cursorCopy s).stationOwned = true) {status : SlotStatus}
    (hst : slotCheck s (cursorCopy s) = some status ∨
      slotCheck s (cursorCopy s) = none ∧ (t.stc.station = .muted ∨ s.stc.straps.listen = true) ∧ status = .silent) :
    HandedBack s t status (cursorCopy s).size 0 0 ∧ t.hpt.flags.requestDone = true ∧
      (NextSlotHostOwned s →
        t.req = { s.req with ring := t.req.ring, cursor := s.req.cursor + 1, process := .suspended } ∧
          t.hpt.flags.requestsIdle = true) := by
  obtain ⟨back, done, rests, -⟩ := h 1 (fun _ => status) (by omega) (Or.inr hc) fun j hj => by
    obtain rfl := Nat.lt_one_iff.mp hj
    simpa only [cursorOn_zero] using And.intro ho hst
  have first := back 0 Nat.one_pos
  simp only [cursorOn_zero] at first
  refine ⟨first, done Nat.one_ne_zero, fun next => ?_⟩
  obtain ⟨req, -, -, idle⟩ := rests (Or.inr next)
  exact ⟨req, idle⟩

/-! ## Where no slot comes to be in progress -/

/-- The work on a slot in progress has an outcome still to come, or records to build that an ACTIVE station may send. -/
def WorkGoesOn (t : State) : Prop :=
  ∃ w, t.req.slot = some w ∧ (w.outstanding ≠ 0 ∨ w.remaining ≠ 0 ∧ w.halted = false ∧ t.stc.station = .active)

/-- A slot whose work goes on may not be closed. -/
theorem closable_workGoesOn {t : State} {w : SlotWork} (h : WorkGoesOn t) (hw : t.req.slot = some w) : closable t w = false := by
  obtain ⟨w', hs, goes⟩ := h
  obtain rfl : w' = w := Option.some.inj (hs.symm.trans hw)
  rcases goes with out | ⟨left, running, active⟩
  · simp [closable, out]
  · simp [closable, left, running, active]

/-- A build leaves the frame built outstanding. -/
theorem buildFrame_workGoesOn (w : SlotWork) (t : State) : WorkGoesOn (buildFrame w t) := by
  unfold buildFrame
  cases w.gate with
  | some g => exact ⟨_, rfl, Or.inl (Nat.succ_ne_zero _)⟩
  | none => exact ⟨_, rfl, Or.inl (Nat.succ_ne_zero _)⟩

theorem WorkGoesOn_congr {s t : State} (h : WorkGoesOn s) (hr : t.req = s.req) (hs : t.stc = s.stc) : WorkGoesOn t := by
  unfold WorkGoesOn at h ⊢
  rwa [hr, hs]

/-- A slot in progress whose work goes on stays in progress as the request process runs. -/
theorem reqRun_workGoesOn (n : Nat) {s : State} (h : WorkGoesOn s) : WorkGoesOn (reqRun n s) := by
  refine reqRun_keeps (fun t ht => ?_) (fun t ht => ?_) (fun t w _ _ _ => buildFrame_workGoesOn w t) (fun t w ht hw hc => ?_)
    (fun t ht hn _ _ => ?_) n s h
  · exact WorkGoesOn_congr ht (admitPresence_req t) (admitPresence_effects t).stc
  · exact WorkGoesOn_congr ht (admitReq_req t) (admitReq_effects t).stc
  · rw [closable_workGoesOn ht hw] at hc
    cases hc
  · obtain ⟨w, hs, -⟩ := ht
    rw [hn] at hs
    cases hs

/-- An examination leaves a valid slot with work that goes on, and otherwise no slot in progress, with item table and sending side as they
were (R104, R108, R109). -/
theorem examineSlot_workGoesOn_or_unsent {s : State} (hs : s.req.slot = none) (hx : examines s = true) :
    WorkGoesOn (examineSlot s) ∨
      (examineSlot s).req.slot = none ∧ (examineSlot s).imu = s.imu ∧ (examineSlot s).lau = s.lau := by
  by_cases ho : (cursorCopy s).stationOwned = true
  · cases hc : slotCheck s (cursorCopy s) with
    | some status => rw [examineSlot_refused ho hc]; exact Or.inr ⟨rfl, rfl, rfl⟩
    | none =>
      by_cases hm : s.stc.station = .muted ∨ s.stc.straps.listen = true
      · rw [examineSlot_silent ho hc hm]; exact Or.inr ⟨rfl, rfl, rfl⟩
      · rw [examineSlot_works ho hc hm]
        have active : s.stc.station = .active := by
          simp only [examines, Bool.or_eq_true, beq_iff_eq] at hx
          exact hx.resolve_right fun muted => hm (Or.inl muted)
        have left : (slotWork s (cursorCopy s)).remaining ≠ 0 := by
          rcases slotCheck_valid hc with ⟨gate, -⟩ | ⟨-, todo⟩
          · simp [SlotWork.remaining, slotWork, gate]
          · simp [SlotWork.remaining, todo]
        exact Or.inl ⟨_, rfl, Or.inr ⟨left, rfl, active⟩⟩
  · rw [examineSlot_host (by simpa using ho)]; exact Or.inr ⟨hs, rfl, rfl⟩

/-- The request process that begins and ends with no slot in progress has built, offered and issued nothing. -/
theorem reqRun_unsent (n : Nat) {s : State} (hs : s.req.slot = none) (ht : (reqRun n s).req.slot = none) :
    (reqRun n s).imu = s.imu ∧ (reqRun n s).lau = s.lau := by
  induction n generalizing s with
  | zero => exact ⟨rfl, rfl⟩
  | succ n ih =>
    by_cases hx : s.req.process = .running ∧ examines s = true
    · rw [reqRun_examines hs hx.1 hx.2] at ht ⊢
      rcases examineSlot_workGoesOn_or_unsent hs hx.2 with goes | ⟨slot, imu, lau⟩
      · obtain ⟨w, hw, -⟩ := reqRun_workGoesOn n goes
        rw [ht] at hw
        cases hw
      · obtain ⟨imuAfter, lauAfter⟩ := ih slot ht
        exact ⟨imuAfter.trans imu, lauAfter.trans lau⟩
    · rw [reqRun_rests hs ((not_and_or.mp hx).imp_right Bool.eq_false_iff.mpr)]
      exact ⟨rfl, rfl⟩

/-- A setting of RUN behind which no slot is in progress has built, offered and issued nothing. -/
theorem setRun_unsent {s : State} (h : s.req.process ≠ .running) (hs : s.req.slot = none) (ht : (setRun s).req.slot = none) :
    (setRun s).imu = s.imu ∧ (setRun s).lau = { s.lau with transmitter := (setRun s).lau.transmitter } := by
  rw [setRun_starts h] at ht ⊢
  let u : State := { s with req.process := .running }
  have ran : (reqRun 40 u).imu = s.imu ∧ (reqRun 40 u).lau = s.lau := reqRun_unsent 40 hs (by rwa [runRequests, idleExit_req] at ht)
  have lau : (runRequests u).lau = { (reqRun 40 u).lau with transmitter := (runRequests u).lau.transmitter } :=
    congrArg State.lau (idleExit_eq (reqRun 40 u))
  rw [ran.2] at lau
  exact ⟨(idleExit_imu _).trans ran.1, lau⟩

/-! ## The obligations -/

/-- Settles O8: in SUSPENDED a KICK is a setting of RUN, and its examination of a HOST-owned slot leaves the process as it was. -/
theorem kickReexamines : Obligations.KickReexamines := by
  intro s port
  have kick := exec_kick port
  have again (hp : s.req.process = .suspended) (hx : examines s = true) : exec .kick s = .next (setRun s) := by
    rw [kick, kickProcess_suspended hp hx]
  have stopped (hp : s.req.process = .suspended) : s.req.process ≠ .running := by simp [hp]
  refine ⟨fun hp => ?_, fun hp hx => ?_, fun hp hx hs ho => ?_, fun hp hx => ?_, fun v => exec_hostRegisterWrite_kick v s, ?_⟩
  · rw [kick, kickProcess_ignored hp]
  · rw [again hp hx, exec_runSet port]
  · obtain ⟨req, idle⟩ := examined_hostOwned (setRun_examined (stopped hp) hs hx) ho
    exact ⟨_, again hp hx, by rw [req, ← hp], idle, setRun_effects (stopped hp)⟩
  · exact ⟨_, again hp hx, setRun_effects (stopped hp), setRun_settled (stopped hp)⟩
  · simp [windowWord, registerWord, port.2]

/-- Settles O10: a setting of RUN examines the cursor slot; the examination says of a refused or SILENT one that it is handed back. -/
theorem refusedOrSilentSlotHandedBack : Obligations.RefusedOrSilentSlotHandedBack := by
  refine ⟨fun _ => rfl, fun s port hs station hp => ?_⟩
  have hx : examines s = true := by simpa [examines] using station
  have examined := setRun_examined hp hs hx
  have effects := setRun_effects hp
  refine ⟨setRun s, exec_runSet port, examined, effects, setRun_settled hp, setRun_unsent hp hs, fun status canonical owned closes => ?_⟩
  obtain ⟨back, done, next⟩ := examined_handedBack examined canonical owned (by rwa [effects.stc])
  refine ⟨back, done, fun host => ?_⟩
  obtain ⟨req, idle⟩ := next host
  exact ⟨by rw [req], by rw [req], by rw [req]; exact hs, idle⟩

end Sys2Proof.Laws
end

section
/-! SUPPORT. The expiry of the refresh timer: the look at the conditions of R129 that it makes, the exit from IDLE behind it, and the
obligation on the command (R128 to R131). -/

namespace Sys2Proof.Laws

open Sys2Proof.Machine

theorem exec_refreshTimerExpiry {s : State} {left : Nat} (running : s.tsc.refreshTimer = .running left)
    (active : s.stc.station = .active) :
    exec .refreshTimerExpiry s = .next (idleExit (refreshStep { s with tsc.refreshTimer := .expired })) := by
  show execRefreshTimerExpiry s = _
  rw [execRefreshTimerExpiry, if_pos ⟨by rw [running]; rfl, active⟩]

/-- The scheduler's look and the exit from IDLE change the transmit queue, the transmitter, REFRESH CURSOR and REFRESH TIMER, and nothing
else. -/
theorem refresh_idle_only (u : State) :
    idleExit (refreshStep u) =
      { u with
        lau := { u.lau with queue := (refreshStep u).lau.queue, transmitter := (idleExit (refreshStep u)).lau.transmitter }
        tsc := { u.tsc with cursor := (refreshStep u).tsc.cursor, refreshTimer := (refreshStep u).tsc.refreshTimer } } :=
  (idleExit_eq _).trans
    (congrArg (fun v : State => { v with lau.transmitter := (idleExit (refreshStep u)).lau.transmitter }) (refreshStep_only u))

theorem refresh_idle_settled (u : State) : TransmitterSettled u.lau.transmitter (idleExit (refreshStep u)) := by
  have settled := idleExit_settled (refreshStep u)
  rwa [refreshStep_transmitter] at settled

/-- A transmitter that was in IDLE with a frame queued, a receive queue entry free and the station ACTIVE has left by the line (R85). -/
theorem settled_leavesIdle {t : State} (settled : TransmitterSettled .idle t) (queued : t.lau.queue ≠ [])
    (room : t.lrx.queue.length < 4) (active : t.stc.station = .active) :
    t.lau.transmitter = if t.lrx.line = .quiet then .gap else .defer := by
  rw [settled, if_pos ⟨rfl, queued, room, active⟩]

/-- Settles O50: the command makes the scheduler look, with the timer EXPIRED, at the other conditions of R129. -/
theorem refreshTimerExpires : Obligations.RefreshTimerExpires := by
  intro s left taken running active htaken ready hready
  let u : State := { s with tsc.refreshTimer := .expired }
  let t : State := idleExit (refreshStep u)
  obtain ⟨waits, passes, builds⟩ := refreshStep_looked u
  have due : ready ↔ u.tsc.refreshTimer = .expired ∧ u.tsc.firstPending = false ∧ u.lau.queue = [] ∧
      (∀ f ∈ u.lrx.queue, f.mark = .remote) ∧ u.imu.work.isSelf = false ∧ u.stc.station = .active ∧
      u.stc.straps.listen = false ∧ u.lau.lastCompleted.isSome = true := by
    simp [hready, u, active]
  have only : t = { s with lau := _, tsc := _ } := refresh_idle_only u
  have queue : t.lau.queue = (refreshStep u).lau.queue := (leftBy_idleExit _).2
  have lrx : t.lrx = s.lrx := by rw [only]
  have settled : TransmitterSettled s.lau.transmitter t := refresh_idle_settled u
  refine ⟨t, exec_refreshTimerExpiry running active, by rw [only], by rw [only], by rw [only], lrx, settled, fun notReady => ?_,
    fun isReady nothing => ?_, fun isReady last found => ?_⟩
  · obtain ⟨timer, cursor, kept⟩ := waits (notReady ∘ due.mpr)
    exact ⟨by rw [only, timer, cursor], queue.trans kept⟩
  · obtain ⟨timer, cursor, empty⟩ := passes (due.mp isReady) (htaken ▸ nothing)
    exact ⟨by rw [only, timer, cursor]; rfl, queue.trans empty⟩
  · obtain ⟨timer, cursor, alone⟩ := builds (due.mp isReady) last (htaken ▸ found)
    rw [htaken]
    refine ⟨by rw [only, timer, cursor]; rfl, queue.trans alone, fun idle room => ?_⟩
    rw [← lrx]
    exact settled_leavesIdle (idle ▸ settled) (by rw [queue, alone]; nofun) (lrx ▸ room) (by rw [only]; exact active)

end Sys2Proof.Laws
end

section
/-! SUPPORT. The expiry of the join timer: with the transmit queue shut, by the FIRST gate or the LISTEN strap, what the request process
does, the entry to ACTIVE that shuts it, and the obligation on the command (R83, R84, R106, R123, R135, R160). -/

namespace Sys2Proof.Laws

open Sys2Proof.Machine

/-! ## Admissions shut (R83, R97) -/

/-- No frame may be admitted to the transmit queue. -/
def AdmissionsShut (s : State) : Prop := ∀ f, admissible s f = false

/-- The FIRST gate: until this station first completes a frame, nothing is admitted behind the frame queued. -/
theorem admissionsShut_firstGate {s : State} (first : s.lau.lastCompleted = none) (queued : s.lau.queue ≠ []) : AdmissionsShut s :=
  fun f => by simp [admissible, first, queued]

theorem admissionsShut_listen {s : State} (listen : s.stc.straps.listen = true) : AdmissionsShut s :=
  fun f => by simp [admissible, maySend, listen]

/-- Offers do not bear on what may be admitted. -/
theorem AdmissionsShut_congr {s t : State} (shut : AdmissionsShut s) (stc : t.stc = s.stc)
    (lau : t.lau = { s.lau with reqOffer := t.lau.reqOffer }) : AdmissionsShut t := by
  intro f
  have queue : t.lau.queue = s.lau.queue := by rw [lau]
  have lastCompleted : t.lau.lastCompleted = s.lau.lastCompleted := by rw [lau]
  have requests : reqQueued t = reqQueued s := by simp only [reqQueued, queue]
  rw [← shut f]
  simp only [admissible, maySend, stc, queue, lastCompleted, requests]

theorem admitPresence_shut {s : State} (shut : AdmissionsShut s) : admitPresence s = s := by
  unfold admitPresence
  split
  · rfl
  · rw [if_neg (by simp [shut _])]

theorem admitReq_shut {s : State} (shut : AdmissionsShut s) : admitReq s = s := by
  unfold admitReq
  split
  · rfl
  · rw [if_neg (by simp [shut _])]

theorem arbiter_shut {s : State} (shut : AdmissionsShut s) : arbiter s = s := by
  rw [arbiter, admitPresence_shut shut, admitReq_shut shut]

theorem buildFrame_lau (w : SlotWork) (s : State) :
    (buildFrame w s).lau = { s.lau with reqOffer := (buildFrame w s).lau.reqOffer } := by
  unfold buildFrame
  split <;> rfl

theorem examineSlot_lau (s : State) : (examineSlot s).lau = s.lau := by
  by_cases owned : (cursorCopy s).stationOwned = true
  · cases checked : slotCheck s (cursorCopy s) with
    | some status => rw [examineSlot_refused owned checked]; rfl
    | none =>
      by_cases silent : s.stc.station = .muted ∨ s.stc.straps.listen = true
      · rw [examineSlot_silent owned checked silent]; rfl
      · rw [examineSlot_works owned checked silent]
  · rw [examineSlot_host (by simpa using owned)]; rfl

/-- With admissions shut the request process changes no more of the line access unit than the offer of the REQ. -/
theorem reqRun_shut_lau (n : Nat) {s : State} (shut : AdmissionsShut s) :
    (reqRun n s).lau = { s.lau with reqOffer := (reqRun n s).lau.reqOffer } := by
  refine (reqRun_keeps (P := fun t => t.stc = s.stc ∧ t.lau = { s.lau with reqOffer := t.lau.reqOffer })
    (fun t ⟨stc, lau⟩ => ?_) (fun t ⟨stc, lau⟩ => ?_) (fun t w ⟨stc, lau⟩ _ _ => ⟨(buildFrame_effects w t).stc.trans stc, ?_⟩)
    (fun _ _ kept _ _ => kept) (fun t ⟨stc, lau⟩ _ _ _ => ⟨(examineSlot_effects t).stc.trans stc, ?_⟩) n s ⟨rfl, rfl⟩).2
  · rwa [admitPresence_shut (AdmissionsShut_congr shut stc lau)]
  · rwa [admitReq_shut (AdmissionsShut_congr shut stc lau)]
  · rw [buildFrame_lau, lau]
  · rwa [examineSlot_lau]

theorem runRequests_shut_lau {s : State} (shut : AdmissionsShut s) :
    (runRequests s).lau =
      { s.lau with reqOffer := (runRequests s).lau.reqOffer, transmitter := (runRequests s).lau.transmitter } := by
  have exit : (runRequests s).lau = { (reqRun 40 s).lau with transmitter := (runRequests s).lau.transmitter } :=
    congrArg State.lau (idleExit_eq (reqRun 40 s))
  have ran := reqRun_shut_lau 40 shut
  rw [exit]
  simp only
  rw [ran]

/-! ## A slot that comes to be in progress with admissions shut (R104, R110 to R113) -/

/-- The cursor slot of `s` is in progress in `t` with one frame built, which waits as the offer: the GATE frame of the slot's group, or
the UPDATE frame of its first 8 records. -/
def FirstFrameWaits (s t : State) : Prop :=
  ∃ w f, t.req = { s.req with slot := some w } ∧ t.lau.reqOffer = some f ∧ f.source = .req ∧ w.frames = 1 ∧ w.outstanding = 1 ∧
    w.lost = 0 ∧ w.halted = false ∧
    (∀ g : Group, (cursorCopy s).kind = some .gate → (cursorCopy s).group = g.val → f.body = .gate g ∧ w.remaining = 0) ∧
    ((cursorCopy s).kind ≠ some .gate → BuiltFrames s t (slotWork s (cursorCopy s)) w 1)

/-- The first frame waits alike between states that agree in what it is built from before, and in what is left after. -/
theorem FirstFrameWaits_congr {s s' t t' : State} (waits : FirstFrameWaits s t) (reqBefore : s'.req = s.req)
    (looked : lookedAt s' = lookedAt s) (left : leftBy t' = leftBy t) (queue : t.lau.queue <+: t'.lau.queue) :
    FirstFrameWaits s' t' := by
  simp only [lookedAt, leftBy, Prod.mk.injEq] at looked left
  obtain ⟨items, staging, straps⟩ := looked
  obtain ⟨req, itemsAfter, -, -, offer⟩ := left
  have copy : cursorCopy s' = cursorCopy s := by simp only [cursorCopy, ringWord, reqBefore]
  have work : slotWork s' (cursorCopy s) = slotWork s (cursorCopy s) := by simp only [slotWork, namedSlots, items]
  obtain ⟨w, f, hslot, hoffer, hsource, hframes, hout, hlost, hhalted, gate, update⟩ := waits
  unfold FirstFrameWaits
  simp only [copy, work, reqBefore, req, offer]
  exact ⟨w, f, hslot, hoffer, hsource, hframes, hout, hlost, hhalted, gate, fun kind =>
    builtFrames_congr (update kind) staging items (congrArg Straps.station straps) itemsAfter offer queue⟩

/-- The frame that a build of a slot just come to be in progress leaves waiting. -/
theorem firstFrameWaits_build {s : State} (valid : slotCheck s (cursorCopy s) = none) :
    FirstFrameWaits s (buildFrame (slotWork s (cursorCopy s)) { s with req.slot := some (slotWork s (cursorCopy s)) }) := by
  let w := slotWork s (cursorCopy s)
  let z : State := { s with req.slot := some w }
  rcases slotCheck_valid valid with ⟨kind, group⟩ | ⟨kind, todo⟩
  · have slots : namedSlots s (cursorCopy s) = [] := by simp [namedSlots, namedItems, kind]
    have gate : w.gate = some (Fin.ofNat 4 (cursorCopy s).group) := by simp [w, slotWork, kind]
    show FirstFrameWaits s (buildFrame w z)
    simp only [buildFrame, gate]
    refine ⟨_, _, rfl, rfl, rfl, rfl, rfl, rfl, rfl, fun g _ hg => ⟨?_, ?_⟩, fun other => absurd kind other⟩
    · have same : Fin.ofNat 4 (cursorCopy s).group = g := Fin.ext (by simp [Fin.ofNat, hg, Nat.mod_eq_of_lt g.isLt])
      rw [same]
    · simp [SlotWork.remaining, w, slotWork, kind, slots]
  · have noGate : w.gate = none := by simp [w, slotWork, kind]
    have built := buildFrame_update noGate z
    show FirstFrameWaits s (buildFrame w z)
    rw [built]
    refine ⟨workAfter z w, nextFrame z w, rfl, rfl, rfl, rfl, rfl, rfl, rfl, fun _ gate => absurd gate kind, fun _ => ?_⟩
    exact builtFrames_succ (u := { z with imu.items := (buildRecords s.hpt.staging (w.todo.take 8) s.imu.items w.offset).2.1 })
      rfl rfl rfl (List.length_pos_iff.mpr todo) (Or.inr rfl) (builtFrames_zero rfl (Or.inl rfl))

/-- A valid slot has records, or a GATE frame, left to build as its work starts. -/
theorem slotWork_remaining_ne_zero {s : State} (valid : slotCheck s (cursorCopy s) = none) :
    (slotWork s (cursorCopy s)).remaining ≠ 0 := by
  rcases slotCheck_valid valid with ⟨gate, -⟩ | ⟨-, todo⟩
  · simp [SlotWork.remaining, slotWork, gate]
  · simp [SlotWork.remaining, todo]

/-- With admissions shut one frame is built, and the building stops behind its offer. -/
theorem pump_shut (n : Nat) {s : State} {w : SlotWork} (shut : AdmissionsShut s) (slot : s.req.slot = some w)
    (builds : buildsNow s w = true) : pump (n + 2) s = buildFrame w s := by
  have before : arbiter s = s := arbiter_shut shut
  have behind : arbiter (buildFrame w s) = buildFrame w s :=
    arbiter_shut (AdmissionsShut_congr shut (buildFrame_effects w s).stc (buildFrame_lau w s))
  obtain ⟨w', left⟩ := Option.isSome_iff_exists.mp (buildFrame_req w s).2
  have offered : (buildFrame w s).lau.reqOffer.isSome = true := by unfold buildFrame; split <;> rfl
  have stops : buildsNow (buildFrame w s) w' = false := by simp [buildsNow, Option.isNone_eq_false_iff.mpr offered]
  rw [pump_builds (by rwa [before]) (by rwa [before]), before, pump_rests (by rwa [behind]) (by rwa [behind]), behind]

/-- With admissions shut the process that comes to a valid slot builds one frame and rests behind its offer. -/
theorem reqRun_startsShut (n : Nat) {s : State} (shut : AdmissionsShut s) (noSlot : s.req.slot = none)
    (running : s.req.process = .running) (active : s.stc.station = .active) (sends : s.stc.straps.listen = false)
    (owned : (cursorCopy s).stationOwned = true) (valid : slotCheck s (cursorCopy s) = none) (free : s.lau.reqOffer = none) :
    FirstFrameWaits s (reqRun (n + 2) s) := by
  let w := slotWork s (cursorCopy s)
  let z : State := { s with req.slot := some w }
  have examined : examineSlot s = z := by
    rw [examineSlot_works owned valid (by simp [active, sends]), ← running]
  have builds : buildsNow z w = true := by
    have left : w.remaining ≠ 0 := slotWork_remaining_ne_zero valid
    have halted : w.halted = false := rfl
    simp [buildsNow, z, free, active, left, halted]
  have pumped : pump 8 z = buildFrame w z := pump_shut 6 (AdmissionsShut_congr shut rfl rfl) rfl builds
  obtain ⟨w', slot⟩ := Option.isSome_iff_exists.mp (buildFrame_req w z).2
  have staysOpen : closable (buildFrame w z) w' = false := closable_workGoesOn (buildFrame_workGoesOn w z) slot
  rw [reqRun_examines noSlot running (by simp [examines, active]), examined,
    reqRun_waits (w := w) rfl (by rw [pumped]; exact slot) (by rwa [pumped]), pumped]
  exact firstFrameWaits_build valid

/-! ## The request process and the exit from IDLE together -/

/-- A RUNNING process with no slot in progress examines the cursor slot, and the slots after it (R104). -/
theorem runRequests_examined {s : State} (noSlot : s.req.slot = none) (running : s.req.process = .running)
    (examining : examines s = true) : CursorSlotExamined s (runRequests s) := by
  have left := leftBy_idleExit (reqRun 40 s)
  exact CursorSlotExamined_congr (reqRun_examined 22 noSlot running examining) rfl rfl id id left.1 (left.2 ▸ List.prefix_rfl)

theorem runRequests_startsShut {s : State} (shut : AdmissionsShut s) (noSlot : s.req.slot = none)
    (running : s.req.process = .running) (active : s.stc.station = .active) (sends : s.stc.straps.listen = false)
    (owned : (cursorCopy s).stationOwned = true) (valid : slotCheck s (cursorCopy s) = none) (free : s.lau.reqOffer = none) :
    FirstFrameWaits s (runRequests s) := by
  have left := leftBy_idleExit (reqRun 40 s)
  exact FirstFrameWaits_congr (reqRun_startsShut 38 shut noSlot running active sends owned valid free) rfl rfl left.1
    (left.2 ▸ List.prefix_rfl)

/-- A process that is not RUNNING, with no slot in progress, stays as it is (R106). -/
theorem runRequests_rests {s : State} (noSlot : s.req.slot = none) (rests : s.req.process ≠ .running) :
    (runRequests s).req = s.req := by
  rw [runRequests, idleExit_req, reqRun_rests noSlot (Or.inl rests)]

/-! ## Entry to ACTIVE (R123, R160) -/

/-- The state in which entry to ACTIVE finds the request process: the FIRST presence frame offered, and admitted if it may be. -/
def joined (s : State) : State := arbiter (startSending { s with stc.station := .active, stc.joinTimer := none })

theorem exec_joinTimerExpiry {s : State} (joining : s.stc.station = .joining) (timer : s.stc.joinTimer.isSome = true) :
    exec .joinTimerExpiry s = .next (runRequests (joined s)) := by
  show execJoinTimerExpiry s = _
  rw [execJoinTimerExpiry, if_pos ⟨joining, timer⟩]
  rfl

/-- Under LISTEN the station is ACTIVE, and nothing else comes of the entry (R135). -/
theorem joined_listen {s : State} (listen : s.stc.straps.listen = true) :
    joined s = { s with stc.station := .active, stc.joinTimer := none } := by
  rw [joined, startSending, if_pos listen]
  exact arbiter_shut (admissionsShut_listen listen)

/-- Entry to ACTIVE of a station that may send, with the FIRST presence frame offered: REFRESH CURSOR at slot 0, REFRESH TIMER started
at need, the transmitter in IDLE (R84, R123). -/
def firstOffered (s : State) : State :=
  { s with
    stc := { s.stc with station := .active, joinTimer := none }
    lau := { s.lau with presenceOffer := some (presenceFrame s true), transmitter := .idle }
    tsc := { s.tsc with
      cursor := 0, firstPending := true, presenceOutstanding := true
      refreshTimer := if refreshSpacing s = 0 then .stopped else .running (refreshSpacing s) } }

theorem startSending_offers {s : State} (sends : s.stc.straps.listen = false) (noneOut : s.tsc.presenceOutstanding = false) :
    startSending { s with stc.station := .active, stc.joinTimer := none } = firstOffered s := by
  rw [startSending, if_neg (by simp [sends]), presenceStep, if_pos ⟨by simp [maySend, sends], noneOut, Or.inl rfl⟩]
  rfl

/-- The FIRST presence frame is admitted into the empty queue, and shuts it to the REQ (R83, R123). -/
theorem joined_sends {s : State} (sends : s.stc.straps.listen = false) (empty : s.lau.queue = [])
    (first : s.lau.lastCompleted = none) (noneOut : s.tsc.presenceOutstanding = false) :
    joined s = { firstOffered s with lau.queue := [presenceFrame s true], lau.presenceOffer := none } := by
  have may : admissible (firstOffered s) (presenceFrame s true) = true := by
    simp [admissible, maySend, firstOffered, presenceFrame, sends, empty]
  have admitted : admitPresence (firstOffered s) =
      { firstOffered s with lau.queue := [presenceFrame s true], lau.presenceOffer := none } := by
    have queue : (firstOffered s).lau.queue ++ [presenceFrame s true] = [presenceFrame s true] := by simp [firstOffered, empty]
    simp only [admitPresence, show (firstOffered s).lau.presenceOffer = some (presenceFrame s true) from rfl, if_pos may, queue]
  rw [joined, startSending_offers sends noneOut, arbiter, admitted]
  exact admitReq_shut (admissionsShut_firstGate first nofun)

/-! Where nothing was queued or completed before and no presence frame is outstanding, as the obligation has it. -/

section Entry

variable {s : State} (empty : s.lau.queue = []) (first : s.lau.lastCompleted = none) (noneOut : s.tsc.presenceOutstanding = false)

include empty first noneOut

/-- What entry to ACTIVE leaves of the other blocks and of the REQ's offer, and that nothing more is admitted, whatever the LISTEN
strap. -/
theorem joined_kept :
    joined s = { s with
        stc := { s.stc with station := .active, joinTimer := none }, lau := (joined s).lau, tsc := (joined s).tsc } ∧
      (joined s).lau.reqOffer = s.lau.reqOffer ∧ AdmissionsShut (joined s) := by
  cases listen : s.stc.straps.listen with
  | true =>
    rw [joined_listen listen]
    exact ⟨rfl, rfl, admissionsShut_listen listen⟩
  | false =>
    rw [joined_sends listen empty first noneOut]
    exact ⟨rfl, rfl, admissionsShut_firstGate first nofun⟩

/-- The examination at entry to ACTIVE is one of the ring and the items as they stood before. -/
theorem joined_examined (noSlot : s.req.slot = none) (running : s.req.process = .running) :
    CursorSlotExamined s (runRequests (joined s)) := by
  obtain ⟨only, offer, -⟩ := joined_kept empty first noneOut
  have req : (joined s).req = s.req := by rw [only]
  have looked : lookedAt (joined s) = lookedAt s := by rw [only]; rfl
  have examining : examines (joined s) = true := by rw [only]; rfl
  exact CursorSlotExamined_congr (runRequests_examined (req ▸ noSlot) (req ▸ running) examining) req.symm looked.symm
    (fun canonical => by rw [only]; exact canonical) offer.trans rfl List.prefix_rfl

/-- A valid cursor slot at entry to ACTIVE is in progress, its first frame behind the FIRST frame. -/
theorem joined_firstFrameWaits (noSlot : s.req.slot = none) (running : s.req.process = .running)
    (sends : s.stc.straps.listen = false) (free : s.lau.reqOffer = none) (owned : (cursorCopy s).stationOwned = true)
    (valid : slotCheck s (cursorCopy s) = none) : FirstFrameWaits s (runRequests (joined s)) := by
  obtain ⟨only, offer, shut⟩ := joined_kept empty first noneOut
  have req : (joined s).req = s.req := by rw [only]
  have looked : lookedAt (joined s) = lookedAt s := by rw [only]; rfl
  have active : (joined s).stc.station = .active := by rw [only]
  have straps : (joined s).stc.straps = s.stc.straps := by rw [only]
  have copy : cursorCopy (joined s) = cursorCopy s := by simp only [cursorCopy, ringWord, req]
  have check : slotCheck (joined s) (cursorCopy s) = none :=
    (slotCheck_congr (congrArg Prod.fst looked) straps _).trans valid
  exact FirstFrameWaits_congr
    (runRequests_startsShut shut (req ▸ noSlot) (req ▸ running) active (straps ▸ sends) (copy ▸ owned) (copy ▸ check)
      (offer.trans free)) req.symm looked.symm rfl List.prefix_rfl

end Entry

/-- Settles O27: entry to ACTIVE shuts admissions, behind the FIRST presence frame or under LISTEN, and the request process goes on from
there. -/
theorem joinTimerExpires : Obligations.JoinTimerExpires := by
  intro s joining timer empty first noneOut
  let t := runRequests (joined s)
  obtain ⟨only, -, shut⟩ := joined_kept empty first noneOut
  have effects : RequestEffects (joined s) t := runRequests_effects _
  have lau := runRequests_shut_lau shut
  have stc : t.stc = { s.stc with station := .active, joinTimer := none } := effects.stc.trans (by rw [only])
  have lrx : t.lrx = s.lrx := effects.lrx.trans (by rw [only])
  refine ⟨t, exec_joinTimerExpiry joining timer, stc, lrx, effects.pmn.trans (by rw [only]), effects.stu.trans (by rw [only]),
    fun listen => ?_, fun sends => ?_, fun noSlot => ⟨fun rests => ?_, joined_examined empty first noneOut noSlot,
      fun running sends free owned valid => ?_⟩⟩
  · have entry := joined_listen listen
    refine ⟨effects.tsc.trans (by rw [entry]), by rw [lau, entry]; exact empty, fun off => ?_⟩
    have before : (joined s).lau.transmitter = .off := by rw [entry]; exact off
    rcases effects.transmitter with same | ⟨idle, -⟩
    · exact same.trans before
    · rw [before] at idle
      cases idle
  · have entry := joined_sends sends empty first noneOut
    have queue : t.lau.queue = [presenceFrame s true] := by rw [lau, entry]
    have idle : (joined s).lau.transmitter = .idle := by rw [entry]; rfl
    have settled : TransmitterSettled (joined s).lau.transmitter t := runRequests_settled _
    refine ⟨queue, ?_, effects.tsc.trans ?_⟩
    · rw [settled, idle, queue, lrx, stc]
      simp
    · rw [entry]
      cases plan : s.stc.plan with
      | none => simp [firstOffered, refreshSpacing, plan]
      | some figures => cases spacing : figures.refresh <;> simp [firstOffered, refreshSpacing, plan, spacing]
  · have req : (joined s).req = s.req := by rw [only]
    exact (runRequests_rests (req ▸ noSlot) (req ▸ rests)).trans req
  · obtain ⟨w, f, hslot, hoffer, hsource, hframes, hout, hlost, hhalted, gate, update⟩ :=
      joined_firstFrameWaits empty first noneOut noSlot running sends free owned valid
    refine ⟨w, f, hslot, hoffer, hsource, hframes, hout, hlost, hhalted, gate, fun kind => ?_⟩
    have built := update kind
    rwa [slotWork, if_neg kind] at built

end Sys2Proof.Laws
end

section
/-! SUPPORT. The host accesses that take the head of a list: NEXT_CHANGE and SAMPLE_TAKE, by case of the list, and the obligation on them
(R26, R144). -/

namespace Sys2Proof.Laws

open Sys2Proof.Machine

/-! ## NEXT_CHANGE (R26) -/

theorem readNextChange_nil {s : State} (h : s.imu.changes = []) : readNextChange s = { s with hpt.readData := 0xFFFF#16 } := by
  have word : nextChangeWord s = 0xFFFF#16 := by rw [nextChangeWord, h]
  rw [readNextChange, word, h, List.tail_nil, ← h]

theorem readNextChange_cons {s : State} {n : ItemNo} {rest : List ItemNo} (h : s.imu.changes = n :: rest) :
    readNextChange s = { s with hpt.readData := n.setWidth 16, imu.changes := rest } := by
  have word : nextChangeWord s = n.setWidth 16 := by rw [nextChangeWord, h]
  rw [readNextChange, word, h, List.tail_cons]

theorem exec_nextChange {s : State} (h : portFree s) : exec .nextChange s = .next (readNextChange s) := by
  show execNextChange s = _
  rw [execNextChange, hostRead_free h]

/-! ## SAMPLE_TAKE (R144) -/

theorem takeHead_nil {s : State} (h : s.stu.queue = []) : takeHead s = s := by
  rw [takeHead, h, List.tail_nil, ← h]

theorem takeHead_cons {s : State} {e : Sample} {rest : List Sample} (h : s.stu.queue = e :: rest) :
    takeHead s = { s with stu.queue := rest } := by
  rw [takeHead, h, List.tail_cons]

theorem exec_sampleTake {s : State} (h : portFree s) : exec .sampleTake s = .next (takeHead s) := by
  show execSampleTake s = _
  rw [execSampleTake, hostWrite_free h]

/-- A host write above the plan window is the write to a register. -/
theorem exec_hostRegisterWrite_register {a : Word} (h : 0x2C08 ≤ a.toNat) (v : Word) (s : State) :
    exec (.hostRegisterWrite a v) s = .next (hostWrite (writeRegister a.toNat v) s) := by
  have register : writeWord a v = writeRegister a.toNat v := funext fun t => writeWord_register v t h
  show execHostRegisterWrite a v s = _
  rw [execHostRegisterWrite, register]

/-- A write of any word to SAMPLE_TAKE is a SAMPLE_TAKE, whether or not the port is free (R170). -/
theorem exec_hostRegisterWrite_sampleTake (v : Word) (s : State) : exec (.hostRegisterWrite 0x3008#16 v) s = exec .sampleTake s :=
  exec_hostRegisterWrite_register (by decide) v s

/-- SAMPLE_TAKE reads 0. -/
theorem windowWord_sampleTake (s : State) : windowWord s 0x3008#16 = 0 := by
  simp [windowWord, registerWord]

/-! ## The obligation -/

/-- Settles O16: by whether the list whose head the command takes is empty. -/
theorem headsAreTaken : Obligations.HeadsAreTaken := by
  intro s port
  refine ⟨fun empty => ?_, fun n rest listed => ?_, fun empty => ?_, fun e rest queued => ?_,
    fun v => exec_hostRegisterWrite_sampleTake v s, windowWord_sampleTake s⟩
  · rw [exec_nextChange port, readNextChange_nil empty]
  · rw [exec_nextChange port, readNextChange_cons listed]
  · rw [exec_sampleTake port, takeHead_nil empty]
  · rw [exec_sampleTake port, takeHead_cons queued]

end Sys2Proof.Laws
end

section
/-! SUPPORT. The plan check test by test: what it answers where each test of table 9-4 is the first to fail, and the obligation on it
(R154). -/

namespace Sys2Proof.Laws

open Sys2Proof.Machine

/-! ## Tests 1 to 4 -/

section Header

variable {m : WordStore}

theorem headerFault_unmarked (h : ¬planMarked m = true) : headerFault m = some .noPlan := by
  simp [headerFault, h]

theorem headerFault_miscounted (marked : planMarked m = true) (h : ¬(1 ≤ planCount m ∧ planCount m ≤ 512)) :
    headerFault m = some .badCount := by
  have outside : planCount m = 0 ∨ 512 < planCount m := by omega
  simp [headerFault, marked, outside]

theorem headerFault_passed (marked : planMarked m = true) (h : 1 ≤ planCount m ∧ planCount m ≤ 512) : headerFault m = none := by
  have inside : ¬(planCount m = 0 ∨ 512 < planCount m) := by omega
  simp [headerFault, marked, inside]

/-- Test 4 by the header words: behind test 1 each of its figures is a word whole. -/
theorem timingBad_iff (marked : planMarked m = true) : timingBad m = true ↔
    ¬((m.read 2).toNat ≤ 3 ∧ (m.read 3).toNat ≠ 0 ∧ 2 * (m.read 3).toNat ≤ 8 * (m.read 4).toNat) := by
  obtain ⟨-, rate, presence, timeout, -, -⟩ := (planMarked_iff m).mp marked
  simp only [timingBad, Bool.or_eq_true, decide_eq_true_eq, beq_iff_eq]
  norm_num only [bitField]
  omega

/-- A plan that fails test 1 or 2 goes by that code, and no entry is named. -/
theorem planCheck_headerFault {code : PlanFault} (h : headerFault m = some code) : planCheck m = some (code, none) := by
  simp [planCheck, h]

theorem planCheck_badCheck (header : headerFault m = none) (h : planSum m ≠ 0) : planCheck m = some (.badCheck, none) := by
  simp only [planCheck, header, if_pos h]

theorem planCheck_badTiming (header : headerFault m = none) (sum : planSum m = 0) (h : timingBad m = true) :
    planCheck m = some (.badTiming, none) := by
  simp [planCheck, header, sum, h]

/-- Behind tests 1 to 4 the plan check is the one pass over the entries. -/
theorem planCheck_entries (header : headerFault m = none) (sum : planSum m = 0) (timing : ¬timingBad m = true) :
    planCheck m = (List.range (planCount m)).findSome? fun k => (entryFault m k).map fun code => (code, some k) := by
  simp [planCheck, header, sum, timing]

end Header

/-! ## Tests 5 and 6 -/

theorem entryFault_badEntry {m : WordStore} {k : Nat} (h : (planEntry m k).bad = true) : entryFault m k = some .badEntry := by
  simp [entryFault, h]

theorem entryFault_badOrder {m : WordStore} {k : Nat} (h : ¬(planEntry m k).bad = true) (later : 1 ≤ k)
    (order : (planEntry m k).item.toNat ≤ (planEntry m (k - 1)).item.toNat) : entryFault m k = some .badOrder := by
  simp [entryFault, h, later, order]

/-- The pass over the entries finds nothing when no entry fails. -/
theorem findSome_entryFault_none {m : WordStore} {n : Nat} (h : ∀ k < n, entryFault m k = none) :
    ((List.range n).findSome? fun k => (entryFault m k).map fun code => (code, some k)) = none := by
  refine List.findSome?_eq_none_iff.mpr fun k listed => ?_
  rw [h k (List.mem_range.mp listed), Option.map_none]

/-! ## The obligation -/

/-- Settles O25: each test is read off the window words, and the check is taken where that test is the first to fail. -/
theorem planCheckTestsInOrder : Obligations.PlanCheckTestsInOrder := by
  intro m word marked n counted summed timed item length owner stream gated group bad good
  have mark : planMarked m = true ↔ marked := planMarked_iff m
  have sum : planSum m = 0 ↔ summed := planSum_iff m
  have badEntry (k : Nat) : (planEntry m k).bad = true ↔ bad k := planEntry_bad_iff m k
  have number (k : Nat) : (planEntry m k).item.toNat = item k := planEntry_item m k
  have passes (k : Nat) (h : good k) : entryFault m k = none := by
    rw [entryFault_none_iff, number, number, Bool.eq_false_iff, ne_eq, badEntry]
    exact h
  have header (hm : marked) (hc : counted) : headerFault m = none := headerFault_passed (mark.mpr hm) hc
  refine ⟨fun hm => planCheck_headerFault (headerFault_unmarked (mt mark.mp hm)),
    fun hm hc => planCheck_headerFault (headerFault_miscounted (mark.mpr hm) hc),
    fun hm hc hs => planCheck_badCheck (header hm hc) (mt sum.mp hs),
    fun hm hc hs ht => planCheck_badTiming (header hm hc) (sum.mpr hs) ((timingBad_iff (mark.mpr hm)).mpr ht),
    fun hm hc hs ht => ?_⟩
  rw [planCheck_entries (header hm hc) (sum.mpr hs) fun fails => (timingBad_iff (mark.mpr hm)).mp fails ht]
  refine ⟨fun k hk before hbad => ?_, fun k hk before hgood later order => ?_, fun all => ?_⟩
  · exact findSome_entryFault hk (fun j hj => passes j (before j hj)) (entryFault_badEntry ((badEntry k).mpr hbad))
  · have order' : (planEntry m k).item.toNat ≤ (planEntry m (k - 1)).item.toNat := by rwa [number, number]
    exact findSome_entryFault hk (fun j hj => passes j (before j hj))
      (entryFault_badOrder (mt (badEntry k).mp hgood) later order')
  · exact findSome_entryFault_none fun k hk => passes k (all k hk)

end Sys2Proof.Laws
end

section
/-! SUPPORT. The control word: RUN set or cleared as one operation, what a START does and when, that the two taken in either order leave the
same state, and the obligation on a write of the word (R169). -/

namespace Sys2Proof.Laws

open Sys2Proof.Machine

/-! ## RUN by its bit (R103) -/

/-- RUN set or cleared by its bit of the control word. -/
def writeRun (run : Bool) : State → State := if run then setRun else clearRun

/-- A setting of RUN in RUNNING changes nothing. -/
theorem setRun_running {s : State} (h : s.req.process = .running) : setRun s = s := by rw [setRun, h]

/-- A clearing of RUN in STOPPED changes nothing. -/
theorem clearRun_stopped {s : State} (h : s.req.process = .stopped) : clearRun s = s := by rw [clearRun, h]

theorem clearRun_suspended {s : State} (h : s.req.process = .suspended) : clearRun s = { s with req.process := .stopped } := by
  rw [clearRun, h]

/-- A clearing of RUN in RUNNING halts the slot in progress and lets the process go on (R117). -/
theorem clearRun_running {s : State} (h : s.req.process = .running) :
    clearRun s = runRequests
      { s with req.process := .stopped, req.slot := s.req.slot.map fun w => { w with halted := true } } := by
  rw [clearRun, h]

theorem exec_runClear {s : State} (port : portFree s) : exec .runClear s = .next (clearRun s) := by
  show execRunClear s = _
  rw [execRunClear, hostWrite_free port]

theorem exec_writeRun {s : State} (port : portFree s) (run : Bool) :
    exec (if run then .runSet else .runClear) s = .next (writeRun run s) := by
  cases run with
  | true => exact exec_runSet port
  | false => exact exec_runClear port

/-- All that a clearing of RUN may change, in every state of the process. -/
theorem clearRun_effects (s : State) : RequestEffects s (clearRun s) := by
  cases hp : s.req.process with
  | stopped => exact (clearRun_stopped hp).symm ▸ RequestEffects.refl s
  | suspended => exact clearRun_suspended hp ▸ process_effects .stopped s
  | running =>
    rw [clearRun_running hp]
    exact ((process_effects .stopped s).trans (slot_effects _ { s with req.process := .stopped })).trans (runRequests_effects _)

/-- All that a setting of RUN may change, in every state of the process. -/
theorem setRun_effects_always (s : State) : RequestEffects s (setRun s) := by
  by_cases running : s.req.process = .running
  · exact (setRun_running running).symm ▸ RequestEffects.refl s
  · exact setRun_effects running

theorem writeRun_effects (run : Bool) (s : State) : RequestEffects s (writeRun run s) := by
  cases run with
  | true => exact setRun_effects_always s
  | false => exact clearRun_effects s

/-! ## RUN where no slot is examined (R104, R106) -/

/-- With no slot in progress and none examined the request process and the transmitter stay as they are. -/
theorem runRequests_unexamined {s : State} (noSlot : s.req.slot = none) (h : examines s = false) : runRequests s = s := by
  have inactive : s.stc.station ≠ .active := fun active => by simp [examines, active] at h
  rw [runRequests, reqRun_rests noSlot (.inr h), idleExit_inactive inactive]

/-- The process put in the state it is in. -/
theorem process_same {s : State} {p : Process} (h : s.req.process = p) : { s with req.process := p } = s := by
  subst h
  rfl

theorem setRun_unexamined {s : State} (noSlot : s.req.slot = none) (h : examines s = false) :
    setRun s = { s with req.process := .running } := by
  by_cases running : s.req.process = .running
  · rw [setRun_running running, process_same running]
  · rw [setRun_starts running]
    exact runRequests_unexamined (s := { s with req.process := .running }) noSlot h

theorem clearRun_unexamined {s : State} (noSlot : s.req.slot = none) (h : examines s = false) :
    clearRun s = { s with req.process := .stopped } := by
  cases hp : s.req.process with
  | stopped => rw [clearRun_stopped hp, process_same hp]
  | suspended => exact clearRun_suspended hp
  | running =>
    have nothingHalted : (s.req.slot.map fun w => { w with halted := true }) = s.req.slot := by rw [noSlot]; rfl
    rw [clearRun_running hp, nothingHalted]
    exact runRequests_unexamined (s := { s with req.process := .stopped }) noSlot h

/-- RUN is then the state of the process and nothing else. -/
theorem writeRun_unexamined {s : State} (noSlot : s.req.slot = none) (h : examines s = false) (run : Bool) :
    writeRun run s = { s with req.process := if run then .running else .stopped } := by
  cases run with
  | true => exact setRun_unexamined noSlot h
  | false => exact clearRun_unexamined noSlot h

/-! ## START (R158) -/

/-- The start controller takes a START: in PLAN_WAIT and PLAN_FAULT, with no check in flight. -/
def takesStart (stc : Stc) : Prop := (stc.station = .planWait ∨ stc.station = .planFault) ∧ stc.checking = false

theorem startCheck_taken {s : State} (h : takesStart s.stc) : startCheck s = { s with stc.checking := true } := if_pos h

theorem startCheck_ignored {s : State} (h : ¬takesStart s.stc) : startCheck s = s := if_neg h

theorem exec_start {s : State} (port : portFree s) : exec .start s = .next (startCheck s) := by
  show execStart s = _
  rw [execStart, hostWrite_free port]

/-- The station states that take a START are none of those in which slots are examined. -/
theorem examines_of_takesStart {s : State} (h : takesStart s.stc) : examines s = false := by
  obtain ⟨wait | fault, -⟩ := h
  · simp [examines, wait]
  · simp [examines, fault]

/-! ## RUN and START together (R169) -/

theorem portFree_writeRun {s : State} (port : portFree s) (run : Bool) : portFree (writeRun run s) := by
  have effects := writeRun_effects run s
  unfold portFree
  rw [effects.hpt, effects.stc]
  exact port

theorem portFree_startCheck {s : State} (port : portFree s) : portFree (startCheck s) := by
  by_cases taken : takesStart s.stc
  · rw [startCheck_taken taken]; exact port
  · rw [startCheck_ignored taken]; exact port

/-- RUN and START reach different state: where a START is taken no slot is examined, so that RUN changes the process alone, and elsewhere
the START does nothing before RUN or after it. -/
theorem startCheck_writeRun {s : State} (slots : examines s = false → s.req.slot = none) (run : Bool) :
    startCheck (writeRun run s) = writeRun run (startCheck s) := by
  have stc : (writeRun run s).stc = s.stc := (writeRun_effects run s).stc
  by_cases taken : takesStart s.stc
  · have unexamined := examines_of_takesStart taken
    have noSlot := slots unexamined
    rw [startCheck_taken (stc ▸ taken), startCheck_taken taken, writeRun_unexamined noSlot unexamined,
      writeRun_unexamined (s := { s with stc.checking := true }) noSlot unexamined]
  · rw [startCheck_ignored (stc ▸ taken), startCheck_ignored taken]

/-! ## The control word (R169) -/

theorem writeControl_reset {v : Word} (h : v.getLsbD 1 = true) : writeControl v = softReset := by
  funext s
  rw [writeControl, if_pos h]

theorem writeControl_run {v : Word} (reset : v.getLsbD 1 = false) (start : v.getLsbD 2 = false) (s : State) :
    writeControl v s = writeRun (v.getLsbD 0) s := by
  rw [writeControl, reset, start]
  cases v.getLsbD 0 <;> rfl

theorem writeControl_runStart {v : Word} (reset : v.getLsbD 1 = false) (start : v.getLsbD 2 = true) (s : State) :
    writeControl v s = startCheck (writeRun (v.getLsbD 0) s) := by
  rw [writeControl, reset, start]
  cases v.getLsbD 0 <;> rfl

/-- A host write to the control word, whether or not the port is free. -/
theorem exec_hostRegisterWrite_control (v : Word) (s : State) :
    exec (.hostRegisterWrite 0x3005#16 v) s = .next (hostWrite (writeControl v) s) :=
  exec_hostRegisterWrite_register (by decide) v s

/-- The control word reads RUN alone. -/
theorem windowWord_control {s : State} (port : portFree s) :
    windowWord s 0x3005#16 = if s.req.process = .stopped then 0 else 1 := by
  have word : windowWord s 0x3005#16 = controlWord s := by simp [windowWord, registerWord, port.2]
  rw [word, controlWord]
  cases s.req.process <;> rfl

/-! ## The obligation -/

/-- Settles O15: RESET by the operation that SOFT_RESET runs, RUN with START by their order not mattering. -/
theorem controlWordWrite : Obligations.ControlWordWrite := by
  intro s v port
  have written : exec (.hostRegisterWrite 0x3005#16 v) s = .next (writeControl v s) := by
    rw [exec_hostRegisterWrite_control, hostWrite_free port]
  refine ⟨fun reset => ?_, fun reset start => ?_, fun reset start slots => ?_, windowWord_control port⟩
  · rw [exec_hostRegisterWrite_control, writeControl_reset reset]
    rfl
  · rw [written, writeControl_run reset start, exec_writeRun port]
  · refine ⟨_, _, exec_writeRun port _, exec_start port, ?_, ?_⟩
    · rw [written, writeControl_runStart reset start, exec_start (portFree_writeRun port _)]
    · rw [written, writeControl_runStart reset start, exec_writeRun (portFree_startCheck port), startCheck_writeRun slots]

end Sys2Proof.Laws
end

section
/-! SUPPORT. An induction over the commands, packaged once: a property of states that the small changes of the blocks keep is kept by
every command. The changes are grouped by block, each with what the model guarantees where it makes the change. -/

namespace Sys2Proof.Laws

open Sys2Proof.Machine

/-! ## The changes, block by block -/

/-- Kept as the sending side settles: admissions, builds, closes and examinations (R83, R104, R110, R116), the two steps of the scheduler
(R124, R126, R129), the exit from IDLE (R85), and what is raised and counted meanwhile. -/
structure SettlingRule (P : State → Prop) : Prop where
  admitPresence : ∀ s, P s → P (admitPresence s) := by intros; assumption
  admitReq : ∀ s, P s → P (admitReq s) := by intros; assumption
  build : ∀ s w, P s → s.req.slot = some w → buildsNow s w = true → P (buildFrame w s) := by intros; assumption
  close : ∀ s status remaining lost frames, P s → (∀ w, s.req.slot = some w → w.outstanding = 0) →
    P (closeSlot status remaining lost frames s) := by intros; assumption
  start : ∀ s, P s → s.req.slot = none → slotCheck s (cursorCopy s) = none →
    P { s with req.slot := some (slotWork s (cursorCopy s)) } := by intros; assumption
  process : ∀ s p, P s → P { s with req.process := p } := by intros; assumption
  halt : ∀ s w, P s → s.req.slot = some w → P { s with req.slot := some { w with halted := true } } := by intros; assumption
  presence : ∀ s, P s → P (presenceStep s) := by intros; assumption
  refresh : ∀ s, P s → P (refreshStep s) := by intros; assumption
  leaveIdle : ∀ s, P s → P (idleExit s) := by intros; assumption
  report : ∀ s flags counters, P s → P { s with hpt.flags := flags, hpt.counters := counters } := by intros; assumption

/-- Kept by the host's accesses, but for a write of the stored words of the window and a soft reset. -/
structure AccessRule (P : State → Prop) : Prop where
  answer : ∀ s data, P s → P { s with hpt.readData := data } := by intros; assumption
  hold : ∀ s held, P s → P { s with hpt.held := held } := by intros; assumption
  changeTaken : ∀ s, P s → P { s with imu.changes := s.imu.changes.tail } := by intros; assumption
  sampleTaken : ∀ s, P s → P { s with stu.queue := s.stu.queue.tail } := by intros; assumption
  clashesCleared : ∀ s, P s → P { s with imu.items := s.imu.items.map Item.clearClash } := by intros; assumption
  planWritten : ∀ s k v, P s → k < 1032 → s.stc.station = .planWait ∨ s.stc.station = .planFault →
    P { s with stc.window := s.stc.window.write k v } := by intros; assumption
  checkStarted : ∀ s, P s → s.stc.station = .planWait ∨ s.stc.station = .planFault → P { s with stc.checking := true } :=
    by intros; assumption

/-- Kept by a write of the words that the host port stores: staging, ring, notify map, VIEW PART and the masks (R164, R167, R172). -/
structure StoredWordRule (P : State → Prop) : Prop where
  staging : ∀ s k v, P s → k < 1024 → P { s with hpt.staging := s.hpt.staging.write k v } := by intros; assumption
  ring : ∀ s k v, P s → k < 128 → P { s with req.ring := s.req.ring.write k v } := by intros; assumption
  notify : ∀ s k v, P s → k < 32 → P { s with hpt.notify := s.hpt.notify.write k v } := by intros; assumption
  viewPart : ∀ s v, P s → P { s with hpt.viewPart := v } := by intros; assumption
  ordinaryMask : ∀ s v, P s → P { s with hpt.ordinaryMask := v } := by intros; assumption
  faultMask : ∀ s v, P s → P { s with hpt.faultMask := v } := by intros; assumption

/-- Kept from the plan read to ACTIVE (R155, R156, R160), and by the entry to MUTED (R161). -/
structure StationRule (P : State → Prop) : Prop where
  clock : ∀ s level, P s → P { s with stc := clockPlan s.stc level } := by intros; assumption
  planFailed : ∀ s code entry, P s → s.stc.checking = true → P (enterPlanFault code entry { s with stc.checking := false }) :=
    by intros; assumption
  planGood : ∀ s, P s → s.stc.checking = true → planCheck s.stc.window = none →
    P (enterJoining { s with stc.checking := false }) := by intros; assumption
  active : ∀ s, P s → s.stc.station = .joining → P (startSending { s with stc.station := .active, stc.joinTimer := none }) :=
    by intros; assumption
  clashNotice : ∀ s notice, P s → P { s with stc.clashNotice := notice } := by intros; assumption
  mute : ∀ s cause, P s → s.stc.station = .joining ∨ s.stc.station = .active → P (flushLau [] (stopStation cause s)) :=
    by intros; assumption

/-- Kept by the line receiver (R69 to R75). -/
structure ReceiverRule (P : State → Prop) : Prop where
  busy : ∀ s, P s → P (becomeBusy s) := by intros; assumption
  quiet : ∀ s assembly, P s → s.lau.driver = false ∨ s.lrx.assembly = .assemble →
    P { quietLine s with lrx.assembly := assembly } := by intros; assumption
  found : ∀ s, P s → s.lrx.assembly = .hunt → P { s with lrx.assembly := .assemble } := by intros; assumption
  queued : ∀ s f, P s → f.mark = .remote → f.sender ≠ stationNumber s → s.lrx.assembly = .idle → s.lrx.queue.length < 4 →
    P { s with lrx.queue := s.lrx.queue ++ [f] } := by intros; assumption

/-- The transmitter as an attempt ends with the head frame taken off the queue, in the state given (R92, R93, R95). -/
def attemptEnded (rest : List TxFrame) (transmitter : TxState) (lau : Lau) : Lau :=
  { lau with
    driver := false, guard := false, attempt := none, queue := rest, attempts := 0, transmitter := transmitter }

/-- Kept by the transmitter (R87 to R95). -/
structure TransmitterRule (P : State → Prop) : Prop where
  wait : ∀ s, P s → s.lau.transmitter = .gap → P { s with lau.transmitter := .idle } := by intros; assumption
  begin : ∀ s rest f others, P s → s.lau.transmitter = .gap → s.lau.queue = f :: others → s.lrx.queue.length < 4 →
    P (beginAttempt rest f s) := by intros; assumption
  backoff : ∀ s wait count, P s → s.lau.transmitter = .send → s.lau.attempts < 12 →
    P { s with
      lau := { s.lau with driver := false, guard := false, attempt := none, transmitter := .backoff, backoff := some wait },
      freeCount := count } := by intros; assumption
  backoffEnd : ∀ s, P s → s.lau.transmitter = .backoff →
    P { s with lau.backoff := none, lau.transmitter := if s.lrx.line = .quiet then .gap else .defer } := by intros; assumption
  abandon : ∀ s f rest count, P s → s.lau.transmitter = .send → s.lau.queue = f :: rest →
    P (tellAbandoned f { s with lau := attemptEnded rest .idle s.lau, freeCount := count }) := by intros; assumption
  complete : ∀ s f rest a, P s → s.lau.transmitter = .send → s.lau.queue = f :: rest → s.lau.attempt = some a →
    P (tellCompleted f (completionNotice
      { s with
        lau := { attemptEnded rest .idle s.lau with lastCompleted := some a.sequence },
        lrx.queue := s.lrx.queue ++ [a.asSelf] })) := by intros; assumption
  trip : ∀ s f rest, P s → s.lau.transmitter = .send → s.lau.queue = f :: rest → s.stc.station = .active →
    P (flushLau [f] (stopStation .guard { s with lau := attemptEnded rest .off s.lau })) := by intros; assumption

/-- Kept by the image updater and the peer monitor (R12 to R23, R35, R50 to R54). -/
structure UpdaterRule (P : State → Prop) : Prop where
  notice : ∀ s expiring f rest, P s → takesFrames s = true → s.lrx.queue = f :: rest → f.mark = .remote →
    P (noticeFrame f (expireAll expiring { s with lrx.queue := rest, imu.work := .notice f })) := by intros; assumption
  lose : ∀ s n, P s → lostTimerExpires n s = true → P (losePeer n s) := by intros; assumption
  selfTaken : ∀ s f rest, P s → takesFrames s = true → s.lrx.queue = f :: rest → f.mark = .self →
    P { s with lrx.queue := rest, imu.work := .selfRecords f.body.records } := by intros; assumption
  dequeued : ∀ s f rest, P s → s.lrx.queue = f :: rest → P { s with lrx.queue := rest } := by intros; assumption
  recordsBegin : ∀ s f, P s → s.imu.work = .notice f → s.imu.applying = none →
    P { s with imu.work := .remoteRecords f.sender f.body.records } := by intros; assumption
  gateBegin : ∀ s mark g q, P s → s.imu.applying = none →
    P { s with imu.heldGate := s.imu.heldGate.set g.val (some q), imu.work := .gate mark g } := by intros; assumption
  free : ∀ s, P s → P { s with imu.work := .free } := by intros; assumption
  event : ∀ s n w rest, P s → nextEvent s = some (w, rest) → takesEvents s = true →
    P { applyEvent w.event (w.todo.take n) { s with imu.events := rest } with
      imu.applying := if w.todo.length ≤ n then none else some { w with todo := w.todo.drop n } } := by intros; assumption
  remoteRecord : ∀ s sender r rest, P s → s.imu.work = .remoteRecords sender (r :: rest) → P (applyRemoteRecord sender r s) :=
    by intros; assumption
  selfRecord : ∀ s r rest, P s → s.imu.work = .selfRecords (r :: rest) → P (applySelfRecord r s) := by intros; assumption
  nextRemote : ∀ s sender r rest, P s → s.imu.work = .remoteRecords sender (r :: rest) →
    P { s with imu.work := .remoteRecords sender rest } := by intros; assumption
  nextSelf : ∀ s r rest, P s → s.imu.work = .selfRecords (r :: rest) → P { s with imu.work := .selfRecords rest } := by intros; assumption
  gateStep : ∀ s mark g slot, P s → s.imu.work = .gate mark g → nextGateSlot s g = some slot →
    P (updateItem slot Item.moveGate s) := by intros; assumption

/-- Kept by the expiries of the scheduler's timers (R125, R128). -/
structure TimerRule (P : State → Prop) : Prop where
  presence : ∀ s, P s → P { s with tsc.presenceTimer := .expired } := by intros; assumption
  refresh : ∀ s, P s → P { s with tsc.refreshTimer := .expired } := by intros; assumption

/-- Kept by every change of a block but a reset, a write of a stored word and a latching of an item view. -/
structure BlockRules (P : State → Prop) : Prop where
  settling : SettlingRule P
  access : AccessRule P
  station : StationRule P
  receiver : ReceiverRule P
  transmitter : TransmitterRule P
  updater : UpdaterRule P
  timer : TimerRule P

/-! ## Two properties together -/

theorem SettlingRule.and {P Q : State → Prop} (one : SettlingRule P) (two : SettlingRule Q) : SettlingRule fun s => P s ∧ Q s where
  admitPresence s h := ⟨one.admitPresence s h.1, two.admitPresence s h.2⟩
  admitReq s h := ⟨one.admitReq s h.1, two.admitReq s h.2⟩
  build s w h h1 h2 := ⟨one.build s w h.1 h1 h2, two.build s w h.2 h1 h2⟩
  close s status remaining lost frames h h1 :=
    ⟨one.close s status remaining lost frames h.1 h1, two.close s status remaining lost frames h.2 h1⟩
  start s h h1 h2 := ⟨one.start s h.1 h1 h2, two.start s h.2 h1 h2⟩
  process s p h := ⟨one.process s p h.1, two.process s p h.2⟩
  halt s w h h1 := ⟨one.halt s w h.1 h1, two.halt s w h.2 h1⟩
  presence s h := ⟨one.presence s h.1, two.presence s h.2⟩
  refresh s h := ⟨one.refresh s h.1, two.refresh s h.2⟩
  leaveIdle s h := ⟨one.leaveIdle s h.1, two.leaveIdle s h.2⟩
  report s flags counters h := ⟨one.report s flags counters h.1, two.report s flags counters h.2⟩

theorem AccessRule.and {P Q : State → Prop} (one : AccessRule P) (two : AccessRule Q) : AccessRule fun s => P s ∧ Q s where
  answer s data h := ⟨one.answer s data h.1, two.answer s data h.2⟩
  hold s held h := ⟨one.hold s held h.1, two.hold s held h.2⟩
  changeTaken s h := ⟨one.changeTaken s h.1, two.changeTaken s h.2⟩
  sampleTaken s h := ⟨one.sampleTaken s h.1, two.sampleTaken s h.2⟩
  clashesCleared s h := ⟨one.clashesCleared s h.1, two.clashesCleared s h.2⟩
  planWritten s k v h h1 h2 := ⟨one.planWritten s k v h.1 h1 h2, two.planWritten s k v h.2 h1 h2⟩
  checkStarted s h h1 := ⟨one.checkStarted s h.1 h1, two.checkStarted s h.2 h1⟩

theorem StationRule.and {P Q : State → Prop} (one : StationRule P) (two : StationRule Q) : StationRule fun s => P s ∧ Q s where
  clock s level h := ⟨one.clock s level h.1, two.clock s level h.2⟩
  planFailed s code entry h h1 := ⟨one.planFailed s code entry h.1 h1, two.planFailed s code entry h.2 h1⟩
  planGood s h h1 h2 := ⟨one.planGood s h.1 h1 h2, two.planGood s h.2 h1 h2⟩
  active s h h1 := ⟨one.active s h.1 h1, two.active s h.2 h1⟩
  clashNotice s notice h := ⟨one.clashNotice s notice h.1, two.clashNotice s notice h.2⟩
  mute s cause h h1 := ⟨one.mute s cause h.1 h1, two.mute s cause h.2 h1⟩

theorem ReceiverRule.and {P Q : State → Prop} (one : ReceiverRule P) (two : ReceiverRule Q) : ReceiverRule fun s => P s ∧ Q s where
  busy s h := ⟨one.busy s h.1, two.busy s h.2⟩
  quiet s assembly h h1 := ⟨one.quiet s assembly h.1 h1, two.quiet s assembly h.2 h1⟩
  found s h h1 := ⟨one.found s h.1 h1, two.found s h.2 h1⟩
  queued s f h h1 h2 h3 h4 := ⟨one.queued s f h.1 h1 h2 h3 h4, two.queued s f h.2 h1 h2 h3 h4⟩

theorem TransmitterRule.and {P Q : State → Prop} (one : TransmitterRule P) (two : TransmitterRule Q) :
    TransmitterRule fun s => P s ∧ Q s where
  wait s h h1 := ⟨one.wait s h.1 h1, two.wait s h.2 h1⟩
  begin s rest f others h h1 h2 h3 := ⟨one.begin s rest f others h.1 h1 h2 h3, two.begin s rest f others h.2 h1 h2 h3⟩
  backoff s wait count h h1 h2 := ⟨one.backoff s wait count h.1 h1 h2, two.backoff s wait count h.2 h1 h2⟩
  backoffEnd s h h1 := ⟨one.backoffEnd s h.1 h1, two.backoffEnd s h.2 h1⟩
  abandon s f rest count h h1 h2 := ⟨one.abandon s f rest count h.1 h1 h2, two.abandon s f rest count h.2 h1 h2⟩
  complete s f rest a h h1 h2 h3 := ⟨one.complete s f rest a h.1 h1 h2 h3, two.complete s f rest a h.2 h1 h2 h3⟩
  trip s f rest h h1 h2 h3 := ⟨one.trip s f rest h.1 h1 h2 h3, two.trip s f rest h.2 h1 h2 h3⟩

theorem UpdaterRule.and {P Q : State → Prop} (one : UpdaterRule P) (two : UpdaterRule Q) : UpdaterRule fun s => P s ∧ Q s where
  notice s expiring f rest h h1 h2 h3 := ⟨one.notice s expiring f rest h.1 h1 h2 h3, two.notice s expiring f rest h.2 h1 h2 h3⟩
  lose s n h h1 := ⟨one.lose s n h.1 h1, two.lose s n h.2 h1⟩
  selfTaken s f rest h h1 h2 h3 := ⟨one.selfTaken s f rest h.1 h1 h2 h3, two.selfTaken s f rest h.2 h1 h2 h3⟩
  dequeued s f rest h h1 := ⟨one.dequeued s f rest h.1 h1, two.dequeued s f rest h.2 h1⟩
  recordsBegin s f h h1 h2 := ⟨one.recordsBegin s f h.1 h1 h2, two.recordsBegin s f h.2 h1 h2⟩
  gateBegin s mark g q h h1 := ⟨one.gateBegin s mark g q h.1 h1, two.gateBegin s mark g q h.2 h1⟩
  free s h := ⟨one.free s h.1, two.free s h.2⟩
  event s n w rest h h1 h2 := ⟨one.event s n w rest h.1 h1 h2, two.event s n w rest h.2 h1 h2⟩
  remoteRecord s sender r rest h h1 := ⟨one.remoteRecord s sender r rest h.1 h1, two.remoteRecord s sender r rest h.2 h1⟩
  selfRecord s r rest h h1 := ⟨one.selfRecord s r rest h.1 h1, two.selfRecord s r rest h.2 h1⟩
  nextRemote s sender r rest h h1 := ⟨one.nextRemote s sender r rest h.1 h1, two.nextRemote s sender r rest h.2 h1⟩
  nextSelf s r rest h h1 := ⟨one.nextSelf s r rest h.1 h1, two.nextSelf s r rest h.2 h1⟩
  gateStep s mark g slot h h1 h2 := ⟨one.gateStep s mark g slot h.1 h1 h2, two.gateStep s mark g slot h.2 h1 h2⟩

theorem TimerRule.and {P Q : State → Prop} (one : TimerRule P) (two : TimerRule Q) : TimerRule fun s => P s ∧ Q s where
  presence s h := ⟨one.presence s h.1, two.presence s h.2⟩
  refresh s h := ⟨one.refresh s h.1, two.refresh s h.2⟩

/-- The changes of the blocks keep two properties together where they keep each. -/
theorem BlockRules.and {P Q : State → Prop} (one : BlockRules P) (two : BlockRules Q) : BlockRules fun s => P s ∧ Q s where
  settling := one.settling.and two.settling
  access := one.access.and two.access
  station := one.station.and two.station
  receiver := one.receiver.and two.receiver
  transmitter := one.transmitter.and two.transmitter
  updater := one.updater.and two.updater
  timer := one.timer.and two.timer

/-! ## The sending side -/

section Settling

variable {P : State → Prop} (rule : SettlingRule P)

include rule

theorem SettlingRule.raise {s : State} (h : P s) (name : FlagName) : P (raiseFlag name s) := rule.report s _ _ h

theorem SettlingRule.count {s : State} (h : P s) (name : CounterName) : P (countUp name s) := rule.report s _ _ h

theorem SettlingRule.arbiter {s : State} (h : P s) : P (arbiter s) := rule.admitReq _ (rule.admitPresence _ h)

/-- An examination is a suspension, a close or the start of a slot. -/
theorem SettlingRule.examine {s : State} (h : P s) (noSlot : s.req.slot = none) : P (examineSlot s) := by
  have running : P { s with req.process := .running } := rule.process s .running h
  have none_out : ∀ w, s.req.slot = some w → w.outstanding = 0 := by simp [noSlot]
  by_cases owned : (cursorCopy s).stationOwned = true
  · cases check : slotCheck s (cursorCopy s) with
    | some status =>
      rw [examineSlot_refused owned check]
      exact rule.close _ _ _ _ _ running none_out
    | none =>
      by_cases silent : s.stc.station = .muted ∨ s.stc.straps.listen = true
      · rw [examineSlot_silent owned check silent]
        exact rule.close _ _ _ _ _ running none_out
      · rw [examineSlot_works owned check silent]
        exact rule.process _ .running (rule.start s h noSlot check)
  · rw [examineSlot_host (by simpa using owned)]
    exact rule.raise (rule.process s .suspended h) _

theorem SettlingRule.reqRun (n : Nat) {s : State} (h : P s) : P (reqRun n s) :=
  reqRun_keeps rule.admitPresence rule.admitReq rule.build
    (fun s w h slot closes => rule.close s _ _ _ _ h fun v hv => by
      obtain rfl : w = v := Option.some.inj (slot.symm.trans hv)
      simp only [closable, Bool.and_eq_true, beq_iff_eq] at closes
      exact closes.1)
    (fun _ h noSlot _ _ => rule.examine h noSlot) n s h

theorem SettlingRule.runRequests {s : State} (h : P s) : P (runRequests s) := rule.leaveIdle _ (rule.reqRun 40 h)

theorem SettlingRule.settle {s : State} (h : P s) : P (settle s) := rule.runRequests (rule.arbiter h)

theorem SettlingRule.setRun {s : State} (h : P s) : P (setRun s) := by
  by_cases running : s.req.process = .running
  · rwa [setRun_running running]
  · rw [setRun_starts running]
    exact rule.runRequests (rule.process s _ h)

theorem SettlingRule.clearRun {s : State} (h : P s) : P (clearRun s) := by
  cases process : s.req.process with
  | stopped => rwa [clearRun_stopped process]
  | suspended =>
    rw [clearRun_suspended process]
    exact rule.process s _ h
  | running =>
    rw [clearRun_running process]
    have halted : P { s with req.slot := s.req.slot.map fun w => { w with halted := true } } := by
      cases slot : s.req.slot with
      | none =>
        rw [Option.map_none, ← slot]
        exact h
      | some w => exact rule.halt s w h slot
    exact rule.runRequests (rule.process _ .stopped halted)

theorem SettlingRule.kick {s : State} (h : P s) : P (kickProcess s) := by
  unfold kickProcess
  split
  · exact rule.runRequests (rule.process s _ h)
  · exact h

/-- The end of a work item: an IMU that is free, and after a self frame the look at the conditions of R129. -/
theorem SettlingRule.endWork {s : State} (h : P { s with imu.work := .free }) : P (endWork s) := by
  unfold Machine.endWork
  split
  · exact rule.leaveIdle _ (rule.refresh _ h)
  · exact h

end Settling

/-! ## Host accesses -/

/-- A host write is taken or ignored. -/
theorem hostWrite_keeps {P : State → Prop} {op : State → State} {s : State} (h : P s) (taken : P (op s)) : P (hostWrite op s) := by
  rcases hostWrite_cases op s with e | e <;> rwa [e]

section Access

variable {P : State → Prop} (rule : AccessRule P)

include rule

/-- A host read is taken, answered with 0 during a reset, or not made while an access is held. -/
theorem AccessRule.read {op : State → State} {s : State} (h : P s) (taken : P (op s)) : P (hostRead op s) := by
  rcases hostRead_cases op s with e | e | e <;> rw [e]
  · exact taken
  · exact rule.answer s 0 h
  · exact h

theorem AccessRule.hold_ {s : State} (h : P s) (a : Access) : P (holdAccess a s) := rule.hold s _ h

theorem AccessRule.release {s : State} (h : P s) (ended : Access → Bool) : P (releaseHeld ended s) := by
  obtain ⟨held, e⟩ := releaseHeld_only ended s
  rw [e]
  exact rule.hold s held h

theorem AccessRule.storePlan {s : State} (h : P s) (k : Fin 1032) (v : Word) : P (storePlanWord k v s) := by
  unfold storePlanWord
  split
  · next station => exact rule.planWritten s k v h k.isLt (.inl station)
  · next station => exact rule.planWritten s k v h k.isLt (.inr station)
  all_goals exact h

theorem AccessRule.planWrite {s : State} (h : P s) (k : Fin 1032) (v : Word) : P (writePlanWindow k v s) := by
  unfold writePlanWindow
  split
  · exact rule.hold s _ h
  · exact rule.storePlan h k v

theorem AccessRule.start {s : State} (h : P s) : P (startCheck s) := by
  by_cases taken : takesStart s.stc
  · rw [startCheck_taken taken]
    exact rule.checkStarted s h taken.1
  · rwa [startCheck_ignored taken]

theorem AccessRule.clearFlags (settling : SettlingRule P) {s : State} (h : P s) (flags : FlagClass) (v : Word) :
    P (clearFlags flags v s) := by
  cases flags with
  | ordinary => exact settling.report s _ _ h
  | fault =>
    unfold Machine.clearFlags
    simp only
    split
    · exact settling.report _ _ _ (rule.clashesCleared s h)
    · exact settling.report s _ _ h

theorem AccessRule.sampleRead {s : State} (h : P s) (read : Option (Fin 16)) : P (sampleReadArrives read s) := by
  obtain ⟨held, data, e⟩ := sampleReadArrives_only read s
  rw [e]
  exact rule.answer _ _ (rule.hold s held h)

end Access

/-- A write decoded over the whole window, a soft reset among its outcomes (R164, R169). -/
theorem StoredWordRule.write {P : State → Prop} (rule : StoredWordRule P) (access : AccessRule P) (settling : SettlingRule P)
    {s : State} (h : P s) (a v : Word) (reset : a = 0x3005#16 → P (softReset s)) : P (writeWord a v s) := by
  unfold writeWord
  simp only
  split_ifs with views staging ring notify readOnly plan
  · exact h
  · exact rule.staging s _ v h (by omega)
  · exact rule.ring s _ v h (by omega)
  · exact rule.notify s _ v h (by omega)
  · exact h
  · exact access.planWrite h _ v
  · unfold writeRegister
    split
    · next control =>
      unfold writeControl
      have ran : P (if v.getLsbD 0 then Machine.setRun s else Machine.clearRun s) := by
        split
        · exact settling.setRun h
        · exact settling.clearRun h
      simp only
      by_cases soft : v.getLsbD 1 = true
      · rw [if_pos soft]
        exact reset (BitVec.eq_of_toNat_eq control)
      · rw [if_neg soft]
        split
        · exact access.start ran
        · exact ran
    · exact settling.kick h
    · exact access.sampleTaken s h
    · exact rule.viewPart s _ h
    · exact access.clearFlags settling h _ v
    · exact access.clearFlags settling h _ v
    · exact rule.ordinaryMask s _ h
    · exact rule.faultMask s _ h
    · exact h

/-! ## The image updater -/

section Updater

variable {P : State → Prop} (rule : UpdaterRule P) (settling : SettlingRule P)

include rule settling

theorem UpdaterRule.startGate {s : State} (h : P s) (idle : s.imu.applying = none) (mark : Mark) (g : Group) (q : Byte) :
    P (startGate mark g q s) := by
  unfold Machine.startGate
  simp only
  split
  · exact rule.gateBegin _ mark g q (settling.count h _) idle
  · exact rule.gateBegin s mark g q h idle

/-- A frame in its notice goes on by its kind, or waits. -/
theorem UpdaterRule.finishNotice {s : State} (h : P s) (idle : s.imu.applying = none) : P (finishNotice s) := by
  by_cases waits : s.imu.events ≠ [] ∨ ∀ f, s.imu.work ≠ .notice f
  · rwa [finishNotice_waits waits]
  · push Not at waits
    obtain ⟨empty, f, work⟩ := waits
    rw [finishNotice_applies work empty]
    unfold applyByKind
    split
    · next records body =>
      have begun := rule.recordsBegin s f h work idle
      rw [body] at begun
      rw [workOn_remote]
      split
      · exact rule.free _ h
      · exact begun
    · exact rule.startGate settling h idle .remote _ _
    · exact settling.endWork (rule.free s h)

/-- Each command of an owner event takes its next steps or has no effect. -/
theorem UpdaterRule.takeEvent {s : State} (h : P s) (kind : OwnerEventKind) (steps : Option Nat) : P (takeEvent kind steps s) := by
  cases next : nextEvent s with
  | none => simpa [Machine.takeEvent, next] using h
  | some pair =>
    obtain ⟨w, rest⟩ := pair
    by_cases taken : takesEvents s = true ∧ w.event.kind = kind
    · obtain ⟨takes, rfl⟩ := taken
      rw [takeEvent_steps next takes]
      have stepped := rule.event s (steps.getD w.todo.length) w rest h next takes
      rcases Nat.lt_or_ge (steps.getD w.todo.length) w.todo.length with more | last
      · rw [eventSteps_goesOn more]
        rwa [if_neg (by omega)] at stepped
      · rw [eventSteps_ends last]
        rw [if_pos last, List.take_of_length_le last] at stepped
        exact rule.finishNotice settling stepped rfl
    · simpa [Machine.takeEvent, next, taken] using h

theorem UpdaterRule.takeRemote {s : State} {f : Frame} {rest : List Frame} (h : P s) (takes : takesFrames s = true)
    (queue : s.lrx.queue = f :: rest) (remote : f.mark = .remote) (expiring : List Station) :
    P (takeRemoteFrame expiring f rest s) := by
  have noticed := rule.notice s expiring f rest h takes queue remote
  refine settling.leaveIdle _ (rule.finishNotice settling noticed ?_)
  obtain ⟨_, _, _, expired, -, -⟩ := expireAll_only expiring { s with lrx.queue := rest, imu.work := .notice f }
  obtain ⟨_, _, _, _, answered⟩ := noticeFrame_only f (expireAll expiring { s with lrx.queue := rest, imu.work := .notice f })
  rw [answered, expired]
  simp only [takesFrames, Bool.and_eq_true, Option.isNone_iff_eq_none] at takes
  exact takes.1.2

theorem UpdaterRule.takeSelf {s : State} {f : Frame} {rest : List Frame} (h : P s) (takes : takesFrames s = true)
    (queue : s.lrx.queue = f :: rest) (own : f.mark = .self) : P (idleExit (applySelfByKind f { s with lrx.queue := rest })) := by
  have taken := rule.selfTaken s f rest h takes queue own
  have freed := rule.free _ taken
  have idle : s.imu.applying = none := by
    simp only [takesFrames, Bool.and_eq_true, Option.isNone_iff_eq_none] at takes
    exact takes.1.2
  refine settling.leaveIdle _ ?_
  unfold applySelfByKind
  split
  · next records body =>
    rw [body] at taken
    unfold workOn
    simp only
    split
    · exact settling.endWork freed
    · exact taken
  · exact rule.startGate settling (s := { s with lrx.queue := rest }) (rule.dequeued s f rest h queue) idle .self _ _
  · exact settling.endWork freed

omit settling in
theorem UpdaterRule.finishRemoteRecord (access : AccessRule P) {s : State} {sender : Station} {r : Record} {rest : List Record}
    (h : P s) (work : s.imu.work = .remoteRecords sender (r :: rest)) : P (finishRemoteRecord sender r rest s) := by
  unfold Machine.finishRemoteRecord
  have applied := access.release (rule.remoteRecord s sender r rest h work) (endsWithRecord (findSlot s.imu.items r.item))
  rw [workOn_remote]
  split
  · exact rule.free _ applied
  · refine rule.nextRemote _ sender r rest applied ?_
    obtain ⟨_, released⟩ := releaseHeld_only (endsWithRecord (findSlot s.imu.items r.item)) (applyRemoteRecord sender r s)
    obtain ⟨_, _, _, _, _, only⟩ := applyRemoteRecord_only sender r s
    rw [released, only]
    exact work

theorem UpdaterRule.finishSelfRecord (access : AccessRule P) {s : State} {r : Record} {rest : List Record}
    (h : P s) (work : s.imu.work = .selfRecords (r :: rest)) : P (finishSelfRecord r rest s) := by
  unfold Machine.finishSelfRecord
  have applied := access.release (rule.selfRecord s r rest h work) (endsWithSelfRecord (findSlot s.imu.items r.item))
  unfold workOn
  simp only
  split
  · have freed := rule.free _ applied
    exact settling.endWork freed
  · refine rule.nextSelf _ r rest applied ?_
    obtain ⟨_, released⟩ := releaseHeld_only (endsWithSelfRecord (findSlot s.imu.items r.item)) (applySelfRecord r s)
    obtain ⟨_, _, only⟩ := applySelfRecord_only r s
    rw [released, only]
    exact work

theorem UpdaterRule.finishGate (access : AccessRule P) {s : State} (h : P s) (g : Group) : P (finishGate g s) :=
  settling.endWork (rule.free _ (access.release (settling.raise h _) _))

end Updater

/-! ## The line, the station and the transmitter -/

section Line

variable {P : State → Prop} (settling : SettlingRule P)

include settling

omit settling in
/-- A plan read clocked edge by edge. -/
theorem StationRule.clocks (rule : StationRule P) {s : State} (h : P s) (levels : List Bool) :
    P { s with stc := levels.foldl clockPlan s.stc } := by
  induction levels generalizing s with
  | nil => exact h
  | cons level rest ih => exact ih (rule.clock s level h)

/-- The notice of a clash taken: an entry to MUTED, or nothing but that it waits no longer. -/
theorem StationRule.takeClash (rule : StationRule P) {s : State} (h : P s) : P (takeClashNotice s) := by
  have taken := rule.clashNotice s false h
  by_cases station : s.stc.station = .joining ∨ s.stc.station = .active
  · unfold takeClashNotice muteNotice
    rw [if_pos station]
    exact settling.reqRun 40 (rule.mute _ .identity taken station)
  · push Not at station
    rwa [takeClashNotice_ignored station.1 station.2]

omit settling in
/-- An accepted frame enters the receive queue as a remote one (R74). -/
theorem acceptFrame_mark {heard : HeardFrame} {f : Frame} (h : acceptFrame heard = some f) : f.mark = .remote := by
  unfold acceptFrame at h
  simp only at h
  split_ifs at h
  unfold parseFrame at h
  split at h
  · simp only at h
    split_ifs at h
    obtain ⟨body, -, rfl⟩ := Option.map_eq_some_iff.mp h
    rfl
  · cases h

theorem ReceiverRule.checkFrame (rule : ReceiverRule P) (station : StationRule P) {s : State} (h : P s)
    (idle : s.lrx.assembly = .idle) (heard : HeardFrame) (waits : Bool) : P (checkFrame heard waits s) := by
  unfold Machine.checkFrame
  cases accepts : acceptFrame heard with
  | none => exact settling.count h _
  | some f =>
    simp only
    split
    · have noticed := station.clashNotice _ true (settling.raise h .identityClash)
      unfold identityClash
      simp only
      split
      · exact noticed
      · exact station.takeClash settling noticed
    · next other =>
      unfold queueFrame
      split
      · next room =>
        exact rule.queued s f h (acceptFrame_mark accepts) other idle (by simpa [receiveRoom] using room)
      · exact settling.raise (settling.count h _) _

omit settling in
theorem TransmitterRule.endGap (rule : TransmitterRule P) {s : State} (h : P s) (gap : s.lau.transmitter = .gap) (rest : Bool) :
    P (endGap rest s) := by
  unfold Machine.endGap
  split
  · exact rule.wait s h gap
  · next f others queue =>
    split
    · next room => exact rule.begin s rest f others h gap queue (by simpa [receiveRoom] using room)
    · exact rule.wait s h gap

theorem SettlingRule.refill {s : State} (h : P s) (first : Bool) : P (refillQueue first s) := by
  unfold refillQueue
  split
  · exact settling.runRequests (settling.refresh _ h)
  · exact settling.leaveIdle _ (settling.refresh _ (settling.runRequests h))

theorem TransmitterRule.collide (rule : TransmitterRule P) {s : State} {f : TxFrame} {rest : List TxFrame} (h : P s)
    (send : s.lau.transmitter = .send) (queue : s.lau.queue = f :: rest) : P (takeCollision f rest s) := by
  have counted := settling.count h .collisions
  unfold takeCollision
  simp only
  split
  · have told : P (tellAbandoned f _) :=
      rule.abandon _ f rest (s.freeCount + 1) (settling.count counted .abandoned) send queue
    unfold abandonHead
    simp only
    refine settling.refill (settling.arbiter ?_) _
    split
    · exact settling.presence _ told
    · exact told
  · next few =>
    exact rule.backoff (countUp .collisions s) _ _ counted send (by rw [maxAttempts] at few; simpa using few)

theorem TransmitterRule.completion (rule : TransmitterRule P) {s : State} {f : TxFrame} {rest : List TxFrame} {a : SentFrame}
    (h : P s) (send : s.lau.transmitter = .send) (queue : s.lau.queue = f :: rest) (attempt : s.lau.attempt = some a) :
    P (takeCompletion f rest a s) :=
  settling.leaveIdle _ (settling.refresh _ (settling.settle
    (rule.complete (countUp .framesSent s) f rest a (settling.count h _) send queue attempt)))

theorem TransmitterRule.tripped (rule : TransmitterRule P) {s : State} {f : TxFrame} {rest : List TxFrame}
    (h : P s) (send : s.lau.transmitter = .send) (queue : s.lau.queue = f :: rest) (active : s.stc.station = .active) :
    P (tripGuard f rest s) := by
  have off := rule.trip _ f rest (settling.raise (settling.count h .abandoned) .guardTrip) send queue active
  unfold tripGuard muteNotice
  simp only
  rw [if_pos (.inr active)]
  exact settling.reqRun 40 off

end Line

/-! ## The commands -/

/-- A property that every change of a block keeps is kept by every command, provided it is kept by what only some commands do: a reset, a
write of a stored word, the latching of an item view. -/
theorem exec_keeps {P : State → Prop} (rules : BlockRules P) {c : Instr} {s t : State}
    (stored : (∃ a v, c = .hostRegisterWrite a v) → StoredWordRule P)
    (latch : (∃ k, c = .itemViewWord0Read k) ∨ c = .heldAccessServed → ∀ u latch, P u → P { u with hpt.latch := latch })
    (reset : isReset c = true ∨ (∃ v, c = .hostRegisterWrite 0x3005#16 v) →
      ∀ straps cause inReset, P (resetBlocks straps cause inReset s))
    (h : P s) (he : exec c s = .next t) : P t := by
  have ends : ∀ {u : State}, exec c s = .next u → P u → P t := fun {u} e hu => by
    obtain rfl : u = t := by rw [e] at he; exact Host.Outcome.next.inj he
    exact hu
  obtain ⟨settling, access, station, receiver, sending, updater, timer⟩ := rules
  have latched : (∃ k, c = .itemViewWord0Read k) ∨ c = .heldAccessServed → ∀ k u, P u → P (latchView k u) :=
    fun hc k u hu => access.answer _ (itemViewWord u k.val 0)
      (latch hc u { slot := some k, words := (List.range 16).map (itemViewWord u k.val) } hu)
  cases c with
  | powerOnReset => exact ends rfl (reset (.inl rfl) _ _ _)
  | pinReset => exact ends rfl (reset (.inl rfl) _ _ _)
  | resetEnd straps =>
    refine ends rfl ?_
    split
    · exact reset (.inl rfl) _ _ _
    · exact h
  | softReset => exact ends rfl (hostWrite_keeps h (reset (.inl rfl) _ _ _))
  | runSet => exact ends rfl (hostWrite_keeps h (settling.setRun h))
  | runClear => exact ends rfl (hostWrite_keeps h (settling.clearRun h))
  | start => exact ends rfl (hostWrite_keeps h (access.start h))
  | kick => exact ends rfl (hostWrite_keeps h (settling.kick h))
  | nextChange => exact ends rfl (access.read h (access.answer _ _ (access.changeTaken s h)))
  | sampleTake => exact ends rfl (hostWrite_keeps h (access.sampleTaken s h))
  | itemViewWord0Read k =>
    refine ends rfl (access.read h ?_)
    split
    · exact access.hold s _ h
    · exact latched (.inl ⟨k, rfl⟩) k s h
  | counterRead n => exact ends rfl (access.read h (access.answer _ (s.hpt.counters.get n).word
      (settling.report s s.hpt.flags (s.hpt.counters.set Counter.zero n) h)))
  | flagsClear flags v => exact ends rfl (hostWrite_keeps h (access.clearFlags settling h flags v))
  | planWindowWrite k v => exact ends rfl (hostWrite_keeps h (access.planWrite h k v))
  | hostRegisterWrite a v =>
    refine ends rfl (hostWrite_keeps h ((stored ⟨a, v, rfl⟩).write access settling h a v ?_))
    rintro rfl
    exact reset (.inr ⟨v, rfl⟩) _ _ _
  | heldAccessServed =>
    refine ends rfl ?_
    split
    · next a held =>
      have released : P { s with hpt.held := none } := access.hold s none h
      cases a with
      | viewWord0 k => exact latched (.inr rfl) k _ released
      | sampleWord w => exact access.answer _ _ released
      | planWrite k v => exact access.storePlan released k v
    all_goals exact h
  | planReadEnd levels =>
    exact ends rfl (station.clocks h levels)
  | planCheckEnd =>
    refine ends rfl ?_
    split
    · next checking =>
      unfold finishPlanCheck
      refine access.release ?_ _
      split
      · next good => exact station.planGood s h checking good
      · exact station.planFailed s _ _ h checking
    · exact h
  | joinTimerExpiry =>
    refine ends rfl ?_
    split
    · next joining => exact settling.settle (station.active s h joining.1)
    · exact h
  | lineBusy =>
    refine ends rfl ?_
    split
    · exact receiver.busy s h
    · exact h
  | lineQuiet =>
    refine ends rfl ?_
    split
    · next quiet => exact receiver.quiet s _ h (.inl quiet.2.2)
    · exact h
  | frameEnd heard waits =>
    refine ends rfl ?_
    split
    · next assembling => exact receiver.checkFrame settling station (receiver.quiet s .idle h (.inr assembling)) rfl _ _
    · exact h
  | gapEnd rest =>
    refine ends rfl ?_
    split
    · next gap => exact sending.endGap h gap.1 rest
    · exact h
  | collision sensed beyond =>
    refine ends rfl ?_
    split
    · next f rest a send queue attempt =>
      split
      · exact sending.collide settling h send queue
      · exact h
    · exact h
  | backoffEnd =>
    refine ends rfl ?_
    split
    · next backoff => exact sending.backoffEnd s h backoff
    · exact h
  | attemptComplete =>
    refine ends rfl ?_
    split
    · next f rest a send queue attempt => exact sending.completion settling h send queue attempt
    · exact h
  | guardExpiry =>
    refine ends rfl ?_
    split
    · next f rest send queue active => exact sending.tripped settling h send queue active
    · exact h
  | imuTakeFrame expiring =>
    refine ends rfl ?_
    split
    · exact h
    · next f rest queue =>
      split
      · next takes => exact updater.takeRemote settling h takes.1 queue takes.2 expiring
      · exact h
  | selfFrameTake =>
    refine ends rfl ?_
    split
    · exact h
    · next f rest queue =>
      split
      · next takes => exact updater.takeSelf settling h takes.1 queue takes.2
      · exact h
  | lostTimerExpiry n =>
    refine ends rfl ?_
    unfold expireLost
    split
    · next expires => exact updater.lose s n h expires
    · exact h
  | ownerRejoined steps => exact ends rfl (updater.takeEvent settling h _ steps)
  | ownerDoubtful steps => exact ends rfl (updater.takeEvent settling h _ steps)
  | ownerLost steps => exact ends rfl (updater.takeEvent settling h _ steps)
  | remoteRecord read =>
    refine ends rfl ?_
    split
    · next sender r rest work =>
      split
      · refine updater.finishRemoteRecord access (access.sampleRead h read) ?_
        obtain ⟨_, _, e⟩ := sampleReadArrives_only read s
        rwa [e]
      · exact h
    · exact h
  | selfRecord =>
    refine ends rfl ?_
    split
    · next r rest work =>
      split
      · exact updater.finishSelfRecord settling access h work
      · exact h
    · exact h
  | gateItemStep =>
    refine ends rfl ?_
    split
    · next mark g work =>
      split
      · exact h
      · next slot next =>
        split
        · exact updater.gateStep s mark g slot h work next
        · exact h
    · exact h
  | gateApplicationEnd =>
    refine ends rfl ?_
    split
    · split
      · exact updater.finishGate settling access h _
      · exact h
    · exact h
  | presenceTimerExpiry =>
    refine ends rfl ?_
    split
    · exact settling.leaveIdle _ (settling.arbiter (settling.presence _ (timer.presence s h)))
    · exact h
  | refreshTimerExpiry =>
    refine ends rfl ?_
    split
    · exact settling.leaveIdle _ (settling.refresh _ (timer.refresh s h))
    · exact h
  | startPatternFound heard =>
    refine ends rfl ?_
    split
    · next found => exact receiver.found s h found.1
    · exact h

/-- What every command keeps, and a reset, the taking of a command and a millisecond of the timebase as well, every step keeps. -/
theorem step_keeps {P : State → Prop} (rules : BlockRules P) (stored : StoredWordRule P)
    (latch : ∀ s latch, P s → P { s with hpt.latch := latch })
    (reset : ∀ s straps cause inReset, P s → P (resetBlocks straps cause inReset s))
    (popped : ∀ s rest, P s → P { s with pending := rest }) (tick : ∀ s, P s → P (idleTick s))
    {s t : State} (h : P s) (hs : step s = .next t) : P t := by
  unfold step at hs
  cases pending : s.pending with
  | nil =>
    rw [pending] at hs
    obtain rfl := Host.Outcome.next.inj hs
    unfold idleStep
    split
    · exact rules.station.takeClash rules.settling h
    · exact tick s h
  | cons c rest =>
    rw [pending] at hs
    have before := popped s rest h
    exact exec_keeps rules (fun _ => stored) (fun _ => latch) (fun _ straps cause inReset => reset _ straps cause inReset before)
      before hs

end Sys2Proof.Laws
end

section
/-! SUPPORT. The rules of a property that does not look at what a block's changes touch: the sending side, the image; and the obligations
that follow from them: every command answers a next state, MUTED is left only by a reset, the host port's own state is the host's, and the
stores of words and the sample queue keep their bounds. -/

namespace Sys2Proof.Laws

open Sys2Proof.Machine

/-! ## What the operations that tell outcomes change at most -/

theorem tellAbandoned_only (f : TxFrame) (s : State) :
    ∃ slot tsc, tellAbandoned f s = { s with req.slot := slot, tsc := tsc } := ⟨_, _, tellAbandoned_eq f s⟩

theorem tellCompleted_only (f : TxFrame) (s : State) :
    ∃ slot tsc, tellCompleted f s = { s with req.slot := slot, tsc := tsc } := by
  unfold tellCompleted
  split
  · rw [reqOutcome_frame]
    exact ⟨_, _, rfl⟩
  all_goals exact ⟨_, _, rfl⟩

theorem completionNotice_only (s : State) : ∃ tsc, completionNotice s = { s with tsc := tsc } := by
  unfold completionNotice
  split <;> exact ⟨_, rfl⟩

theorem flushLau_only (before : List TxFrame) (s : State) :
    ∃ lau slot tsc counters, flushLau before s =
      { s with lau := lau, req.slot := slot, tsc := tsc, hpt.counters := counters } := by
  simp only [flushLau, tellAll_eq, countAbandoned_eq]
  exact ⟨_, _, _, _, rfl⟩

theorem startSending_only (s : State) : ∃ lau tsc, startSending s = { s with lau := lau, tsc := tsc } := by
  unfold startSending
  split
  · exact ⟨_, _, rfl⟩
  · rw [presenceStep_only]
    exact ⟨_, _, rfl⟩

/-! ## Rules of a property that does not look at a block -/

/-- Kept by all that the settling of the sending side changes at most, and by what is raised and counted. -/
theorem SettlingRule.of_effects {P : State → Prop} (kept : ∀ s t, SendEffects s t → P s → P t)
    (report : ∀ s flags counters, P s → P { s with hpt.flags := flags, hpt.counters := counters }) : SettlingRule P where
  admitPresence s := kept _ _ (admitPresence_effects s).toSend
  admitReq s := kept _ _ (admitReq_effects s).toSend
  build _ _ h _ _ := kept _ _ (buildFrame_effects _ _).toSend h
  close s status remaining lost frames h _ := kept _ _ (closeSlot_effects status remaining lost frames s).toSend h
  start s h _ _ := kept _ _ (slot_effects _ s).toSend h
  process s p := kept _ _ (process_effects p s).toSend
  halt s _ h _ := kept _ _ (slot_effects _ s).toSend h
  presence s := kept _ _ (presenceStep_effects s)
  refresh s := kept _ _ (refreshStep_effects s)
  leaveIdle s := kept _ _ (idleExit_effects s).toSend
  report := report

section SendingIgnored

variable {P : State → Prop} (settling : SettlingRule P)
  (ignores : ∀ s lau slot tsc count, P s → P { s with lau := lau, req.slot := slot, tsc := tsc, freeCount := count })

include settling ignores

/-- A property that looks at nothing of the sending side but what settling keeps is kept by a flush. -/
theorem flushLau_ignored {s : State} (h : P s) (before : List TxFrame) : P (flushLau before s) := by
  obtain ⟨lau, slot, tsc, counters, e⟩ := flushLau_only before s
  rw [e]
  exact settling.report _ s.hpt.flags counters (ignores s lau slot tsc s.freeCount h)

/-- The transmitter's rule for a property that does not look at the sending side. -/
theorem TransmitterRule.of_ignored
    (receiver : ∀ s assembly line, P s → P { s with lrx.assembly := assembly, lrx.line := line })
    (ownQueued : ∀ s a, P s → s.lau.transmitter = .send → s.lau.attempt = some a →
      P { s with lrx.queue := s.lrx.queue ++ [a.asSelf] })
    (stop : ∀ s, P s → s.stc.station = .active → P (stopStation .guard s)) : TransmitterRule P where
  wait s h _ := ignores s _ s.req.slot s.tsc s.freeCount h
  begin s rest f _ h _ _ _ :=
    ignores _ (beginAttempt rest f s).lau s.req.slot s.tsc s.freeCount (receiver s .own .busy h)
  backoff s wait count h _ _ :=
    ignores s { s.lau with driver := false, guard := false, attempt := none, transmitter := .backoff, backoff := some wait }
      s.req.slot s.tsc count h
  backoffEnd s h _ := ignores s _ s.req.slot s.tsc s.freeCount h
  abandon s f rest count h _ _ := by
    obtain ⟨slot, tsc, e⟩ := tellAbandoned_only f { s with lau := attemptEnded rest .idle s.lau, freeCount := count }
    rw [e]
    exact ignores s _ slot tsc count h
  complete s f rest a h send _ attempt := by
    obtain ⟨tsc, e⟩ := completionNotice_only
      { s with
        lau := { attemptEnded rest .idle s.lau with lastCompleted := some a.sequence },
        lrx.queue := s.lrx.queue ++ [a.asSelf] }
    rw [e]
    obtain ⟨slot, tsc, e⟩ := tellCompleted_only f
      { s with
        lau := { attemptEnded rest .idle s.lau with lastCompleted := some a.sequence },
        lrx.queue := s.lrx.queue ++ [a.asSelf], tsc := tsc }
    rw [e]
    exact ignores { s with lrx.queue := s.lrx.queue ++ [a.asSelf] }
      { attemptEnded rest .idle s.lau with lastCompleted := some a.sequence } slot tsc s.freeCount (ownQueued s a h send attempt)
  trip s f rest h _ _ active :=
    flushLau_ignored settling ignores
      (stop _ (ignores s (attemptEnded rest .off s.lau) s.req.slot s.tsc s.freeCount h) active) [f]

end SendingIgnored

/-- A remote record counts, raises flags, hands a sample over, and changes one item at most: by a clash mark on an own item, by an
acceptance or as a duplicate on an item that it fits. -/
theorem applyRemoteRecord_keeps {P : State → Prop} (settling : SettlingRule P) {s : State} {sender : Station} {r : Record}
    (sampled : ∀ s it sender r, P s → P (takeSample it sender r s))
    (clash : ∀ u it slot, P u → u.imu = s.imu → u.stc = s.stc → u.imu.items[slot]? = some it → it.plan.owner = stationNumber u →
      P (updateItem slot Item.markClash u))
    (accept : ∀ u it stream slot, P u → u.imu = s.imu → u.stc = s.stc → u.imu.items[slot]? = some it →
      r.value.length = it.plan.length → sender = it.plan.owner → P (updateItem slot (Item.accept r stream) u))
    (duplicate : ∀ u it slot, P u → u.imu = s.imu → u.stc = s.stc → u.imu.items[slot]? = some it →
      P (updateItem slot Item.duplicate u)) (h : P s) : P (applyRemoteRecord sender r s) := by
  unfold applyRemoteRecord
  split
  · exact settling.count h _
  · next slot _ =>
    split
    · exact h
    · next it found =>
      split_ifs with length owner own accepts same
      · exact settling.count h _
      · exact settling.raise (clash _ it slot (settling.count h _) rfl rfl found own) _
      · exact settling.count h _
      · unfold acceptRecord
        split
        · exact accept s it _ slot h rfl rfl found (not_not.mp length) (not_not.mp owner)
        · obtain ⟨queue, flags, e⟩ := takeSample_only it sender r s
          exact accept _ it _ slot (sampled s it sender r h) (by rw [e]) (by rw [e]) (by rw [e]; exact found) (not_not.mp length)
            (not_not.mp owner)
      · exact duplicate s it slot h rfl rfl found
      · exact h

/-- The image updater's rule for a property that looks at the owner event list alone of what the IMU holds. -/
theorem UpdaterRule.of_events {P : State → Prop} (settling : SettlingRule P)
    (ignores : ∀ s items changes applying heldGate work, P s →
      P { s with imu := { s.imu with
        items := items, changes := changes, applying := applying, heldGate := heldGate, work := work } })
    (dequeued : ∀ s f rest, P s → s.lrx.queue = f :: rest → P { s with lrx.queue := rest })
    (sampled : ∀ s it sender r, P s → P (takeSample it sender r s))
    (notice : ∀ s expiring f, P s → s.imu.events = [] → P (noticeFrame f (expireAll expiring s)))
    (lose : ∀ s n, P s → lostTimerExpires n s = true → P (losePeer n s))
    (eventTaken : ∀ s w rest, P s → nextEvent s = some (w, rest) → P { s with imu.events := rest }) : UpdaterRule P where
  notice s expiring f rest h takes queue _ := by
    have empty : s.imu.events = [] := by
      simp only [takesFrames, Bool.and_eq_true, List.isEmpty_iff] at takes
      exact takes.2
    exact notice { s with lrx.queue := rest, imu.work := .notice f } expiring f
      (ignores _ s.imu.items s.imu.changes s.imu.applying s.imu.heldGate (.notice f) (dequeued s f rest h queue)) empty
  lose := lose
  selfTaken s f rest h _ queue _ :=
    ignores _ s.imu.items s.imu.changes s.imu.applying s.imu.heldGate (.selfRecords f.body.records) (dequeued s f rest h queue)
  dequeued := dequeued
  recordsBegin s _ h _ _ := ignores s s.imu.items s.imu.changes s.imu.applying s.imu.heldGate _ h
  gateBegin s _ _ _ h _ := ignores s s.imu.items s.imu.changes s.imu.applying _ _ h
  free s h := ignores s s.imu.items s.imu.changes s.imu.applying s.imu.heldGate _ h
  event s n w rest h next _ := by
    obtain ⟨items, changes, e, -⟩ := applyEvent_only w.event (w.todo.take n) { s with imu.events := rest }
    rw [e]
    exact ignores { s with imu.events := rest } items changes _ s.imu.heldGate s.imu.work (eventTaken s w rest h next)
  remoteRecord s sender r rest h _ := by
    have changed : ∀ {u : State} (slot : Nat) (f : Item → Item), P u → P (updateItem slot f u) := fun {u} slot f hu => by
      obtain ⟨items, changes, e⟩ := updateItem_only slot f u
      rw [e]
      exact ignores u items changes u.imu.applying u.imu.heldGate u.imu.work hu
    exact applyRemoteRecord_keeps settling sampled (fun _ _ slot h _ _ _ _ => changed slot _ h)
      (fun _ _ _ slot h _ _ _ _ _ => changed slot _ h) (fun _ _ slot h _ _ _ => changed slot _ h) h
  selfRecord s r rest h _ := by
    obtain ⟨items, changes, e⟩ := applySelfRecord_only r s
    rw [e]
    exact ignores s items changes s.imu.applying s.imu.heldGate s.imu.work h
  nextRemote s _ _ _ h _ := ignores s s.imu.items s.imu.changes s.imu.applying s.imu.heldGate _ h
  nextSelf s _ _ h _ := ignores s s.imu.items s.imu.changes s.imu.applying s.imu.heldGate _ h
  gateStep s mark g slot h _ _ := by
    obtain ⟨items, changes, e⟩ := updateItem_only slot Item.moveGate s
    rw [e]
    exact ignores s items changes s.imu.applying s.imu.heldGate s.imu.work h

/-- The image updater's rule for a property that looks at nothing of the image and of the peers. -/
theorem UpdaterRule.of_ignored {P : State → Prop} (settling : SettlingRule P)
    (ignores : ∀ s imu pmn, P s → P { s with imu := imu, pmn := pmn })
    (dequeued : ∀ s f rest, P s → s.lrx.queue = f :: rest → P { s with lrx.queue := rest })
    (sampled : ∀ s it sender r, P s → P (takeSample it sender r s)) : UpdaterRule P :=
  .of_events settling (fun s _ _ _ _ _ h => ignores s _ s.pmn h) dequeued sampled
    (fun s expiring f h _ => by
      obtain ⟨pmn, events, lost, e, -⟩ := expireAll_only expiring s
      obtain ⟨pmn', events', flags, counters, e'⟩ := noticeFrame_only f (expireAll expiring s)
      rw [e', e]
      exact settling.report _ flags counters (ignores s { s.imu with events := events' } pmn' h))
    (fun s n h _ => settling.report _ _ s.hpt.counters (ignores s (losePeer n s).imu (losePeer n s).pmn h))
    fun s _ _ h _ => ignores s _ s.pmn h

/-- A sample taken changes the sample queue, or raises SAMPLE_OVERRUN. -/
theorem takeSample_ignored {P : State → Prop} (settling : SettlingRule P) (ignores : ∀ s stu, P s → P { s with stu := stu })
    (s : State) (it : Item) (sender : Station) (r : Record) (h : P s) : P (takeSample it sender r s) := by
  unfold takeSample
  split
  · exact ignores s _ h
  · exact settling.raise h _

/-! ## Every command answers -/

/-- No command touches the queue of commands. -/
theorem pending_rules (p : List Instr) : BlockRules fun t => t.pending = p :=
  have settling : SettlingRule fun t => t.pending = p := .of_effects (fun _ _ e h => e.pending.trans h) fun _ _ _ h => h
  { settling := settling
    access := {}
    station :=
      { active := fun s h _ => by
          obtain ⟨lau, tsc, e⟩ := startSending_only { s with stc.station := .active, stc.joinTimer := none }
          rw [e]
          exact h
        mute := fun s cause h _ => flushLau_ignored settling (fun _ _ _ _ _ h => h) (s := stopStation cause s) h [] }
    receiver := {}
    transmitter := .of_ignored settling (fun _ _ _ _ _ h => h) (fun _ _ _ h => h) (fun _ _ h _ _ => h) fun _ h _ => h
    updater := .of_ignored settling (fun _ _ _ h => h) (fun _ _ _ h _ => h) (takeSample_ignored settling fun _ _ h => h)
    timer := {} }

/-- Settles O3: every meaning is a next state, and no change of a block touches the queue of commands. -/
theorem everyCommandAnswersNext : Obligations.EveryCommandAnswersNext := by
  intro c s
  obtain ⟨t, he⟩ : ∃ t, exec c s = .next t := by cases c <;> exact ⟨_, rfl⟩
  exact ⟨t, he, exec_keeps (pending_rules s.pending) (fun _ => {}) (fun _ _ _ h => h) (fun _ _ _ _ => rfl) rfl he⟩

/-! ## The host port's own state -/

/-- What the port holds that only the host's accesses and the resets change, but the latch. -/
def hostsOwn (t : State) : WordStore × WordStore × BitVec 6 × BitVec 7 × ViewPart :=
  (t.hpt.staging, t.hpt.notify, t.hpt.ordinaryMask, t.hpt.faultMask, t.hpt.viewPart)

/-- A value read off the port that leaves out flags, counters, held access and word returned is kept by every change of a block. -/
theorem port_rules {α : Type} (view : Hpt → α) (v : α)
    (leaves : ∀ h flags counters held data,
      view { h with flags := flags, counters := counters, held := held, readData := data } = view h) :
    BlockRules fun t => view t.hpt = v :=
  have settling : SettlingRule fun t => view t.hpt = v :=
    .of_effects (fun s t e h => by rw [e.hpt]; exact (leaves s.hpt _ s.hpt.counters s.hpt.held s.hpt.readData).trans h)
      fun s flags counters h => (leaves s.hpt flags counters s.hpt.held s.hpt.readData).trans h
  { settling := settling
    access :=
      { answer := fun s data h => (leaves s.hpt s.hpt.flags s.hpt.counters s.hpt.held data).trans h
        hold := fun s held h => (leaves s.hpt s.hpt.flags s.hpt.counters held s.hpt.readData).trans h }
    station :=
      { active := fun s h _ => by
          obtain ⟨lau, tsc, e⟩ := startSending_only { s with stc.station := .active, stc.joinTimer := none }
          rw [e]
          exact h
        mute := fun s cause h _ => flushLau_ignored settling (fun _ _ _ _ _ h => h) (s := stopStation cause s) h [] }
    receiver := {}
    transmitter := .of_ignored settling (fun _ _ _ _ _ h => h) (fun _ _ _ h => h) (fun _ _ h _ _ => h) fun _ h _ => h
    updater := .of_ignored settling (fun _ _ _ h => h) (fun _ _ _ h _ => h) (takeSample_ignored settling fun _ _ h => h)
    timer := {} }

/-- Settles O18: of the commands that are neither a reset nor a write of a stored word, only a word-0 read and the service of a held one
change the latch, and none changes the rest. -/
theorem portStateIsTheHosts : Obligations.PortStateIsTheHosts := by
  intro c s t he noReset noWrite
  have noStored : ¬∃ a v, c = .hostRegisterWrite a v := fun ⟨a, v, e⟩ => noWrite a v e
  have unreset : ∀ {P : Prop}, isReset c = true ∨ (∃ v, c = .hostRegisterWrite 0x3005#16 v) → P := fun h =>
    h.elim (fun e => absurd e (by simp [noReset])) fun ⟨v, e⟩ => absurd e (noWrite _ v)
  have own : hostsOwn t = hostsOwn s :=
    exec_keeps (port_rules (fun h => (h.staging, h.notify, h.ordinaryMask, h.faultMask, h.viewPart)) (hostsOwn s) fun _ _ _ _ _ => rfl)
      (fun h => absurd h noStored) (fun _ _ _ h => h) (fun h => unreset h) rfl he
  simp only [hostsOwn, Prod.mk.injEq] at own
  obtain ⟨staging, notify, ordinary, fault, view⟩ := own
  refine ⟨staging, notify, ordinary, fault, view, fun noRead noService => ?_⟩
  exact exec_keeps (port_rules Hpt.latch s.hpt.latch fun _ _ _ _ _ => rfl) (fun h => absurd h noStored)
    (fun h => (h.elim (fun ⟨k, e⟩ => noRead k e) noService).elim) (fun h => unreset h) rfl he

/-! ## The station state -/

/-- The plan's phases are of the start controller alone. -/
theorem planPhase_congr {s t : State} (h : PlanPhase s) (stc : t.stc = s.stc) : PlanPhase t := by
  unfold PlanPhase receiving at h ⊢
  rwa [stc]

/-- A station that receives is past its plan read and plan check. -/
theorem planPhase_past {s : State} (h : PlanPhase s) (receives : receiving s = true) :
    s.stc.planRead = none ∧ s.stc.checking = false := by
  obtain ⟨reads, checks, -⟩ := h
  constructor
  · by_contra some
    simp [receiving, reads (Option.isSome_iff_ne_none.mpr some)] at receives
  · by_contra on
    simp [checks (by simpa using on)] at receives

/-- With no plan read and no plan check in flight the plan's phases say nothing. -/
theorem planPhase_of_past {s : State} (unread : s.stc.planRead = none) (unchecked : s.stc.checking = false) : PlanPhase s := by
  simp [PlanPhase, unread, unchecked]

theorem receiving_muted {s : State} (muted : s.stc.station = .muted) : receiving s = true := by simp [receiving, muted]

/-- MUTED with its cause, in a state whose plan has been read and checked. -/
def MutedWith (cause : MutedCause) (t : State) : Prop := PlanPhase t ∧ t.stc.station = .muted ∧ t.stc.mutedCause = cause

theorem MutedWith_congr {cause : MutedCause} {s t : State} (h : MutedWith cause s) (stc : t.stc = s.stc) : MutedWith cause t := by
  obtain ⟨phase, muted, why⟩ := h
  exact ⟨planPhase_congr phase stc, by rw [stc, muted], by rw [stc, why]⟩

theorem mutedWith_rules (cause : MutedCause) : BlockRules (MutedWith cause) :=
  have settling : SettlingRule (MutedWith cause) := .of_effects (fun _ _ e h => MutedWith_congr h e.stc) fun _ _ _ h => h
  { settling := settling
    access :=
      { checkStarted := fun s h before => by simp [h.2.1] at before }
    station :=
      { clock := fun s level h => by
          have unread : clockPlan s.stc level = s.stc := by simp [clockPlan, (planPhase_past h.1 (receiving_muted h.2.1)).1]
          rw [unread]
          exact h
        planFailed := fun s code entry h checking => by simp [(planPhase_past h.1 (receiving_muted h.2.1)).2] at checking
        planGood := fun s h checking _ => by simp [(planPhase_past h.1 (receiving_muted h.2.1)).2] at checking
        active := fun s h joining => by simp [h.2.1] at joining
        mute := fun s cause h before => by simp [h.2.1] at before }
    receiver := {}
    transmitter := .of_ignored settling (fun _ _ _ _ _ h => h) (fun _ _ _ h => h) (fun _ _ h _ _ => h) fun s h active => by
      simp [h.2.1] at active
    updater := .of_ignored settling (fun _ _ _ h => h) (fun _ _ _ h _ => h) (takeSample_ignored settling fun _ _ h => h)
    timer := {} }

/-- Settles O53: the changes that set the station state have a precondition that MUTED excludes, but for a reset. -/
theorem mutedLeftOnlyByReset : Obligations.MutedLeftOnlyByReset := by
  intro c s t phase muted noReset wellFormed he
  have kept : MutedWith s.stc.mutedCause t :=
    exec_keeps (mutedWith_rules _) (fun _ => {}) (fun _ _ _ h => h)
      (by
        rintro (resets | ⟨v, rfl⟩)
        · simp [noReset] at resets
        · simp [Instr.wellFormed, hasOwnWrite] at wellFormed)
      ⟨phase, muted, rfl⟩ he
  exact kept.2

/-! ## The stores of words and the sample queue -/

/-- The stores beside the ring in canonical form, and the sample queue within its entries. -/
def StoresBesideRing (t : State) : Prop :=
  t.hpt.staging.wf 1024 = true ∧ t.hpt.notify.wf 32 = true ∧ t.stc.window.wf 1032 = true ∧ SampleRules t

theorem storesBesideRing_rules : BlockRules StoresBesideRing :=
  have settling : SettlingRule StoresBesideRing := .of_effects (fun s t e h => by
      unfold StoresBesideRing SampleRules
      rw [e.hpt, e.stc, e.stu]
      exact h) fun _ _ _ h => h
  { settling := settling
    access :=
      { sampleTaken := fun s ⟨staging, notify, window, samples⟩ =>
          ⟨staging, notify, window, (List.length_tail ▸ Nat.sub_le _ 1).trans samples⟩
        planWritten := fun s k v ⟨staging, notify, window, samples⟩ inside _ =>
          ⟨staging, notify, write_wf v window inside, samples⟩ }
    station :=
      { clock := fun s level ⟨staging, notify, window, samples⟩ => ⟨staging, notify, clockPlan_wf [level] window, samples⟩
        active := fun s h _ => by
          obtain ⟨lau, tsc, e⟩ := startSending_only { s with stc.station := .active, stc.joinTimer := none }
          rw [e]
          exact h
        mute := fun s cause h _ => flushLau_ignored settling (fun _ _ _ _ _ h => h) (s := stopStation cause s) h [] }
    receiver := {}
    transmitter := .of_ignored settling (fun _ _ _ _ _ h => h) (fun _ _ _ h => h) (fun _ _ h _ _ => h) fun _ h _ => h
    updater := .of_ignored settling (fun _ _ _ h => h) (fun _ _ _ h _ => h)
      fun s it sender r ⟨staging, notify, window, samples⟩ => by
        unfold takeSample
        split
        · next room =>
          have fits : s.stu.queue.length < 256 := of_decide_eq_true room
          exact ⟨staging, notify, window, by simpa [SampleRules] using fits⟩
        · exact ⟨staging, notify, window, samples⟩
    timer := {} }

/-- The ring in canonical form. -/
def RingCanonical (t : State) : Prop := t.req.ring.wf 128 = true

theorem RingCanonical_congr {s t : State} (h : RingCanonical s) (ring : t.req.ring = s.req.ring) : RingCanonical t := by
  unfold RingCanonical at h ⊢
  rwa [ring]

theorem ringCanonical_rules : BlockRules RingCanonical :=
  have settling : SettlingRule RingCanonical :=
    { admitPresence := fun s h => RingCanonical_congr h (by rw [admitPresence_req])
      admitReq := fun s h => RingCanonical_congr h (by rw [admitReq_req])
      build := fun s w h _ _ => RingCanonical_congr h (by rw [(buildFrame_req w s).1])
      close := fun s status remaining lost frames h _ => closeSlot_wf status remaining lost frames h
      presence := fun s h => RingCanonical_congr h (by rw [presenceStep_only])
      refresh := fun s h => RingCanonical_congr h (by rw [refreshStep_only])
      leaveIdle := fun s h => RingCanonical_congr h (by rw [idleExit_req]) }
  { settling := settling
    access := {}
    station :=
      { active := fun s h _ => by
          obtain ⟨lau, tsc, e⟩ := startSending_only { s with stc.station := .active, stc.joinTimer := none }
          rw [e]
          exact h
        mute := fun s cause h _ => flushLau_ignored settling (fun _ _ _ _ _ h => h) (s := stopStation cause s) h [] }
    receiver := {}
    transmitter := .of_ignored settling (fun _ _ _ _ _ h => h) (fun _ _ _ h => h) (fun _ _ h _ _ => h) fun _ h _ => h
    updater := .of_ignored settling (fun _ _ _ h => h) (fun _ _ _ h _ => h) (takeSample_ignored settling fun _ _ h => h)
    timer := {} }

/-- Settles O55: a word is written within its region, a close writes words of the ring, and a sample is appended only to a queue with
room. -/
theorem stepKeepsStoresAndSamples : Obligations.StepKeepsStoresAndSamples := by
  intro s t ⟨staging, ring, notify, window⟩ samples hs
  have ringKept : RingCanonical t :=
    step_keeps ringCanonical_rules { ring := fun _ _ v h inside => write_wf v h inside } (fun _ _ h => h) (fun _ _ _ _ _ => rfl)
      (fun _ _ h => h) (fun _ h => h) ring hs
  have restKept : StoresBesideRing t :=
    step_keeps storesBesideRing_rules
      { staging := fun _ _ v ⟨staging, rest⟩ inside => ⟨write_wf v staging inside, rest⟩
        notify := fun _ _ v ⟨staging, notify, rest⟩ inside => ⟨staging, write_wf v notify inside, rest⟩ }
      (fun _ _ h => h) (fun _ _ _ _ _ => ⟨rfl, rfl, rfl, Nat.zero_le _⟩) (fun _ _ h => h) (fun _ h => h)
      ⟨staging, notify, window, samples⟩ hs
  obtain ⟨staging', notify', window', samples'⟩ := restKept
  exact ⟨⟨staging', ringKept, notify', window'⟩, samples'⟩

end Sys2Proof.Laws
end

section
/-! SUPPORT. The account of frames without an outcome: an admission moves an offer into the queue, a build offers a frame and counts it
outstanding, an outcome takes a frame off and is told once, a flush tells all; and the obligation on it (R82, R115, R126). -/

namespace Sys2Proof.Laws

open Sys2Proof.Machine

/-! ## The account -/

/-- The frames that the slot in progress counts outstanding. -/
def slotOutstanding (s : State) : Nat := (s.req.slot.map SlotWork.outstanding).getD 0

/-- The presence frames of the transmit queue. -/
def presenceQueued (s : State) : Nat := s.lau.queue.countP fun f => f.source == .presence

theorem outcomeRules_iff (s : State) :
    OutcomeRules s ↔ (∀ f, s.lau.reqOffer = some f → f.source = .req) ∧ (∀ f, s.lau.presenceOffer = some f → f.source = .presence) ∧
      reqQueued s + s.lau.reqOffer.toList.length = slotOutstanding s ∧
      presenceQueued s + s.lau.presenceOffer.toList.length = s.tsc.presenceOutstanding.toNat := Iff.rfl

/-- The account looks at queue and offers, the slot in progress and PRESENCE OUTSTANDING. -/
theorem OutcomeRules_congr {s t : State} (h : OutcomeRules s) (lau : t.lau = { s.lau with transmitter := t.lau.transmitter })
    (slot : slotOutstanding t = slotOutstanding s) (tsc : t.tsc.presenceOutstanding = s.tsc.presenceOutstanding) : OutcomeRules t := by
  rw [outcomeRules_iff] at h ⊢
  unfold reqQueued presenceQueued at h ⊢
  rw [lau, slot, tsc]
  exact h

/-- With a frame queued or offered that the REQ counts, a slot is in progress. -/
theorem slot_of_outstanding {s : State} {n : Nat} (h : n + 1 = slotOutstanding s) :
    ∃ w, s.req.slot = some w ∧ w.outstanding = n + 1 := by
  unfold slotOutstanding at h
  cases slot : s.req.slot with
  | none => simp [slot] at h
  | some w => exact ⟨w, rfl, by simpa [slot] using h.symm⟩

/-! ## Admissions, builds and closes -/

theorem admitPresence_outcomes {s : State} (h : OutcomeRules s) : OutcomeRules (admitPresence s) := by
  unfold admitPresence
  split
  · exact h
  · next f offered =>
    split
    · obtain ⟨own, presence, requests, presences⟩ := h
      have source := presence f offered
      refine ⟨own, nofun, ?_, ?_⟩
      · simpa [reqQueued, List.countP_append, source] using requests
      · simpa [List.countP_append, source, offered] using presences
    · exact h

theorem admitReq_outcomes {s : State} (h : OutcomeRules s) : OutcomeRules (admitReq s) := by
  unfold admitReq
  split
  · exact h
  · next f offered =>
    split
    · obtain ⟨own, presence, requests, presences⟩ := h
      have source := own f offered
      refine ⟨nofun, presence, ?_, ?_⟩
      · simpa [reqQueued, List.countP_append, source, offered] using requests
      · simpa [List.countP_append, source] using presences
    · exact h

theorem buildFrame_outcomes {s : State} {w : SlotWork} (h : OutcomeRules s) (slot : s.req.slot = some w)
    (builds : buildsNow s w = true) : OutcomeRules (buildFrame w s) := by
  obtain ⟨own, presence, requests, presences⟩ := h
  have free : s.lau.reqOffer = none := by
    simp only [buildsNow, Bool.and_eq_true, Option.isNone_iff_eq_none] at builds
    exact builds.1.1.1
  have counted : reqQueued s = w.outstanding := by simpa [free, slot] using requests
  unfold buildFrame
  split
  all_goals
    refine ⟨fun f offered => by cases offered; rfl, presence, ?_, presences⟩
    show reqQueued s + 1 = w.outstanding + 1
    rw [counted]

theorem closeSlot_outcomes {s : State} (h : OutcomeRules s) (known : ∀ w, s.req.slot = some w → w.outstanding = 0)
    (status : SlotStatus) (remaining lost frames : Nat) : OutcomeRules (closeSlot status remaining lost frames s) := by
  have settled : slotOutstanding s = 0 := by
    unfold slotOutstanding
    cases slot : s.req.slot with
    | none => rfl
    | some w => exact known w slot
  exact OutcomeRules_congr h rfl settled.symm rfl

theorem presenceStep_outcomes {s : State} (h : OutcomeRules s) : OutcomeRules (presenceStep s) := by
  unfold presenceStep
  split
  · next makes =>
    obtain ⟨own, presence, requests, presences⟩ := h
    rw [makes.2.1] at presences
    refine ⟨own, fun f offered => by cases offered; rfl, requests, ?_⟩
    have none_queued : presenceQueued s = 0 := Nat.eq_zero_of_add_eq_zero_right presences
    show presenceQueued s + 1 = 1
    rw [none_queued]
  · exact h

theorem refreshStep_outcomes {s : State} (h : OutcomeRules s) : OutcomeRules (refreshStep s) := by
  unfold refreshStep
  split
  · split
    · exact h
    · obtain ⟨own, presence, requests, presences⟩ := h
      refine ⟨own, presence, ?_, ?_⟩
      · simpa [reqQueued, List.countP_append, refreshFrame] using requests
      · simpa [List.countP_append, refreshFrame] using presences
  · exact h

theorem outcome_settling : SettlingRule OutcomeRules where
  admitPresence _ := admitPresence_outcomes
  admitReq _ := admitReq_outcomes
  build _ _ := buildFrame_outcomes
  close _ status remaining lost frames h known := closeSlot_outcomes h known status remaining lost frames
  start s h noSlot _ := OutcomeRules_congr h rfl (by simp [slotOutstanding, noSlot, slotWork]) rfl
  halt s w h slot := OutcomeRules_congr h rfl (by simp [slotOutstanding, slot]) rfl
  presence _ := presenceStep_outcomes
  refresh _ := refreshStep_outcomes
  leaveIdle s h := by
    rw [idleExit_eq]
    exact h

/-! ## Outcomes -/

/-- What a completed frame's source does: the REQ counts it in its slot, the TSC clears PRESENCE OUTSTANDING, and FIRST PENDING for the
FIRST frame. -/
theorem tellCompleted_eq (f : TxFrame) (s : State) :
    tellCompleted f s =
      { s with
        req.slot :=
          if f.source = .req then s.req.slot.map fun w => { w with outstanding := w.outstanding - 1 } else s.req.slot
        tsc.presenceOutstanding := if f.source = .presence then false else s.tsc.presenceOutstanding
        tsc.firstPending := if f.source = .presence then s.tsc.firstPending && !f.first else s.tsc.firstPending } := by
  unfold tellCompleted
  cases source : f.source
  · cases slot : s.req.slot
    · simp only [reqOutcome, slot, Option.map_none]
      rw [← slot]
      rfl
    · simp [reqOutcome, slot]
  all_goals simp

/-- The head frame taken off the queue and its outcome told: one frame less of its source's has none. -/
theorem outcomeRules_told {s t : State} {f : TxFrame} {rest : List TxFrame} (h : OutcomeRules s) (queue : s.lau.queue = f :: rest)
    (queue' : t.lau.queue = rest) (offer : t.lau.reqOffer = s.lau.reqOffer) (presenceOffer : t.lau.presenceOffer = s.lau.presenceOffer)
    (slot : slotOutstanding t = if f.source = .req then slotOutstanding s - 1 else slotOutstanding s)
    (told : t.tsc.presenceOutstanding = if f.source = .presence then false else s.tsc.presenceOutstanding) : OutcomeRules t := by
  rw [outcomeRules_iff] at h ⊢
  obtain ⟨own, presence, requests, presences⟩ := h
  simp only [reqQueued, presenceQueued, queue, List.countP_cons, beq_iff_eq] at requests presences
  simp only [reqQueued, presenceQueued, queue', offer, presenceOffer, slot, told]
  refine ⟨own, presence, ?_, ?_⟩
  · by_cases source : f.source = .req
    · simp only [source, if_true] at requests ⊢
      omega
    · simpa [source] using requests
  · by_cases source : f.source = .presence
    · have bound := Bool.toNat_le s.tsc.presenceOutstanding
      simp only [source, if_true, Bool.toNat_false] at presences ⊢
      omega
    · simpa [source] using presences

theorem slotOutstanding_map_sub (slot : Option SlotWork) (change : SlotWork → SlotWork)
    (sub : ∀ w, (change w).outstanding = w.outstanding - 1) :
    ((slot.map change).map SlotWork.outstanding).getD 0 = (slot.map SlotWork.outstanding).getD 0 - 1 := by
  cases slot with
  | none => rfl
  | some w => exact sub w

/-! ## A flush -/

/-- A flush that tells every frame without an outcome leaves none. -/
theorem flushLau_outcomes {s : State} {before : List TxFrame}
    (requests : slotOutstanding s ≤
      (before ++ s.lau.queue ++ (s.lau.reqOffer.toList ++ s.lau.presenceOffer.toList)).countP fun f => f.source == .req)
    (presences : s.tsc.presenceOutstanding = true →
      (before ++ s.lau.queue ++ (s.lau.reqOffer.toList ++ s.lau.presenceOffer.toList)).any (fun f => f.source == .presence) = true) :
    OutcomeRules (flushLau before s) := by
  rw [outcomeRules_iff]
  simp only [reqQueued, presenceQueued, flushLau_lau]
  refine ⟨nofun, nofun, ?_, ?_⟩
  · simp only [slotOutstanding, flushLau, tellAll_eq, countAbandoned_eq, driverOff_req]
    simp only [slotOutstanding] at requests
    cases slot : s.req.slot with
    | none => rfl
    | some w =>
      simp only [slot, Option.map_some, Option.getD_some] at requests
      show 0 = w.outstanding - _
      omega
  · simp only [flushLau, tellAll_eq, countAbandoned_eq, driverOff_tsc]
    show 0 = _
    cases out : s.tsc.presenceOutstanding with
    | false => rfl
    | true => rw [presences out]; rfl

/-- The frames without an outcome are those queued and those that wait as offers. -/
theorem outcomeRules_covered {s : State} (h : OutcomeRules s) :
    slotOutstanding s ≤ (s.lau.queue ++ (s.lau.reqOffer.toList ++ s.lau.presenceOffer.toList)).countP (fun f => f.source == .req) ∧
      (s.tsc.presenceOutstanding = true →
        (s.lau.queue ++ (s.lau.reqOffer.toList ++ s.lau.presenceOffer.toList)).any (fun f => f.source == .presence) = true) := by
  rw [outcomeRules_iff] at h
  obtain ⟨own, presence, requests, presences⟩ := h
  have offered : s.lau.reqOffer.toList.countP (fun f => f.source == .req) = s.lau.reqOffer.toList.length :=
    List.countP_eq_length.mpr fun f hf => by simp [own f (by simpa using hf)]
  have presenceOffered : s.lau.presenceOffer.toList.countP (fun f => f.source == .presence) = s.lau.presenceOffer.toList.length :=
    List.countP_eq_length.mpr fun f hf => by simp [presence f (by simpa using hf)]
  constructor
  · rw [List.countP_append, List.countP_append, offered, ← requests, reqQueued]
    omega
  · intro out
    rw [out] at presences
    have some_presence : 0 < (s.lau.queue ++ (s.lau.reqOffer.toList ++ s.lau.presenceOffer.toList)).countP
        fun f => f.source == .presence := by
      rw [List.countP_append, List.countP_append, presenceOffered]
      simp only [presenceQueued, Bool.toNat_true] at presences
      omega
    obtain ⟨f, hf, source⟩ := List.countP_pos_iff.mp some_presence
    exact List.any_eq_true.mpr ⟨f, hf, source⟩

/-! ## The obligation -/

theorem outcome_rules : BlockRules OutcomeRules where
  settling := outcome_settling
  access := {}
  station :=
    { active := fun s h _ => by
        unfold startSending
        split
        · exact h
        · exact presenceStep_outcomes h
      mute := fun s cause h _ => flushLau_outcomes (outcomeRules_covered h).1 (outcomeRules_covered h).2 }
  receiver := {}
  transmitter :=
    { abandon := fun s f rest count h _ queue => by
        rw [tellAbandoned_eq]
        refine outcomeRules_told h queue rfl rfl rfl ?_ rfl
        unfold slotOutstanding
        simp only
        split
        · exact slotOutstanding_map_sub _ _ fun _ => rfl
        · rfl
      complete := fun s f rest a h _ queue _ => by
        rw [tellCompleted_eq]
        obtain ⟨timer, e⟩ : ∃ timer, completionNotice
            { s with
              lau := { attemptEnded rest .idle s.lau with lastCompleted := some a.sequence },
              lrx.queue := s.lrx.queue ++ [a.asSelf] } =
            { s with
              lau := { attemptEnded rest .idle s.lau with lastCompleted := some a.sequence },
              lrx.queue := s.lrx.queue ++ [a.asSelf], tsc.presenceTimer := timer } := by
          unfold completionNotice
          split <;> exact ⟨_, rfl⟩
        rw [e]
        refine outcomeRules_told h queue rfl rfl rfl ?_ rfl
        unfold slotOutstanding
        simp only
        split
        · exact slotOutstanding_map_sub _ _ fun _ => rfl
        · rfl
      trip := fun s f rest h _ queue _ => by
        obtain ⟨requests, presences⟩ := outcomeRules_covered h
        rw [queue] at requests presences
        exact flushLau_outcomes requests presences }
  updater := .of_ignored outcome_settling (fun _ _ _ h => h) (fun _ _ _ h _ => h) (takeSample_ignored outcome_settling fun _ _ h => h)
  timer := {}

/-- Settles O57: the account holds whatever is admitted, built, completed, abandoned or flushed. -/
theorem stepKeepsOutcomeRules : Obligations.StepKeepsOutcomeRules := fun _ _ h hs =>
  step_keeps outcome_rules {} (fun _ _ h => h) (fun _ _ _ _ _ => ⟨nofun, nofun, rfl, rfl⟩) (fun _ _ h => h) (fun _ h => h) h hs

end Sys2Proof.Laws
end

section
/-! SUPPORT. The peer table and the owner event list: a notice and an expiry set one entry of another station and append at most one event,
and the obligations on them (R47, R48, R51 to R54). -/

namespace Sys2Proof.Laws

open Sys2Proof.Machine

/-! ## The peer table -/

/-- The rules of the peer table look at it and at the captured station number. -/
theorem PeerRules_congr {s t : State} (h : PeerRules s) (pmn : t.pmn = s.pmn) (straps : t.stc.straps = s.stc.straps) : PeerRules t := by
  intro n
  have entry : peerOf t n = peerOf s n := by unfold peerOf; rw [pmn]
  have number : stationNumber t = stationNumber s := by unfold stationNumber; rw [straps]
  rw [entry, number]
  exact h n

/-- The own entry is no other station's, and no other entry is SELF. -/
theorem station_ne {s : State} (h : PeerRules s) {n : Station} (other : (peerOf s n).state ≠ .self) : n ≠ stationNumber s :=
  fun own => other ((h n).1.mpr own)

theorem losePeer_peerRules {s : State} (h : PeerRules s) {n : Station} (present : (peerOf s n).state = .present) :
    PeerRules (losePeer n s) := by
  intro m
  have number : stationNumber (losePeer n s) = stationNumber s := rfl
  rw [losePeer_peerOf, number]
  split
  · next same =>
    subst same
    have other : m ≠ stationNumber s := station_ne h (by simp [present])
    exact ⟨by simpa using other, by simp, by simp⟩
  · exact h m

theorem noticeFrame_peerRules {s : State} (h : PeerRules s) (f : Frame) : PeerRules (noticeFrame f s) := by
  by_cases own : (peerOf s f.sender).state = .self
  · rwa [noticeFrame_own own]
  · intro m
    have number : stationNumber (noticeFrame f s) = stationNumber s := by
      obtain ⟨_, _, _, _, e⟩ := noticeFrame_only f s
      rw [e]
      rfl
    rw [noticeFrame_peerOf own, number]
    split
    · next same =>
      subst same
      exact ⟨by simpa using station_ne h own, by simp, by simp⟩
    · exact h m

theorem expireAll_peerRules {s : State} (h : PeerRules s) (stations : List Station) : PeerRules (expireAll stations s) :=
  expireAll_keeps (fun _ _ present _ h => losePeer_peerRules h present) stations h

theorem peerOf_idleTick (s : State) (n : Station) :
    peerOf (idleTick s) n = { peerOf s n with timeLeft := (peerOf s n).timeLeft.map (· - 1) } := by
  simp [peerOf, idleTick]

theorem resetBlocks_peerRules (straps : Straps) (cause : ResetCause) (inReset : Bool) (s : State) :
    PeerRules (resetBlocks straps cause inReset s) := by
  intro n
  have entry : peerOf (resetBlocks straps cause inReset s) n = if n = straps.station then Peer.selfEntry else Peer.absentEntry :=
    resetPeers_get straps.station n
  have number : stationNumber (resetBlocks straps cause inReset s) = straps.station := rfl
  rw [entry, number]
  split <;> simp [*, Peer.selfEntry, Peer.absentEntry]

/-- A rule of the blocks for a property that looks at peers, owner event list and straps alone. -/
theorem BlockRules.of_peers {P : State → Prop}
    (kept : ∀ s t : State, t.pmn = s.pmn → t.imu.events = s.imu.events → t.stc.straps = s.stc.straps → P s → P t)
    (notice : ∀ s expiring f, P s → s.imu.events = [] → P (noticeFrame f (expireAll expiring s)))
    (lose : ∀ s n, P s → lostTimerExpires n s = true → P (losePeer n s))
    (eventTaken : ∀ s w rest, P s → nextEvent s = some (w, rest) → P { s with imu.events := rest }) : BlockRules P :=
  have settling : SettlingRule P :=
    .of_effects (fun s t e => kept s t e.pmn (by rw [e.imu]) (by rw [e.stc])) fun s _ _ => kept s _ rfl rfl rfl
  { settling := settling
    access :=
      { answer := fun s _ => kept s _ rfl rfl rfl
        hold := fun s _ => kept s _ rfl rfl rfl
        changeTaken := fun s => kept s _ rfl rfl rfl
        sampleTaken := fun s => kept s _ rfl rfl rfl
        clashesCleared := fun s => kept s _ rfl rfl rfl
        planWritten := fun s _ _ h _ _ => kept s _ rfl rfl rfl h
        checkStarted := fun s h _ => kept s _ rfl rfl rfl h }
    station :=
      { clock := fun s level h => by
          have straps : (clockPlan s.stc level).straps = s.stc.straps := by
            obtain ⟨_, _, _, _, _, _, e⟩ := clockPlan_only [level] s.stc
            rw [List.foldl_cons, List.foldl_nil] at e
            rw [e]
          exact kept s _ rfl rfl straps h
        planFailed := fun s _ _ h _ => kept s _ rfl rfl rfl h
        planGood := fun s h _ _ => kept s _ rfl rfl rfl h
        active := fun s h _ => by
          obtain ⟨lau, tsc, e⟩ := startSending_only { s with stc.station := .active, stc.joinTimer := none }
          rw [e]
          exact kept s _ rfl rfl rfl h
        clashNotice := fun s _ => kept s _ rfl rfl rfl
        mute := fun s cause h _ =>
          flushLau_ignored settling (fun s _ _ _ _ => kept s _ rfl rfl rfl) (kept s (stopStation cause s) rfl rfl rfl h) [] }
    receiver :=
      { busy := fun s => kept s _ rfl rfl rfl
        quiet := fun s _ h _ => kept s _ rfl rfl rfl h
        found := fun s h _ => kept s _ rfl rfl rfl h
        queued := fun s _ h _ _ _ _ => kept s _ rfl rfl rfl h }
    transmitter :=
      .of_ignored settling (fun s _ _ _ _ => kept s _ rfl rfl rfl) (fun s _ _ => kept s _ rfl rfl rfl)
        (fun s _ h _ _ => kept s _ rfl rfl rfl h) fun s h _ => kept s _ rfl rfl rfl h
    updater :=
      .of_events settling (fun s _ _ _ _ _ => kept s _ rfl rfl rfl) (fun s _ _ h _ => kept s _ rfl rfl rfl h)
        (takeSample_ignored settling fun s _ => kept s _ rfl rfl rfl) notice lose eventTaken
    timer :=
      { presence := fun s => kept s _ rfl rfl rfl
        refresh := fun s => kept s _ rfl rfl rfl } }

theorem peer_rules : BlockRules PeerRules :=
  .of_peers (fun _ _ pmn _ straps h => PeerRules_congr h pmn straps)
    (fun _ expiring f h _ => noticeFrame_peerRules (expireAll_peerRules h expiring) f)
    (fun s n h expires => losePeer_peerRules h ((lostTimerExpires_iff n s).mp expires).1) fun _ _ _ h _ => h

theorem idleTick_peerRules {s : State} (h : PeerRules s) : PeerRules (idleTick s) := by
  intro n
  rw [peerOf_idleTick]
  obtain ⟨own, expected, timer⟩ := h n
  exact ⟨own, expected, by simpa using timer⟩

theorem step_keeps_peerRules {s t : State} (h : PeerRules s) (hs : step s = .next t) : PeerRules t :=
  step_keeps peer_rules {} (fun _ _ h => h) (fun s straps cause inReset _ => resetBlocks_peerRules straps cause inReset s)
    (fun _ _ h => h) (fun _ => idleTick_peerRules) h hs

/-! ## The owner event list -/

/-- The events behind the one that the IMU applies next are the end of the list. -/
theorem nextEvent_rest {s : State} {w : EventWork} {rest : List OwnerEvent} (h : nextEvent s = some (w, rest)) :
    rest <:+ s.imu.events := by
  unfold nextEvent at h
  split at h
  · cases h
    exact List.suffix_rfl
  · split at h
    · cases h
    · next e _ events =>
      cases h
      rw [events]
      exact List.suffix_cons e _

/-- A notice appends at most one event, of the frame's sender, which is no lost event and no own one (R51, R52). -/
theorem noticeFrame_events (f : Frame) (s : State) :
    (noticeFrame f s).imu.events = s.imu.events ∨
      (peerOf s f.sender).state ≠ .self ∧ ∃ kind, kind ≠ .lost ∧
        (noticeFrame f s).imu.events = s.imu.events ++ [{ kind := kind, station := f.sender }] := by
  by_cases own : (peerOf s f.sender).state = .self
  · exact .inl (by rw [noticeFrame_own own])
  · have answered : (noticeFrame f s).imu.events = (noticeAnswer (peerOf s f.sender) f s).imu.events := by
      unfold noticeFrame
      simp only
      rw [if_neg own]
      split <;> rfl
    rw [answered]
    by_cases joining : joins (peerOf s f.sender) f.first = true
    · exact .inr ⟨own, .rejoined, by simp, by rw [noticeAnswer_joins joining]; rfl⟩
    · rw [Bool.not_eq_true] at joining
      by_cases inSequence : (peerOf s f.sender).expected = some f.sequence
      · exact .inl (by rw [noticeAnswer_match joining inSequence])
      · exact .inr ⟨own, .doubtful, by simp, by rw [noticeAnswer_gap joining inSequence]; rfl⟩

/-- No event but lost ones waits. -/
def OnlyLost (s : State) : Prop := (s.imu.events.countP fun e => e.kind != .lost) = 0

/-- Expiries keep the list's rules, and add lost events only. -/
theorem expireAll_eventListRules {s : State} (peers : PeerRules s) (h : EventListRules s) (onlyLost : OnlyLost s)
    (stations : List Station) :
    EventListRules (expireAll stations s) ∧ OnlyLost (expireAll stations s) := by
  have all : PeerRules (expireAll stations s) ∧ EventListRules (expireAll stations s) ∧ OnlyLost (expireAll stations s) := by
    refine expireAll_keeps (P := fun u => PeerRules u ∧ EventListRules u ∧ OnlyLost u) (fun n u present waits ⟨peers, h, onlyLost⟩ => ?_)
      stations ⟨peers, h, onlyLost⟩
    have running : (peerOf u n).timeLeft.isSome = true := (peers n).2.2.mpr present
    have kept := expireLost_eventListRules n (fun present => station_ne peers (by simp [present])) h
    rw [expireLost_runs present running waits] at kept
    refine ⟨losePeer_peerRules peers present, kept, ?_⟩
    rw [losePeer_eq]
    simpa [OnlyLost, List.countP_append] using onlyLost
  exact all.2

theorem noticeFrame_eventListRules {s : State} (peers : PeerRules s) (h : EventListRules s) (onlyLost : OnlyLost s) (f : Frame) :
    EventListRules (noticeFrame f s) := by
  have number : stationNumber (noticeFrame f s) = stationNumber s := by
    obtain ⟨_, _, _, _, e⟩ := noticeFrame_only f s
    rw [e]
    rfl
  unfold EventListRules
  rw [number]
  obtain ⟨others, once, one⟩ := h
  rcases noticeFrame_events f s with e | ⟨other, kind, answer, e⟩ <;> rw [e]
  · exact ⟨others, once, one⟩
  · refine ⟨fun e he => ?_, ?_, ?_⟩
    · rcases List.mem_append.mp he with he | he
      · exact others e he
      · rw [List.mem_singleton.mp he]
        exact station_ne peers other
    · simpa [List.filter_append, answer] using once
    · rw [List.countP_append, onlyLost]
      simp [answer]

theorem eventList_rules : BlockRules fun t => PeerRules t ∧ EventListRules t :=
  .of_peers
    (fun s t pmn events straps h => ⟨PeerRules_congr h.1 pmn straps,
      eventListRules_suffix h.2 (by rw [events]) (congrArg Straps.station straps)⟩)
    (fun s expiring f ⟨peers, h⟩ empty => by
      have expired := expireAll_eventListRules peers h (by simp [OnlyLost, empty]) expiring
      have before := expireAll_peerRules peers expiring
      exact ⟨noticeFrame_peerRules before f, noticeFrame_eventListRules before expired.1 expired.2 f⟩)
    (fun s n ⟨peers, h⟩ expires => by
      obtain ⟨present, running, waits⟩ := (lostTimerExpires_iff n s).mp expires
      have kept := expireLost_eventListRules n (fun present => station_ne peers (by simp [present])) h
      rw [expireLost_runs present running waits] at kept
      exact ⟨losePeer_peerRules peers present, kept⟩)
    fun s w rest ⟨peers, h⟩ next => ⟨peers, eventListRules_suffix h (nextEvent_rest next) rfl⟩

/-- Settles O58: an entry is set by a notice of another station's frame or an expiry in PRESENT; the list gains a lost event where none of
its station waits, and another one only at a notice, which finds none. -/
theorem stepKeepsPeerRules : Obligations.StepKeepsPeerRules := by
  refine ⟨fun s t => step_keeps_peerRules, fun s t peers h hs => ?_⟩
  have kept : PeerRules t ∧ EventListRules t :=
    step_keeps eventList_rules {} (fun _ _ h => h)
      (fun s straps cause inReset _ => ⟨resetBlocks_peerRules straps cause inReset s, nofun, List.nodup_nil, Nat.zero_le _⟩)
      (fun _ _ h => h) (fun _ h => ⟨idleTick_peerRules h.1, h.2⟩) ⟨peers, h⟩ hs
  exact ⟨kept.2, events_room kept.2⟩

end Sys2Proof.Laws
end

section
/-! SUPPORT. The rules of sending: what an admission, an attempt and its end leave of them, that nothing is on outside ACTIVE, and the
obligation on them (R82 to R97). -/

namespace Sys2Proof.Laws

open Sys2Proof.Machine

/-! ## The phases of the plan -/

theorem receiving_of_station {s : State} (station : s.stc.station = .joining ∨ s.stc.station = .active) : receiving s = true := by
  rcases station with station | station <;> simp [receiving, station]

theorem planPhase_clock {s : State} (h : PlanPhase s) (level : Bool) : PlanPhase { s with stc := clockPlan s.stc level } := by
  rcases clockPlan_cases s.stc level with ⟨same, -⟩ | ⟨read, reading, -⟩
  · rw [same]
    exact h
  · have loading := h.1 (by simp [reading])
    have unchecked : s.stc.checking = false := by simpa [reading] using h.2.2
    have kept := clockPlan_keeps (P := fun stc => stc.planRead.isSome = true → stc.station = .loading ∧ stc.checking = false)
      (fun _ _ some h _ => h some) (fun _ _ _ _ _ h => h) (fun _ _ _ _ none => by simp at none) (fun _ _ _ none => by simp at none)
      [level] (stc := s.stc) fun _ => ⟨loading, unchecked⟩
    have before := clockPlan_keeps (P := fun stc => receiving { s with stc := stc } = false) (fun _ _ _ h => h)
      (fun _ _ _ _ _ h => h) (fun _ _ _ _ => rfl) (fun _ _ h => h) [level] (stc := s.stc) (by simp [receiving, loading])
    exact ⟨fun some => (kept some).1, fun _ => before, fun both => Bool.noConfusion ((kept both.1).2.symm.trans both.2)⟩

/-- A plan check in flight is no plan read. -/
theorem planPhase_unread {s : State} (h : PlanPhase s) (checking : s.stc.checking = true) : s.stc.planRead = none := by
  simpa [checking] using h.2.2

theorem planPhase_start {s : State} (h : PlanPhase s) (before : s.stc.station = .planWait ∨ s.stc.station = .planFault) :
    PlanPhase { s with stc.checking := true } := by
  have unread : s.stc.planRead = none := by
    by_contra some
    simp [h.1 (Option.isSome_iff_ne_none.mpr some)] at before
  refine ⟨by simp [unread], fun _ => ?_, by simp [unread]⟩
  rcases before with before | before <;> simp [receiving, before]

theorem planPhase_stop {s : State} (h : PlanPhase s) (receives : receiving s = true) (cause : MutedCause) :
    PlanPhase (stopStation cause s) :=
  planPhase_of_past (planPhase_past h receives).1 (planPhase_past h receives).2

theorem planPhase_active {s : State} (h : PlanPhase s) (joining : s.stc.station = .joining) :
    PlanPhase (startSending { s with stc.station := .active, stc.joinTimer := none }) := by
  obtain ⟨unread, unchecked⟩ := planPhase_past h (receiving_of_station (.inl joining))
  obtain ⟨lau, tsc, e⟩ := startSending_only { s with stc.station := .active, stc.joinTimer := none }
  rw [e]
  exact planPhase_of_past unread unchecked

theorem planPhase_rules : BlockRules PlanPhase :=
  have settling : SettlingRule PlanPhase := .of_effects (fun _ _ e h => planPhase_congr h e.stc) fun _ _ _ h => h
  { settling := settling
    access := { checkStarted := fun _ => planPhase_start }
    station :=
      { clock := fun _ level h => planPhase_clock h level
        planFailed := fun s _ _ h checking =>
          have unread : s.stc.planRead = none := planPhase_unread h checking
          planPhase_of_past unread rfl
        planGood := fun s h checking _ =>
          have unread : s.stc.planRead = none := planPhase_unread h checking
          planPhase_of_past unread rfl
        active := fun _ => planPhase_active
        mute := fun s cause h station =>
          flushLau_ignored settling (fun _ _ _ _ _ h => h) (planPhase_stop h (receiving_of_station station) cause) [] }
    receiver := {}
    transmitter := .of_ignored settling (fun _ _ _ _ _ h => h) (fun _ _ _ h => h) (fun _ _ h _ _ => h) fun _ h active =>
      planPhase_stop h (receiving_of_station (.inr active)) .guard
    updater := .of_ignored settling (fun _ _ _ h => h) (fun _ _ _ h _ => h) (takeSample_ignored settling fun _ _ h => h)
    timer := {} }

theorem resetBlocks_planPhase (straps : Straps) (cause : ResetCause) (inReset : Bool) (s : State) :
    PlanPhase (resetBlocks straps cause inReset s) := by
  refine ⟨fun read => ?_, nofun, by simp [resetBlocks, State.reset]⟩
  have memory : straps.startMode = .memory := by
    by_contra host
    simp [resetBlocks, host] at read
  simp [resetBlocks, memory, stateAfterReset]

/-! ## The rules together -/

/-- The phases of the plan with the rules of sending and of the transmit queue. -/
def Sound (s : State) : Prop := PlanPhase s ∧ SendingRules s ∧ TransmitQueueRules s

/-- The rules look at the start controller, the line receiver, and the line access unit but for the offers. -/
theorem Sound_congr {s t : State} (h : Sound s) (stc : t.stc = s.stc) (lrx : t.lrx = s.lrx)
    (lau : t.lau = { s.lau with reqOffer := t.lau.reqOffer, presenceOffer := t.lau.presenceOffer }) : Sound t := by
  have sends : maySend t = maySend s := by unfold maySend; rw [stc]
  obtain ⟨phase, sending, queue⟩ := h
  refine ⟨planPhase_congr phase stc, ?_, ?_⟩
  · unfold SendingRules nextSequence at sending ⊢
    rw [sends, lrx, lau]
    exact sending
  · unfold TransmitQueueRules reqQueued at queue ⊢
    rw [lau]
    exact queue

/-- With the line access unit at rest and OFF the rules of sending hold in every station state. -/
theorem sound_off {s : State} (phase : PlanPhase s) (transmitter : s.lau.transmitter = .off) (queue : s.lau.queue = [])
    (driver : s.lau.driver = false) (guard : s.lau.guard = false) (attempt : s.lau.attempt = none) (backoff : s.lau.backoff = none)
    (attempts : s.lau.attempts ≤ 11) (room : s.lrx.queue.length ≤ 4) : Sound s := by
  refine ⟨phase, ?_, ?_⟩
  · simp [SendingRules, transmitter, queue, driver, guard, attempt, backoff, room, attempts]
    omega
  · simp [TransmitQueueRules, reqQueued, queue]

/-- Outside ACTIVE, and under LISTEN, the line access unit is at rest and OFF. -/
theorem off_of_not_maySend {s : State} (h : SendingRules s) (silent : maySend s = false) :
    s.lau.transmitter = .off ∧ s.lau.queue = [] ∧ s.lau.driver = false ∧ s.lau.guard = false ∧ s.lau.attempt = none ∧
      s.lau.backoff = none ∧ s.lau.attempts ≤ 11 := by
  obtain ⟨sends, queued, driving, guarded, attempting, drives, backing, most, waits, room, number⟩ := h
  have off : s.lau.transmitter = .off := by
    by_contra on
    simpa [silent] using sends on
  have empty : s.lau.queue = [] := by
    by_contra some
    simpa [silent] using queued some
  have still : s.lau.driver = false := by simpa [off] using driving
  exact ⟨off, empty, still, guarded.trans still, by simpa [still] using attempting, by simpa [off] using backing,
    waits (by simp [off])⟩

/-- A change of the station outside ACTIVE and under LISTEN keeps the rules of sending, whatever the new station state. -/
theorem sound_station {s t : State} (h : SendingRules s) (silent : maySend s = false) (phase : PlanPhase t) (lau : t.lau = s.lau)
    (queue : t.lrx.queue = s.lrx.queue) : Sound t := by
  obtain ⟨transmitter, empty, driver, guard, attempt, backoff, attempts⟩ := off_of_not_maySend h silent
  obtain ⟨-, -, -, -, -, -, -, -, -, room, -⟩ := h
  rw [← lau] at transmitter empty driver guard attempt backoff attempts
  exact sound_off phase transmitter empty driver guard attempt backoff attempts (by rwa [queue])

theorem maySend_of_station {s : State} (h : s.stc.station ≠ .active) : maySend s = false := by
  simp [maySend, h]

/-! ## Settling -/

/-- An admission keeps the rules (R82, R83). -/
theorem sound_admits {s t : State} {f : TxFrame} (h : Sound s) (admits : admissible s f = true) (stc : t.stc = s.stc)
    (lrx : t.lrx = s.lrx)
    (lau : t.lau =
      { s.lau with
        queue := s.lau.queue ++ [f], reqOffer := t.lau.reqOffer, presenceOffer := t.lau.presenceOffer }) : Sound t := by
  have same : maySend t = maySend s := by unfold maySend; rw [stc]
  simp only [admissible, Bool.and_eq_true, Bool.or_eq_true, decide_eq_true_eq, bne_iff_ne, beq_iff_eq, List.isEmpty_iff] at admits
  obtain ⟨⟨⟨⟨may, few⟩, requests⟩, -⟩, first⟩ := admits
  obtain ⟨phase, ⟨sends, queued, driving, guarded, attempting, drives, backing, most, waits, room, number⟩, -, three, firstGate⟩ := h
  refine ⟨planPhase_congr phase stc, ?_, ?_⟩
  · unfold SendingRules nextSequence
    rw [same, lrx, lau]
    exact ⟨fun _ => may, fun _ => may, driving, guarded, attempting, fun on => ⟨by simp, (drives on).2⟩, backing, most, waits, room,
      number⟩
  · unfold TransmitQueueRules
    have count : reqQueued t = reqQueued s + if f.source = .req then 1 else 0 := by
      unfold reqQueued
      rw [lau]
      simp [List.countP_append, List.countP_cons]
    rw [count, lau]
    refine ⟨by simpa using few, ?_, fun never => ?_⟩
    · split
      · next source =>
        rcases requests with other | room
        · exact absurd source other
        · omega
      · omega
    · rcases first with completed | ⟨presence, empty⟩
      · simp [show s.lau.lastCompleted = none from never] at completed
      · simp [empty, presence]

theorem sound_leavesIdle {s : State} (h : Sound s) : Sound (idleExit s) := by
  unfold idleExit
  split
  · next leaves =>
    obtain ⟨phase, ⟨sends, queued, driving, guarded, attempting, drives, backing, most, waits, room, number⟩, queue⟩ := h
    have idle := leaves.1
    have may : maySend s = true := sends (by simp [idle])
    have still : s.lau.driver = false := by simpa [idle] using driving
    have fresh : s.lau.backoff = none := by simpa [idle] using backing
    refine ⟨phase, ⟨fun _ => may, queued, ?_, guarded, attempting, drives, ?_, most, fun _ => waits (by simp [idle]), room, number⟩,
      queue⟩
    all_goals
      simp only [still, fresh]
      split <;> simp
  · exact h

theorem sound_settling : SettlingRule Sound where
  admitPresence s h := by
    unfold admitPresence
    split
    · exact h
    · split
      · next admits => exact sound_admits h admits rfl rfl rfl
      · exact h
  admitReq s h := by
    unfold admitReq
    split
    · exact h
    · split
      · next admits => exact sound_admits h admits rfl rfl rfl
      · exact h
  build s w h _ _ := Sound_congr h (buildFrame_effects w s).stc (buildFrame_effects w s).lrx (by rw [buildFrame_lau])
  presence s h := by
    rw [presenceStep_only]
    exact Sound_congr h rfl rfl rfl
  refresh s h := by
    unfold refreshStep
    split
    · next ready =>
      split
      · exact h
      · refine sound_admits (f := refreshFrame s (refreshSlots s)) h ?_ rfl rfl rfl
        obtain ⟨-, -, empty, -, -, active, sends, completed⟩ := (refreshReady_iff s).mp ready
        simp [admissible, maySend, refreshFrame, empty, active, sends, completed]
    · exact h
  leaveIdle _ := sound_leavesIdle

/-! ## The station -/

theorem sound_mute {s : State} (h : Sound s) (station : s.stc.station = .joining ∨ s.stc.station = .active) (cause : MutedCause)
    (before : List TxFrame) {u : State} (stc : u.stc = s.stc) (lrx : u.lrx = s.lrx) : Sound (flushLau before (stopStation cause u)) := by
  obtain ⟨phase, ⟨-, -, -, -, -, -, -, -, -, room, -⟩, -⟩ := h
  have stopped : PlanPhase (stopStation cause u) :=
    planPhase_stop (planPhase_congr phase stc) (receiving_of_station (by rwa [stc])) cause
  have lrx' : (flushLau before (stopStation cause u)).lrx = s.lrx := by
    rw [flushLau_frame, ← lrx]
    rfl
  refine sound_off (planPhase_congr stopped (by rw [flushLau_frame])) ?_ ?_ ?_ ?_ ?_ ?_ ?_ (by rwa [lrx'])
  all_goals simp [flushLau_lau, State.reset]

theorem sound_station_rule : StationRule Sound where
  clock s level h := by
    obtain ⟨phase, sending, queue⟩ := h
    rcases clockPlan_cases s.stc level with ⟨same, -⟩ | ⟨read, reading, -⟩
    · rw [same]
      exact ⟨phase, sending, queue⟩
    · have loading := phase.1 (by simp [reading])
      exact sound_station sending (maySend_of_station (by simp [loading])) (planPhase_clock phase level) rfl rfl
  planFailed s code entry h checking := by
    obtain ⟨phase, sending, queue⟩ := h
    refine sound_station sending (maySend_of_station fun active => ?_)
      (planPhase_rules.station.planFailed s code entry phase checking) rfl rfl
    simpa [receiving, active] using phase.2.1 checking
  planGood s h checking good := by
    obtain ⟨phase, sending, queue⟩ := h
    refine sound_station sending (maySend_of_station fun active => ?_) (planPhase_rules.station.planGood s phase checking good) rfl rfl
    simpa [receiving, active] using phase.2.1 checking
  active s h joining := by
    obtain ⟨phase, sending, queue⟩ := h
    obtain ⟨transmitter, empty, driver, guard, attempt, backoff, attempts⟩ :=
      off_of_not_maySend sending (maySend_of_station (by simp [joining]))
    have room : s.lrx.queue.length ≤ 4 := by
      obtain ⟨-, -, -, -, -, -, -, -, -, room, -⟩ := sending
      exact room
    obtain ⟨unread, unchecked⟩ := planPhase_past phase (receiving_of_station (.inl joining))
    have entered : PlanPhase { s with stc.station := .active, stc.joinTimer := none } := planPhase_of_past unread unchecked
    unfold startSending
    split
    · exact sound_off entered transmitter empty driver guard attempt backoff attempts room
    · next sends =>
      have listens : s.stc.straps.listen = false := by simpa using sends
      refine sound_settling.presence _ ⟨entered, ?_, ?_⟩
      · simp [SendingRules, maySend, listens, empty, driver, guard, attempt, backoff, attempts, room]
        omega
      · simp [TransmitQueueRules, reqQueued, empty]
  mute s cause h station := sound_mute h station cause [] rfl rfl

/-! ## The line and the transmitter -/

theorem sound_receiver : ReceiverRule Sound where
  busy s h := by
    obtain ⟨phase, ⟨sends, queued, driving, guarded, attempting, drives, backing, most, waits, room, number⟩, queue⟩ := h
    refine ⟨phase, ⟨fun on => sends ?_, queued, ?_, guarded, attempting, fun on => ?_, ?_, most, fun off => waits ?_, room, number⟩,
      queue⟩
    · rintro off
      simp [becomeBusy, off] at on
    · refine driving.trans ?_
      simp only [becomeBusy]
      split <;> simp [*]
    · obtain ⟨head, own, free⟩ := drives on
      exact ⟨head, by simp [becomeBusy, own], free⟩
    · refine backing.trans ?_
      simp only [becomeBusy]
      split <;> simp [*]
    · rintro send
      simp [becomeBusy, send] at off
  quiet s assembly h still := by
    obtain ⟨phase, ⟨sends, queued, driving, guarded, attempting, drives, backing, most, waits, room, number⟩, queue⟩ := h
    have off : s.lau.driver = false := by
      rcases still with off | assembling
      · exact off
      · rw [Bool.eq_false_iff]
        intro on
        simp [assembling] at drives
        simp [drives] at on
    refine ⟨phase, ⟨fun on => sends ?_, queued, ?_, guarded, attempting, fun on => ?_, ?_, most, fun off => waits ?_, room, number⟩,
      queue⟩
    · rintro off
      simp [quietLine, off] at on
    · refine driving.trans ?_
      simp only [quietLine]
      split <;> simp [*]
    · simp [quietLine, off] at on
    · refine backing.trans ?_
      simp only [quietLine]
      split <;> simp [*]
    · rintro send
      simp [quietLine, send] at off
  found s h hunting := by
    obtain ⟨phase, ⟨sends, queued, driving, guarded, attempting, drives, rest⟩, queue⟩ := h
    exact ⟨phase, ⟨sends, queued, driving, guarded, attempting, fun on => by simpa [hunting] using (drives on).2.1, rest⟩, queue⟩
  queued s f h _ _ idle room := by
    obtain ⟨phase, ⟨sends, queued, driving, guarded, attempting, drives, backing, most, waits, -, number⟩, queue⟩ := h
    exact ⟨phase, ⟨sends, queued, driving, guarded, attempting, fun on => by simpa [idle] using (drives on).2.1, backing, most, waits,
      by simpa using room, number⟩, queue⟩

/-- The transmit queue without its head keeps its limits. -/
theorem transmitQueueRules_tail {s t : State} {f : TxFrame} {rest : List TxFrame} (h : TransmitQueueRules s)
    (queue : s.lau.queue = f :: rest) (queue' : t.lau.queue = rest)
    (completed : t.lau.lastCompleted = s.lau.lastCompleted ∨ t.lau.lastCompleted.isSome = true) : TransmitQueueRules t := by
  unfold TransmitQueueRules reqQueued at h ⊢
  rw [queue] at h
  rw [queue']
  obtain ⟨few, requests, first⟩ := h
  rw [List.length_cons] at few first
  rw [List.countP_cons] at requests
  refine ⟨by omega, by omega, fun never => ?_⟩
  have before : s.lau.lastCompleted = none := by
    rcases completed with same | some
    · rw [← same, never]
    · simp [never] at some
  obtain ⟨single, presences⟩ := first before
  exact ⟨by omega, fun g hg => presences g (List.mem_cons_of_mem _ hg)⟩

/-- An attempt ended with the head taken off leaves the rules: the transmitter in IDLE, nothing driven (R92, R93). -/
theorem sound_attemptEnded {s t : State} {f : TxFrame} {rest : List TxFrame} (h : Sound s) (send : s.lau.transmitter = .send)
    (queue : s.lau.queue = f :: rest) (stc : t.stc = s.stc)
    (lau : t.lau = { attemptEnded rest .idle s.lau with lastCompleted := t.lau.lastCompleted })
    (completed : t.lau.lastCompleted = s.lau.lastCompleted ∨ t.lau.lastCompleted.isSome = true)
    (room : t.lrx.queue.length ≤ 4) : Sound t := by
  obtain ⟨phase, ⟨sends, queued, -, -, -, -, backing, -⟩, limits⟩ := h
  have may : maySend t = true := by
    unfold maySend at sends ⊢
    rw [stc]
    exact sends (by simp [send])
  have fresh : s.lau.backoff = none := by simpa [send] using backing
  have queue' : t.lau.queue = rest := by
    rw [lau]
    rfl
  refine ⟨planPhase_congr phase stc, ?_, transmitQueueRules_tail limits queue queue' completed⟩
  unfold SendingRules
  rw [may, lau]
  simp [attemptEnded, fresh, room]

theorem sound_transmitter : TransmitterRule Sound where
  wait s h gap := by
    obtain ⟨phase, ⟨sends, queued, driving, guarded, attempting, drives, backing, most, waits, room, number⟩, queue⟩ := h
    exact ⟨phase, ⟨fun _ => sends (by simp [gap]), queued, by simpa [gap] using driving, guarded, attempting, drives,
      by simpa [gap] using backing, most, fun _ => waits (by simp [gap]), room, number⟩, queue⟩
  begin s rest f others h gap queue free := by
    obtain ⟨phase, ⟨sends, queued, driving, guarded, attempting, drives, backing, most, waits, room, number⟩, limits⟩ := h
    have few := waits (by simp [gap])
    refine ⟨phase, ⟨fun _ => sends (by simp [gap]), queued, by simp [beginAttempt], rfl, rfl, fun _ => ⟨by simp [beginAttempt, queue],
      rfl, free⟩, by simpa [beginAttempt, gap] using backing, ?_, fun off => absurd rfl off, room, ?_⟩, limits⟩
    · show s.lau.attempts + 1 ≤ 12
      omega
    · intro a begun
      obtain rfl : sentFrame s rest f = a := Option.some.inj begun
      rfl
  backoff s wait count h send few := by
    obtain ⟨phase, ⟨sends, queued, driving, guarded, attempting, drives, backing, most, waits, room, number⟩, queue⟩ := h
    exact ⟨phase, ⟨fun _ => sends (by simp [send]), queued, by simp, rfl, rfl, nofun, by simp, most, fun _ => Nat.le_of_lt_succ few,
      room, nofun⟩, queue⟩
  backoffEnd s h backoff := by
    obtain ⟨phase, ⟨sends, queued, driving, guarded, attempting, drives, backing, most, waits, room, number⟩, queue⟩ := h
    have still : s.lau.driver = false := by simpa [backoff] using driving
    refine ⟨phase, ⟨fun _ => sends (by simp [backoff]), queued, ?_, guarded, attempting, drives, ?_, most,
      fun _ => waits (by simp [backoff]), room, number⟩, queue⟩
    · simp only [still]
      split <;> simp
    · simp only
      split <;> simp
  abandon s f rest count h send queue := by
    have room : s.lrx.queue.length ≤ 4 := by
      obtain ⟨-, ⟨-, -, -, -, -, -, -, -, -, room, -⟩, -⟩ := h
      exact room
    obtain ⟨slot, tsc, e⟩ := tellAbandoned_only f { s with lau := attemptEnded rest .idle s.lau, freeCount := count }
    rw [e]
    exact sound_attemptEnded h send queue rfl rfl (.inl rfl) room
  complete s f rest a h send queue attempt := by
    have free : s.lrx.queue.length < 4 := by
      obtain ⟨-, ⟨-, -, driving, -, -, drives, -⟩, -⟩ := h
      exact (drives (driving.mpr send)).2.2
    obtain ⟨tsc, e⟩ := completionNotice_only
      { s with
        lau := { attemptEnded rest .idle s.lau with lastCompleted := some a.sequence },
        lrx.queue := s.lrx.queue ++ [a.asSelf] }
    rw [e]
    obtain ⟨slot, tsc, e⟩ := tellCompleted_only f
      { s with
        lau := { attemptEnded rest .idle s.lau with lastCompleted := some a.sequence },
        lrx.queue := s.lrx.queue ++ [a.asSelf], tsc := tsc }
    rw [e]
    exact sound_attemptEnded h send queue rfl rfl (.inr rfl) (by simpa using free)
  trip s f rest h _ _ active := sound_mute h (.inr active) .guard [f] rfl rfl

/-! ## The obligation -/

theorem sound_rules : BlockRules Sound where
  settling := sound_settling
  access := { checkStarted := fun _ h before => ⟨planPhase_start h.1 before, h.2⟩ }
  station := sound_station_rule
  receiver := sound_receiver
  transmitter := sound_transmitter
  updater := .of_ignored sound_settling (fun _ _ _ h => h)
    (fun s f rest h queue => by
      obtain ⟨phase, ⟨sends, queued, driving, guarded, attempting, drives, backing, most, waits, room, number⟩, limits⟩ := h
      rw [queue, List.length_cons] at room
      refine ⟨phase, ⟨sends, queued, driving, guarded, attempting, fun on => ?_, backing, most, waits, by simp; omega, number⟩, limits⟩
      obtain ⟨head, own, free⟩ := drives on
      rw [queue, List.length_cons] at free
      exact ⟨head, own, by simp; omega⟩)
    (takeSample_ignored sound_settling fun _ _ h => h)
  timer := {}

theorem resetBlocks_sound (straps : Straps) (cause : ResetCause) (inReset : Bool) (s : State) :
    Sound (resetBlocks straps cause inReset s) :=
  sound_off (resetBlocks_planPhase straps cause inReset s) rfl rfl rfl rfl rfl rfl (Nat.zero_le _) (Nat.zero_le _)

/-- Settles O56: the line access unit is at rest and OFF wherever the station may not send, an attempt begins with a head frame and a free
receive queue entry, and its end turns the driver off. -/
theorem stepKeepsSendingRules : Obligations.StepKeepsSendingRules := fun _ _ phase sending queue hs =>
  step_keeps sound_rules {} (fun _ _ h => h) (fun s straps cause inReset _ => resetBlocks_sound straps cause inReset s)
    (fun _ _ h => h) (fun _ h => h) ⟨phase, sending, queue⟩ hs

end Sys2Proof.Laws
end

section
/-! SUPPORT. The items: what the changes of one item and of the table keep of plan fields and of a property of each item, the table that a
good plan gives, and the obligation on the image's rules (R1 to R3, R24, R25). -/

namespace Sys2Proof.Laws

open Sys2Proof.Machine

/-! ## One item changed -/

/-- A change of an item that keeps its plan fields keeps those of the table. -/
theorem updateItem_plans {slot : Nat} {f : Item → Item} (plan : ∀ it, (f it).plan = it.plan) (s : State) :
    (updateItem slot f s).imu.items.map Item.plan = s.imu.items.map Item.plan := by
  rw [updateItem_items]
  refine List.ext_getElem? fun k => ?_
  rw [List.getElem?_map, List.getElem?_map, List.getElem?_modify]
  cases s.imu.items[k]? with
  | none => rfl
  | some it => by_cases same : slot = k <;> simp [same, plan]

/-- A change of an item that keeps a property of that item keeps it of all. -/
theorem updateItem_forall {Q : Item → Prop} {slot : Nat} {f : Item → Item} {s : State}
    (keeps : ∀ it, s.imu.items[slot]? = some it → Q it → Q (f it)) (h : ∀ it ∈ s.imu.items, Q it) :
    ∀ it ∈ (updateItem slot f s).imu.items, Q it := by
  intro it member
  rw [updateItem_items] at member
  obtain ⟨k, found⟩ := List.mem_iff_getElem?.mp member
  rw [List.getElem?_modify] at found
  cases before : s.imu.items[k]? with
  | none => simp [before] at found
  | some was =>
    have held := h was (List.mem_of_getElem? before)
    by_cases same : slot = k
    · subst same
      obtain rfl : f was = it := by simpa [before] using found
      exact keeps was before held
    · obtain rfl : was = it := by simpa [before, same] using found
      exact held

/-- A change of an item lists its number at most once. -/
theorem updateItem_nodup {slot : Nat} {f : Item → Item} (plan : ∀ it, (f it).plan = it.plan) {s : State} (h : s.imu.changes.Nodup) :
    (updateItem slot f s).imu.changes.Nodup := by
  cases found : s.imu.items[slot]? with
  | none => rwa [updateItem_empty found]
  | some it =>
    rw [updateItem_eq found f (plan it)]
    simp only
    split
    · next listed => exact List.nodup_append.mpr ⟨h, List.nodup_singleton _, fun a ha b hb => by
        rw [List.mem_singleton.mp hb]
        rintro rfl
        exact listed.2.2 ha⟩
    · exact h

@[simp] theorem markClash_plan (it : Item) : it.markClash.plan = it.plan := rfl

@[simp] theorem accept_plan (r : Record) (stream : Option StreamFields) (it : Item) : (Item.accept r stream it).plan = it.plan :=
  withRecord_plan it r

@[simp] theorem moveGate_plan (it : Item) : it.moveGate.plan = it.plan := by
  unfold Item.moveGate
  split <;> rfl

@[simp] theorem clearClash_plan (it : Item) : it.clearClash.plan = it.plan := rfl

/-- The step of an owner event on a run of slots keeps what its step on one item keeps. -/
theorem applyEvent_keeps {P : State → Prop} {e : OwnerEvent} (step : ∀ s slot, P s → P (updateItem slot (Item.takeEvent e) s))
    (slots : List Nat) {s : State} (h : P s) : P (applyEvent e slots s) := by
  unfold applyEvent
  induction slots generalizing s with
  | nil => exact h
  | cons slot rest ih => exact ih (step s slot h)

/-! ## A legal item -/

/-- What the image's rules say of one item at a station: a LENGTH of 1 to 8, a pending part only where it is GATED, and owned exactly where
the station is its owner. -/
def ItemLegal (station : Station) (it : Item) : Prop :=
  (1 ≤ it.plan.length ∧ it.plan.length ≤ 8) ∧ (it.pendingPart.isSome = true → it.plan.gate.isSome = true) ∧
    (it.owned.isSome = true ↔ it.plan.owner = station)

/-- The item table in ascending item number. -/
def Ascending (items : List Item) : Prop := items.Pairwise fun a b => a.plan.item.toNat < b.plan.item.toNat

/-- An owner event in hand has items left, in slot order. -/
def EventInOrder (imu : Imu) : Prop := ∀ w, imu.applying = some w → w.todo ≠ [] ∧ w.todo.Pairwise (· < ·)

theorem imageRules_iff (s : State) :
    ImageRules s ↔ Ascending s.imu.items ∧ (∀ it ∈ s.imu.items, ItemLegal (stationNumber s) it) ∧ s.imu.changes.Nodup ∧
      EventInOrder s.imu := by
  unfold ImageRules Ascending ItemLegal EventInOrder
  constructor
  · rintro ⟨ascending, lengths, pending, owned, nodup, order⟩
    exact ⟨ascending, fun it h => ⟨lengths it h, pending it h, owned it h⟩, nodup, order⟩
  · rintro ⟨ascending, legal, nodup, order⟩
    exact ⟨ascending, fun it h => (legal it h).1, fun it h => (legal it h).2.1, fun it h => (legal it h).2.2, nodup, order⟩

/-- The order of the table is one of its plan fields. -/
theorem ascending_congr {items items' : List Item} (plans : items'.map Item.plan = items.map Item.plan) :
    Ascending items' ↔ Ascending items := by
  have key : ∀ l : List Item, Ascending l ↔ (l.map Item.plan).Pairwise fun a b => a.item.toNat < b.item.toNat := fun l => by
    rw [List.pairwise_map]
    rfl
  rw [key, key, plans]

theorem markClash_legal {n : Station} {it : Item} (h : ItemLegal n it) : ItemLegal n it.markClash := by
  obtain ⟨length, pending, owned⟩ := h
  exact ⟨length, pending, by simpa [Item.markClash] using owned⟩

theorem clearClash_legal {n : Station} {it : Item} (h : ItemLegal n it) : ItemLegal n it.clearClash := by
  obtain ⟨length, pending, owned⟩ := h
  exact ⟨length, pending, by simpa [Item.clearClash] using owned⟩

theorem withRecord_legal {n : Station} {it : Item} (h : ItemLegal n it) (r : Record) : ItemLegal n (it.withRecord r) := by
  obtain ⟨length, pending, owned⟩ := h
  unfold Item.withRecord
  split
  · exact ⟨length, pending, owned⟩
  · next gate => exact ⟨length, fun _ => by simp [gate], owned⟩

theorem accept_legal {n : Station} {it : Item} (h : ItemLegal n it) (r : Record) (stream : Option StreamFields) :
    ItemLegal n (Item.accept r stream it) := withRecord_legal h r

theorem duplicate_legal {n : Station} {it : Item} (h : ItemLegal n it) : ItemLegal n it.duplicate := by
  unfold Item.duplicate
  split <;> exact h

theorem takeSelf_legal {n : Station} {it : Item} (h : ItemLegal n it) (r : Record) : ItemLegal n (Item.takeSelf r it) := by
  unfold Item.takeSelf
  simp only
  split
  · exact h
  · exact withRecord_legal h r

theorem takeEvent_legal {n : Station} {it : Item} (h : ItemLegal n it) (e : OwnerEvent) : ItemLegal n (Item.takeEvent e it) := by
  unfold Item.takeEvent
  split
  · exact h
  · split
    · exact h
    all_goals split <;> exact h

theorem moveGate_legal {n : Station} {it : Item} (h : ItemLegal n it) : ItemLegal n it.moveGate := by
  unfold Item.moveGate
  split
  · exact h
  · exact ⟨h.1, nofun, h.2.2⟩

/-- A legal item is one whatever version it has issued. -/
theorem itemLegal_withoutIssued (n : Station) (it : Item) : ItemLegal n it.withoutIssued ↔ ItemLegal n it := by
  unfold ItemLegal Item.withoutIssued
  simp

/-- A property of items that does not look at LAST ISSUED VERSION is kept by builds. -/
theorem sameButIssued_forall {Q : Item → Prop} (blind : ∀ it : Item, Q it.withoutIssued ↔ Q it) {items items' : List Item}
    (same : SameButIssued items items') (h : ∀ it ∈ items, Q it) : ∀ it ∈ items', Q it := by
  have key : ∀ l : List Item, (∀ it ∈ l, Q it) ↔ ∀ it ∈ l.map Item.withoutIssued, Q it := fun l => by
    simp only [List.forall_mem_map, blind]
  rw [key, same, ← key]
  exact h

/-- Builds leave the plan fields. -/
theorem sameButIssued_plans {items items' : List Item} (same : SameButIssued items items') :
    items'.map Item.plan = items.map Item.plan := by
  have key : ∀ l : List Item, l.map Item.plan = (l.map Item.withoutIssued).map Item.plan := fun l => by
    rw [List.map_map]
    rfl
  rw [key, same, ← key]

/-! ## The table of a good plan -/

theorem planEntry_of_good {m : WordStore} (good : planCheck m = none) {k : Nat} (hk : k < planCount m) :
    (planEntry m k).bad = false ∧ (1 ≤ k → (planEntry m (k - 1)).item.toNat < (planEntry m k).item.toNat) :=
  (entryFault_none_iff m k).mp (entryFault_of_good good hk)

/-- The entries of a good plan stand in ascending item number (test 6). -/
theorem planEntry_ascending {m : WordStore} (good : planCheck m = none) {j k : Nat} (less : j < k) (hk : k < planCount m) :
    (planEntry m j).item.toNat < (planEntry m k).item.toNat := by
  induction k with
  | zero => omega
  | succ k ih =>
    have next := (planEntry_of_good good hk).2 (by omega)
    rw [Nat.add_sub_cancel] at next
    rcases Nat.lt_or_eq_of_le (Nat.le_of_lt_succ less) with before | rfl
    · exact (ih before (by omega)).trans next
    · exact next

theorem newItem_plan_item (n : Station) (e : PlanEntry) : (e.newItem n).plan.item = e.item := rfl

/-- An item built from an entry that is not bad is legal. -/
theorem newItem_legal {e : PlanEntry} (good : e.bad = false) (n : Station) : ItemLegal n (e.newItem n) := by
  simp only [PlanEntry.bad, Bool.or_eq_false_iff, decide_eq_false_iff_not, beq_eq_false_iff_ne] at good
  obtain ⟨⟨⟨⟨⟨⟨-, nonzero⟩, atMost⟩, -⟩, -⟩, -⟩, -⟩ := good
  exact ⟨⟨Nat.one_le_iff_ne_zero.mpr nonzero, Nat.not_lt.mp atMost⟩, nofun, by simp [PlanEntry.newItem]⟩

theorem buildTable_ascending {m : WordStore} (good : planCheck m = none) (n : Station) : Ascending (buildTable n m) := by
  unfold Ascending buildTable
  rw [List.pairwise_map]
  refine List.pairwise_iff_getElem.mpr fun i j hi hj less => ?_
  simp only [List.length_range] at hj
  simpa [newItem_plan_item] using planEntry_ascending good less hj

theorem buildTable_forall {m : WordStore} (good : planCheck m = none) {n : Station} {Q : Item → Prop}
    (built : ∀ e : PlanEntry, e.bad = false → Q (e.newItem n)) : ∀ it ∈ buildTable n m, Q it := by
  intro it member
  obtain ⟨k, hk, rfl⟩ := List.mem_map.mp member
  exact built _ (planEntry_of_good good (List.mem_range.mp hk)).1

/-! ## The obligation -/

/-- The image's rules look at the item table, the change list, the event in hand and the captured station number. -/
theorem ImageRules_congr {s t : State} (h : ImageRules s) (items : t.imu.items = s.imu.items) (changes : t.imu.changes = s.imu.changes)
    (applying : t.imu.applying = s.imu.applying) (straps : t.stc.straps = s.stc.straps) : ImageRules t := by
  unfold ImageRules stationNumber at h ⊢
  rw [items, changes, applying, straps]
  exact h

/-- A change of an item that keeps its plan fields and keeps it legal keeps the image's rules. -/
theorem updateItem_imageRules {slot : Nat} {f : Item → Item} {s : State} (h : ImageRules s) (plan : ∀ it, (f it).plan = it.plan)
    (legal : ∀ it, ItemLegal (stationNumber s) it → ItemLegal (stationNumber s) (f it)) : ImageRules (updateItem slot f s) := by
  rw [imageRules_iff] at h ⊢
  obtain ⟨ascending, all, nodup, order⟩ := h
  refine ⟨(ascending_congr (updateItem_plans plan s)).mpr ascending, ?_, updateItem_nodup plan nodup, ?_⟩
  · have number : stationNumber (updateItem slot f s) = stationNumber s := by
      obtain ⟨_, _, e⟩ := updateItem_only slot f s
      rw [e]
      rfl
    rw [number]
    exact updateItem_forall (fun it _ => legal it) all
  · obtain ⟨_, _, e⟩ := updateItem_only slot f s
    rw [e]
    exact order

theorem image_settling : SettlingRule ImageRules :=
  .of_effects
    (fun s t e h => by
      rw [imageRules_iff] at h ⊢
      obtain ⟨ascending, all, nodup, order⟩ := h
      have number : stationNumber t = stationNumber s := by unfold stationNumber; rw [e.stc]
      refine ⟨(ascending_congr (sameButIssued_plans e.items)).mpr ascending, ?_, by rwa [e.imu], ?_⟩
      · rw [number]
        exact sameButIssued_forall (itemLegal_withoutIssued _) e.items all
      · unfold EventInOrder
        rw [e.imu]
        exact order)
    fun _ _ _ h => h

/-- The steps of an owner event keep the image's rules, and leave items in hand only while some are left. -/
theorem event_imageRules {s : State} (h : ImageRules s) {w : EventWork} {rest : List OwnerEvent} (next : nextEvent s = some (w, rest))
    (n : Nat) :
    ImageRules { applyEvent w.event (w.todo.take n) { s with imu.events := rest } with
      imu.applying := if w.todo.length ≤ n then none else some { w with todo := w.todo.drop n } } := by
  have inOrder : w.todo.Pairwise (· < ·) := by
    unfold nextEvent at next
    split at next
    · next applying =>
      cases next
      exact (((imageRules_iff s).mp h).2.2.2 w applying).2
    · split at next
      · cases next
      · cases next
        exact ownerSlots_pairwise _ _
  have applied : ImageRules (applyEvent w.event (w.todo.take n) { s with imu.events := rest }) :=
    applyEvent_keeps (fun _ slot h => updateItem_imageRules h (takeEvent_plan _) fun it legal => takeEvent_legal legal _) _ h
  rw [imageRules_iff] at applied ⊢
  obtain ⟨ascending, all, nodup, -⟩ := applied
  refine ⟨ascending, all, nodup, fun v applying => ?_⟩
  simp only at applying
  split at applying
  · cases applying
  · next more =>
    obtain rfl := Option.some.inj applying
    exact ⟨by simpa using more, inOrder.sublist (List.drop_sublist _ _)⟩

theorem image_rules : BlockRules ImageRules where
  settling := image_settling
  access :=
    { changeTaken := fun s ⟨ascending, lengths, pending, owned, nodup, order⟩ =>
        ⟨ascending, lengths, pending, owned, nodup.sublist (List.tail_sublist _), order⟩
      clashesCleared := fun s h => by
        rw [imageRules_iff] at h ⊢
        obtain ⟨ascending, all, nodup, order⟩ := h
        refine ⟨(ascending_congr ?_).mpr ascending, ?_, nodup, order⟩
        · simp
        · exact List.forall_mem_map.mpr fun it member => clearClash_legal (all it member) }
  station :=
    { clock := fun s level h => by
        obtain ⟨_, _, _, _, _, _, e⟩ := clockPlan_only [level] s.stc
        rw [List.foldl_cons, List.foldl_nil] at e
        exact ImageRules_congr h rfl rfl rfl (by rw [e])
      planGood := fun s h _ good => by
        rw [imageRules_iff] at h ⊢
        obtain ⟨-, -, nodup, order⟩ := h
        exact ⟨buildTable_ascending good _, buildTable_forall good fun _ fine => newItem_legal fine _, nodup, order⟩
      active := fun s h _ => by
        obtain ⟨lau, tsc, e⟩ := startSending_only { s with stc.station := .active, stc.joinTimer := none }
        rw [e]
        exact h
      mute := fun s cause h _ => flushLau_ignored image_settling (fun _ _ _ _ _ h => h) (s := stopStation cause s) h [] }
  receiver := {}
  transmitter := .of_ignored image_settling (fun _ _ _ _ _ h => h) (fun _ _ _ h => h) (fun _ _ h _ _ => h) fun _ h _ => h
  updater :=
    { notice := fun s expiring f rest h _ _ _ => by
        obtain ⟨_, _, _, expired, -⟩ := expireAll_only expiring { s with lrx.queue := rest, imu.work := .notice f }
        obtain ⟨_, _, _, _, noticed⟩ := noticeFrame_only f (expireAll expiring { s with lrx.queue := rest, imu.work := .notice f })
        rw [noticed, expired]
        exact h
      event := fun s n w rest h next _ => event_imageRules h next n
      remoteRecord := fun s sender r rest h _ =>
        applyRemoteRecord_keeps image_settling (takeSample_ignored image_settling fun _ _ h => h)
          (fun _ _ _ h _ _ _ _ => updateItem_imageRules h markClash_plan fun _ => markClash_legal)
          (fun _ _ _ _ h _ _ _ _ _ => updateItem_imageRules h (accept_plan r _) fun _ legal => accept_legal legal r _)
          (fun _ _ _ h _ _ _ => updateItem_imageRules h duplicate_plan fun _ => duplicate_legal) h
      selfRecord := fun s r rest h _ => by
        unfold applySelfRecord
        split
        · exact h
        · exact updateItem_imageRules h (takeSelf_plan r) fun _ legal => takeSelf_legal legal r
      gateStep := fun s mark g slot h _ _ => updateItem_imageRules h moveGate_plan fun _ => moveGate_legal }
  timer := {}

theorem resetBlocks_imageRules (straps : Straps) (cause : ResetCause) (inReset : Bool) (s : State) :
    ImageRules (resetBlocks straps cause inReset s) := by
  have imu : (resetBlocks straps cause inReset s).imu = State.reset.imu := rfl
  unfold ImageRules
  rw [imu]
  simp [State.reset]

/-- Settles O59: an item keeps its plan fields and stays legal whatever changes it, a number is listed only where it is not, and a good plan
gives an ascending table of legal items. -/
theorem stepKeepsImageRules : Obligations.StepKeepsImageRules := fun _ _ h hs =>
  step_keeps image_rules {} (fun _ _ h => h)
    (fun s straps cause inReset _ => resetBlocks_imageRules straps cause inReset s) (fun _ _ h => h) (fun _ h => h) h hs

end Sys2Proof.Laws
end

section
/-! SUPPORT. The conditions of items and the traffic of this station: each item's condition true to what it holds, every record on its way of
an item of this station, from the slot in progress to the image updater, and the obligation on them (R9, R10, R11, R13, R107, R130). -/

namespace Sys2Proof.Laws

open Sys2Proof.Machine

/-! ## One item -/

/-- What the item rules say of one item at a station: UNSET and LOCAL exactly where the station is its owner, no value exactly in VACANT and
UNSET, and every value of the item's LENGTH. -/
def ItemTrue (n : Station) (it : Item) : Prop :=
  ((it.condition = .unset ∨ it.condition = .ownLocal) ↔ it.plan.owner = n) ∧
    ((it.condition = .vacant ∨ it.condition = .unset) ↔ it.heldPart = none) ∧
    ∀ part, it.visiblePart = some part ∨ it.pendingPart = some part → part.value.length = it.plan.length

theorem itemRules_iff (s : State) :
    ItemRules s ↔ (receiving s = false → s.imu.items = []) ∧ ∀ it ∈ s.imu.items, ItemTrue (stationNumber s) it := Iff.rfl

/-- A record set into an item is held. -/
theorem withRecord_held (it : Item) (r : Record) : (it.withRecord r).heldPart ≠ none := by
  unfold Item.withRecord
  split
  · unfold Item.heldPart
    simp only
    split <;> simp
  · simp [Item.heldPart]

/-- A record of the item's LENGTH set into it leaves every value of its LENGTH. -/
theorem withRecord_lengths {it : Item} {r : Record} (length : r.value.length = it.plan.length)
    (all : ∀ part, it.visiblePart = some part ∨ it.pendingPart = some part → part.value.length = it.plan.length) (part : Part)
    (h : (it.withRecord r).visiblePart = some part ∨ (it.withRecord r).pendingPart = some part) :
    part.value.length = it.plan.length := by
  unfold Item.withRecord at h
  split at h
  · rcases h with h | h
    · obtain rfl := Option.some.inj h
      exact length
    · exact all part (.inr h)
  · rcases h with h | h
    · exact all part (.inl h)
    · obtain rfl := Option.some.inj h
      exact length

/-- An accepted remote record leaves the item CURRENT with a value (R22). -/
theorem accept_true {n : Station} {it : Item} {r : Record} (h : ItemTrue n it) (other : it.plan.owner ≠ n)
    (length : r.value.length = it.plan.length) (stream : Option StreamFields) : ItemTrue n (Item.accept r stream it) := by
  obtain ⟨-, -, lengths⟩ := h
  refine ⟨?_, ?_, fun part held => ?_⟩
  · simp [Item.accept, other]
  · have held : (Item.accept r stream it).heldPart ≠ none := withRecord_held it r
    exact ⟨fun h => by simp [Item.accept] at h, fun none => absurd none held⟩
  · rw [accept_plan]
    exact withRecord_lengths length lengths part held

/-- An own record taken leaves the item LOCAL with a value (R23). -/
theorem takeSelf_true {n : Station} {it : Item} {r : Record} (h : ItemTrue n it) (own : it.plan.owner = n)
    (length : r.value.length = it.plan.length) : ItemTrue n (Item.takeSelf r it) := by
  obtain ⟨-, -, lengths⟩ := h
  by_cases same : it.heldPart.map Part.version = some r.version
  · rw [takeSelf_held same]
    have held : it.heldPart ≠ none := by
      rintro none
      simp [none] at same
    exact ⟨by simp [own], by simpa [Item.heldPart] using held, lengths⟩
  · have set : Item.takeSelf r it = { it.withRecord r with condition := .ownLocal, baselineOpen := false } := by
      unfold Item.takeSelf
      simp only
      rw [if_neg same]
    rw [set]
    refine ⟨by simp [own], ?_, fun part held => ?_⟩
    · have held : ({ it.withRecord r with condition := .ownLocal, baselineOpen := false } : Item).heldPart ≠ none :=
        withRecord_held it r
      exact ⟨fun h => by simp at h, fun none => absurd none held⟩
    · show part.value.length = (it.withRecord r).plan.length
      rw [withRecord_plan]
      exact withRecord_lengths length lengths part held

/-- Among the conditions of a remote item that holds a value one may follow the other. -/
theorem ItemTrue.recondition {n : Station} {it : Item} (h : ItemTrue n it) {condition : Condition}
    (was : it.condition = .current ∨ it.condition = .doubtful)
    (now : condition = .current ∨ condition = .doubtful ∨ condition = .stale) : ItemTrue n { it with condition := condition } := by
  obtain ⟨owner, held, lengths⟩ := h
  refine ⟨?_, ?_, lengths⟩
  · refine Iff.trans ?_ owner
    rcases was with was | was <;> rcases now with rfl | rfl | rfl <;> simp [was]
  · refine Iff.trans ?_ held
    rcases was with was | was <;> rcases now with rfl | rfl | rfl <;> simp [was]

theorem duplicate_true {n : Station} {it : Item} (h : ItemTrue n it) : ItemTrue n it.duplicate := by
  unfold Item.duplicate
  split
  · next doubtful => exact h.recondition (.inr doubtful) (.inl rfl)
  · exact h

theorem takeEvent_true {n : Station} {it : Item} (h : ItemTrue n it) (e : OwnerEvent) : ItemTrue n (Item.takeEvent e it) := by
  unfold Item.takeEvent
  split
  · exact h
  · split
    · exact h
    · split
      · next current => exact h.recondition (.inl current) (.inr (.inl rfl))
      · exact h
    · split
      · next held => exact h.recondition held (.inr (.inr rfl))
      · exact h

theorem moveGate_true {n : Station} {it : Item} (h : ItemTrue n it) : ItemTrue n it.moveGate := by
  unfold Item.moveGate
  split
  · exact h
  · next part pending =>
    obtain ⟨owner, held, lengths⟩ := h
    refine ⟨owner, ?_, fun p hp => lengths p (.inr ?_)⟩
    · simpa [Item.heldPart, pending] using held
    · simpa [pending] using hp

theorem newItem_true {e : PlanEntry} (n : Station) : ItemTrue n (e.newItem n) := by
  unfold ItemTrue PlanEntry.newItem Item.heldPart
  by_cases own : Fin.ofNat 32 e.owner = n
  · simp only [own]
    simp
  · simp only [own]
    simp

/-! ## Own records and owned slots, by the plan fields of the table -/

/-- Slots of the table that hold items of a station. -/
def OwnedSlots (items : List Item) (n : Station) (slots : List Nat) : Prop :=
  ∀ k ∈ slots, ∃ it, items[k]? = some it ∧ it.plan.owner = n

theorem ownedSlots_plans {items items' : List Item} (plans : items'.map Item.plan = items.map Item.plan) {n : Station}
    {slots : List Nat} (h : OwnedSlots items n slots) : OwnedSlots items' n slots := by
  intro k hk
  obtain ⟨it, found, owner⟩ := h k hk
  have same : items'[k]?.map Item.plan = some it.plan := by
    rw [← List.getElem?_map, plans, List.getElem?_map, found, Option.map_some]
  obtain ⟨it', found', plan⟩ := Option.map_eq_some_iff.mp same
  exact ⟨it', found', by rw [plan, owner]⟩

theorem findSlot_plans {items items' : List Item} (plans : items'.map Item.plan = items.map Item.plan) (n : ItemNo) :
    findSlot items' n = findSlot items n := by
  have key : ∀ l : List Item, findSlot l n = (l.map Item.plan).findIdx? fun plan => plan.item == n := fun l => by
    rw [List.findIdx?_map]
    rfl
  rw [key, plans, ← key]

/-- A record stays one of this station's own items while the plan fields of the table stay. -/
theorem ownRecord_plans {s t : State} (plans : t.imu.items.map Item.plan = s.imu.items.map Item.plan)
    (number : stationNumber t = stationNumber s) {r : Record} (h : OwnRecord s r) : OwnRecord t r := by
  obtain ⟨slot, it, found, item, owner, length⟩ := h
  have same : t.imu.items[slot]?.map Item.plan = some it.plan := by
    rw [← List.getElem?_map, plans, List.getElem?_map, item, Option.map_some]
  obtain ⟨it', item', plan⟩ := Option.map_eq_some_iff.mp same
  exact ⟨slot, it', by rw [findSlot_plans plans, found], item', by rw [plan, owner, number], by rw [plan, length]⟩

/-- In an ascending table the slot of an item number is the one that holds it. -/
theorem findSlot_of_ascending {items : List Item} (ascending : Ascending items) {k : Nat} {it : Item} (found : items[k]? = some it) :
    findSlot items it.plan.item = some k := by
  refine findSlot_iff.mpr ⟨⟨it, found, rfl⟩, fun j less jt before same => ?_⟩
  obtain ⟨hk, rfl⟩ := List.getElem?_eq_some_iff.mp found
  obtain ⟨hj, rfl⟩ := List.getElem?_eq_some_iff.mp before
  have order := List.pairwise_iff_getElem.mp ascending j k hj hk less
  rw [same] at order
  exact Nat.lt_irrefl _ order

theorem ownRecord_of_slot {s : State} (ascending : Ascending s.imu.items) {k : Nat} {it : Item} (found : s.imu.items[k]? = some it)
    (owner : it.plan.owner = stationNumber s) {r : Record} (item : r.item = it.plan.item) (length : r.value.length = it.plan.length) :
    OwnRecord s r :=
  ⟨k, it, by rw [item, findSlot_of_ascending ascending found], found, owner, length⟩

/-! ## The traffic, block by block -/

/-- An owner event in hand is another station's, over items of that station, at an IMU with nothing in hand but a frame in its notice. -/
def HandSound (n : Station) (imu : Imu) : Prop :=
  ∀ w, imu.applying = some w →
    w.event.station ≠ n ∧ (imu.work = .free ∨ ∃ f, imu.work = .notice f) ∧ OwnedSlots imu.items w.event.station w.todo

/-- The frames received are remote ones of other stations and self frames of own records. -/
def FramesSound (own : Record → Prop) (n : Station) (frames : List Frame) : Prop :=
  (∀ f ∈ frames, f.mark = .remote → f.sender ≠ n) ∧ ∀ f ∈ frames, f.mark = .self → ∀ r ∈ f.body.records, own r

/-- A work item in hand is of another station, or of own records. -/
def WorkSound (own : Record → Prop) (n : Station) (work : Work) : Prop :=
  (∀ m, work.remoteSender = some m → m ≠ n) ∧ ∀ r ∈ work.ownRecords, own r

/-- The frames to be sent are of own records. -/
def LauSound (own : Record → Prop) (lau : Lau) : Prop :=
  (∀ a, lau.attempt = some a → ∀ r ∈ a.body.records, own r) ∧ (∀ f ∈ lau.queue, ∀ r ∈ f.body.records, own r) ∧
    (∀ f, lau.reqOffer = some f → ∀ r ∈ f.body.records, own r) ∧ ∀ f, lau.presenceOffer = some f → f.body.records = []

/-- The slot in progress is to build records of own items. -/
def SlotSound (n : Station) (items : List Item) (slot : Option SlotWork) : Prop := ∀ w, slot = some w → OwnedSlots items n w.todo

/-- The owner events that wait are other stations'. -/
def EventsSound (n : Station) (events : List OwnerEvent) : Prop := ∀ e ∈ events, e.station ≠ n

theorem trafficRules_iff (s : State) :
    TrafficRules s ↔ EventsSound (stationNumber s) s.imu.events ∧ HandSound (stationNumber s) s.imu ∧
      FramesSound (OwnRecord s) (stationNumber s) s.lrx.queue ∧ WorkSound (OwnRecord s) (stationNumber s) s.imu.work ∧
      LauSound (OwnRecord s) s.lau ∧ SlotSound (stationNumber s) s.imu.items s.req.slot := by
  constructor
  · rintro ⟨events, hand, heard, sender, taken, own, attempt, queue, offer, presence, slot⟩
    exact ⟨events, hand, ⟨heard, own⟩, ⟨sender, taken⟩, ⟨attempt, queue, offer, presence⟩, slot⟩
  · rintro ⟨events, hand, ⟨heard, own⟩, ⟨sender, taken⟩, ⟨attempt, queue, offer, presence⟩, slot⟩
    exact ⟨events, hand, heard, sender, taken, own, attempt, queue, offer, presence, slot⟩

theorem FramesSound.mono {own own' : Record → Prop} {n : Station} {frames : List Frame} (h : FramesSound own n frames)
    (imp : ∀ r, own r → own' r) : FramesSound own' n frames :=
  ⟨h.1, fun f hf mark r hr => imp r (h.2 f hf mark r hr)⟩

theorem WorkSound.mono {own own' : Record → Prop} {n : Station} {work : Work} (h : WorkSound own n work)
    (imp : ∀ r, own r → own' r) : WorkSound own' n work :=
  ⟨h.1, fun r hr => imp r (h.2 r hr)⟩

theorem LauSound.mono {own own' : Record → Prop} {lau : Lau} (h : LauSound own lau) (imp : ∀ r, own r → own' r) :
    LauSound own' lau :=
  ⟨fun a ha r hr => imp r (h.1 a ha r hr), fun f hf r hr => imp r (h.2.1 f hf r hr), fun f hf r hr => imp r (h.2.2.1 f hf r hr), h.2.2.2⟩

theorem SlotSound.sub {n : Station} {items items' : List Item} {slot slot' : Option SlotWork} (h : SlotSound n items slot)
    (plans : items'.map Item.plan = items.map Item.plan)
    (sub : ∀ w', slot' = some w' → ∃ w, slot = some w ∧ ∀ k ∈ w'.todo, k ∈ w.todo) : SlotSound n items' slot' := by
  intro w' hw'
  obtain ⟨w, hw, within⟩ := sub w' hw'
  exact fun k hk => ownedSlots_plans plans (h w hw) k (within k hk)

theorem SlotSound.plans {n : Station} {items items' : List Item} {slot : Option SlotWork} (h : SlotSound n items slot)
    (plans : items'.map Item.plan = items.map Item.plan) : SlotSound n items' slot :=
  h.sub plans fun w hw => ⟨w, hw, fun _ hk => hk⟩

/-- A change of items that leaves the plan fields leaves the traffic. -/
theorem TrafficRules_congr {s t : State} (h : TrafficRules s) (plans : t.imu.items.map Item.plan = s.imu.items.map Item.plan)
    (straps : t.stc.straps = s.stc.straps) (imu : t.imu = { s.imu with items := t.imu.items, changes := t.imu.changes })
    (lrx : t.lrx.queue = s.lrx.queue) (lau : t.lau = s.lau) (slot : t.req.slot = s.req.slot) : TrafficRules t := by
  rw [trafficRules_iff] at h ⊢
  obtain ⟨events, hand, frames, work, sending, todo⟩ := h
  have number : stationNumber t = stationNumber s := congrArg Straps.station straps
  have own : ∀ r, OwnRecord s r → OwnRecord t r := fun _ => ownRecord_plans plans number
  have events' : t.imu.events = s.imu.events := by rw [imu]
  have work' : t.imu.work = s.imu.work := by rw [imu]
  have applying : t.imu.applying = s.imu.applying := by rw [imu]
  rw [number, events', work', lrx, lau, slot]
  refine ⟨events, fun w hw => ?_, frames.mono own, work.mono own, sending.mono own, todo.plans plans⟩
  obtain ⟨other, busy, slots⟩ := hand w (applying ▸ hw)
  exact ⟨other, by rwa [work'], ownedSlots_plans plans slots⟩

end Sys2Proof.Laws
end

section
/-! SUPPORT. What each change of the blocks leaves of the conditions of items and of the traffic, and the obligation on them (R9, R10, R11,
R13, R107, R130). -/

namespace Sys2Proof.Laws

open Sys2Proof.Machine

/-! ## The conditions -/

/-- The rules of the items and of the traffic. -/
def Conditions (s : State) : Prop := ItemRules s ∧ TrafficRules s

theorem conditions_iff (s : State) :
    Conditions s ↔ (receiving s = false → s.imu.items = []) ∧ (∀ it ∈ s.imu.items, ItemTrue (stationNumber s) it) ∧
      EventsSound (stationNumber s) s.imu.events ∧ HandSound (stationNumber s) s.imu ∧
      FramesSound (OwnRecord s) (stationNumber s) s.lrx.queue ∧ WorkSound (OwnRecord s) (stationNumber s) s.imu.work ∧
      LauSound (OwnRecord s) s.lau ∧ SlotSound (stationNumber s) s.imu.items s.req.slot := by
  unfold Conditions
  rw [trafficRules_iff, itemRules_iff, and_assoc]

/-- The conditions hold of a state whose table has the plan fields of one before, if what is new in it is sound there. -/
theorem conditions_of {s t : State} (table : receiving s = false → s.imu.items = []) (receives : receiving t = receiving s)
    (straps : t.stc.straps = s.stc.straps) (plans : t.imu.items.map Item.plan = s.imu.items.map Item.plan)
    (truth : ∀ it ∈ t.imu.items, ItemTrue (stationNumber s) it) (events : EventsSound (stationNumber s) t.imu.events)
    (hand : HandSound (stationNumber s) { t.imu with items := s.imu.items })
    (frames : FramesSound (OwnRecord s) (stationNumber s) t.lrx.queue) (work : WorkSound (OwnRecord s) (stationNumber s) t.imu.work)
    (lau : LauSound (OwnRecord s) t.lau) (slot : SlotSound (stationNumber s) s.imu.items t.req.slot) : Conditions t := by
  have number : stationNumber t = stationNumber s := congrArg Straps.station straps
  have own : ∀ r, OwnRecord s r → OwnRecord t r := fun _ => ownRecord_plans plans number
  rw [conditions_iff, number, receives]
  refine ⟨fun before => ?_, truth, events, fun w hw => ?_, frames.mono own, work.mono own, lau.mono own, slot.plans plans⟩
  · simpa [table before] using plans
  · obtain ⟨other, busy, slots⟩ := hand w hw
    exact ⟨other, busy, ownedSlots_plans plans slots⟩

/-! ## Settling -/

theorem itemTrue_withoutIssued (n : Station) (it : Item) : ItemTrue n it.withoutIssued ↔ ItemTrue n it := Iff.rfl

/-- What settles the sending side keeps the conditions if the frames and the slot it leaves are sound. -/
theorem conditions_settled {s t : State} (h : Conditions s) (e : SendEffects s t) (lau : LauSound (OwnRecord s) t.lau)
    (slot : SlotSound (stationNumber s) s.imu.items t.req.slot) : Conditions t := by
  obtain ⟨table, truth, events, hand, frames, work, -, -⟩ := (conditions_iff s).mp h
  have imu := e.imu
  refine conditions_of table (by unfold receiving; rw [e.stc]) (by rw [e.stc]) (sameButIssued_plans e.items)
    (sameButIssued_forall (itemTrue_withoutIssued _) e.items truth) (by rwa [imu]) (by rwa [imu]) (by rwa [e.lrx]) (by rwa [imu]) lau slot

/-- The records built for slots of the table are of those slots' items, in number and LENGTH. -/
theorem buildRecords_of_slots (staging : WordStore) (slots : List Nat) (items : List Item) (offset : Nat) :
    ∀ r ∈ (buildRecords staging slots items offset).1,
      ∃ k ∈ slots, ∃ it, items[k]? = some it ∧ r.item = it.plan.item ∧ r.value.length = it.plan.length := by
  induction slots generalizing items offset with
  | nil => exact nofun
  | cons k rest ih =>
    intro r hr
    rw [buildRecords] at hr
    cases found : items[k]? with
    | none =>
      rw [found] at hr
      obtain ⟨j, hj, it, rest⟩ := ih items offset r hr
      exact ⟨j, List.mem_cons_of_mem _ hj, it, rest⟩
    | some it =>
      rw [found] at hr
      rcases List.mem_cons.mp hr with rfl | hr
      · exact ⟨k, List.mem_cons_self, it, found, rfl, by simp [buildRecord]⟩
      · obtain ⟨j, hj, was, later, item, length⟩ := ih _ _ r hr
        rw [List.getElem?_set] at later
        split at later
        · next same =>
          subst same
          split at later
          · obtain rfl := Option.some.inj later
            exact ⟨k, List.mem_cons_self, it, found, item, length⟩
          · cases later
        · exact ⟨j, List.mem_cons_of_mem _ hj, was, later, item, length⟩

/-- A slot found valid names own items only (check 6 of table 6-3). -/
theorem namedSlots_owned {s : State} {copy : SlotCopy} (check : itemChecks s copy = none) :
    OwnedSlots s.imu.items (stationNumber s) (namedSlots s copy) := by
  intro k hk
  have owned : ((namedSlots s copy).any fun k => !((s.imu.items[k]?).any fun it => it.plan.owner == stationNumber s)) = false := by
    simp only [itemChecks] at check
    split_ifs at check with range unknown foreign
    · simpa using foreign
  have own := List.any_eq_false.mp owned k hk
  obtain ⟨it, found, owner⟩ : ∃ it, s.imu.items[k]? = some it ∧ it.plan.owner = stationNumber s := by
    simpa [Option.any_eq_true] using own
  exact ⟨it, found, owner⟩

theorem slotWork_owned {s : State} (check : slotCheck s (cursorCopy s) = none) :
    OwnedSlots s.imu.items (stationNumber s) (slotWork s (cursorCopy s)).todo := by
  have named : OwnedSlots s.imu.items (stationNumber s) (namedSlots s (cursorCopy s)) := by
    unfold slotCheck at check
    split at check
    · cases check
    · next gate => simp [namedSlots, namedItems, gate, OwnedSlots]
    all_goals
      split at check
      · cases check
      · exact namedSlots_owned check
  unfold slotWork
  simp only
  split
  · intro k hk
    obtain ⟨j, hj, same⟩ := List.mem_flatMap.mp hk
    rw [List.eq_of_mem_replicate same]
    exact named j hj
  · exact named

/-- A refresh frame's records are of own items (R130). -/
theorem refreshFrame_owned {s : State} (ascending : Ascending s.imu.items)
    (truth : ∀ it ∈ s.imu.items, ItemTrue (stationNumber s) it) :
    ∀ r ∈ (refreshFrame s (refreshSlots s)).body.records, OwnRecord s r := by
  intro r hr
  obtain ⟨k, hk, record⟩ := List.mem_filterMap.mp (show r ∈ (refreshSlots s).filterMap (refreshRecord s) from hr)
  have own : ownedLocal s k = true := (List.mem_filter.mp (List.mem_of_mem_take hk)).2
  cases found : s.imu.items[k]? with
  | none => simp [ownedLocal, found] at own
  | some it =>
    simp only [ownedLocal, found, Option.any_some, Bool.and_eq_true, beq_iff_eq] at own
    simp only [refreshRecord, found, Option.map_eq_some_iff] at record
    obtain ⟨part, held, rfl⟩ := record
    obtain ⟨-, -, lengths⟩ := truth it (List.mem_of_getElem? found)
    refine ownRecord_of_slot ascending found own.1 rfl (lengths part ?_)
    unfold Item.heldPart at held
    split at held
    · next pending => exact .inr (pending.trans held)
    · exact .inl held

theorem admitPresence_conditions {s : State} (h : Conditions s) : Conditions (admitPresence s) := by
  obtain ⟨-, -, -, -, -, -, ⟨attempt, queue, offer, presence⟩, slot⟩ := (conditions_iff s).mp h
  refine conditions_settled h (admitPresence_effects s).toSend ?_ (by rwa [admitPresence_req])
  unfold admitPresence
  split
  · exact ⟨attempt, queue, offer, presence⟩
  · next f offered =>
    split
    · refine ⟨attempt, fun g hg => ?_, offer, nofun⟩
      rcases List.mem_append.mp hg with hg | hg
      · exact queue g hg
      · rw [List.mem_singleton.mp hg, presence f offered]
        exact nofun
    · exact ⟨attempt, queue, offer, presence⟩

theorem admitReq_conditions {s : State} (h : Conditions s) : Conditions (admitReq s) := by
  obtain ⟨-, -, -, -, -, -, ⟨attempt, queue, offer, presence⟩, slot⟩ := (conditions_iff s).mp h
  refine conditions_settled h (admitReq_effects s).toSend ?_ (by rwa [admitReq_req])
  unfold admitReq
  split
  · exact ⟨attempt, queue, offer, presence⟩
  · next f offered =>
    split
    · refine ⟨attempt, fun g hg => ?_, nofun, presence⟩
      rcases List.mem_append.mp hg with hg | hg
      · exact queue g hg
      · rw [List.mem_singleton.mp hg]
        exact offer f offered
    · exact ⟨attempt, queue, offer, presence⟩

theorem buildFrame_conditions {s : State} (ascending : Ascending s.imu.items) (h : Conditions s) {w : SlotWork}
    (slot : s.req.slot = some w) : Conditions (buildFrame w s) := by
  obtain ⟨-, -, -, -, -, -, ⟨attempt, queue, offer, presence⟩, todo⟩ := (conditions_iff s).mp h
  have owned := todo w slot
  have effects := (buildFrame_effects w s).toSend
  revert effects
  unfold buildFrame
  split
  · intro effects
    refine conditions_settled h effects ⟨attempt, queue, fun f offered => ?_, presence⟩ fun v hv => ?_
    · obtain rfl := Option.some.inj offered
      exact nofun
    · obtain rfl := Option.some.inj hv
      exact owned
  · intro effects
    refine conditions_settled h effects ⟨attempt, queue, fun f offered r hr => ?_, presence⟩ fun v hv => ?_
    · obtain rfl := Option.some.inj offered
      obtain ⟨k, hk, it, found, item, length⟩ := buildRecords_of_slots _ _ _ _ r hr
      obtain ⟨own, found', owner⟩ := owned k (List.mem_of_mem_take hk)
      obtain rfl : it = own := Option.some.inj (found.symm.trans found')
      exact ownRecord_of_slot ascending found owner item length
    · obtain rfl := Option.some.inj hv
      exact fun k hk => owned k (List.mem_of_mem_drop hk)

theorem presenceStep_conditions {s : State} (h : Conditions s) : Conditions (presenceStep s) := by
  obtain ⟨-, -, -, -, -, -, ⟨attempt, queue, offer, presence⟩, slot⟩ := (conditions_iff s).mp h
  refine conditions_settled h (presenceStep_effects s) ?_ (by rwa [presenceStep_only])
  unfold presenceStep
  split
  · refine ⟨attempt, queue, offer, fun f offered => ?_⟩
    obtain rfl := Option.some.inj offered
    rfl
  · exact ⟨attempt, queue, offer, presence⟩

theorem refreshStep_conditions {s : State} (ascending : Ascending s.imu.items) (h : Conditions s) : Conditions (refreshStep s) := by
  obtain ⟨-, truth, -, -, -, -, ⟨attempt, queue, offer, presence⟩, slot⟩ := (conditions_iff s).mp h
  refine conditions_settled h (refreshStep_effects s) ?_ (by rwa [refreshStep_only])
  unfold refreshStep
  split
  · split
    · exact ⟨attempt, queue, offer, presence⟩
    · refine ⟨attempt, fun g hg => ?_, offer, presence⟩
      rcases List.mem_append.mp hg with hg | hg
      · exact queue g hg
      · rw [List.mem_singleton.mp hg]
        exact refreshFrame_owned ascending truth
  · exact ⟨attempt, queue, offer, presence⟩

theorem idleExit_conditions {s : State} (h : Conditions s) : Conditions (idleExit s) := by
  rw [idleExit_eq]
  exact h

/-! ## The image -/

/-- A change of one item that keeps its plan fields and its truth keeps the conditions. -/
theorem updateItem_conditions {s : State} (h : Conditions s) {slot : Nat} {f : Item → Item} (plan : ∀ it, (f it).plan = it.plan)
    (truth : ∀ it, s.imu.items[slot]? = some it → ItemTrue (stationNumber s) it → ItemTrue (stationNumber s) (f it)) :
    Conditions (updateItem slot f s) := by
  obtain ⟨table, all, events, hand, frames, work, lau, todo⟩ := (conditions_iff s).mp h
  have plans := updateItem_plans (slot := slot) plan s
  have truth := updateItem_forall truth all
  obtain ⟨items, changes, e⟩ := updateItem_only slot f s
  rw [e] at plans truth ⊢
  exact conditions_of table rfl rfl plans truth events hand frames work lau todo

end Sys2Proof.Laws
end

section
/-! SUPPORT. The rules of the blocks for the conditions of items and the traffic, and the obligation on them (R9, R10, R11, R13, R107,
R130). -/

namespace Sys2Proof.Laws

open Sys2Proof.Machine

/-! ## With what they rest on -/

/-- What the conditions rest on: the phases of the plan, the peer table, and the image's rules. -/
def Grounds (s : State) : Prop := (PlanPhase s ∧ PeerRules s) ∧ ImageRules s

theorem grounds_rules : BlockRules Grounds := (planPhase_rules.and peer_rules).and image_rules

/-- The conditions together with what they rest on. -/
def Grounded (s : State) : Prop := Grounds s ∧ Conditions s

theorem Grounded.ascending {s : State} (h : Grounded s) : Ascending s.imu.items := by
  obtain ⟨⟨-, image⟩, -⟩ := h
  exact ((imageRules_iff s).mp image).1

theorem updateItem_grounded {s : State} (h : Grounded s) {slot : Nat} {f : Item → Item} (plan : ∀ it, (f it).plan = it.plan)
    (legal : ∀ it, ItemLegal (stationNumber s) it → ItemLegal (stationNumber s) (f it))
    (truth : ∀ it, s.imu.items[slot]? = some it → ItemTrue (stationNumber s) it → ItemTrue (stationNumber s) (f it)) :
    Grounded (updateItem slot f s) := by
  obtain ⟨⟨⟨phase, peers⟩, image⟩, conditions⟩ := h
  have image' := updateItem_imageRules (slot := slot) image plan legal
  have conditions' := updateItem_conditions conditions plan truth
  obtain ⟨items, changes, e⟩ := updateItem_only slot f s
  rw [e] at image' conditions' ⊢
  exact ⟨⟨⟨phase, peers⟩, image'⟩, conditions'⟩

theorem grounded_settling : SettlingRule Grounded where
  admitPresence s h := ⟨grounds_rules.settling.admitPresence s h.1, admitPresence_conditions h.2⟩
  admitReq s h := ⟨grounds_rules.settling.admitReq s h.1, admitReq_conditions h.2⟩
  build s w h slot builds := ⟨grounds_rules.settling.build s w h.1 slot builds, buildFrame_conditions h.ascending h.2 slot⟩
  close s status remaining lost frames h known := by
    refine ⟨grounds_rules.settling.close s status remaining lost frames h.1 known, ?_⟩
    obtain ⟨-, -, -, -, -, -, lau, -⟩ := (conditions_iff s).mp h.2
    exact conditions_settled h.2 (closeSlot_effects status remaining lost frames s).toSend lau nofun
  start s h noSlot check := by
    refine ⟨grounds_rules.settling.start s h.1 noSlot check, ?_⟩
    obtain ⟨-, -, -, -, -, -, lau, -⟩ := (conditions_iff s).mp h.2
    refine conditions_settled h.2 (slot_effects _ s).toSend lau fun w hw => ?_
    obtain rfl := Option.some.inj hw
    exact slotWork_owned check
  halt s w h slot := by
    refine ⟨grounds_rules.settling.halt s w h.1 slot, ?_⟩
    obtain ⟨-, -, -, -, -, -, lau, todo⟩ := (conditions_iff s).mp h.2
    refine conditions_settled h.2 (slot_effects _ s).toSend lau fun v hv => ?_
    obtain rfl := Option.some.inj hv
    exact todo w slot
  presence s h := ⟨grounds_rules.settling.presence s h.1, presenceStep_conditions h.2⟩
  refresh s h := ⟨grounds_rules.settling.refresh s h.1, refreshStep_conditions h.ascending h.2⟩
  leaveIdle s h := ⟨grounds_rules.settling.leaveIdle s h.1, idleExit_conditions h.2⟩

/-! ## Host, station and line -/

theorem clearClash_conditions {s : State} (h : Conditions s) :
    Conditions { s with imu.items := s.imu.items.map Item.clearClash } := by
  obtain ⟨table, truth, events, hand, frames, work, lau, slot⟩ := (conditions_iff s).mp h
  exact conditions_of table rfl rfl (by simp) (List.forall_mem_map.mpr truth) events hand frames work lau slot

theorem ownRecord_empty {s : State} (empty : s.imu.items = []) (r : Record) : ¬OwnRecord s r := by
  rintro ⟨slot, it, -, found, -⟩
  simp [empty] at found

/-- While the table is empty nothing is on its way that names an item. -/
theorem conditions_table {s : State} (image : ImageRules s) (h : Conditions s) (empty : s.imu.items = []) {t : State}
    (receives : receiving t = true) (straps : t.stc.straps = s.stc.straps)
    (imu : t.imu = { s.imu with items := t.imu.items }) (truth : ∀ it ∈ t.imu.items, ItemTrue (stationNumber s) it)
    (lrx : t.lrx.queue = s.lrx.queue) (lau : t.lau = s.lau) (slot : t.req.slot = s.req.slot) : Conditions t := by
  obtain ⟨-, -, events, hand, frames, work, sending, todo⟩ := (conditions_iff s).mp h
  obtain ⟨-, -, -, order⟩ := (imageRules_iff s).mp image
  have number : stationNumber t = stationNumber s := congrArg Straps.station straps
  have vacuous : ∀ r, OwnRecord s r → OwnRecord t r := fun r own => absurd own (ownRecord_empty empty r)
  have vacant : ∀ n slots, OwnedSlots s.imu.items n slots → slots = [] := fun n slots owned =>
    List.eq_nil_iff_forall_not_mem.mpr fun k hk => by
      obtain ⟨it, found, -⟩ := owned k hk
      simp [empty] at found
  rw [conditions_iff, number, receives, lrx, lau, slot]
  refine ⟨nofun, truth, by rwa [imu], fun w hw => ?_, frames.mono vacuous, by rw [imu]; exact work.mono vacuous, sending.mono vacuous,
    fun w hw => ?_⟩
  · have applying : s.imu.applying = some w := by rwa [imu] at hw
    obtain ⟨-, -, owned⟩ := hand w applying
    exact absurd (vacant _ _ owned) (order w applying).1
  · rw [vacant _ _ (todo w hw)]
    exact nofun

/-- A flush drops what waited to be sent. -/
theorem flushLau_conditions {s : State} (h : Conditions s) (before : List TxFrame) : Conditions (flushLau before s) := by
  obtain ⟨table, truth, events, hand, frames, work, -, slot⟩ := (conditions_iff s).mp h
  simp only [flushLau, tellAll_eq, countAbandoned_eq]
  refine conditions_of table rfl rfl rfl truth events hand frames work ⟨nofun, nofun, nofun, nofun⟩ (slot.sub rfl fun v hv => ?_)
  obtain ⟨w, hw, rfl⟩ := Option.map_eq_some_iff.mp hv
  exact ⟨w, hw, fun _ hk => hk⟩

theorem stopStation_conditions {s : State} (h : Conditions s) (receives : receiving s = true) (cause : MutedCause) :
    Conditions (stopStation cause s) := by
  obtain ⟨table, truth, events, hand, frames, work, lau, slot⟩ := (conditions_iff s).mp h
  exact conditions_of table receives.symm rfl rfl truth events hand frames work lau slot

theorem grounded_station : StationRule Grounded where
  clock s level h := by
    refine ⟨grounds_rules.station.clock s level h.1, ?_⟩
    obtain ⟨⟨⟨phase, -⟩, -⟩, conditions⟩ := h
    rcases clockPlan_cases s.stc level with ⟨same, -⟩ | ⟨read, reading, -⟩
    · rwa [same]
    · obtain ⟨table, truth, events, hand, frames, work, lau, slot⟩ := (conditions_iff s).mp conditions
      have loading := phase.1 (by simp [reading])
      have before : receiving s = false := by simp [receiving, loading]
      have after := clockPlan_keeps (P := fun stc => receiving { s with stc := stc } = false) (fun _ _ _ h => h)
        (fun _ _ _ _ _ h => h) (fun _ _ _ _ => rfl) (fun _ _ h => h) [level] (stc := s.stc) before
      obtain ⟨_, _, _, _, _, _, e⟩ := clockPlan_only [level] s.stc
      rw [List.foldl_cons, List.foldl_nil] at e
      exact conditions_of table (Eq.trans after before.symm) (by rw [e]) rfl truth events hand frames work lau slot
  planFailed s code entry h checking := by
    refine ⟨grounds_rules.station.planFailed s code entry h.1 checking, ?_⟩
    obtain ⟨⟨⟨phase, -⟩, -⟩, conditions⟩ := h
    obtain ⟨table, truth, events, hand, frames, work, lau, slot⟩ := (conditions_iff s).mp conditions
    exact conditions_of table (phase.2.1 checking).symm rfl rfl truth events hand frames work lau slot
  planGood s h checking good := by
    refine ⟨grounds_rules.station.planGood s h.1 checking good, ?_⟩
    obtain ⟨⟨⟨phase, -⟩, image⟩, conditions⟩ := h
    obtain ⟨table, -⟩ := (conditions_iff s).mp conditions
    exact conditions_table image conditions (table (phase.2.1 checking)) rfl rfl rfl
      (buildTable_forall good fun _ _ => newItem_true _) rfl rfl rfl
  active s h joining := by
    refine ⟨grounds_rules.station.active s h.1 joining, ?_⟩
    obtain ⟨table, truth, events, hand, frames, work, lau, slot⟩ := (conditions_iff s).mp h.2
    have entered : Conditions { s with stc.station := .active, stc.joinTimer := none } :=
      conditions_of table (receiving_of_station (.inl joining)).symm rfl rfl truth events hand frames work lau slot
    unfold startSending
    split
    · exact entered
    · refine presenceStep_conditions ?_
      exact entered
  mute s cause h station := ⟨grounds_rules.station.mute s cause h.1 station,
    flushLau_conditions (stopStation_conditions h.2 (receiving_of_station station) cause) []⟩

theorem conditions_receiver : ReceiverRule Conditions where
  queued s f h remote other _ _ := by
    obtain ⟨table, truth, events, hand, ⟨remotes, selves⟩, work, lau, slot⟩ := (conditions_iff s).mp h
    refine conditions_of table rfl rfl rfl truth events hand ⟨?_, ?_⟩ work lau slot
    · exact List.forall_mem_append.mpr ⟨remotes, by simpa [remote] using other⟩
    · exact List.forall_mem_append.mpr ⟨selves, by simp [remote]⟩

/-! ## The transmitter -/

theorem sentBody_records (s : State) (b : TxBody) : (sentBody s b).records = b.records := by
  cases b <;> rfl

/-- The end of an attempt leaves frames that waited before. -/
theorem conditions_attemptEnded {s t : State} {f : TxFrame} {rest : List TxFrame} (h : Conditions s)
    (queue : s.lau.queue = f :: rest) (stc : t.stc = s.stc) (imu : t.imu = s.imu)
    (lrx : FramesSound (OwnRecord s) (stationNumber s) t.lrx.queue)
    (lau : t.lau = { attemptEnded rest t.lau.transmitter s.lau with lastCompleted := t.lau.lastCompleted })
    (slot : ∀ v, t.req.slot = some v → ∃ w, s.req.slot = some w ∧ v.todo = w.todo) : Conditions t := by
  obtain ⟨table, truth, events, hand, -, work, ⟨-, queued, offer, presence⟩, todo⟩ := (conditions_iff s).mp h
  refine conditions_of table (by unfold receiving; rw [stc]) (by rw [stc]) (by rw [imu]) (by rwa [imu]) (by rwa [imu]) (by rwa [imu])
    lrx (by rwa [imu]) ?_ (todo.sub rfl fun v hv => ?_)
  · rw [lau]
    exact ⟨nofun, fun g hg => queued g (by rw [queue]; exact List.mem_cons_of_mem _ hg), offer, presence⟩
  · obtain ⟨w, hw, same⟩ := slot v hv
    exact ⟨w, hw, fun k hk => same ▸ hk⟩

/-- A frame that becomes self frame takes its records along. -/
theorem framesSound_self {s : State} {a : SentFrame} {n : Station} (h : FramesSound (OwnRecord s) n s.lrx.queue)
    (own : ∀ r ∈ a.body.records, OwnRecord s r) : FramesSound (OwnRecord s) n (s.lrx.queue ++ [a.asSelf]) :=
  ⟨List.forall_mem_append.mpr ⟨h.1, by simp [SentFrame.asSelf]⟩,
    List.forall_mem_append.mpr ⟨h.2, by simpa [SentFrame.asSelf] using own⟩⟩

theorem conditions_transmitter : TransmitterRule Conditions where
  begin s rest f others h _ queue _ := by
    obtain ⟨table, truth, events, hand, frames, work, ⟨-, queued, offer, presence⟩, slot⟩ := (conditions_iff s).mp h
    refine conditions_of table rfl rfl rfl truth events hand frames work ⟨fun a begun r hr => ?_, queued, offer, presence⟩ slot
    obtain rfl := Option.some.inj begun
    have records : (sentFrame s rest f).body.records = f.body.records := sentBody_records s f.body
    exact queued f (by simp [queue]) r (records ▸ hr)
  backoff s wait count h _ _ := by
    obtain ⟨table, truth, events, hand, frames, work, ⟨-, queued, offer, presence⟩, slot⟩ := (conditions_iff s).mp h
    exact conditions_of table rfl rfl rfl truth events hand frames work ⟨nofun, queued, offer, presence⟩ slot
  abandon s f rest count h _ queue := by
    obtain ⟨-, -, -, -, frames, -⟩ := (conditions_iff s).mp h
    rw [tellAbandoned_eq]
    refine conditions_attemptEnded h queue rfl rfl frames rfl fun v hv => ?_
    simp only at hv
    split at hv
    · obtain ⟨w, hw, rfl⟩ := Option.map_eq_some_iff.mp hv
      exact ⟨w, hw, rfl⟩
    · exact ⟨v, hv, rfl⟩
  complete s f rest a h _ queue attempt := by
    obtain ⟨-, -, -, -, frames, -, ⟨attempting, -⟩, -⟩ := (conditions_iff s).mp h
    obtain ⟨tsc, e⟩ := completionNotice_only
      { s with
        lau := { attemptEnded rest .idle s.lau with lastCompleted := some a.sequence },
        lrx.queue := s.lrx.queue ++ [a.asSelf] }
    rw [e, tellCompleted_eq]
    refine conditions_attemptEnded h queue rfl rfl (framesSound_self frames (attempting a attempt)) rfl fun v hv => ?_
    simp only at hv
    split at hv
    · obtain ⟨w, hw, rfl⟩ := Option.map_eq_some_iff.mp hv
      exact ⟨w, hw, rfl⟩
    · exact ⟨v, hv, rfl⟩
  trip s f rest h _ queue active := by
    obtain ⟨-, -, -, -, frames, -⟩ := (conditions_iff s).mp h
    have ended : Conditions { s with lau := attemptEnded rest .off s.lau } :=
      conditions_attemptEnded h queue rfl rfl frames rfl fun v hv => ⟨v, hv, rfl⟩
    exact flushLau_conditions (stopStation_conditions ended (receiving_of_station (.inr active)) .guard) [f]

/-! ## The image updater -/

theorem takesFrames_idle {s : State} (takes : takesFrames s = true) :
    s.imu.work = .free ∧ s.imu.applying = none ∧ s.imu.events = [] := by
  simp only [takesFrames, Bool.and_eq_true, beq_iff_eq, Option.isNone_iff_eq_none, List.isEmpty_iff] at takes
  exact ⟨takes.1.1.2, takes.1.2, takes.2⟩

theorem takesEvents_work {s : State} (takes : takesEvents s = true) : s.imu.work = .free ∨ ∃ f, s.imu.work = .notice f := by
  unfold takesEvents at takes
  cases work : s.imu.work <;> simp [work] at takes ⊢

/-- An event of another station waits: the conditions stay. -/
theorem conditions_events {s t : State} (h : Conditions s) (imu : t.imu = { s.imu with events := t.imu.events })
    (events : EventsSound (stationNumber s) t.imu.events) (stc : t.stc = s.stc) (lrx : t.lrx = s.lrx) (lau : t.lau = s.lau)
    (req : t.req = s.req) : Conditions t := by
  obtain ⟨table, truth, -, hand, frames, work, sending, slot⟩ := (conditions_iff s).mp h
  exact conditions_of table (by unfold receiving; rw [stc]) (by rw [stc]) (by rw [imu]) (by rwa [imu]) events (by rwa [imu])
    (by rwa [lrx]) (by rwa [imu]) (by rwa [lau]) (by rwa [req])

theorem losePeer_conditions {s : State} (peers : PeerRules s) (h : Conditions s) {n : Station}
    (present : (peerOf s n).state = .present) : Conditions (losePeer n s) := by
  obtain ⟨-, -, events, -⟩ := (conditions_iff s).mp h
  rw [losePeer_eq]
  refine conditions_events h rfl ?_ rfl rfl rfl rfl
  exact List.forall_mem_append.mpr ⟨events, by simpa using station_ne peers (by simp [present])⟩

theorem noticeFrame_conditions {s : State} (peers : PeerRules s) (h : Conditions s) (f : Frame) : Conditions (noticeFrame f s) := by
  obtain ⟨-, -, events, -⟩ := (conditions_iff s).mp h
  have others : EventsSound (stationNumber s) (noticeFrame f s).imu.events := by
    rcases noticeFrame_events f s with e | ⟨other, kind, -, e⟩ <;> rw [e]
    · exact events
    · exact List.forall_mem_append.mpr ⟨events, by simpa using station_ne peers other⟩
  obtain ⟨_, _, _, _, e⟩ := noticeFrame_only f s
  rw [e] at others ⊢
  exact conditions_events h rfl others rfl rfl rfl rfl

theorem FramesSound.tail {own : Record → Prop} {n : Station} {f : Frame} {rest : List Frame} (h : FramesSound own n (f :: rest)) :
    FramesSound own n rest :=
  ⟨fun g hg => h.1 g (List.mem_cons_of_mem _ hg), fun g hg => h.2 g (List.mem_cons_of_mem _ hg)⟩

/-- The frames left by one taken off are sound, and another work item may be in hand that is. -/
theorem conditions_taken {s : State} (h : Conditions s) {f : Frame} {rest : List Frame} (queue : s.lrx.queue = f :: rest) (work : Work)
    (sound : WorkSound (OwnRecord s) (stationNumber s) work) (applying : s.imu.applying = none) :
    Conditions { s with lrx.queue := rest, imu.work := work } := by
  obtain ⟨table, truth, events, hand, frames, -, lau, slot⟩ := (conditions_iff s).mp h
  rw [queue] at frames
  exact conditions_of table rfl rfl rfl truth events (fun w hw => by simp [applying] at hw) frames.tail sound lau slot

/-- Another work item in hand that is sound. -/
theorem conditions_work {s : State} (h : Conditions s) {work : Work} {heldGate : Vector (Option Byte) 4}
    (sound : WorkSound (OwnRecord s) (stationNumber s) work) (free : s.imu.applying = none ∨ work = .free) :
    Conditions { s with imu.work := work, imu.heldGate := heldGate } := by
  obtain ⟨table, truth, events, hand, frames, -, lau, slot⟩ := (conditions_iff s).mp h
  refine conditions_of table rfl rfl rfl truth events (fun w hw => ?_) frames sound lau slot
  obtain ⟨other, -, owned⟩ := hand w hw
  refine ⟨other, ?_, owned⟩
  rcases free with none | free
  · simp [none] at hw
  · exact .inl free

/-- While records are in hand no owner event is. -/
theorem applying_none {s : State} (h : Conditions s) (busy : s.imu.work ≠ .free) (past : ∀ f, s.imu.work ≠ .notice f) :
    s.imu.applying = none := by
  obtain ⟨-, -, -, hand, -⟩ := (conditions_iff s).mp h
  cases applying : s.imu.applying with
  | none => rfl
  | some w =>
    obtain ⟨-, free | ⟨f, notice⟩, -⟩ := hand w applying
    · exact absurd free busy
    · exact absurd notice (past f)

/-- The event that is taken next is another station's, over items of that station. -/
theorem nextEvent_sound {s : State} (h : Conditions s) {w : EventWork} {rest : List OwnerEvent} (next : nextEvent s = some (w, rest)) :
    w.event.station ≠ stationNumber s ∧ OwnedSlots s.imu.items w.event.station w.todo := by
  obtain ⟨-, -, events, hand, -⟩ := (conditions_iff s).mp h
  unfold nextEvent at next
  split at next
  · next applying =>
    cases next
    obtain ⟨other, -, owned⟩ := hand w applying
    exact ⟨other, owned⟩
  · split at next
    · cases next
    · next e _ list =>
      cases next
      exact ⟨events e (by simp [list]), fun k hk => mem_ownerSlots.mp hk⟩

theorem event_conditions {s : State} (h : Conditions s) {w : EventWork} {rest : List OwnerEvent} (next : nextEvent s = some (w, rest))
    (takes : takesEvents s = true) (n : Nat) :
    Conditions { applyEvent w.event (w.todo.take n) { s with imu.events := rest } with
      imu.applying := if w.todo.length ≤ n then none else some { w with todo := w.todo.drop n } } := by
  obtain ⟨other, owned⟩ := nextEvent_sound h next
  have before : Conditions { s with imu.events := rest } := by
    obtain ⟨-, -, events, -⟩ := (conditions_iff s).mp h
    exact conditions_events h rfl (fun e he => events e ((nextEvent_rest next).mem he)) rfl rfl rfl rfl
  have applied : Conditions (applyEvent w.event (w.todo.take n) { s with imu.events := rest }) :=
    applyEvent_keeps (P := Conditions) (fun _ slot h => updateItem_conditions h (takeEvent_plan _) fun _ _ truth => takeEvent_true truth _) _ before
  have plans : (applyEvent w.event (w.todo.take n) { s with imu.events := rest }).imu.items.map Item.plan =
      s.imu.items.map Item.plan :=
    applyEvent_keeps (P := fun u => u.imu.items.map Item.plan = s.imu.items.map Item.plan)
      (fun u slot same => (updateItem_plans (takeEvent_plan _) u).trans same) _ rfl
  obtain ⟨items, changes, e, -⟩ := applyEvent_only w.event (w.todo.take n) { s with imu.events := rest }
  rw [e] at applied plans ⊢
  obtain ⟨table, truth, events, -, frames, work, lau, slot⟩ := (conditions_iff _).mp applied
  refine conditions_of table rfl rfl rfl truth events (fun v hv => ?_) frames work lau slot
  simp only at hv
  split at hv
  · cases hv
  · obtain rfl := Option.some.inj hv
    refine ⟨other, takesEvents_work takes, fun k hk => ?_⟩
    exact ownedSlots_plans plans owned k (List.mem_of_mem_drop hk)

theorem grounded_updater : UpdaterRule Grounded where
  notice s expiring f rest h takes queue remote := by
    refine ⟨grounds_rules.updater.notice s expiring f rest h.1 takes queue remote, ?_⟩
    obtain ⟨⟨⟨-, peers⟩, -⟩, conditions⟩ := h
    obtain ⟨-, applying, -⟩ := takesFrames_idle takes
    obtain ⟨-, -, -, -, ⟨remotes, -⟩, -⟩ := (conditions_iff s).mp conditions
    have taken : Conditions { s with lrx.queue := rest, imu.work := .notice f } :=
      conditions_taken conditions queue _ ⟨fun m hm => by
        obtain rfl := Option.some.inj hm
        exact remotes f (by simp [queue]) remote, nofun⟩ applying
    have expired : PeerRules (expireAll expiring { s with lrx.queue := rest, imu.work := .notice f }) ∧
        Conditions (expireAll expiring { s with lrx.queue := rest, imu.work := .notice f }) :=
      expireAll_keeps (P := fun u => PeerRules u ∧ Conditions u)
        (fun _ _ present _ h => ⟨losePeer_peerRules h.1 present, losePeer_conditions h.1 h.2 present⟩) expiring ⟨peers, taken⟩
    exact noticeFrame_conditions expired.1 expired.2 f
  lose s n h expires := by
    refine ⟨grounds_rules.updater.lose s n h.1 expires, ?_⟩
    obtain ⟨⟨⟨-, peers⟩, -⟩, conditions⟩ := h
    exact losePeer_conditions peers conditions ((lostTimerExpires_iff n s).mp expires).1
  selfTaken s f rest h takes queue own := by
    refine ⟨grounds_rules.updater.selfTaken s f rest h.1 takes queue own, ?_⟩
    obtain ⟨-, applying, -⟩ := takesFrames_idle takes
    obtain ⟨-, -, -, -, ⟨-, selves⟩, -⟩ := (conditions_iff s).mp h.2
    exact conditions_taken h.2 queue _ ⟨nofun, selves f (by simp [queue]) own⟩ applying
  dequeued s f rest h queue := by
    refine ⟨grounds_rules.updater.dequeued s f rest h.1 queue, ?_⟩
    obtain ⟨table, truth, events, hand, frames, work, lau, slot⟩ := (conditions_iff s).mp h.2
    rw [queue] at frames
    exact conditions_of table rfl rfl rfl truth events hand frames.tail work lau slot
  recordsBegin s f h notice applying := by
    refine ⟨grounds_rules.updater.recordsBegin s f h.1 notice applying, ?_⟩
    obtain ⟨-, -, -, -, -, ⟨sender, -⟩, -⟩ := (conditions_iff s).mp h.2
    exact conditions_work (heldGate := s.imu.heldGate) h.2 ⟨fun m hm => sender m (by rwa [notice]), nofun⟩ (.inl applying)
  gateBegin s mark g q h applying :=
    ⟨grounds_rules.updater.gateBegin s mark g q h.1 applying, conditions_work h.2 ⟨nofun, nofun⟩ (.inl applying)⟩
  free s h := ⟨grounds_rules.updater.free s h.1, conditions_work (heldGate := s.imu.heldGate) h.2 ⟨nofun, nofun⟩ (.inr rfl)⟩
  event s n w rest h next takes := ⟨grounds_rules.updater.event s n w rest h.1 next takes, event_conditions h.2 next takes n⟩
  remoteRecord s sender r rest h work := by
    have other : sender ≠ stationNumber s := by
      obtain ⟨-, -, -, -, -, ⟨sender, -⟩, -⟩ := (conditions_iff s).mp h.2
      exact sender _ (by rw [work]; rfl)
    refine applyRemoteRecord_keeps grounded_settling
      (takeSample_ignored grounded_settling fun _ _ h => h)
      (fun u it slot h imu stc found own => ?_) (fun u it stream slot h imu stc found length owner => ?_)
      (fun u it slot h imu stc found => ?_) h
    · exact updateItem_grounded h markClash_plan (fun _ => markClash_legal) fun _ _ truth => truth
    · refine updateItem_grounded h (accept_plan r _) (fun _ legal => accept_legal legal r _) fun it' found' truth => ?_
      obtain rfl : it = it' := Option.some.inj (found.symm.trans found')
      have number : stationNumber u = stationNumber s := by unfold stationNumber; rw [stc]
      exact accept_true truth (by rw [← owner, number]; exact other) length _
    · exact updateItem_grounded h duplicate_plan (fun _ => duplicate_legal) fun _ _ => duplicate_true
  selfRecord s r rest h work := by
    obtain ⟨-, -, -, -, -, ⟨-, own⟩, -⟩ := (conditions_iff s).mp h.2
    obtain ⟨k, it, slot, found, owner, length⟩ := own r (by rw [work]; exact List.mem_cons_self)
    unfold applySelfRecord
    simp only [slot]
    refine updateItem_grounded h (takeSelf_plan r) (fun _ legal => takeSelf_legal legal r) fun it' found' truth => ?_
    obtain rfl : it = it' := Option.some.inj (found.symm.trans found')
    exact takeSelf_true truth owner length
  nextRemote s sender r rest h work := by
    refine ⟨grounds_rules.updater.nextRemote s sender r rest h.1 work, ?_⟩
    obtain ⟨-, -, -, -, -, ⟨other, -⟩, -⟩ := (conditions_iff s).mp h.2
    exact conditions_work (heldGate := s.imu.heldGate) h.2 ⟨fun m hm => other m (by rwa [work]), nofun⟩
      (.inl (applying_none h.2 (by simp [work]) (by simp [work])))
  nextSelf s r rest h work := by
    refine ⟨grounds_rules.updater.nextSelf s r rest h.1 work, ?_⟩
    obtain ⟨-, -, -, -, -, ⟨-, own⟩, -⟩ := (conditions_iff s).mp h.2
    exact conditions_work (heldGate := s.imu.heldGate) h.2
      ⟨nofun, fun r' hr => own r' (by rw [work]; exact List.mem_cons_of_mem _ hr)⟩
      (.inl (applying_none h.2 (by simp [work]) (by simp [work])))
  gateStep s mark g slot h _ _ := updateItem_grounded h moveGate_plan (fun _ => moveGate_legal) fun _ _ => moveGate_true

/-! ## The obligation -/

theorem grounded_rules : BlockRules Grounded where
  settling := grounded_settling
  access := grounds_rules.access.and { clashesCleared := fun _ => clearClash_conditions }
  station := grounded_station
  receiver := grounds_rules.receiver.and conditions_receiver
  transmitter := grounds_rules.transmitter.and conditions_transmitter
  updater := grounded_updater
  timer := {}

theorem resetBlocks_conditions (straps : Straps) (cause : ResetCause) (inReset : Bool) (s : State) :
    Conditions (resetBlocks straps cause inReset s) :=
  (conditions_iff _).mpr ⟨fun _ => rfl, nofun, nofun, nofun, ⟨nofun, nofun⟩, ⟨nofun, nofun⟩, ⟨nofun, nofun, nofun, nofun⟩, nofun⟩

/-- Settles O60: an item's condition follows the value it takes and the event that names its owner, and a frame's records stay own ones
from the slot in progress to the updater. -/
theorem stepKeepsItemConditions : Obligations.StepKeepsItemConditions := fun _ _ phase peers image h hs =>
  (step_keeps grounded_rules {} (fun _ _ h => h)
    (fun s straps cause inReset _ =>
      ⟨⟨⟨resetBlocks_planPhase straps cause inReset s, resetBlocks_peerRules straps cause inReset s⟩,
        resetBlocks_imageRules straps cause inReset s⟩, resetBlocks_conditions straps cause inReset s⟩)
    (fun _ _ h => h) (fun _ h => ⟨⟨⟨h.1.1.1, idleTick_peerRules h.1.1.2⟩, h.1.2⟩, h.2⟩) ⟨⟨⟨phase, peers⟩, image⟩, h⟩ hs).2

end Sys2Proof.Laws
end

section
/-! SUPPORT. The step on the queue of commands, the resets, the accesses while one is in progress, and the obligations on them (R149, R150,
R164); the rules at the model's reset state. -/

namespace Sys2Proof.Laws

open Sys2Proof.Machine

/-! ## The step -/

/-- Settles O1: the step takes the first command of a queue that has one. -/
theorem stepRunsFrontCommand : Obligations.StepRunsFrontCommand := fun _ _ _ => rfl

theorem step_idle {s : State} (empty : s.pending = []) (unnoticed : s.stc.clashNotice = false) : step s = .next (idleTick s) := by
  simp [step, empty, idleStep, unnoticed]

/-- Settles O2: with no command and no clash notice the step is a tick of the timers. -/
theorem idleStepPassesOneMillisecond : Obligations.IdleStepPassesOneMillisecond := by
  intro s empty unnoticed
  refine ⟨idleTick s, step_idle empty unnoticed, rfl, rfl, peerOf_idleTick s, rfl, ?_, ?_, ?_, ?_⟩
  · intro left running
    simp [idleTick, running, Timer.tick]
  · rintro (still | still) <;> simp [idleTick, still, Timer.tick]
  · intro left running
    simp [idleTick, running, Timer.tick]
  · rintro (still | still) <;> simp [idleTick, still, Timer.tick]

/-! ## Accesses during a reset -/

theorem hostWrite_inReset {s : State} (inReset : s.stc.inReset = true) (op : State → State) : hostWrite op s = s := by
  simp [hostWrite, inReset]

theorem hostRead_inReset {s : State} (inReset : s.stc.inReset = true) (free : s.hpt.held = none) (op : State → State) :
    hostRead op s = { s with hpt.readData := 0 } := by
  simp [hostRead, inReset, free]

/-- Every host write goes through the port. -/
theorem exec_isHostWrite {c : Instr} (write : isHostWrite c = true) (s : State) : ∃ op, exec c s = .next (hostWrite op s) := by
  cases c with
  | softReset | runSet | runClear | start | kick | sampleTake | flagsClear | planWindowWrite | hostRegisterWrite => exact ⟨_, rfl⟩
  | _ => cases write

/-- Every host read goes through the port. -/
theorem exec_isHostRead {c : Instr} (read : isHostRead c = true) (s : State) : ∃ op, exec c s = .next (hostRead op s) := by
  cases c with
  | nextChange | itemViewWord0Read | counterRead => exact ⟨_, rfl⟩
  | _ => cases read

/-- Settles O5: the port answers reads with 0 and ignores writes. -/
theorem hostAccessesDuringReset : Obligations.HostAccessesDuringReset := by
  intro s inReset free
  refine ⟨fun a => by simp [windowWord, inReset], fun c read => ?_, fun c write => ?_⟩
  · obtain ⟨op, e⟩ := exec_isHostRead read s
    rw [e, hostRead_inReset inReset free]
  · obtain ⟨op, e⟩ := exec_isHostWrite write s
    rw [e, hostWrite_inReset inReset]

/-! ## Resets -/

/-- The state after a reset is at the reset values. -/
theorem resetBlocks_values (straps : Straps) (cause : ResetCause) (inReset : Bool) (s : State) :
    AtResetValues straps.station (resetBlocks straps cause inReset s) :=
  ⟨rfl, rfl, rfl, rfl, fun n => resetPeers_get straps.station n, rfl, rfl, rfl, rfl, rfl, rfl, rfl, rfl, rfl, rfl, rfl, rfl, rfl, rfl, rfl,
    rfl, rfl, rfl, rfl, rfl⟩

/-- The word that a read returns is none of the reset values. -/
theorem AtResetValues_readData {station : Station} {s : State} (h : AtResetValues station s) (data : Word) :
    AtResetValues station { s with hpt.readData := data } := h

theorem nextEvent_none {s : State} (applying : s.imu.applying = none) (events : s.imu.events = []) : nextEvent s = none := by
  simp [nextEvent, applying, events]

/-- With no event in hand and none waiting, no owner event is taken. -/
theorem takeEvent_none {s : State} (applying : s.imu.applying = none) (events : s.imu.events = []) (kind : OwnerEventKind)
    (steps : Option Nat) : takeEvent kind steps s = s := by
  simp [takeEvent, nextEvent_none applying events]

theorem expireLost_absent {s : State} {n : Station} (absent : (peerOf s n).state ≠ .present) : expireLost n s = s := by
  rcases expireLost_cases n s with ⟨-, present, -⟩ | e
  · exact absurd present absent
  · exact e

/-- At the reset values and with the plan memory port at rest, no command but a host access finds anything to do. -/
theorem exec_atReset {station : Station} {s : State} (h : AtResetValues station s) (unread : s.stc.planRead = none) {c : Instr}
    (noReset : isReset c = false) (noWrite : isHostWrite c = false) (noRead : isHostRead c = false) : exec c s = .next s := by
  obtain ⟨assembly, frames, lau, imu, peers, -, tsc, -, -, -, -, -, -, timer, unchecked, -, -, -, -, -, -, -, -, -, free⟩ := h
  have transmitter : s.lau.transmitter = .off := by rw [lau]; rfl
  have work : s.imu.work = .free := by rw [imu]; rfl
  have noEvent : ∀ kind steps, takeEvent kind steps s = s := takeEvent_none (by rw [imu]; rfl) (by rw [imu]; rfl)
  have presence : s.tsc.presenceTimer = .stopped := by rw [tsc]; rfl
  have refresh : s.tsc.refreshTimer = .stopped := by rw [tsc]; rfl
  cases c with
  | heldAccessServed => simp [exec, execHeldAccessServed, free]
  | planReadEnd levels => simp [exec, execPlanReadEnd, clockPlan_none unread]
  | planCheckEnd => simp [exec, execPlanCheckEnd, unchecked]
  | joinTimerExpiry => simp [exec, execJoinTimerExpiry, timer]
  | lineBusy | lineQuiet | startPatternFound | frameEnd =>
    simp [exec, execLineBusy, execLineQuiet, execStartPatternFound, execFrameEnd, assembly]
  | gapEnd | collision | backoffEnd | attemptComplete | guardExpiry =>
    simp [exec, execGapEnd, execCollision, execBackoffEnd, execAttemptComplete, execGuardExpiry, transmitter]
  | imuTakeFrame | selfFrameTake => simp [exec, execImuTakeFrame, execSelfFrameTake, frames]
  | lostTimerExpiry n =>
    refine congrArg Host.Outcome.next (expireLost_absent (s := s) (n := n) ?_)
    rw [peers n]
    split <;> simp [Peer.selfEntry, Peer.absentEntry]
  | ownerRejoined | ownerDoubtful | ownerLost => exact congrArg Host.Outcome.next (noEvent _ _)
  | remoteRecord | selfRecord | gateItemStep | gateApplicationEnd =>
    simp [exec, execRemoteRecord, execSelfRecord, execGateItemStep, execGateApplicationEnd, work]
  | presenceTimerExpiry => simp [exec, execPresenceTimerExpiry, presence, Timer.isRunning]
  | refreshTimerExpiry => simp [exec, execRefreshTimerExpiry, refresh, Timer.isRunning]
  | powerOnReset | pinReset | resetEnd | softReset => cases noReset
  | nextChange | itemViewWord0Read | counterRead => cases noRead
  | _ => cases noWrite

/-- Settles O4: a reset leaves the reset values, and until its end the port is shut and nothing else finds anything to do. -/
theorem resetsLeaveStartValues : Obligations.ResetsLeaveStartValues := by
  intro s
  refine ⟨⟨_, rfl, rfl, rfl, rfl, resetBlocks_values _ _ _ s⟩, ⟨_, rfl, rfl, rfl, rfl, resetBlocks_values _ _ _ s⟩,
    fun inReset unread station values c noReset => ?_, fun inReset straps => ?_, fun port => ?_⟩
  · have free : s.hpt.held = none := by
      obtain ⟨-, -, -, -, -, -, -, -, -, -, -, -, -, -, -, -, -, -, -, -, -, -, -, -, free⟩ := values
      exact free
    by_cases write : isHostWrite c = true
    · obtain ⟨op, e⟩ := exec_isHostWrite write s
      exact ⟨s, by rw [e, hostWrite_inReset inReset], rfl, inReset, values⟩
    by_cases read : isHostRead c = true
    · obtain ⟨op, e⟩ := exec_isHostRead read s
      exact ⟨{ s with hpt.readData := 0 }, by rw [e, hostRead_inReset inReset free], rfl, inReset, AtResetValues_readData values 0⟩
    · exact ⟨s, exec_atReset values unread noReset (by simpa using write) (by simpa using read), rfl, inReset, values⟩
  · refine ⟨resetBlocks straps s.stc.cause false s, ?_, rfl, rfl, rfl, resetBlocks_values _ _ _ s, ?_, ?_⟩
    · simp [exec, execResetEnd, inReset]
    · cases mode : straps.startMode <;> simp [resetBlocks, stateAfterReset, mode]
    · simp [resetBlocks, PlanRead.start]
  · refine ⟨softReset s, ?_, rfl, rfl, rfl, resetBlocks_values _ _ _ s, ?_, ?_⟩
    · exact congrArg Host.Outcome.next (hostWrite_free port softReset)
    · cases mode : s.stc.straps.startMode <;> simp [softReset, resetBlocks, stateAfterReset, mode]
    · simp [softReset, resetBlocks, PlanRead.start]

/-! ## The rules at reset -/

/-- The state that the model starts from is one that a power-on reset with its straps has left. -/
theorem reset_eq_resetBlocks : State.reset = resetBlocks State.reset.stc.straps .power false State.reset := rfl

/-- Settles O54: the state that the model starts from is one after a reset, which leaves every rule. -/
theorem invariantsHoldAtReset : Obligations.InvariantsHoldAtReset := by
  have sound : Sound State.reset := by
    rw [reset_eq_resetBlocks]
    exact resetBlocks_sound _ _ _ _
  have peers : PeerRules State.reset := by
    rw [reset_eq_resetBlocks]
    exact resetBlocks_peerRules _ _ _ _
  have image : ImageRules State.reset := by
    rw [reset_eq_resetBlocks]
    exact resetBlocks_imageRules _ _ _ _
  have conditions : Conditions State.reset := by
    rw [reset_eq_resetBlocks]
    exact resetBlocks_conditions _ _ _ _
  obtain ⟨phase, sending, queue⟩ := sound
  exact ⟨⟨rfl, rfl, rfl, rfl⟩, Nat.zero_le _, phase, queue, sending, ⟨nofun, nofun, rfl, rfl⟩, peers,
    ⟨nofun, List.nodup_nil, Nat.zero_le _⟩, image, conditions⟩

end Sys2Proof.Laws
end

section
/-! SUPPORT. The counters, the plan window and START, the records built, RUN set and cleared, a GATE request, and the obligations on them
(R101 to R113, R117, R153, R158, R173). -/

namespace Sys2Proof.Laws

open Sys2Proof.Machine

/-! ## Counters (R173) -/

theorem exec_counterRead {s : State} (port : portFree s) (n : CounterName) : exec (.counterRead n) s = .next (readCounter n s) :=
  congrArg Host.Outcome.next (hostRead_free port _)

theorem counterWord_overflow (c : Counter) : c.word.getLsbD 15 = c.overflow := by
  cases overflow : c.overflow <;> simp [Counter.word, placeBit, place, overflow]

theorem counterWord_count (c : Counter) : c.word.setWidth 15 = c.count := by
  cases overflow : c.overflow <;> simp [Counter.word, placeBit, place, overflow]

theorem increment_count (c : Counter) : c.increment.count.toNat = if c.count.toNat = 32767 then 0 else c.count.toNat + 1 := by
  have bound := c.count.isLt
  rw [Counter.increment, BitVec.toNat_add]
  split
  · next full => simp [full]
  · next room => exact Nat.mod_eq_of_lt (by simp; omega)

theorem increment_overflow (c : Counter) : c.increment.overflow = (c.overflow || decide (c.count.toNat = 32767)) := by
  have full : (c.count == BitVec.allOnes 15) = decide (c.count.toNat = 32767) := by
    rw [Bool.eq_iff_iff, beq_iff_eq, decide_eq_true_iff, ← BitVec.toNat_inj]
    rfl
  rw [Counter.increment, full]

/-- Settles O19: a read takes the counter's word and sets the counter to zero, an increment counts one more or overflows. -/
theorem countersReadAndCount : Obligations.CountersReadAndCount := by
  intro s n
  refine ⟨fun port => ?_, ?_, ?_, fun m other => ?_⟩
  · exact ⟨_, exec_counterRead port n, rfl, counterWord_overflow _, counterWord_count _, get_set_same _ _ n,
      fun m other => get_set_other _ _ other⟩
  · rw [countUp_hpt, get_set_same]
    exact increment_count _
  · rw [countUp_hpt, get_set_same]
    exact increment_overflow _
  · rw [countUp_hpt]
    exact get_set_other _ _ other

/-! ## The plan window and START (R153, R158) -/

theorem exec_planWindowWrite {s : State} (port : portFree s) (k : Fin 1032) (v : Word) :
    exec (.planWindowWrite k v) s = .next (writePlanWindow k v s) := congrArg Host.Outcome.next (hostWrite_free port _)

theorem storePlanWord_open {s : State} (station : s.stc.station = .planWait ∨ s.stc.station = .planFault) (k : Fin 1032) (v : Word) :
    storePlanWord k v s = { s with stc.window := s.stc.window.write k.val v } := by
  rcases station with station | station <;> simp [storePlanWord, station]

theorem storePlanWord_shut {s : State} (wait : s.stc.station ≠ .planWait) (fault : s.stc.station ≠ .planFault) (k : Fin 1032)
    (v : Word) : storePlanWord k v s = s := by
  unfold storePlanWord
  split
  · next station => exact absurd station wait
  · next station => exact absurd station fault
  all_goals rfl

theorem accessHeld_planWrite (s : State) (k : Fin 1032) (v : Word) :
    accessHeld s (.planWrite k v) = true ↔ s.stc.checking = true ∧ (s.stc.station = .planWait ∨ s.stc.station = .planFault) := by
  simp [accessHeld]

theorem writePlanWindow_stored {s : State} (unheld : ¬accessHeld s (.planWrite k v) = true) :
    writePlanWindow k v s = storePlanWord k v s := if_neg unheld

theorem writePlanWindow_held {s : State} (held : accessHeld s (.planWrite k v) = true) :
    writePlanWindow k v s = holdAccess (.planWrite k v) s := if_pos held

/-- Settles O21: the write is stored, held by a check in flight, or ignored, and START taken or ignored, by the station state. -/
theorem planWindowWriteAndStart : Obligations.PlanWindowWriteAndStart := by
  intro s k v port
  rw [exec_planWindowWrite port, exec_start port]
  refine ⟨fun station unchecked => ?_, fun station checking => ?_, fun wait fault => ?_⟩
  · rw [writePlanWindow_stored (by simp [accessHeld_planWrite, unchecked]), storePlanWord_open station,
      startCheck_taken ⟨station, unchecked⟩]
    exact ⟨rfl, rfl⟩
  · rw [writePlanWindow_held ((accessHeld_planWrite s k v).mpr ⟨checking, station⟩),
      startCheck_ignored (by simp [takesStart, checking])]
    exact ⟨rfl, rfl⟩
  · rw [writePlanWindow_stored (by simp [accessHeld_planWrite, wait, fault]), storePlanWord_shut wait fault,
      startCheck_ignored (by simp [takesStart, wait, fault])]
    exact ⟨rfl, rfl⟩

/-! ## Records built (R111) -/

theorem buildRecords_cons {items : List Item} {k : Nat} {it : Item} (found : items[k]? = some it) (staging : WordStore)
    (rest : List Nat) (offset : Nat) :
    buildRecords staging (k :: rest) items offset =
      (buildRecord staging offset it :: (buildRecords staging rest (items.set k it.issue) (offset + it.plan.length)).1,
        (buildRecords staging rest (items.set k it.issue) (offset + it.plan.length)).2) := by
  rw [buildRecords, found]

theorem issue_eq {it : Item} {o : OwnedFields} (owned : it.owned = some o) :
    it.issue = { it with owned := some { o with lastIssued := o.lastIssued + 1 } } := by
  simp [Item.issue, owned]

/-- Settles O12: the first slot's record is built, and the rest over the table with its version issued. -/
theorem builtRecordsTakeVersionAndStaging : Obligations.BuiltRecordsTakeVersionAndStaging := by
  intro staging k rest items offset it o found owned
  refine ⟨_, _, _, _, buildRecords_cons found staging rest offset, ?_, rfl, ?_, by simp [buildRecord], fun j hj => ?_⟩
  · rw [issue_eq owned]
  · simp [buildRecord, Item.nextVersion, owned]
  · simp [buildRecord, hj]

/-! ## RUN (R103, R117) -/

theorem examines_iff (s : State) : examines s = true ↔ s.stc.station = .active ∨ s.stc.station = .muted := by
  simp [examines]

theorem clearRun_settled {s : State} (running : s.req.process = .running) : TransmitterSettled s.lau.transmitter (clearRun s) := by
  rw [clearRun_running running]
  exact runRequests_settled _

/-- A slot that waits for outcomes with no frame to build keeps the process where it is. -/
theorem pump_waits {s : State} {w : SlotWork} (slot : s.req.slot = some w) (halted : w.halted = true) (n : Nat) :
    pump (n + 1) s = arbiter s :=
  pump_rests (w := w) (by rw [arbiter_req, slot]) (by simp [buildsNow, halted]) n

/-- A halted slot with outcomes to come stays in progress, and nothing is built (R117). -/
theorem runRequests_halted {s : State} {w : SlotWork} (slot : s.req.slot = some w) (halted : w.halted = true)
    (outstanding : w.outstanding ≠ 0) : (runRequests s).req = s.req ∧ (runRequests s).imu = s.imu := by
  have pumped : pump 8 s = arbiter s := pump_waits slot halted 7
  have waits : reqRun 40 s = arbiter s := by
    rw [reqRun_waits slot (w' := w) (by rw [pumped, arbiter_req, slot]) (by simp [closable, outstanding]) 39, pumped]
  have run : runRequests s = idleExit (arbiter s) := by rw [← waits]; rfl
  rw [run]
  exact ⟨by simp, by simp⟩

/-- Settles O7: a setting of RUN examines, or waits for a slot's outcomes; a clearing halts the slot in progress. -/
theorem runSetAndClear : Obligations.RunSetAndClear := by
  intro s
  refine ⟨examines_iff s, fun port => ?_⟩
  have set : exec .runSet s = .next (setRun s) := exec_runSet port
  have clear : exec .runClear s = .next (clearRun s) := exec_runClear port
  refine ⟨?_, fun running => by rw [set, setRun_running running], fun rests noSlot unexamined => by rw [set,
      setRun_unexamined noSlot unexamined], fun rests noSlot examining host => ?_, fun rests w slot halted outstanding => ?_,
    fun stopped => by rw [clear, clearRun_stopped stopped], fun suspended => by rw [clear, clearRun_suspended suspended],
    fun running noSlot => ?_, fun running w slot outstanding => ?_⟩
  · rintro c t (rfl | rfl | rfl) he
    · obtain rfl := Host.Outcome.next.inj (set.symm.trans he)
      exact setRun_effects_always s
    · obtain rfl := Host.Outcome.next.inj (clear.symm.trans he)
      exact clearRun_effects s
    · obtain rfl := Host.Outcome.next.inj ((exec_kick port).symm.trans he)
      unfold kickProcess
      split
      · exact (process_effects .running s).trans (runRequests_effects _)
      · exact .refl s
  · obtain ⟨req, idle⟩ := examined_hostOwned (setRun_examined rests noSlot examining) host
    exact ⟨_, set, req, idle, setRun_effects rests, setRun_settled rests⟩
  · refine ⟨_, set, ?_, setRun_effects rests, setRun_settled rests⟩
    rw [setRun_starts rests]
    exact (runRequests_halted (s := { s with req.process := .running }) slot halted outstanding).1
  · refine ⟨_, clear, ?_, clearRun_effects s, clearRun_settled running⟩
    rw [clearRun_running running, noSlot, Option.map_none, runRequests_rests rfl (by simp), ← noSlot]
  · obtain ⟨req, imu⟩ := runRequests_halted
      (s := { s with req.process := .stopped, req.slot := some { w with halted := true } }) rfl rfl outstanding
    have run : clearRun s = runRequests { s with req.process := .stopped, req.slot := some { w with halted := true } } := by
      rw [clearRun_running running, slot, Option.map_some]
    exact ⟨_, clear, by rw [run, req], by rw [run, imu], clearRun_effects s, clearRun_settled running⟩

/-! ## A request worked (R104, R110, R113) -/

/-- A setting of RUN at a valid slot that may be sent works it. -/
theorem setRun_works {s : State} (active : s.stc.station = .active) (sends : s.stc.straps.listen = false) (noSlot : s.req.slot = none)
    (rests : s.req.process ≠ .running) (owned : (cursorCopy s).stationOwned = true) (valid : slotCheck s (cursorCopy s) = none) :
    setRun s = idleExit (reqRun 39 { s with req.process := .running, req.slot := some (slotWork s (cursorCopy s)) }) := by
  have started : examineSlot { s with req.process := .running } =
      { s with req.process := .running, req.slot := some (slotWork s (cursorCopy s)) } :=
    examineSlot_works (s := { s with req.process := .running }) owned valid (by simp [active, sends])
  rw [setRun_starts rests, ← started]
  exact congrArg idleExit (reqRun_examines (s := { s with req.process := .running }) noSlot rfl
    ((examines_iff _).mpr (.inl active)) 39)

/-- Settles O11: the slot's one frame is built as the slot is worked. -/
theorem gateRequestBuildsOneFrame : Obligations.GateRequestBuildsOneFrame := by
  intro s port active sends noSlot free rests owned kind g group
  have valid : slotCheck s (cursorCopy s) = none := by
    have bound := g.isLt
    simp only [slotCheck, kind]
    exact if_neg (by omega)
  have gate : (slotWork s (cursorCopy s)).gate = some g := by
    show (if (cursorCopy s).kind = some .gate then some (Fin.ofNat 4 (cursorCopy s).group) else none) = some g
    rw [if_pos kind, group, Fin.ofNat_val_eq_self]
  have noRecords : namedSlots s (cursorCopy s) = [] := by simp [namedSlots, namedItems, kind]
  obtain ⟨req, imu, sent⟩ := reqRun_gate 38
    (s := { s with req.process := .running, req.slot := some (slotWork s (cursorCopy s)) })
    (w := slotWork s (cursorCopy s)) (g := g) rfl gate (by simp [slotWork, kind, noRecords]) rfl active free
  have worked := setRun_works active sends noSlot rests owned valid
  refine ⟨_, _, exec_runSet port, rfl, ?_, ?_,
    ⟨{ slotWork s (cursorCopy s) with gate := none, frames := 1, outstanding := 1 }, ?_, ?_, rfl, rfl, rfl, rfl⟩, ?_,
    setRun_effects rests, setRun_settled rests⟩
  · rw [worked, idleExit_eq]
    exact sent
  · rw [worked, idleExit_req, req]
  · rw [worked, idleExit_req, req]
    rfl
  · simp [SlotWork.remaining, slotWork, kind, noRecords]
  · rw [worked, idleExit_imu, imu]

end Sys2Proof.Laws
end

section
/-! SUPPORT. The end of an attempt: what a completion and an abandonment leave as the freed queue entry is taken up, what a look at the
freed queue keeps, and the slot in progress that goes on building or closes (R92, R93, R110, R116, R129). -/

namespace Sys2Proof.Laws

open Sys2Proof.Machine

/-! ## The freed queue entry taken up -/

/-- The freed entry and queue taken up: an admission, the request process, a due refresh frame and the exit from IDLE, with the refresh frame
first or behind (R92, R93, R129). -/
def takenUp (refreshFirst : Bool) (s : State) : State := refillQueue refreshFirst (arbiter s)

theorem takenUp_effects (refreshFirst : Bool) (s : State) : SendEffects s (takenUp refreshFirst s) := by
  refine (arbiter_effects s).toSend.trans ?_
  cases refreshFirst
  · exact (runRequests_effects _).toSend.trans (refresh_idle_effects _)
  · exact (refreshStep_effects _).trans (runRequests_effects _).toSend

theorem takenUp_settled (refreshFirst : Bool) (s : State) : TransmitterSettled s.lau.transmitter (takenUp refreshFirst s) := by
  rw [← arbiter_transmitter s]
  cases refreshFirst
  · exact runRequests_looked_settled _
  · have settled := runRequests_settled (refreshStep (arbiter s))
    rwa [refreshStep_transmitter] at settled

/-- Of the scheduler's state only cursor and refresh timer are moved on. -/
theorem takenUp_tsc (refreshFirst : Bool) (s : State) :
    (takenUp refreshFirst s).tsc =
      { s.tsc with
        cursor := (takenUp refreshFirst s).tsc.cursor, refreshTimer := (takenUp refreshFirst s).tsc.refreshTimer } := by
  have admitted := (arbiter_effects s).tsc
  cases refreshFirst
  · have run := (runRequests_effects (arbiter s)).tsc
    have taken : takenUp false s = idleExit (refreshStep (runRequests (arbiter s))) := rfl
    rw [taken, idleExit_tsc, refreshStep_only, run, admitted]
  · have run := (runRequests_effects (refreshStep (arbiter s))).tsc
    have taken : takenUp true s = runRequests (refreshStep (arbiter s)) := rfl
    rw [taken, run, refreshStep_only, admitted]

/-- Whichever comes first, the request process runs on what the admission leaves, and the rest touches nothing that it looks at. -/
theorem takenUp_through (refreshFirst : Bool) (s : State) :
    ∃ y, y.req = s.req ∧ y.imu.items = s.imu.items ∧ y.hpt = s.hpt ∧ y.stc = s.stc ∧ y.lau.reqOffer = (arbiter s).lau.reqOffer ∧
      (arbiter s).lau.queue <+: y.lau.queue ∧ leftBy (takenUp refreshFirst s) = leftBy (reqRun 40 y) ∧
      (reqRun 40 y).lau.queue <+: (takenUp refreshFirst s).lau.queue := by
  cases refreshFirst
  · refine ⟨arbiter s, arbiter_req s, by rw [arbiter_imu], arbiter_hpt s, arbiter_stc s, rfl, List.prefix_rfl, ?_, ?_⟩
    · have taken : takenUp false s = idleExit (refreshStep (idleExit (reqRun 40 (arbiter s)))) := rfl
      rw [taken, (leftBy_idleExit _).1, refreshStep_only]
      exact (leftBy_idleExit _).1
    · have looked := (refreshStep_effects (idleExit (reqRun 40 (arbiter s)))).queue
      have taken : takenUp false s = idleExit (refreshStep (idleExit (reqRun 40 (arbiter s)))) := rfl
      rw [taken, (leftBy_idleExit _).2]
      rwa [(leftBy_idleExit _).2] at looked
  · refine ⟨refreshStep (arbiter s), ?_, ?_, ?_, ?_, ?_, (refreshStep_effects _).queue, (leftBy_idleExit _).1, ?_⟩
    · rw [refreshStep_only, arbiter_req]
    · rw [refreshStep_only, arbiter_imu]
    · rw [refreshStep_only, arbiter_hpt]
    · rw [refreshStep_only, arbiter_stc]
    · rw [refreshStep_only]
    · have taken : takenUp true s = idleExit (reqRun 40 (refreshStep (arbiter s))) := rfl
      rw [taken, (leftBy_idleExit _).2]

/-! ## The slot in progress -/

/-- A PUBLISH or STREAM slot with items left goes on building as the entry is taken up (R110). -/
theorem takenUp_built (refreshFirst : Bool) {s : State} {w : SlotWork} (slot : s.req.slot = some w) (gate : w.gate = none)
    (goesOn : w.halted = false) (todo : w.todo ≠ []) (active : s.stc.station = .active)
    (offers : ∀ offer, s.lau.reqOffer = some offer → offer.source = .req) :
    ∃ w' n, (takenUp refreshFirst s).req = { s.req with slot := some w' } ∧ BuiltFrames s (takenUp refreshFirst s) w w' n ∧
      (s.lau.reqOffer = none → 1 ≤ n) ∧
      ∀ offer, s.lau.reqOffer = some offer →
        (offer ∈ (takenUp refreshFirst s).lau.queue ∧ 1 ≤ n) ∨ ((takenUp refreshFirst s).lau.reqOffer = some offer ∧ n = 0) := by
  obtain ⟨y, req, items, hpt, stc, offer, queue, left, after⟩ := takenUp_through refreshFirst s
  obtain ⟨reqLeft, itemsLeft, -, -, offerLeft⟩ : _ ∧ _ ∧ _ ∧ _ ∧ _ := by simpa only [leftBy, Prod.mk.injEq] using left
  have admitted : ∀ g, y.lau.reqOffer = some g → g.source = .req := by
    intro g waits
    rw [offer] at waits
    cases before : s.lau.reqOffer with
    | none => simp [(arbiter_none before).1] at waits
    | some f =>
      rcases arbiter_some before (offers f before) with ⟨same, -⟩ | ⟨none, -⟩
      · obtain rfl := Option.some.inj (same.symm.trans waits)
        exact offers f before
      · simp [none] at waits
  obtain ⟨n, w', ran, built, one, waiting⟩ :=
    reqRun_built 39 (s := y) (by rw [req, slot]) gate goesOn todo (by rw [stc, active]) admitted
  refine ⟨w', n, by rw [reqLeft, ran, req], ?_, fun none => one (offer.trans (arbiter_none none).1), fun f before => ?_⟩
  · exact builtFrames_congr built (by rw [hpt]) items.symm (by unfold stationNumber; rw [stc]) itemsLeft offerLeft after
  · rcases arbiter_some before (offers f before) with ⟨same, -⟩ | ⟨none, member, -⟩
    · exact (waiting f (offer.trans same)).imp (fun ⟨member, many⟩ => ⟨after.subset member, many⟩) fun ⟨waits, zero⟩ =>
        ⟨offerLeft.trans waits, zero⟩
    · refine .inl ⟨after.subset ((reqRun_effects 40 y).queue.subset (queue.subset member)), one (offer.trans none)⟩

/-- A slot with no outcome to come and nothing left to build closes (R116). -/
theorem reqRun_settledCloses (n : Nat) {s : State} {w : SlotWork} (slot : s.req.slot = some w) (told : w.outstanding = 0)
    (done : w.remaining = 0 ∨ w.halted = true) :
    reqRun (n + 1) s = reqRun n (closeSlot w.status w.remaining w.lost w.frames (arbiter s)) := by
  have noBuild : buildsNow (arbiter s) w = false := by
    rcases done with built | halted
    · simp [buildsNow, built]
    · simp [buildsNow, halted]
  have pumped : pump 8 s = arbiter s := pump_rests (by rw [arbiter_req, slot]) noBuild 7
  have closes : closable (arbiter s) w = true := by
    rcases done with built | halted
    · simp [closable, told, built]
    · simp [closable, told, halted]
  rw [reqRun_closes slot (w' := w) (by rw [pumped, arbiter_req, slot]) (by rw [pumped, closes]) n, pumped]

/-- The last outcome of a slot known as the entry is taken up: the slot closes, and a RUNNING process examines the next one (R116). -/
theorem takenUp_closes (refreshFirst : Bool) {s x : State} {w : SlotWork} (slot : x.req.slot = some w) (told : w.outstanding = 0)
    (done : w.remaining = 0 ∨ w.halted = true) (canonical : StoresCanonical s) (req : x.req = { s.req with slot := some w })
    (looked : lookedAt x = lookedAt s) (notify : x.hpt.notify = s.hpt.notify) (stc : x.stc = s.stc)
    (offer : x.lau.reqOffer = s.lau.reqOffer) (station : s.stc.station = .active ∨ s.stc.station = .muted) :
    SlotClosedNextExamined s (takenUp refreshFirst x) w.status w.remaining w.lost w.frames ∧
      (s.req.process ≠ .running →
        (takenUp refreshFirst x).req.process = s.req.process ∧ (takenUp refreshFirst x).req.cursor = s.req.cursor + 1 ∧
          (takenUp refreshFirst x).req.slot = none ∧ (takenUp refreshFirst x).imu.items = s.imu.items) := by
  obtain ⟨itemsSame, stagingSame, -⟩ : _ ∧ _ ∧ _ := by simpa only [lookedAt, Prod.mk.injEq] using looked
  obtain ⟨y, reqY, items, hpt, stcY, offerY, -, left, after⟩ := takenUp_through refreshFirst x
  have closed := reqRun_settledCloses 39 (s := y) (by rw [reqY, slot]) told done
  rw [closed] at left after
  have reqA : (arbiter y).req = { s.req with slot := some w } := by rw [arbiter_req, reqY, req]
  have lookedA : lookedAt (arbiter y) = lookedAt s := by
    simp only [lookedAt, arbiter_imu, arbiter_hpt, arbiter_stc, items, hpt, stcY, stc, itemsSame, stagingSame]
  have canonicalA : StoresCanonical (arbiter y) := by
    obtain ⟨staging, ring, notifies, window⟩ := canonical
    refine ⟨?_, by rwa [reqA], ?_, ?_⟩
    · rwa [arbiter_hpt, hpt, stagingSame]
    · rwa [arbiter_hpt, hpt, notify]
    · rwa [arbiter_stc, stcY, stc]
  have noOffer : s.lau.reqOffer = none → (arbiter y).lau.reqOffer = none := fun none =>
    (arbiter_none (offerY.trans (arbiter_none (offer.trans none)).1)).1
  have examining : examines (arbiter y) = true := by
    rw [examines_iff, arbiter_stc, stcY, stc]
    exact station
  refine ⟨SlotClosedNextExamined_congr (closeSlot_nextExamined 21 w.status w.remaining w.lost w.frames canonical canonicalA
    (by rw [reqA]) lookedA noOffer examining) left after, fun rests => ?_⟩
  rw [reqRun_rests rfl (.inl (by
    show (arbiter y).req.process ≠ .running
    rw [reqA]
    exact rests))] at left
  obtain ⟨reqLeft, itemsLeft, -⟩ : _ ∧ _ ∧ _ := by simpa only [leftBy, Prod.mk.injEq] using left
  refine ⟨?_, ?_, by rw [reqLeft]; rfl, ?_⟩
  · rw [reqLeft]
    show (arbiter y).req.process = _
    rw [reqA]
  · rw [reqLeft]
    show (arbiter y).req.cursor + 1 = _
    rw [reqA]
  · rw [itemsLeft]
    show (arbiter y).imu.items = _
    rw [arbiter_imu, items, itemsSame]

/-- Behind a slot closed by a RUNNING process a HOST-owned one suspends it (R105, R116). -/
theorem closed_suspends {s t : State} {status : SlotStatus} {remaining lost frames : Nat}
    (closed : SlotClosedNextExamined s t status remaining lost frames) (running : s.req.process = .running)
    (host : NextSlotHostOwned s) :
    t.req.process = .suspended ∧ t.req.cursor = s.req.cursor + 1 ∧ t.req.slot = none ∧ t.hpt.flags.requestsIdle = true := by
  obtain ⟨-, -, v, ⟨behind, -, -, others⟩, -, examined⟩ := closed
  have cursor : v.req.cursor = s.req.cursor + 1 := by rw [behind]
  have noSlot : v.req.slot = none := by rw [behind]
  have next : (s.req.cursor + 1).val ≠ s.req.cursor.val := by
    generalize s.req.cursor = c
    revert c
    decide
  have owner : (cursorCopy v).stationOwned = false := by
    show (ringWord v v.req.cursor.val 0).getLsbD 15 = false
    rw [cursor, others _ next 0 (by omega)]
    exact host
  obtain ⟨req, idle⟩ := examined_hostOwned (examined running) owner
  exact ⟨by rw [req], by rw [req, ← cursor], by rw [req, ← noSlot], idle⟩

/-! ## The outcome of the head frame told -/

/-- The slot in progress with the outcome of a frame known, and the records of the frame lost where it is abandoned (R115). -/
def toldSlot (f : TxFrame) (lost : Nat) (slot : Option SlotWork) : Option SlotWork :=
  if f.source = .req then slot.map fun w => { w with outstanding := w.outstanding - 1, lost := w.lost + lost } else slot

/-- An attempt completed and its outcome told (steps 1 to 7 of R92). -/
def completed (f : TxFrame) (rest : List TxFrame) (a : SentFrame) (s : State) : State :=
  tellCompleted f (completionNotice (completeFrame rest a s))

theorem completed_eq (f : TxFrame) (rest : List TxFrame) (a : SentFrame) (s : State) :
    completed f rest a s =
      { s with
        lau := { attemptEnded rest .idle s.lau with lastCompleted := some a.sequence }
        lrx.queue := s.lrx.queue ++ [a.asSelf]
        req.slot := toldSlot f 0 s.req.slot
        hpt.counters := s.hpt.counters.set (s.hpt.counters.get .framesSent).increment .framesSent
        tsc :=
          { s.tsc with
            presenceTimer := if s.stc.station = .active then .running (presenceInterval s) else s.tsc.presenceTimer
            presenceOutstanding := if f.source = .presence then false else s.tsc.presenceOutstanding
            firstPending := if f.source = .presence then s.tsc.firstPending && !f.first else s.tsc.firstPending } } := by
  have noticed : completionNotice (completeFrame rest a s) =
      { completeFrame rest a s with
        tsc.presenceTimer := if s.stc.station = .active then .running (presenceInterval s) else s.tsc.presenceTimer } := by
    unfold completionNotice
    have station : (completeFrame rest a s).stc.station = s.stc.station := rfl
    rw [station]
    split <;> rfl
  rw [completed, tellCompleted_eq, noticed]
  rfl

theorem takeCompletion_eq (f : TxFrame) (rest : List TxFrame) (a : SentFrame) (s : State) :
    takeCompletion f rest a s = takenUp false (completed f rest a s) := by
  simp only [takeCompletion, takenUp, refillQueue, settle, completed, Bool.false_eq_true, if_false]

/-- The head frame abandoned at its twelfth collision and its outcome told, a presence frame offered again at need (R90, R93, R126). -/
def abandoned (f : TxFrame) (rest : List TxFrame) (s : State) : State :=
  let told := tellAbandoned f (countUp .abandoned
    { countUp .collisions { driverOff s with freeCount := s.freeCount + 1 } with
      lau.queue := rest, lau.attempts := 0, lau.transmitter := .idle })
  if f.source = .presence then presenceStep told else told

/-- The counters after a collision that abandons the head frame. -/
def collidedCounters (c : Counters) : Counters :=
  let collided := c.set (c.get .collisions).increment .collisions
  collided.set (collided.get .abandoned).increment .abandoned

theorem collidedCounters_get (c : Counters) :
    (collidedCounters c).get .collisions = (c.get .collisions).increment ∧
      (collidedCounters c).get .abandoned = (c.get .abandoned).increment := ⟨rfl, rfl⟩

theorem abandoned_eq (f : TxFrame) (rest : List TxFrame) (s : State) :
    ∃ offer outstanding, abandoned f rest s =
      { s with
        lau := { attemptEnded rest .idle s.lau with presenceOffer := offer }
        req.slot := toldSlot f f.size s.req.slot
        tsc.presenceOutstanding := outstanding
        hpt.counters := collidedCounters s.hpt.counters
        freeCount := s.freeCount + 1 } := by
  unfold abandoned
  simp only [tellAbandoned_eq]
  split
  · rw [presenceStep_only]
    exact ⟨_, _, rfl⟩
  · exact ⟨_, _, rfl⟩

theorem takeCollision_abandons {s : State} (last : 12 ≤ s.lau.attempts) (f : TxFrame) (rest : List TxFrame) :
    takeCollision f rest s = takenUp (Config.refreshFirst s.freeCount) (abandoned f rest s) := if_pos last

/-! ## The commands -/

section Attempt

variable {s : State} {f : TxFrame} {rest : List TxFrame} {a : SentFrame}

theorem exec_attemptComplete (send : s.lau.transmitter = .send) (queue : s.lau.queue = f :: rest) (attempt : s.lau.attempt = some a) :
    exec .attemptComplete s = .next (takenUp false (completed f rest a s)) := by
  rw [← takeCompletion_eq]
  simp only [exec, execAttemptComplete, send, queue, attempt]

theorem exec_collision (send : s.lau.transmitter = .send) (queue : s.lau.queue = f :: rest) (attempt : s.lau.attempt = some a)
    (sensed beyond : List LineCell) :
    exec (.collision sensed beyond) s =
      .next (if sensed.length ≤ 2048 ∧ sensesDifference (a.cells ++ beyond) sensed = true then takeCollision f rest s else s) := by
  simp only [exec, execCollision, send, queue, attempt]
  rfl

theorem exec_collision_abandons (send : s.lau.transmitter = .send) (queue : s.lau.queue = f :: rest)
    (attempt : s.lau.attempt = some a) {sensed beyond : List LineCell} (inTime : sensed.length ≤ 2048)
    (differs : sensesDifference (a.cells ++ beyond) sensed = true) (last : 12 ≤ s.lau.attempts) :
    exec (.collision sensed beyond) s = .next (takenUp (Config.refreshFirst s.freeCount) (abandoned f rest s)) := by
  rw [exec_collision send queue attempt, if_pos ⟨inTime, differs⟩, takeCollision_abandons last]

end Attempt

/-- The outcomes of the head frame that the commands tell alike: a completion, and an abandonment with the frame's records lost. -/
theorem outcome_told {s : State} {f : TxFrame} {rest : List TxFrame} {a : SentFrame} {c : Instr} {lost : Nat}
    (send : s.lau.transmitter = .send) (queue : s.lau.queue = f :: rest) (attempt : s.lau.attempt = some a)
    (ends : c = .attemptComplete ∧ lost = 0 ∨
      (∃ sensed beyond, c = .collision sensed beyond ∧ sensed.length ≤ 2048 ∧ sensesDifference (a.cells ++ beyond) sensed = true) ∧
        12 ≤ s.lau.attempts ∧ lost = f.size) :
    ∃ refreshFirst x, exec c s = .next (takenUp refreshFirst x) ∧ x.req = { s.req with slot := toldSlot f lost s.req.slot } ∧
      x.imu = s.imu ∧ x.hpt = { s.hpt with counters := x.hpt.counters } ∧ x.stc = s.stc ∧ x.lau.reqOffer = s.lau.reqOffer := by
  rcases ends with ⟨rfl, rfl⟩ | ⟨⟨sensed, beyond, rfl, inTime, differs⟩, last, rfl⟩
  · refine ⟨_, _, exec_attemptComplete send queue attempt, ?_⟩
    rw [completed_eq]
    exact ⟨rfl, rfl, rfl, rfl, rfl⟩
  · refine ⟨_, _, exec_collision_abandons send queue attempt inTime differs last, ?_⟩
    obtain ⟨offer, outstanding, e⟩ := abandoned_eq f rest s
    rw [e]
    exact ⟨rfl, rfl, rfl, rfl, rfl⟩

end Sys2Proof.Laws
end

section
/-! SUPPORT. The obligations on a slot's frames, a completion and a collision (R89 to R93, R110, R116, R126, R129). -/

namespace Sys2Proof.Laws

open Sys2Proof.Machine

/-! ## The slot in progress at an outcome -/

theorem frame_size_eq (f : TxFrame) :
    f.size = match f.body with | .update records => records.length | .gate _ => 1 | .presence _ => 0 := rfl

theorem toldSlot_some (f : TxFrame) (lost : Nat) (w : SlotWork) :
    toldSlot f lost (some w) =
      some (if f.source = .req then { w with outstanding := w.outstanding - 1, lost := w.lost + lost } else w) := by
  unfold toldSlot
  split <;> rfl

/-- A setting of RUN at a valid PUBLISH or STREAM slot builds its frames (R110 to R112). -/
theorem setRun_builds {s : State} {kind : RequestKind} (publishes : kind = .publish ∨ kind = .stream)
    (active : s.stc.station = .active) (sends : s.stc.straps.listen = false) (noSlot : s.req.slot = none)
    (free : s.lau.reqOffer = none) (rests : s.req.process ≠ .running) (owned : (cursorCopy s).stationOwned = true)
    (isKind : (cursorCopy s).kind = some kind) (valid : slotCheck s (cursorCopy s) = none) :
    ∃ w' n, (setRun s).req = { s.req with process := .running, slot := some w' } ∧
      BuiltFrames s (setRun s) (slotWork s (cursorCopy s)) w' n ∧ 1 ≤ n := by
  have notGate : (cursorCopy s).kind ≠ some .gate := by
    rcases publishes with rfl | rfl <;> simp [isKind]
  obtain ⟨-, todo⟩ := (slotCheck_valid valid).resolve_left fun ⟨gate, _⟩ => notGate gate
  have worked := setRun_works active sends noSlot rests owned valid
  obtain ⟨n, w', ran, built, one, -⟩ := reqRun_built 38
    (s := { s with req.process := .running, req.slot := some (slotWork s (cursorCopy s)) })
    (w := slotWork s (cursorCopy s)) rfl (by simp [slotWork, notGate]) rfl todo active (by simp [free])
  have left := leftBy_idleExit (reqRun 39 { s with req.process := .running, req.slot := some (slotWork s (cursorCopy s)) })
  rw [← worked] at left
  obtain ⟨left, queue⟩ := left
  obtain ⟨req, items, -, -, offer⟩ : _ ∧ _ ∧ _ ∧ _ ∧ _ := by simpa only [leftBy, Prod.mk.injEq] using left
  exact ⟨w', n, req.trans ran, builtFrames_congr built rfl rfl rfl items offer (by rw [queue]), one free⟩

/-- Settles O13: the building at a setting of RUN, and at an outcome that frees a queue entry. -/
theorem updateRequestBuildsFirstFrame : Obligations.UpdateRequestBuildsFirstFrame := by
  refine ⟨fun s kind publishes port active sends noSlot free rests owned isKind valid todo htodo => ?_,
    fun s f rest a w told c send queue attempt active slot gate goesOn left offers ends => ?_⟩
  · obtain ⟨w', n, req, built, one⟩ := setRun_builds publishes active sends noSlot free rests owned isKind valid
    have notGate : (cursorCopy s).kind ≠ some .gate := by
      rcases publishes with rfl | rfl <;> simp [isKind]
    have work : slotWork s (cursorCopy s) =
        { todo := todo, gate := none, offset := (cursorCopy s).offset, frames := 0, outstanding := 0, lost := 0, halted := false } := by
      rw [htodo]
      simp [slotWork, isKind]
      rintro rfl
      exact notGate isKind
    rw [work] at built
    obtain ⟨e, -, frames, -⟩ := id built
    obtain ⟨-, first⟩ := frames 0 one
    have counts : w'.frames = n ∧ w'.outstanding = n ∧ w'.lost = 0 ∧ w'.halted = false := by simp [e]
    obtain ⟨count, outstanding, lost, halted⟩ := counts
    refine ⟨setRun s, _, exec_runSet port, rfl, by simpa [buildRecords] using first, by rw [req], ⟨w', by rw [req], by omega, by omega,
      lost, halted, by rwa [count]⟩, setRun_effects rests, setRun_settled rests⟩
  · obtain ⟨lost, ended, one⟩ : ∃ lost, (c = .attemptComplete ∧ lost = 0 ∨
        (∃ sensed beyond, c = .collision sensed beyond ∧ sensed.length ≤ 2048 ∧
          sensesDifference (a.cells ++ beyond) sensed = true) ∧ 12 ≤ s.lau.attempts ∧ lost = f.size) ∧
        told = if f.source = .req then { w with outstanding := w.outstanding - 1, lost := w.lost + lost } else w := by
      rcases ends with ⟨rfl, e⟩ | ⟨sensed, last, e⟩
      · exact ⟨0, .inl ⟨rfl, rfl⟩, e⟩
      · exact ⟨f.size, .inr ⟨sensed, last, rfl⟩, e⟩
    obtain ⟨refreshFirst, x, ran, req, imu, hpt, stc, offer⟩ := outcome_told send queue attempt ended
    rw [slot, toldSlot_some, ← one] at req
    obtain ⟨gate', goesOn', left'⟩ : told.gate = none ∧ told.halted = false ∧ told.todo ≠ [] := by
      rw [one]
      split <;> exact ⟨gate, goesOn, left⟩
    obtain ⟨w', n, after, built, first, waiting⟩ := takenUp_built refreshFirst (s := x) (by rw [req]) gate' goesOn' left'
      (by rw [stc, active]) (by rwa [offer])
    rw [offer] at first waiting
    refine ⟨_, w', n, ran, by rw [after, req], ?_, first, waiting⟩
    exact builtFrames_congr built (by rw [hpt]) (by rw [imu]) (by unfold stationNumber; rw [stc]) rfl rfl List.prefix_rfl

/-! ## The last outcome -/

/-- Settles O14: with its last outcome known the slot closes as the freed entry is taken up. -/
theorem lastOutcomeClosesSlot : Obligations.LastOutcomeClosesSlot := by
  refine ⟨fun w => ?_, fun s f rest a w c lost canonical send queue attempt source slot one done station ends => ?_⟩
  · unfold SlotWork.remaining
    cases w.gate <;> rfl
  · obtain ⟨more, ended, total⟩ : ∃ more, (c = .attemptComplete ∧ more = 0 ∨
        (∃ sensed beyond, c = .collision sensed beyond ∧ sensed.length ≤ 2048 ∧
          sensesDifference (a.cells ++ beyond) sensed = true) ∧ 12 ≤ s.lau.attempts ∧ more = f.size) ∧ lost = w.lost + more := by
      rcases ends with ⟨rfl, e⟩ | ⟨sensed, last, e⟩
      · exact ⟨0, .inl ⟨rfl, rfl⟩, e⟩
      · exact ⟨f.size, .inr ⟨sensed, last, rfl⟩, e⟩
    obtain ⟨refreshFirst, x, ran, req, imu, hpt, stc, offer⟩ := outcome_told send queue attempt ended
    rw [slot, toldSlot_some, if_pos source, ← total] at req
    have looked : lookedAt x = lookedAt s := by
      unfold lookedAt
      rw [imu, hpt, stc]
    obtain ⟨closed, stopped⟩ := takenUp_closes refreshFirst (s := s) (x := x)
      (w := { w with outstanding := w.outstanding - 1, lost := lost }) (by rw [req]) (by simp [one]) done canonical req looked
      (by rw [hpt]) stc offer station
    have status : ({ w with outstanding := w.outstanding - 1, lost := lost } : SlotWork).status =
        if w.halted then .halted else if lost ≠ 0 then .lineFailed else .done := by
      unfold SlotWork.status
      rcases done with built | halted
      · have none_left : ({ w with outstanding := w.outstanding - 1, lost := lost } : SlotWork).remaining = 0 := built
        simp [none_left]
      · simp [halted]
    rw [status] at closed
    exact ⟨_, ran, closed, stopped, fun running host => closed_suspends closed running host⟩

/-! ## A completion -/

/-- What the settling of the sending side leaves of the line access unit. -/
theorem sendEffects_attempt {s t : State} (e : SendEffects s t) :
    t.lau.driver = s.lau.driver ∧ t.lau.guard = s.lau.guard ∧ t.lau.attempt = s.lau.attempt ∧ t.lau.attempts = s.lau.attempts ∧
      t.lau.lastCompleted = s.lau.lastCompleted := by
  rw [e.lau]
  exact ⟨rfl, rfl, rfl, rfl, rfl⟩

/-- A transmitter that was in IDLE is where the exit from it leads, or there still. -/
theorem settled_not_sending {t : State} (settled : TransmitterSettled .idle t) :
    t.lau.transmitter ≠ .send ∧ t.lau.transmitter ≠ .backoff := by
  rw [settled]
  split_ifs <;> simp

/-- Settles O34: the command completes the attempt, and what follows as the freed entry is taken up leaves it so. -/
theorem attemptCompletes : Obligations.AttemptCompletes := by
  intro s f rest a send queue attempt
  have effects := takenUp_effects false (completed f rest a s)
  have settled := takenUp_settled false (completed f rest a s)
  have tsc := takenUp_tsc false (completed f rest a s)
  have ran := exec_attemptComplete send queue attempt
  rw [completed_eq] at effects settled tsc ran
  obtain ⟨driver, guarded, attempted, attempts, number⟩ := sendEffects_attempt effects
  refine ⟨_, ran, driver, guarded, attempted, attempts, (settled_not_sending settled).1, settled, number, effects.queue,
    effects.lrx, by rw [effects.hpt], fun active => ?_, ?_, fun presence => ?_⟩
  · rw [tsc]
    exact if_pos active
  · rw [tsc]
    cases source : f.source <;> simp
  · rw [tsc]
    exact if_pos presence

end Sys2Proof.Laws
end

section
/-! SUPPORT. A collision: what it leaves of the attempt, a frame abandoned and its source told, the refresh frame that a queue emptied so
takes, and the obligation on it (R89 to R93, R126, R129). -/

namespace Sys2Proof.Laws

open Sys2Proof.Machine

/-! ## Frames that come into the queue as the process runs -/

/-- What waits at the line access unit is no refresh frame. -/
def OffersKnown (s : State) : Prop :=
  (∀ f, s.lau.reqOffer = some f → f.source ≠ .refresh) ∧ ∀ f, s.lau.presenceOffer = some f → f.source ≠ .refresh

/-- The queue of `t` is that of `s` with frames behind it that are no refresh frames, and what waits is none. -/
def QueueGrown (s t : State) : Prop :=
  OffersKnown t ∧ ∃ extra, t.lau.queue = s.lau.queue ++ extra ∧ ∀ f ∈ extra, f.source ≠ .refresh

theorem QueueGrown.refl {s : State} (offers : OffersKnown s) : QueueGrown s s := ⟨offers, [], by simp, nofun⟩

theorem queueGrown_admitted {s t u : State} {f : TxFrame} (grown : QueueGrown s t) (known : f.source ≠ .refresh)
    (queue : u.lau.queue = t.lau.queue ++ [f]) (offers : OffersKnown u) : QueueGrown s u := by
  obtain ⟨-, extra, e, sources⟩ := grown
  refine ⟨offers, extra ++ [f], by rw [queue, e, List.append_assoc], List.forall_mem_append.mpr ⟨sources, ?_⟩⟩
  simpa using known

theorem queueGrown_congr {s t u : State} (grown : QueueGrown s t) (queue : u.lau.queue = t.lau.queue) (offers : OffersKnown u) :
    QueueGrown s u := by
  obtain ⟨-, extra, e, sources⟩ := grown
  exact ⟨offers, extra, by rw [queue, e], sources⟩

theorem admitPresence_grown {s t : State} (grown : QueueGrown s t) : QueueGrown s (admitPresence t) := by
  have offers := grown.1
  unfold admitPresence
  split
  · exact grown
  · next f offered =>
    split
    · exact queueGrown_admitted grown (offers.2 f offered) rfl ⟨offers.1, nofun⟩
    · exact grown

theorem admitReq_grown {s t : State} (grown : QueueGrown s t) : QueueGrown s (admitReq t) := by
  have offers := grown.1
  unfold admitReq
  split
  · exact grown
  · next f offered =>
    split
    · exact queueGrown_admitted grown (offers.1 f offered) rfl ⟨nofun, offers.2⟩
    · exact grown

theorem buildFrame_grown {s t : State} (grown : QueueGrown s t) (w : SlotWork) : QueueGrown s (buildFrame w t) := by
  have offers := grown.1
  unfold buildFrame
  split
  all_goals
    refine queueGrown_congr grown rfl ⟨fun f offered => ?_, offers.2⟩
    obtain rfl := Option.some.inj offered
    simp

theorem reqRun_grown (n : Nat) {s : State} (offers : OffersKnown s) : QueueGrown s (reqRun n s) :=
  reqRun_keeps (P := QueueGrown s) (fun _ => admitPresence_grown) (fun _ => admitReq_grown)
    (fun _ w grown _ _ => buildFrame_grown grown w)
    (fun _ _ grown _ _ => grown)
    (fun t grown _ _ _ => by
      have same := examineSlot_lau t
      exact queueGrown_congr grown (by rw [same]) (by unfold OffersKnown; rw [same]; exact grown.1))
    n s (.refl offers)

theorem runRequests_grown {s : State} (offers : OffersKnown s) : QueueGrown s (runRequests s) := by
  have run : runRequests s = idleExit (reqRun 40 s) := rfl
  have lau : ∃ transmitter, (idleExit (reqRun 40 s)).lau = { (reqRun 40 s).lau with transmitter := transmitter } := by
    rw [idleExit_eq]
    exact ⟨_, rfl⟩
  obtain ⟨transmitter, e⟩ := lau
  rw [run]
  have grown := reqRun_grown 40 offers
  exact queueGrown_congr grown (by rw [e]) (by unfold OffersKnown; rw [e]; exact grown.1)

theorem arbiter_grown {s : State} (offers : OffersKnown s) : QueueGrown s (arbiter s) :=
  admitReq_grown (admitPresence_grown (.refl offers))

/-- A queue that holds refresh frames alone has grown by none. -/
theorem QueueGrown.same {s t : State} (grown : QueueGrown s t) (refreshes : ∀ f ∈ t.lau.queue, f.source = .refresh) :
    t.lau.queue = s.lau.queue := by
  obtain ⟨-, extra, e, sources⟩ := grown
  have none_came : extra = [] := List.eq_nil_iff_forall_not_mem.mpr fun f hf =>
    sources f hf (refreshes f (by rw [e]; exact List.mem_append_right _ hf))
  rw [e, none_came, List.append_nil]

/-! ## The look at the conditions of R129 -/

/-- A value read off an item that does not look at LAST ISSUED VERSION is the same after builds. -/
theorem sameButIssued_read {α : Type} {items items' : List Item} (same : SameButIssued items items') (read : Item → α)
    (blind : ∀ it : Item, read it.withoutIssued = read it) (k : Nat) : items'[k]?.map read = items[k]?.map read := by
  have key : ∀ l : List Item, l[k]?.map read = (l.map Item.withoutIssued)[k]?.map read := fun l => by
    rw [List.getElem?_map, Option.map_map]
    exact congrArg (fun g => l[k]?.map g) (funext fun it => (blind it).symm)
  rw [key, same, ← key]

/-- The look is alike from states that agree in what it looks at. -/
theorem RefreshLooked_before {u u' t : State} (h : RefreshLooked u t) (items : SameButIssued u'.imu.items u.imu.items)
    (work : u.imu.work = u'.imu.work) (cursor : u.tsc.cursor = u'.tsc.cursor) (timer : u.tsc.refreshTimer = u'.tsc.refreshTimer)
    (first : u.tsc.firstPending = u'.tsc.firstPending) (queue : u.lau.queue = u'.lau.queue) (lrx : u.lrx = u'.lrx)
    (stc : u.stc = u'.stc) (completed : u.lau.lastCompleted = u'.lau.lastCompleted) : RefreshLooked u' t := by
  have length : u.imu.items.length = u'.imu.items.length := by simpa using congrArg List.length items
  have number : stationNumber u = stationNumber u' := by unfold stationNumber; rw [stc]
  have spacing : refreshSpacing u = refreshSpacing u' := by unfold refreshSpacing; rw [stc]
  have owned : ∀ k, ((u.imu.items[k]?).any fun it : Item => it.plan.owner == stationNumber u' && it.condition == .ownLocal) =
      (u'.imu.items[k]?).any fun it : Item => it.plan.owner == stationNumber u' && it.condition == .ownLocal := fun k => by
    have read := sameButIssued_read items
      (fun it : Item => it.plan.owner == stationNumber u' && it.condition == .ownLocal) (fun _ => rfl) k
    have anyOf := congrArg (Option.any id) read
    rwa [Option.any_map, Option.any_map] at anyOf
  have records : ∀ k, ((u.imu.items[k]?).bind fun it : Item => it.heldPart.map fun part =>
        ({ item := it.plan.item, version := part.version, value := part.value } : Record)) =
      (u'.imu.items[k]?).bind fun it : Item => it.heldPart.map fun part =>
        ({ item := it.plan.item, version := part.version, value := part.value } : Record) := fun k => by
    have read := sameButIssued_read items (fun it : Item => it.heldPart.map fun part =>
      ({ item := it.plan.item, version := part.version, value := part.value } : Record)) (fun _ => rfl) k
    have bound := congrArg (Option.bind · id) read
    rwa [Option.bind_map, Option.bind_map] at bound
  unfold RefreshLooked at h ⊢
  rw [number, spacing, length] at h
  simp only [owned, records, cursor, timer, first, queue, lrx, work, stc, completed] at h
  exact h

/-- The look made after admissions and builds that left the queue as it was is made before them alike. -/
theorem looked_of_effects {x u t : State} (e : RequestEffects x u) (queue : u.lau.queue = x.lau.queue) (h : RefreshLooked u t) :
    RefreshLooked x t :=
  RefreshLooked_before h e.items (by rw [e.imu]) (by rw [e.tsc]) (by rw [e.tsc]) (by rw [e.tsc]) queue e.lrx e.stc (by rw [e.lau])

/-- Where no frame but a refresh frame comes into the queue as a freed entry is taken up, the look at the conditions finds what it would
have found before. -/
theorem takenUp_looked (refreshFirst : Bool) {x : State} (offers : OffersKnown x)
    (refreshes : ∀ g ∈ (takenUp refreshFirst x).lau.queue, g.source = .refresh) : RefreshLooked x (takenUp refreshFirst x) := by
  have admitted : QueueGrown x (arbiter x) := arbiter_grown offers
  cases refreshFirst
  · have taken : takenUp false x = idleExit (refreshStep (runRequests (arbiter x))) := rfl
    have ran : QueueGrown (arbiter x) (runRequests (arbiter x)) := runRequests_grown admitted.1
    have within : ∀ g ∈ (runRequests (arbiter x)).lau.queue, g.source = .refresh := fun g hg => refreshes g (by
      rw [taken, (leftBy_idleExit _).2]
      exact (refreshStep_effects _).queue.subset hg)
    have same := ran.same within
    have queue := same.trans (admitted.same (by rwa [← same]))
    refine looked_of_effects ((arbiter_effects x).trans (runRequests_effects _)) queue ?_
    rw [taken]
    exact RefreshLooked_congr (refreshStep_looked _) (by rw [idleExit_tsc]) (by rw [idleExit_tsc]) (leftBy_idleExit _).2
  · have taken : takenUp true x = runRequests (refreshStep (arbiter x)) := rfl
    have offered : OffersKnown (refreshStep (arbiter x)) := by
      have known := admitted.1
      unfold OffersKnown at known ⊢
      rwa [refreshStep_only]
    have same := (runRequests_grown offered).same refreshes
    have within : ∀ g ∈ (arbiter x).lau.queue, g.source = .refresh := fun g hg => refreshes g (by
      rw [taken, same]
      exact (refreshStep_effects _).queue.subset hg)
    refine looked_of_effects (arbiter_effects x) (admitted.same within) ?_
    have tsc := (runRequests_effects (refreshStep (arbiter x))).tsc
    exact RefreshLooked_congr (refreshStep_looked _) (by rw [taken, tsc]) (by rw [taken, tsc]) same

/-! ## A frame abandoned -/

theorem presenceStep_known {s : State} (h : OffersKnown s) : OffersKnown (presenceStep s) := by
  unfold presenceStep
  split
  · refine ⟨h.1, fun f offered => ?_⟩
    obtain rfl := Option.some.inj offered
    simp [presenceFrame]
  · exact h

theorem abandoned_known {s : State} (h : OffersKnown s) (f : TxFrame) (rest : List TxFrame) : OffersKnown (abandoned f rest s) := by
  unfold abandoned
  simp only [tellAbandoned_eq]
  split
  · exact presenceStep_known h
  · exact h

theorem offersKnown_of_outcomes {s : State} (h : OutcomeRules s) : OffersKnown s := by
  obtain ⟨own, presence, -⟩ := h
  exact ⟨fun f offered => by simp [own f offered], fun f offered => by simp [presence f offered]⟩

/-- An abandoned presence frame is offered again while FIRST PENDING or with the presence timer EXPIRED (R126). -/
theorem abandoned_again {s : State} {f : TxFrame} (presence : f.source = .presence) (sends : maySend s = true)
    (due : s.tsc.firstPending = true ∨ s.tsc.presenceTimer = .expired) (rest : List TxFrame) :
    (abandoned f rest s).tsc.presenceOutstanding = true ∧
      (abandoned f rest s).lau.presenceOffer = some (presenceFrame s s.tsc.firstPending) := by
  unfold abandoned
  simp only [tellAbandoned_eq]
  rw [if_pos presence, presenceStep, if_pos ⟨sends, if_pos presence, due⟩]
  exact ⟨rfl, rfl⟩

theorem abandoned_quiet {s : State} {f : TxFrame} (presence : f.source = .presence) (first : s.tsc.firstPending = false)
    (timer : s.tsc.presenceTimer ≠ .expired) (rest : List TxFrame) : (abandoned f rest s).tsc.presenceOutstanding = false := by
  unfold abandoned
  simp only [tellAbandoned_eq]
  rw [if_pos presence, presenceStep, if_neg (by simp [first, timer])]
  exact if_pos presence

/-- A presence frame offered is on its way until its outcome is told. -/
theorem presence_settling (again : TxFrame) :
    SettlingRule fun u => u.tsc.presenceOutstanding = true ∧ (again ∈ u.lau.queue ∨ u.lau.presenceOffer = some again) where
  admitPresence s h := by
    obtain ⟨out, way⟩ := h
    unfold admitPresence
    split
    · exact ⟨out, way⟩
    · next f offered =>
      split
      · refine ⟨out, .inl ?_⟩
        rcases way with queued | waits
        · exact List.mem_append_left _ queued
        · obtain rfl := Option.some.inj (offered.symm.trans waits)
          simp
      · exact ⟨out, way⟩
  admitReq s h := by
    obtain ⟨out, way⟩ := h
    unfold admitReq
    split
    · exact ⟨out, way⟩
    · split
      · exact ⟨out, way.imp (List.mem_append_left _) id⟩
      · exact ⟨out, way⟩
  build s w h _ _ := by
    unfold buildFrame
    split <;> exact h
  presence s h := by
    rw [presenceStep, if_neg (by simp [h.1])]
    exact h
  refresh s h := by
    obtain ⟨out, way⟩ := h
    unfold refreshStep
    split
    · split
      · exact ⟨out, way⟩
      · exact ⟨out, way.imp (List.mem_append_left _) id⟩
    · exact ⟨out, way⟩
  leaveIdle s h := by
    rw [idleExit_eq]
    exact h

/-- A slot with outcomes to come stays in progress with the records lost that it has. -/
theorem lost_settling (lost : Nat) :
    SettlingRule fun u => ∃ w, u.req.slot = some w ∧ w.outstanding ≠ 0 ∧ w.lost = lost where
  admitPresence s h := by rwa [admitPresence_req]
  admitReq s h := by rwa [admitReq_req]
  build s w h slot _ := by
    obtain ⟨v, same, -, e⟩ := h
    obtain rfl : w = v := Option.some.inj (slot.symm.trans same)
    unfold buildFrame
    split
    all_goals exact ⟨_, rfl, Nat.succ_ne_zero _, e⟩
  close s _ _ _ _ h known := by
    obtain ⟨w, slot, outstanding, -⟩ := h
    exact absurd (known w slot) outstanding
  start s h noSlot _ := by
    obtain ⟨w, slot, -⟩ := h
    simp [noSlot] at slot
  halt s w h slot := by
    obtain ⟨v, same, outstanding, e⟩ := h
    obtain rfl : w = v := Option.some.inj (slot.symm.trans same)
    exact ⟨_, rfl, outstanding, e⟩
  presence s h := by rwa [presenceStep_only]
  refresh s h := by rwa [refreshStep_only]
  leaveIdle s h := by rwa [idleExit_req]

theorem SettlingRule.takenUp {P : State → Prop} (rule : SettlingRule P) {s : State} (h : P s) (refreshFirst : Bool) :
    P (takenUp refreshFirst s) := rule.refill (rule.arbiter h) refreshFirst

/-! ## The obligation -/

/-- Outside SEND no guard expires. -/
theorem exec_guardExpiry_still {t : State} (still : t.lau.transmitter ≠ .send) : exec .guardExpiry t = .next t := by
  have e : exec .guardExpiry t = execGuardExpiry t := rfl
  rw [e, execGuardExpiry]
  split
  · next send _ _ => exact absurd send still
  · rfl

theorem exec_backoffEnd {s : State} (backoff : s.lau.transmitter = .backoff) :
    exec .backoffEnd s =
      .next { s with lau.backoff := none, lau.transmitter := if s.lrx.line = .quiet then .gap else .defer } := by
  simp [exec, execBackoffEnd, backoff]

theorem takeCollision_backsOff {s : State} (few : s.lau.attempts < 12) (f : TxFrame) (rest : List TxFrame) :
    takeCollision f rest s =
      { countUp .collisions s with
        lau.driver := false, lau.guard := false, lau.attempt := none, lau.transmitter := .backoff,
        lau.backoff := some (drawnSlots s.lau.attempts s.freeCount * 128), freeCount := s.freeCount + 1 } :=
  if_neg (Nat.not_le.mpr few)

/-- The first cell that differs, up to the one in which the guard expires, is a collision. -/
theorem exec_collision_sensed {s : State} {f : TxFrame} {rest : List TxFrame} {a : SentFrame} {beyond : List LineCell} {n : Nat}
    {driven heard : LineCell} (send : s.lau.transmitter = .send) (queue : s.lau.queue = f :: rest) (attempt : s.lau.attempt = some a)
    (inTime : n < 2048) (cell : (a.cells ++ beyond)[n]? = some driven) (differs : heard ≠ driven) :
    exec (.collision ((a.cells ++ beyond).take n ++ [heard]) beyond) s = .next (takeCollision f rest s) := by
  have short : ((a.cells ++ beyond).take n ++ [heard]).length ≤ 2048 := by
    have := List.length_take_le n (a.cells ++ beyond)
    rw [List.length_append, List.length_singleton]
    omega
  rw [exec_collision send queue attempt, if_pos ⟨short, sensesDifference_first cell differs⟩]

/-- What an abandonment leaves of the attempt, of the queue and of the counters. -/
theorem abandoning_leaves (s : State) (f : TxFrame) (rest : List TxFrame) (refreshFirst : Bool) {t : State}
    (ht : t = takenUp refreshFirst (abandoned f rest s)) :
    t.lau.driver = false ∧ t.lau.guard = false ∧ t.lau.attempt = none ∧ t.lau.attempts = 0 ∧
      t.lau.lastCompleted = s.lau.lastCompleted ∧ rest <+: t.lau.queue ∧ t.lrx = s.lrx ∧ TransmitterSettled .idle t ∧
      t.hpt.counters = collidedCounters s.hpt.counters := by
  have effects := takenUp_effects refreshFirst (abandoned f rest s)
  have settled := takenUp_settled refreshFirst (abandoned f rest s)
  rw [← ht] at effects settled
  obtain ⟨offer, outstanding, e⟩ := abandoned_eq f rest s
  rw [e] at effects settled
  obtain ⟨driver, guarded, attempted, attempts, number⟩ := sendEffects_attempt effects
  exact ⟨driver, guarded, attempted, attempts, number, effects.queue, effects.lrx, settled, by rw [effects.hpt]⟩

/-- An abandoned presence frame is offered again at need, and otherwise none is outstanding (R126). -/
theorem abandoning_presence {s : State} {f : TxFrame} (presence : f.source = .presence) (rest : List TxFrame) (refreshFirst : Bool)
    {t : State} (ht : t = takenUp refreshFirst (abandoned f rest s)) :
    (maySend s = true → s.tsc.firstPending = true ∨ s.tsc.presenceTimer = .expired →
        t.tsc.presenceOutstanding = true ∧
          (presenceFrame s s.tsc.firstPending ∈ t.lau.queue ∨ t.lau.presenceOffer = some (presenceFrame s s.tsc.firstPending))) ∧
      (s.tsc.firstPending = false → s.tsc.presenceTimer ≠ .expired → t.tsc.presenceOutstanding = false) := by
  subst ht
  refine ⟨fun sends due => ?_, fun first timer => ?_⟩
  · obtain ⟨out, offered⟩ := abandoned_again presence sends due rest
    exact (presence_settling _).takenUp ⟨out, .inr offered⟩ refreshFirst
  · rw [takenUp_tsc]
    exact abandoned_quiet presence first timer rest

/-- With the queue emptied by the abandonment the look finds what it would have found in the state before. -/
theorem abandoning_looked {s : State} (known : OffersKnown s) (f : TxFrame) (refreshFirst : Bool)
    (refreshes : ∀ g ∈ (takenUp refreshFirst (abandoned f [] s)).lau.queue, g.source = .refresh) :
    RefreshLooked { s with lau.queue := [] } (takenUp refreshFirst (abandoned f [] s)) := by
  have looked := takenUp_looked refreshFirst (abandoned_known known f []) refreshes
  obtain ⟨offer, outstanding, e⟩ := abandoned_eq f [] s
  refine RefreshLooked_before looked ?_ ?_ ?_ ?_ ?_ ?_ ?_ ?_ ?_
  all_goals rw [e]
  all_goals rfl

/-- A slot with other outcomes still to come has the abandoned frame's records among those lost (R115). -/
theorem abandoning_lost {s : State} {f : TxFrame} {w : SlotWork} (source : f.source = .req) (slot : s.req.slot = some w)
    (more : 2 ≤ w.outstanding) (rest : List TxFrame) (refreshFirst : Bool) :
    ∃ w', (takenUp refreshFirst (abandoned f rest s)).req.slot = some w' ∧ w'.lost = w.lost + f.size := by
  have told : (abandoned f rest s).req.slot = some { w with outstanding := w.outstanding - 1, lost := w.lost + f.size } := by
    obtain ⟨offer, outstanding, e⟩ := abandoned_eq f rest s
    rw [e, slot]
    simp [toldSlot_some, source]
  obtain ⟨w', kept, -, lost⟩ := (lost_settling (w.lost + f.size)).takenUp ⟨_, told, by simp; omega, rfl⟩ refreshFirst
  exact ⟨w', kept, lost⟩

/-- Settles O33: a collision backs off, or abandons the head frame, whose source the settling behind it does not undo. -/
theorem collisionBacksOffOrAbandons : Obligations.CollisionBacksOffOrAbandons := by
  refine ⟨fun s => exec_backoffEnd, fun s f rest a sensed beyond drive send queue attempt hdrive => ?_⟩
  subst hdrive
  refine ⟨fun none_sensed => ?_, fun n driven heard inTime cell hsensed differs => ?_⟩
  · rw [exec_collision send queue attempt, if_neg]
    rintro ⟨short, sensed⟩
    rcases none_sensed with agree | long
    · simp [sensesDifference_prefix agree] at sensed
    · omega
  subst hsensed
  rw [exec_collision_sensed send queue attempt inTime cell differs]
  by_cases few : s.lau.attempts < 12
  · rw [takeCollision_backsOff few]
    refine ⟨fun t ht => ?_, fun _ => ⟨_, Nat.mod_lt _ (Nat.two_pow_pos _), rfl⟩, fun last => absurd few (Nat.not_lt.mpr last)⟩
    obtain rfl := Host.Outcome.next.inj ht
    exact exec_guardExpiry_still (by simp)
  · have last : 12 ≤ s.lau.attempts := Nat.not_lt.mp few
    rw [takeCollision_abandons last]
    obtain ⟨driver, guarded, attempted, attempts, number, queued, lrx, settled, counters⟩ :=
      abandoning_leaves s f rest (Config.refreshFirst s.freeCount) rfl
    obtain ⟨notSend, notBackoff⟩ := settled_not_sending settled
    obtain ⟨collisions, abandonments⟩ := collidedCounters_get s.hpt.counters
    refine ⟨fun t ht => ?_, fun more => absurd more few, fun _ => ⟨_, rfl, driver, guarded, attempted, attempts, notSend, notBackoff,
      number, queued, lrx, settled, fun empty outcomes refreshes => ?_, by rw [counters, collisions],
      by rw [counters, abandonments], fun source w slot more => abandoning_lost source slot more rest _, fun presence => ?_⟩⟩
    · obtain rfl := Host.Outcome.next.inj ht
      exact exec_guardExpiry_still notSend
    · subst empty
      exact abandoning_looked (offersKnown_of_outcomes outcomes) f _ refreshes
    · obtain ⟨again, quiet⟩ := abandoning_presence presence rest (Config.refreshFirst s.freeCount) rfl
      refine ⟨fun sends due => ?_, quiet⟩
      obtain ⟨out, way⟩ := again sends due
      exact ⟨out, _, rfl, way⟩

end Sys2Proof.Laws
end

section
/-! SUPPORT. The entry to MUTED: what a mute notice leaves, seen from a state that the notice's cause has changed in nothing that the entry
looks at, and the obligations on its two causes (R73, R95, R96, R119, R161, R162). -/

namespace Sys2Proof.Laws

open Sys2Proof.Machine

/-! ## The request process in MUTED -/

/-- In MUTED, with nothing offered and every outcome known, the request process ends with no slot in progress, and touches neither image nor
line access unit. -/
theorem reqRun_muted_settled (n : Nat) {s : State} (muted : s.stc.station = .muted) (noReq : s.lau.reqOffer = none)
    (noPresence : s.lau.presenceOffer = none) (known : slotOutstanding s = 0) :
    (reqRun (n + 1) s).req.slot = none ∧ (reqRun (n + 1) s).imu = s.imu ∧ (reqRun (n + 1) s).lau = s.lau := by
  cases slot : s.req.slot with
  | none =>
    have still := reqRun_muted (n + 1) muted slot
    obtain ⟨imu, lau⟩ := reqRun_unsent (n + 1) slot still
    exact ⟨still, imu, lau⟩
  | some w =>
    have outstanding : w.outstanding = 0 := by simpa [slotOutstanding, slot] using known
    rw [reqRun_mutedCloses n muted slot noReq noPresence outstanding]
    have still := reqRun_muted n (s := closeSlot w.status w.remaining w.lost w.frames s) muted rfl
    obtain ⟨imu, lau⟩ := reqRun_unsent n (s := closeSlot w.status w.remaining w.lost w.frames s) rfl still
    exact ⟨still, imu, lau⟩

/-! ## The state at which a mute notice comes -/

/-- The state `m` in which a mute notice comes, with the frames `before` taken off the queue already: it agrees with `s` in all that the
entry to MUTED looks at. -/
structure MuteComes (before : List TxFrame) (s m : State) : Prop where
  req : m.req = s.req
  imu : m.imu = s.imu
  stc : m.stc = { s.stc with clashNotice := m.stc.clashNotice }
  tsc : m.tsc = s.tsc
  staging : m.hpt.staging = s.hpt.staging
  notify : m.hpt.notify = s.hpt.notify
  queue : before ++ m.lau.queue = s.lau.queue
  reqOffer : m.lau.reqOffer = s.lau.reqOffer
  presenceOffer : m.lau.presenceOffer = s.lau.presenceOffer
  lastCompleted : m.lau.lastCompleted = s.lau.lastCompleted
  counted : Nat.repeat Counter.increment m.lau.queue.length (m.hpt.counters.get .abandoned) =
    Nat.repeat Counter.increment s.lau.queue.length (s.hpt.counters.get .abandoned)

section Comes

variable {before : List TxFrame} {s m : State} (comes : MuteComes before s m)

include comes

theorem MuteComes.canonical : StoresCanonical m ↔ StoresCanonical s := by
  unfold StoresCanonical
  rw [comes.req, comes.staging, comes.notify, comes.stc]

theorem MuteComes.looked : lookedAt m = lookedAt s := by
  unfold lookedAt
  rw [comes.imu, comes.staging, comes.stc]

/-- The frames that a mute notice tells of hold all that are without an outcome. -/
theorem MuteComes.covered (outcomes : OutcomeRules s) :
    slotOutstanding m ≤ (before ++ m.lau.queue ++ (m.lau.reqOffer.toList ++ m.lau.presenceOffer.toList)).countP
        (fun f => f.source == .req) ∧
      (m.tsc.presenceOutstanding = true →
        (before ++ m.lau.queue ++ (m.lau.reqOffer.toList ++ m.lau.presenceOffer.toList)).any
          (fun f => f.source == .presence) = true) := by
  have slot : slotOutstanding m = slotOutstanding s := by unfold slotOutstanding; rw [comes.req]
  rw [comes.queue, comes.reqOffer, comes.presenceOffer, comes.tsc, slot]
  exact outcomeRules_covered outcomes

/-- A slot closed as seen from `m` is closed as seen from `s`. -/
theorem MuteComes.closed {t : State} {status : SlotStatus} {remaining lost frames : Nat} (canonical : StoresCanonical s)
    (closed : SlotClosedNextExamined m t status remaining lost frames) : SlotClosedNextExamined s t status remaining lost frames := by
  have ring : ∀ k w, ringWord m k w = ringWord s k w := fun k w => ringWord_congr (by rw [comes.req]) k w
  have cursor : m.req.cursor = s.req.cursor := by rw [comes.req]
  have process : m.req.process = s.req.process := by rw [comes.req]
  obtain ⟨back, done, v, ⟨behind, backV, canonicalV, others⟩, stopped, running⟩ := closed
  have handed : ∀ u, HandedBack m u status remaining lost frames → HandedBack s u status remaining lost frames := fun u h => by
    unfold HandedBack at h ⊢
    simpa only [ring, cursor] using h
  have reqV : v.req = { s.req with ring := v.req.ring, cursor := s.req.cursor + 1, slot := none } := by
    have e : v.req = { m.req with ring := v.req.ring, cursor := m.req.cursor + 1, slot := none } := by
      conv_lhs => rw [behind]
    rw [e, comes.req]
  have lookedV : lookedAt v = lookedAt m := by rw [behind]; rfl
  obtain ⟨staging, -, notify, window⟩ := canonical
  obtain ⟨stagingV, ringV, notifyV, windowV⟩ := canonicalV
  refine ⟨handed t back, done, { s with req := v.req }, ⟨?_, ?_, ⟨staging, ringV, notify, window⟩, fun k hk w hw => ?_⟩,
    fun rests => stopped (by rwa [process]), fun runs => ?_⟩
  · conv_lhs => rw [reqV]
  · exact handed { s with req := v.req } backV
  · exact (others k (by rwa [cursor]) w hw).trans (ring k w)
  · refine CursorSlotExamined_congr (running (by rwa [process])) rfl (comes.looked.symm.trans lookedV.symm)
      (fun _ => ⟨stagingV, ringV, notifyV, windowV⟩) (fun none => ?_) rfl List.prefix_rfl
    rw [behind]
    exact comes.reqOffer.trans none

end Comes

/-- The records of the REQ's frames, where the frame that waits at the TSC's side is no REQ frame. -/
theorem lostRecords_presence {frames : List TxFrame} {offer : Option TxFrame} (presence : ∀ f, offer = some f → f.source = .presence)
    (more : List TxFrame) : lostRecords (frames ++ (more ++ offer.toList)) = lostRecords (frames ++ more) := by
  have none_lost : (offer.toList.filter fun f => f.source == .req) = [] :=
    List.filter_eq_nil_iff.mpr fun f hf => by simp [presence f (by simpa using hf)]
  simp [lostRecords, List.filter_append, none_lost]

/-! ## What a mute notice leaves -/

section Mute

variable {before : List TxFrame} {s m : State} (comes : MuteComes before s m) (outcomes : OutcomeRules s)
  (station : s.stc.station = .joining ∨ s.stc.station = .active) (cause : MutedCause)

include comes station

theorem muteNotice_runs : muteNotice cause before m = reqRun 40 (flushLau before (stopStation cause m)) :=
  if_pos (by rw [comes.stc]; exact station)

omit station in
include outcomes in
/-- The flush tells every frame without an outcome (R96). -/
theorem flush_tells : slotOutstanding (flushLau before (stopStation cause m)) = 0 ∧
    (flushLau before (stopStation cause m)).tsc.presenceOutstanding = false := by
  obtain ⟨requests, presences⟩ := comes.covered outcomes
  have flushed : OutcomeRules (flushLau before (stopStation cause m)) :=
    flushLau_outcomes (s := stopStation cause m) requests presences
  rw [outcomeRules_iff] at flushed
  obtain ⟨-, -, counted, presence⟩ := flushed
  simp only [reqQueued, presenceQueued, flushLau_lau] at counted presence
  exact ⟨counted.symm, Bool.toNat_eq_zero.mp presence.symm⟩

include outcomes

/-- What the request process behind the flush leaves of the sending side. -/
theorem muteNotice_leaves :
    (muteNotice cause before m).req.slot = none ∧ (muteNotice cause before m).imu = s.imu ∧
      (muteNotice cause before m).lau = { State.reset.lau with lastCompleted := s.lau.lastCompleted } := by
  have offers : (flushLau before (stopStation cause m)).lau.reqOffer = none ∧
      (flushLau before (stopStation cause m)).lau.presenceOffer = none := by
    rw [flushLau_lau]
    exact ⟨rfl, rfl⟩
  have muted : (flushLau before (stopStation cause m)).stc.station = .muted := by
    rw [flushLau_frame]
    rfl
  obtain ⟨slot, imu, lau⟩ := reqRun_muted_settled 39 muted offers.1 offers.2 (flush_tells comes outcomes cause).1
  rw [muteNotice_runs comes station]
  refine ⟨slot, imu.trans ?_, lau.trans ?_⟩
  · rw [flushLau_frame, ← comes.imu]
    rfl
  · rw [flushLau_lau, ← comes.lastCompleted]
    rfl

/-- What a mute notice leaves beside the sending side. -/
theorem muteNotice_kept :
    let t := muteNotice cause before m
    t.stc = { m.stc with station := .muted, mutedCause := cause, joinTimer := none } ∧
      t.tsc = { s.tsc with
        refreshTimer := .stopped, presenceTimer := .stopped, firstPending := false, presenceOutstanding := false } ∧
      t.hpt.counters =
        m.hpt.counters.set (Nat.repeat Counter.increment s.lau.queue.length (s.hpt.counters.get .abandoned)) .abandoned ∧
      t.hpt.flags = { m.hpt.flags with requestDone := t.hpt.flags.requestDone, requestsIdle := t.hpt.flags.requestsIdle } ∧
      t.lrx = m.lrx ∧ t.pmn = m.pmn ∧ t.stu = m.stu := by
  intro t
  have e : RequestEffects (flushLau before (stopStation cause m)) t :=
    muteNotice_effects (by rw [comes.stc]; exact station) cause before
  have presence := (flush_tells comes outcomes cause).2
  have frame := flushLau_frame before (stopStation cause m)
  refine ⟨?_, ?_, ?_, ?_, ?_, ?_, ?_⟩
  · rw [e.stc, frame]
    rfl
  · rw [e.tsc, frame, presence, ← comes.tsc]
    rfl
  · rw [← comes.counted]
    exact (congrArg Hpt.counters e.hpt).trans (congrArg (fun u : State => u.hpt.counters) frame)
  · have flags := congrArg Hpt.flags e.hpt
    rwa [frame] at flags
  · rw [e.lrx, frame]
    rfl
  · rw [e.pmn, frame]
    rfl
  · rw [e.stu, frame]
    rfl

/-- The entry to MUTED, seen from the state before its cause. -/
theorem muteNotice_muteEffects : MuteEffects cause s (muteNotice cause before m) := by
  obtain ⟨slot, imu, lau⟩ := muteNotice_leaves comes outcomes station cause
  obtain ⟨stc, tsc, counters, -⟩ := muteNotice_kept comes outcomes station cause
  have runs := muteNotice_runs comes station cause
  have frame := flushLau_frame before (stopStation cause m)
  have noSlot : s.req.slot = none → (flushLau before (stopStation cause m)).req = s.req := fun none => by
    simp only [flushLau, tellAll_eq, countAbandoned_eq]
    show ({ m.req with slot := m.req.slot.map _ } : Req) = _
    rw [comes.req, none, Option.map_none, ← none]
  refine ⟨?_, lau, slot, tsc, by rw [counters, get_set_same], fun none rests => ?_, fun none running => ?_,
    fun w lost inProgress canonical total => ?_⟩
  · rw [stc, comes.stc]
  · have req := noSlot none
    rw [runs, reqRun_rests (by rw [req, none]) (.inl (by rwa [req])), req]
  · have req := noSlot none
    have muted : (flushLau before (stopStation cause m)).stc.station = .muted := by rw [frame]; rfl
    have examined := reqRun_examined 22 (s := flushLau before (stopStation cause m)) (by rw [req, none]) (by rw [req, running])
      ((examines_iff _).mpr (.inr muted))
    rw [runs]
    refine CursorSlotExamined_congr examined req.symm ?_ (fun canonical => ?_) (fun _ => ?_) rfl List.prefix_rfl
    · rw [← comes.looked, frame]
      rfl
    · have canonical := comes.canonical.mpr canonical
      unfold StoresCanonical at canonical ⊢
      rw [req, ← comes.req, frame]
      exact canonical
    · rw [flushLau_lau]
      rfl
  · have presence : ∀ f, m.lau.presenceOffer = some f → f.source = .presence := by
      obtain ⟨-, presence, -⟩ := outcomes
      rwa [comes.presenceOffer]
    have sum : lost = w.lost +
        lostRecords (before ++ m.lau.queue ++ (m.lau.reqOffer.toList ++ m.lau.presenceOffer.toList)) := by
      rw [lostRecords_presence presence, comes.queue, comes.reqOffer]
      exact total
    have covered := (comes.covered outcomes).1
    simp only [slotOutstanding, comes.req, inProgress, Option.map_some, Option.getD_some] at covered
    obtain ⟨closed, -, stopped, running⟩ := muteNotice_closes (by rw [comes.stc]; exact station) cause before
      (by rw [comes.req, inProgress]) (comes.canonical.mpr canonical) lost sum covered
    rw [comes.req] at stopped running
    refine ⟨comes.closed canonical closed, stopped, fun runs => ?_⟩
    obtain ⟨host, suspends⟩ := running runs
    refine ⟨host, fun next => suspends ?_⟩
    unfold NextSlotHostOwned at next ⊢
    rw [comes.req, ringWord_congr (s := s) (t := m) (by rw [comes.req])]
    exact next

end Mute

/-! ## A guard that trips (R95) -/

theorem repeat_increment (n : Nat) (c : Counter) :
    Nat.repeat Counter.increment n c.increment = Nat.repeat Counter.increment (n + 1) c := by
  induction n with
  | zero => rfl
  | succ n ih => exact congrArg Counter.increment ih

theorem set_abandoned_twice (c : Counters) (v w : Counter) : (c.set v .abandoned).set w .abandoned = c.set w .abandoned := rfl

theorem exec_guardExpiry {s : State} {f : TxFrame} {rest : List TxFrame} (send : s.lau.transmitter = .send)
    (queue : s.lau.queue = f :: rest) (active : s.stc.station = .active) : exec .guardExpiry s = .next (tripGuard f rest s) := by
  have e : exec .guardExpiry s = execGuardExpiry s := rfl
  rw [e, execGuardExpiry, send, queue, active]

/-- The state in which the guard's notice comes. -/
def guardTripped (rest : List TxFrame) (s : State) : State :=
  raiseFlag .guardTrip (countUp .abandoned { driverOff s with lau.queue := rest, lau.attempts := 0, lau.transmitter := .off })

theorem guardTripped_comes {s : State} {f : TxFrame} {rest : List TxFrame} (queue : s.lau.queue = f :: rest) :
    MuteComes [f] s (guardTripped rest s) where
  req := rfl
  imu := rfl
  stc := rfl
  tsc := rfl
  staging := rfl
  notify := rfl
  queue := queue.symm
  reqOffer := rfl
  presenceOffer := rfl
  lastCompleted := rfl
  counted := by
    rw [queue]
    exact repeat_increment rest.length (s.hpt.counters.get .abandoned)

theorem exec_collision_still {t : State} (still : t.lau.transmitter ≠ .send) (sensed beyond : List LineCell) :
    exec (.collision sensed beyond) t = .next t := by
  have e : exec (.collision sensed beyond) t = execCollision t sensed beyond := rfl
  rw [e, execCollision]
  split
  · next send _ _ => exact absurd send still
  · rfl

/-- Settles O35: the guard's notice comes with the head frame abandoned, and the entry to MUTED follows. -/
theorem guardExpiryMutes : Obligations.GuardExpiryMutes := by
  intro s f rest send queue active outcomes
  have comes := guardTripped_comes queue
  obtain ⟨slot, imu, lau⟩ := muteNotice_leaves comes outcomes (.inr active) .guard
  obtain ⟨stc, tsc, counters, flags, lrx, pmn, stu⟩ := muteNotice_kept comes outcomes (.inr active) .guard
  refine ⟨_, exec_guardExpiry send queue active, ?_, muteNotice_muteEffects comes outcomes (.inr active) .guard, stc, lau, slot, tsc,
    counters.trans (set_abandoned_twice _ _ _), lrx, imu, pmn, stu, exec_collision_still ?_⟩
  · exact congrArg Flags.guardTrip flags
  · have off : (tripGuard f rest s).lau.transmitter = .off := congrArg Lau.transmitter lau
    simp [off]

/-! ## An identity clash (R73, R162) -/

/-- The state in which a frame that has ended is checked. -/
def frameEnded (s : State) : State := { quietLine s with lrx.assembly := .idle }

/-- The state in which the notice of an identity clash comes. -/
def clashNoticed (s : State) : State := { raiseFlag .identityClash (frameEnded s) with stc.clashNotice := true }

theorem exec_frameEnd {s : State} (assembling : s.lrx.assembly = .assemble) (heard : Heard) (waits : Bool) :
    exec (.frameEnd heard waits) s = .next (checkFrame (assembleFrame heard) waits (frameEnded s)) :=
  congrArg Host.Outcome.next (if_pos assembling)

theorem exec_frameEnd_clash {s : State} {f : Frame} {heard : Heard} (assembling : s.lrx.assembly = .assemble)
    (accepted : acceptFrame (assembleFrame heard) = some f) (own : f.sender = stationNumber s) (waits : Bool) :
    exec (.frameEnd heard waits) s = .next (if waits then clashNoticed s else takeClashNotice (clashNoticed s)) := by
  rw [exec_frameEnd assembling, checkFrame, accepted]
  exact congrArg Host.Outcome.next (if_pos own)

theorem clashNoticed_comes (s : State) : MuteComes [] s { clashNoticed s with stc.clashNotice := false } :=
  ⟨rfl, rfl, rfl, rfl, rfl, rfl, rfl, rfl, rfl, rfl, rfl⟩

theorem clashNotice_comes (s : State) : MuteComes [] s { s with stc.clashNotice := false } :=
  ⟨rfl, rfl, rfl, rfl, rfl, rfl, rfl, rfl, rfl, rfl, rfl⟩

/-- Settles O30: the notice mutes a station that joins or is active, whether taken at the frame's end or later, and no other. -/
theorem identityClashMutes : Obligations.IdentityClashMutes := by
  intro s outcomes
  refine ⟨fun heard waits f assembling accepted own => ⟨_, exec_frameEnd_clash assembling accepted own waits, ?_⟩,
    fun empty waiting => ⟨fun station => ?_, fun joining active => ?_⟩⟩
  · cases waits with
    | true => exact ⟨rfl, rfl, rfl, rfl, rfl, fun _ _ => rfl, fun _ => ⟨rfl, rfl, rfl, rfl⟩, nofun, nofun⟩
    | false =>
      by_cases station : s.stc.station = .joining ∨ s.stc.station = .active
      · have comes := clashNoticed_comes s
        obtain ⟨-, imu, -⟩ := muteNotice_leaves comes outcomes station .identity
        obtain ⟨stc, -, counters, flags, lrx, pmn, stu⟩ := muteNotice_kept comes outcomes station .identity
        refine ⟨flags, lrx, pmn, stu, imu, fun n other => ?_, nofun, fun _ muted => ?_,
          fun _ _ => ⟨muteNotice_muteEffects comes outcomes station .identity, congrArg Stc.clashNotice stc⟩⟩
        · exact (congrArg (Counters.get · n) counters).trans (get_set_other _ _ other)
        · simp [muted] at station
      · obtain ⟨joining, active⟩ := not_or.mp station
        have ignored : takeClashNotice (clashNoticed s) = { clashNoticed s with stc.clashNotice := false } :=
          takeClashNotice_ignored joining active
        simp only [Bool.false_eq_true, if_false]
        rw [ignored]
        exact ⟨rfl, rfl, rfl, rfl, rfl, fun _ _ => rfl, nofun, fun _ _ => ⟨rfl, rfl, rfl, rfl, rfl⟩,
          fun _ enters => absurd enters station⟩
  · have run : step s = .next (takeClashNotice s) := by simp [step, empty, idleStep, waiting]
    have comes := clashNotice_comes s
    obtain ⟨-, imu, -⟩ := muteNotice_leaves comes outcomes station .identity
    obtain ⟨stc, -, -, flags, lrx, pmn, stu⟩ := muteNotice_kept comes outcomes station .identity
    exact ⟨_, run, muteNotice_muteEffects comes outcomes station .identity, congrArg Stc.clashNotice stc, lrx, pmn, stu, imu, flags⟩
  · have run : step s = .next (takeClashNotice s) := by simp [step, empty, idleStep, waiting]
    rw [run, takeClashNotice_ignored joining active]

end Sys2Proof.Laws
end

section
/-! SUPPORT. The line receiver's commands but for the check of a frame, an attempt as it is driven and as it is heard, and the obligations
on them (R69, R70, R87, R88, R176). -/

namespace Sys2Proof.Laws

open Sys2Proof.Machine

/-! ## The line (R69, R70) -/

theorem exec_lineBusy {s : State} (quiet : s.lrx.line = .quiet) (on : s.lrx.assembly ≠ .off) (past : s.lrx.assembly ≠ .assemble) :
    exec .lineBusy s = .next (becomeBusy s) := congrArg Host.Outcome.next (if_pos ⟨on, quiet, past⟩)

theorem assemblyAtQuiet_on {a : Assembly} (on : a ≠ .off) : assemblyAtQuiet a = if a = .assemble then .assemble else .idle := by
  cases a with
  | off => exact absurd rfl on
  | _ => rfl

theorem exec_lineQuiet {s : State} (busy : s.lrx.line = .busy) (on : s.lrx.assembly ≠ .off) (still : s.lau.driver = false) :
    exec .lineQuiet s = .next { quietLine s with lrx.assembly := assemblyAtQuiet s.lrx.assembly } :=
  congrArg Host.Outcome.next (if_pos ⟨on, busy, still⟩)

theorem heardBits_encodeCells (before : Bool) (bits : List Bool) :
    heardBits { before := before, cells := encodeCells before bits } = bits.map some := decodeCells_encodeCells before bits

theorem exec_startPatternFound {s : State} (hunting : s.lrx.assembly = .hunt) {heard : Heard}
    (found : huntStart (heardBits heard) = some []) : exec (.startPatternFound heard) s = .next { s with lrx.assembly := .assemble } :=
  congrArg Host.Outcome.next (if_pos ⟨hunting, found⟩)

theorem exec_startPatternFound_absent {s : State} {heard : Heard} (absent : huntStart (heardBits heard) = none) :
    exec (.startPatternFound heard) s = .next s := congrArg Host.Outcome.next (if_neg (by simp [absent]))

theorem startPattern_bits : byteBits startPattern = [true, true, false, false, true, false, true, true] := by decide

/-- Settles O28: the receiver follows the line, and HUNT ends at the first start pattern heard. -/
theorem lineStateChanges : Obligations.LineStateChanges := by
  intro s
  refine ⟨fun quiet on past => exec_lineBusy quiet on past, fun busy on still => ?_, fun hunting before bits => ?_⟩
  · rw [exec_lineQuiet busy on still, assemblyAtQuiet_on on]
    rfl
  · intro pattern
    have isPattern : pattern = byteBits startPattern := startPattern_bits.symm
    rw [isPattern]
    refine ⟨fun n ends first => exec_startPatternFound hunting ?_, fun absent => exec_startPatternFound_absent ?_⟩
    · rw [heardBits_encodeCells]
      exact huntStart_first ends first
    · rw [heardBits_encodeCells]
      exact huntStart_absent absent

/-! ## The bytes of a frame (tables 11-2 to 11-5) -/

theorem wordBytes_toNat (w : Word) : (wordBytes w).map BitVec.toNat = [w.toNat / 256, w.toNat % 256] := by
  have bound := w.isLt
  simp only [wordBytes, List.map_cons, List.map_nil, BitVec.extractLsb'_toNat, Nat.shiftRight_eq_div_pow]
  congr 1
  · exact Nat.mod_eq_of_lt (by omega)
  · simp

theorem itemWord_toNat (item : ItemNo) {n : Nat} (short : n < 16) : (item ++ BitVec.ofNat 4 n : Word).toNat = 16 * item.toNat + n := by
  rw [BitVec.toNat_append, BitVec.toNat_ofNat, Nat.mod_eq_of_lt short, Nat.shiftLeft_eq, Nat.mul_comm]
  exact Nat.two_pow_add_eq_or_of_lt (i := 4) short item.toNat ▸ rfl

/-- The bytes of a record as numbers (table 11-3). -/
theorem recordBytes_toNat {r : Record} (short : r.value.length < 16) :
    (recordBytes r).map BitVec.toNat =
      [r.item.toNat / 16, r.item.toNat % 16 * 16 + r.value.length, r.version.toNat / 256, r.version.toNat % 256] ++
        r.value.flatMap fun v => [v.toNat / 256, v.toNat % 256] := by
  have values : (r.value.flatMap wordBytes).map BitVec.toNat = r.value.flatMap fun v => [v.toNat / 256, v.toNat % 256] := by
    rw [List.map_flatMap]
    exact List.flatMap_congr fun v _ => wordBytes_toNat v
  have head : [(16 * r.item.toNat + r.value.length) / 256, (16 * r.item.toNat + r.value.length) % 256] =
      [r.item.toNat / 16, r.item.toNat % 16 * 16 + r.value.length] := by
    congr 1
    · omega
    · congr 1
      omega
  rw [recordBytes, List.map_append, List.map_append, wordBytes_toNat, wordBytes_toNat, values, itemWord_toNat _ short, head]
  rfl

theorem controlByte_toNat (first refresh : Bool) {n : Nat} (few : n < 16) :
    (controlByte first refresh n).toNat = 128 * first.toNat + 64 * refresh.toNat + n := by
  have one := Bool.toNat_le first
  have two := Bool.toNat_le refresh
  rw [controlByte, BitVec.toNat_ofNat, Nat.mod_eq_of_lt few, Nat.mod_eq_of_lt (by omega)]
  omega

theorem kindByte_toNat (b : Body) :
    b.kindByte.toNat = match b with | .update _ => 0x51 | .gate _ _ => 0x52 | .presence _ => 0x53 := by
  cases b <;> rfl

/-- The bytes of a frame's body as numbers (tables 11-3 to 11-5). -/
theorem bodyBytes_toNat {b : Body} (short : ∀ r ∈ b.records, r.value.length ≤ 8) :
    (bodyBytes b).map BitVec.toNat =
      match b with
      | .update records => records.flatMap fun r =>
        [r.item.toNat / 16, r.item.toNat % 16 * 16 + r.value.length, r.version.toNat / 256, r.version.toNat % 256] ++
          r.value.flatMap fun v => [v.toNat / 256, v.toNat % 256]
      | .gate g number => [g.val, number.toNat]
      | .presence check => [check.toNat / 256, check.toNat % 256] := by
  cases b with
  | update records =>
    rw [bodyBytes, List.map_flatMap]
    exact List.flatMap_congr fun r hr => recordBytes_toNat (Nat.lt_of_le_of_lt (short r hr) (by decide))
  | gate g number => simp [bodyBytes, Nat.mod_eq_of_lt (Nat.lt_of_lt_of_le g.isLt (by decide : 4 ≤ 256))]
  | presence check => exact wordBytes_toNat check

theorem recordCount_eq (b : Body) : b.recordCount = b.records.length := by
  cases b <;> rfl

/-- The bytes of a frame from KIND on as numbers (table 11-2). -/
theorem frameBytes_toNat (sender : Station) (sequence : Byte) (first refresh : Bool) {b : Body}
    (few : b.records.length ≤ 8) :
    (frameBytes sender sequence first refresh b).map BitVec.toNat =
      [b.kindByte.toNat, sender.val, sequence.toNat, 128 * first.toNat + 64 * refresh.toNat + b.records.length] ++
        (bodyBytes b).map BitVec.toNat := by
  have number : (BitVec.ofNat 8 sender.val).toNat = sender.val := by
    rw [BitVec.toNat_ofNat]
    exact Nat.mod_eq_of_lt (Nat.lt_of_lt_of_le sender.isLt (by decide))
  rw [frameBytes, List.map_append, recordCount_eq]
  simp only [List.map_cons, List.map_nil, number, controlByte_toNat first refresh (Nat.lt_of_le_of_lt few (by decide))]

/-! ## The cells of an attempt (R176) -/

/-- Bit `k` of byte `j` of a run of bytes in line order. -/
theorem flatMap_byteBits_getElem? {bytes : List Byte} {j : Nat} {b : Byte} (byte : bytes[j]? = some b) {k : Nat} (inByte : k < 8) :
    (bytes.flatMap byteBits)[8 * j + k]? = some (b.getLsbD k) := by
  induction bytes generalizing j with
  | nil => simp at byte
  | cons c rest ih =>
    rw [List.flatMap_cons]
    cases j with
    | zero =>
      obtain rfl : c = b := by simpa using byte
      rw [Nat.mul_zero, Nat.zero_add, List.getElem?_append_left (by simpa using inByte)]
      simp [byteBits, inByte]
    | succ j =>
      rw [List.getElem?_append_right (by simp; omega), byteBits_length, show 8 * (j + 1) + k - 8 = 8 * j + k by omega]
      exact ih (by simpa using byte)

theorem lineBits_take (bytes : List Byte) :
    (lineBits bytes).take 24 = [true, false, true, false, true, false, true, false, true, false, true, false, true, false, true, false,
      true, true, false, false, true, false, true, true] := by
  have head : leadIn ++ byteBits startPattern = [true, false, true, false, true, false, true, false, true, false, true, false, true,
      false, true, false, true, true, false, false, true, false, true, true] := by decide
  rw [lineBits, head]
  rfl

theorem lineBits_getElem? {bytes : List Byte} {j : Nat} {b : Byte} (byte : bytes[j]? = some b) {k : Nat} (inByte : k < 8) :
    (lineBits bytes)[24 + 8 * j + k]? = some (b.getLsbD k) := by
  have length : (leadIn ++ byteBits startPattern).length = 24 := by decide
  rw [lineBits, List.getElem?_append_right (by rw [length]; omega), length, show 24 + 8 * j + k - 24 = 8 * j + k by omega]
  exact flatMap_byteBits_getElem? byte inByte

/-- The level that cell `k` of a run begins against. -/
theorem levelAfter_take {before : Bool} {cells : List LineCell} {k : Nat} (inside : k < cells.length) :
    some (levelAfter before (cells.take k)) = if k = 0 then some before else cells[k - 1]?.map LineCell.secondHalf := by
  cases k with
  | zero => rfl
  | succ k =>
    have last : (cells.take (k + 1)).getLast? = cells[k]? := by
      rw [List.getLast?_take]
      simp [List.getElem?_eq_getElem (show k < cells.length by omega)]
    rw [levelAfter, last, if_neg (Nat.succ_ne_zero k), Nat.add_sub_cancel]
    simp [List.getElem?_eq_getElem (show k < cells.length by omega)]

/-- A cell of a run of bits begins against the level before it, and changes at its middle for a 1. -/
theorem encodeCells_cell {before : Bool} {bits : List Bool} {k : Nat} {cell : LineCell} {bit : Bool}
    (found : (encodeCells before bits)[k]? = some cell) (isBit : bits[k]? = some bit) :
    some cell.firstHalf =
        ((if k = 0 then some before else (encodeCells before bits)[k - 1]?.map LineCell.secondHalf).map not) ∧
      cell.secondHalf = (if bit then !cell.firstHalf else cell.firstHalf) := by
  have inside : k < (encodeCells before bits).length := (List.getElem?_eq_some_iff.mp found).1
  rw [encodeCells_getElem?, isBit, Option.map_some] at found
  obtain rfl := Option.some.inj found
  rw [← levelAfter_take inside]
  refine ⟨rfl, ?_⟩
  cases bit <;> simp

/-! ## The gap ends (R87) -/

theorem receiveRoom_iff (s : State) : receiveRoom s = true ↔ s.lrx.queue.length < 4 := by
  simp [receiveRoom]

theorem exec_gapEnd {s : State} {f : TxFrame} {others : List TxFrame} (gap : s.lau.transmitter = .gap)
    (past : s.lrx.assembly ≠ .assemble) (queue : s.lau.queue = f :: others) (rest : Bool) :
    exec (.gapEnd rest) s =
      .next (if receiveRoom s then beginAttempt rest f s else { s with lau.transmitter := .idle }) := by
  have e : exec (.gapEnd rest) s = .next (if s.lau.transmitter = .gap ∧ s.lrx.assembly ≠ .assemble then endGap rest s else s) := rfl
  rw [e, if_pos ⟨gap, past⟩, endGap, queue]

/-- Settles O32: an attempt begins with the head frame filled in, and drives its bits. -/
theorem gapEndBeginsAttempt : Obligations.GapEndBeginsAttempt := by
  intro s f others rest gap past queue
  rw [exec_gapEnd gap past queue]
  refine ⟨fun full => ?_, fun room q body a hq hbody ha => ?_⟩
  · rw [if_neg (by rw [receiveRoom_iff]; omega)]
  have sent : a = sentFrame s rest f := by
    subst hq hbody ha
    unfold sentFrame sentBody
    cases f.body <;> rfl
  have bodySent : body = sentBody s f.body := by
    rw [hbody]
    unfold sentBody
    cases f.body <;> rfl
  have lineBytes : a.lineBytes = frameBytes f.sender q f.first f.refresh body ++ wordBytes a.check := by
    rw [ha]
    rfl
  refine ⟨?_, fun short few => ?_, lineBits a.lineBytes, encodeCells_length _ _, lineBits_length _, lineBytes, lineBits_take _,
    fun j b byte k inByte => lineBits_getElem? byte inByte, fun k cell bit found isBit => ?_⟩
  · rw [if_pos ((receiveRoom_iff s).mpr room), sent]
    rfl
  · have records : body.records = f.body.records := by rw [bodySent, sentBody_records]
    have bytes : a.lineBytes.take (a.lineBytes.length - 2) = frameBytes f.sender q f.first f.refresh body := by
      rw [lineBytes, List.length_append]
      exact List.take_left
    rw [bytes, frameBytes_toNat _ _ _ _ (by rwa [records]), records, kindByte_toNat,
      bodyBytes_toNat (by rwa [records])]
    cases body <;> rfl
  · have rested : a.rest = rest := by rw [ha]
    rw [← rested]
    exact encodeCells_cell found isBit

end Sys2Proof.Laws
end

section
/-! SUPPORT. Frames written as bytes and read back: words, records and bodies, the check, and the obligations on an attempt as it is heard
and on a frame that ends (R65 to R68, R70, R71, R73, R75). -/

namespace Sys2Proof.Laws

open Sys2Proof.Machine

/-! ## Reading back what was written -/

/-- A word of its two bytes. -/
theorem wordOf_wordBytes (w : Word) : wordOf (w.extractLsb' 8 8) (w.extractLsb' 0 8) = w :=
  BitVec.eq_of_toNat_eq ((wordOf_toNat _ _).trans ((wordBytes_eq_iff _ _ w).mp rfl))

theorem takeWords_wordBytes (value : List Word) (rest : List Byte) :
    takeWords value.length (value.flatMap wordBytes ++ rest) = some (value, rest) := by
  induction value with
  | nil => rfl
  | cons w value ih =>
    rw [List.flatMap_cons, List.append_assoc]
    show (takeWords value.length (value.flatMap wordBytes ++ rest)).map _ = _
    rw [ih, Option.map_some, wordOf_wordBytes]

/-- A record head holds item and LENGTH (table 11-3). -/
theorem recordHead_item (item : ItemNo) (n : Nat) : (item ++ BitVec.ofNat 4 n : Word).extractLsb' 4 12 = item := by
  refine BitVec.eq_of_toNat_eq ?_
  have bound := item.isLt
  have low := (BitVec.ofNat 4 n).isLt
  rw [BitVec.extractLsb'_toNat, BitVec.toNat_append, Nat.shiftLeft_eq, Nat.mul_comm, ← Nat.two_pow_add_eq_or_of_lt low,
    Nat.shiftRight_eq_div_pow]
  omega

theorem recordHead_length (item : ItemNo) {n : Nat} (short : n ≤ 8) : bitField 0 4 (item ++ BitVec.ofNat 4 n : Word) = n := by
  rw [bitField, itemWord_toNat item (by omega)]
  omega

/-- Records written one after another are read back (R66). -/
theorem parseRecords_recordBytes {records : List Record} (lengths : ∀ r ∈ records, 1 ≤ r.value.length ∧ r.value.length ≤ 8) :
    parseRecords records.length (records.flatMap recordBytes) = some records := by
  induction records with
  | nil => rfl
  | cons r records ih =>
    obtain ⟨one, eight⟩ := lengths r List.mem_cons_self
    have rest := ih fun r hr => lengths r (List.mem_cons_of_mem _ hr)
    have bytes : (r :: records).flatMap recordBytes =
        wordBytes (r.item ++ BitVec.ofNat 4 r.value.length) ++ (wordBytes r.version ++
          (r.value.flatMap wordBytes ++ records.flatMap recordBytes)) := by
      simp only [List.flatMap_cons, recordBytes, List.append_assoc]
    rw [bytes]
    simp only [wordBytes, List.cons_append, List.nil_append, List.length_cons, parseRecords, wordOf_wordBytes]
    rw [recordHead_length _ eight, if_pos ⟨one, eight⟩]
    rw [takeWords_wordBytes]
    simp only [rest, Option.map_some, recordHead_item]

/-- A body written is read back by its KIND and RECORD COUNT. -/
theorem parseBody_bodyBytes {b : Body} (lengths : ∀ r ∈ b.records, 1 ≤ r.value.length ∧ r.value.length ≤ 8)
    (count : ∀ records, b = .update records → 1 ≤ records.length ∧ records.length ≤ 8) :
    parseBody b.kindByte b.records.length (bodyBytes b) = some b := by
  cases b with
  | update records =>
    have read := parseRecords_recordBytes lengths
    simp only [parseBody, Body.kindByte, if_true, Body.records, count records rfl, and_self, bodyBytes]
    rw [show parseRecords records.length (records.flatMap recordBytes) = some records from read]
    rfl
  | gate g number =>
    have bound : g.val < 4 := g.isLt
    have small : (BitVec.ofNat 8 g.val).toNat = g.val := by simp; omega
    simp [parseBody, Body.kindByte, bodyBytes, Body.records, small, bound]
  | presence check =>
    have word := wordOf_wordBytes check
    simp [parseBody, Body.kindByte, bodyBytes, Body.records, wordBytes, word]

theorem byte_getLsbD (b : Byte) (k : Nat) : b.getLsbD k = decide (b.toNat / 2 ^ k % 2 = 1) := by
  simp [BitVec.getLsbD, Nat.testBit_eq_decide_div_mod_eq]

/-- The CONTROL byte read bit by bit (table 11-2). -/
theorem controlByte_bits (first refresh : Bool) {n : Nat} (few : n ≤ 8) :
    (controlByte first refresh n).getLsbD 7 = first ∧ (controlByte first refresh n).getLsbD 6 = refresh ∧
      (controlByte first refresh n).getLsbD 5 = false ∧ (controlByte first refresh n).getLsbD 4 = false ∧
      (controlByte first refresh n).toNat % 16 = n := by
  simp only [byte_getLsbD, controlByte_toNat first refresh (show n < 16 by omega)]
  cases first <;> cases refresh <;> simp <;> omega

/-- A frame written is read back as a remote one (R65 to R67). -/
theorem parseFrame_frameBytes {sender : Station} {sequence : Byte} {first refresh : Bool} {b : Body}
    (lengths : ∀ r ∈ b.records, 1 ≤ r.value.length ∧ r.value.length ≤ 8)
    (count : ∀ records, b = .update records → 1 ≤ records.length ∧ records.length ≤ 8) (few : b.records.length ≤ 8)
    (firstKind : first = true → b.kindByte = 0x53#8) (refreshKind : refresh = true → b.kindByte = 0x51#8) :
    parseFrame (frameBytes sender sequence first refresh b) =
      some { mark := .remote, sender := sender, sequence := sequence, first := first, body := b } := by
  have bound : sender.val < 32 := sender.isLt
  have number : (BitVec.ofNat 8 sender.val).toNat = sender.val := by simp; omega
  obtain ⟨seven, six, five, four, low⟩ := controlByte_bits first refresh few
  have read := parseBody_bodyBytes lengths count
  simp only [frameBytes, List.cons_append, List.nil_append, recordCount_eq, parseFrame, number, seven, six, five, four, low]
  rw [dif_pos ⟨bound, trivial, trivial, firstKind, refreshKind⟩, read]
  rfl

/-! ## Accepting -/

/-- The checks of R71 on the bytes of a frame that bears no mark. -/
theorem acceptFrame_unmarked {heard : HeardFrame} (tooLong : heard.tooLong = false) (coding : heard.codingBad = false)
    (partialByte : heard.partialByte = false) {bytes : List Byte} {high low : Byte} (read : heard.bytes = bytes ++ [high, low])
    (enough : 6 ≤ bytes.length) :
    acceptFrame heard = if [high, low] = wordBytes (crc bytes) then parseFrame bytes else none := by
  have length : heard.bytes.length - 2 = bytes.length := by simp [read]
  have kept : heard.bytes.take bytes.length = bytes := by rw [read]; exact List.take_left
  have check : heard.bytes.drop bytes.length = [high, low] := by rw [read]; exact List.drop_left
  have marks : heard.tooLong = false ∧ heard.codingBad = false ∧ heard.partialByte = false ∧ 8 ≤ heard.bytes.length :=
    ⟨tooLong, coding, partialByte, by rw [read, List.length_append]; simp; omega⟩
  unfold acceptFrame
  simp only
  rw [if_pos marks, length, kept, check]

theorem frameBytes_length (sender : Station) (sequence : Byte) (first refresh : Bool) (b : Body) :
    (frameBytes sender sequence first refresh b).length = 4 + (bodyBytes b).length := by
  simp [frameBytes]
  omega

theorem recordBytes_length (r : Record) : (recordBytes r).length = 4 + 2 * r.value.length := by
  have values : (r.value.flatMap wordBytes).length = 2 * r.value.length := by
    induction r.value with
    | nil => rfl
    | cons w rest ih =>
      rw [List.flatMap_cons, List.length_append, ih, List.length_cons]
      simp [wordBytes]
      omega
  rw [recordBytes, List.length_append, values]
  simp [wordBytes]

/-- A body with 1 to 8 words in each of 1 to 8 records, or of another kind, is 2 to 160 bytes long. -/
theorem bodyBytes_length {b : Body} (lengths : ∀ r ∈ b.records, 1 ≤ r.value.length ∧ r.value.length ≤ 8)
    (count : ∀ records, b = .update records → 1 ≤ records.length ∧ records.length ≤ 8) :
    2 ≤ (bodyBytes b).length ∧ (bodyBytes b).length ≤ 160 := by
  cases b with
  | update records =>
    have bounds : ∀ l : List Record, (∀ r ∈ l, 1 ≤ r.value.length ∧ r.value.length ≤ 8) →
        6 * l.length ≤ (l.flatMap recordBytes).length ∧ (l.flatMap recordBytes).length ≤ 20 * l.length := by
      intro l all
      induction l with
      | nil => simp
      | cons r rest ih =>
        obtain ⟨one, eight⟩ := all r List.mem_cons_self
        obtain ⟨least, most⟩ := ih fun r hr => all r (List.mem_cons_of_mem _ hr)
        rw [List.flatMap_cons, List.length_append, recordBytes_length, List.length_cons]
        omega
    obtain ⟨least, most⟩ := bounds records lengths
    obtain ⟨one, eight⟩ := count records rfl
    rw [bodyBytes]
    omega
  | gate g number => simp [bodyBytes]
  | presence check => simp [bodyBytes, wordBytes]

/-! ## An attempt as it is heard -/

theorem sentBody_update {s : State} {b : TxBody} {records : List Record} (h : sentBody s b = .update records) : b = .update records := by
  cases b <;> simp_all [sentBody]

theorem kindByte_sentBody (s : State) {b : TxBody} :
    ((∃ check, b = .presence check) → (sentBody s b).kindByte = 0x53#8) ∧
      ((∃ records, b = .update records) → (sentBody s b).kindByte = 0x51#8) := by
  constructor <;> rintro ⟨x, rfl⟩ <;> rfl

/-- Settles O31: what an attempt drives is found, assembled and read back. -/
theorem sentFramesAreAccepted : Obligations.SentFramesAreAccepted := by
  intro s rest f lengths count firstKind refreshKind
  let a := sentFrame s rest f
  let early := encodeCells rest (leadIn ++ byteBits startPattern)
  have isEarly : early.length = 24 := by
    rw [encodeCells_length]
    decide
  have nonempty : early ≠ [] := by
    intro empty
    simp [empty] at isEarly
  have records : (sentBody s f.body).records = f.body.records := sentBody_records s f.body
  have lengths' : ∀ r ∈ (sentBody s f.body).records, 1 ≤ r.value.length ∧ r.value.length ≤ 8 := by rwa [records]
  have count' : ∀ rs, sentBody s f.body = .update rs → 1 ≤ rs.length ∧ rs.length ≤ 8 := fun rs h => count rs (sentBody_update h)
  have few : (sentBody s f.body).records.length ≤ 8 := by
    cases body : sentBody s f.body with
    | update rs => exact (count' rs body).2
    | _ => exact Nat.zero_le _
  obtain ⟨least, most⟩ := bodyBytes_length lengths' count'
  let bytes := frameBytes f.sender (nextSequence s) f.first f.refresh (sentBody s f.body)
  have length : bytes.length = 4 + (bodyBytes (sentBody s f.body)).length := frameBytes_length _ _ _ _ _
  have lineBytes : a.lineBytes = bytes ++ wordBytes (crc bytes) := rfl
  refine ⟨early, _, sentCells_eq a, isEarly, huntStart_leadIn rest, early.getLast nonempty, List.getLast?_eq_some_getLast nonempty, ?_⟩
  have level : levelAfter rest early = (early.getLast nonempty).secondHalf := by
    simp [levelAfter, List.getLast?_eq_some_getLast nonempty]
  have short : (bytes ++ wordBytes (crc bytes)).length ≤ 166 := by
    rw [List.length_append, length]
    simp [wordBytes]
    omega
  have assembled := assembleFrame_encodeCells (early.getLast nonempty).secondHalf (bytes ++ wordBytes (crc bytes)) (extra := [])
    (by decide)
  rw [List.append_nil, List.take_of_length_le short] at assembled
  show acceptFrame (assembleFrame ⟨_, encodeCells (levelAfter rest early) (a.lineBytes.flatMap byteBits)⟩) = _
  rw [level, lineBytes, assembled]
  rw [acceptFrame_unmarked (bytes := bytes) (high := (crc bytes).extractLsb' 8 8) (low := (crc bytes).extractLsb' 0 8)
    (by simpa using short) rfl (by simp) rfl (by omega)]
  refine (if_pos rfl).trans ?_
  exact parseFrame_frameBytes lengths' count' few (fun first => (kindByte_sentBody s).1 (firstKind first))
    fun refresh => (kindByte_sentBody s).2 (refreshKind refresh)

end Sys2Proof.Laws
end

section
/-! SUPPORT. The check of a frame that has ended, as numbers of the bytes heard, and what an accepted frame holds of them; the obligation on
it (R68, R71, R73, R75). -/

namespace Sys2Proof.Laws

open Sys2Proof.Machine

/-! ## The bytes heard -/

/-- Byte `p` of a run, as a number, and 0 behind its end. -/
def byteAt (bytes : List Byte) (p : Nat) : Nat := (bytes.getD p 0).toNat

theorem byteAt_of_getElem? {bytes : List Byte} {p : Nat} {b : Byte} (found : bytes[p]? = some b) : byteAt bytes p = b.toNat := by
  simp [byteAt, List.getD_eq_getElem?_getD, found]

/-- A run of 8 bytes and more: four of the head, the body, and two of the check. -/
theorem bytes_split {bytes : List Byte} (enough : 8 ≤ bytes.length) :
    ∃ kind sender sequence control body high low, bytes = (kind :: sender :: sequence :: control :: body) ++ [high, low] := by
  have front : bytes.take (bytes.length - 2) ++ bytes.drop (bytes.length - 2) = bytes := List.take_append_drop _ _
  have behind : (bytes.drop (bytes.length - 2)).length = 2 := by rw [List.length_drop]; omega
  have head : 6 ≤ (bytes.take (bytes.length - 2)).length := by rw [List.length_take]; omega
  obtain ⟨high, low, check⟩ := List.length_eq_two.mp behind
  match init : bytes.take (bytes.length - 2), head with
  | kind :: sender :: sequence :: control :: body, _ =>
    exact ⟨kind, sender, sequence, control, body, high, low, by rw [← init, ← check, front]⟩

section Split

variable (kind sender sequence control high low : Byte) (body : List Byte)

/-- The bytes of head and check by their places. -/
theorem byteAt_split :
    let bytes := (kind :: sender :: sequence :: control :: body) ++ [high, low]
    byteAt bytes 0 = kind.toNat ∧ byteAt bytes 1 = sender.toNat ∧ byteAt bytes 2 = sequence.toNat ∧
      byteAt bytes 3 = control.toNat ∧ byteAt bytes (bytes.length - 2) = high.toNat ∧ byteAt bytes (bytes.length - 1) = low.toNat := by
  refine ⟨rfl, rfl, rfl, rfl, byteAt_of_getElem? ?_, byteAt_of_getElem? ?_⟩
  · simp
  · simp

/-- The bytes of the body by their places. -/
theorem byteAt_body {p : Nat} {b : Byte} (found : body[p]? = some b) :
    byteAt ((kind :: sender :: sequence :: control :: body) ++ [high, low]) (4 + p) = b.toNat := by
  have inside := (List.getElem?_eq_some_iff.mp found).1
  refine byteAt_of_getElem? ?_
  rw [List.getElem?_append_left (by simp; omega), Nat.add_comm 4 p]
  simpa using found

end Split

/-! ## The checks of R71 -/

/-- The places of the records follow one another from byte 4 on. -/
theorem start_ge {start length : Nat → Nat} (first : start 0 = 4) (next : ∀ j < 15, start (j + 1) = start j + 4 + 2 * length j) :
    ∀ j ≤ 15, 4 ≤ start j := by
  intro j
  induction j with
  | zero => intro; omega
  | succ j ih =>
    intro inside
    rw [next j (by omega)]
    have := ih (by omega)
    omega

/-- Check 7 of R71 on the records, by their places in the frame. -/
theorem parseRecords_none_at {body : List Byte} {byte start : Nat → Nat} {n : Nat} (few : n ≤ 8) (first : start 0 = 4)
    (next : ∀ j < 15, start (j + 1) = start j + 4 + 2 * (byte (start j + 1) % 16))
    (bytes : ∀ p b, body[p]? = some b → byte (4 + p) = b.toNat) :
    parseRecords n body = none ↔
      (∃ j < n, byte (start j + 1) % 16 = 0 ∨ 8 < byte (start j + 1) % 16) ∨ start n ≠ body.length + 4 := by
  have ge := start_ge (length := fun j => byte (start j + 1) % 16) first next
  have shifted : ∀ j ≤ 15, 4 + (start j - 4 + 1) = start j + 1 := fun j inside => by
    have := ge j inside
    omega
  rw [parseRecords_none_iff n body (fun j => start j - 4) (fun p => byte (4 + p) % 16) (by simp [first]) (fun j less => ?_)
    fun p b found => by rw [bytes p b found]]
  · have last := ge n (by omega)
    refine or_congr (exists_congr fun j => and_congr_right fun less => ?_) ?_
    · rw [shifted j (by omega)]
    · show start n - 4 ≠ body.length ↔ _
      omega
  · have here := ge j (by omega)
    simp only [shifted j (by omega : j ≤ 15)]
    have := next j (by omega)
    omega

theorem byte_ne_iff (b c : Byte) : b ≠ c ↔ b.toNat ≠ c.toNat := by
  rw [Ne, ← BitVec.toNat_inj]

/-- A frame is bad by its marks, its length, its check, or the checks on its fields, each as numbers of the bytes heard. -/
theorem acceptFrame_none_iff {heard : HeardFrame} {start : Nat → Nat} (first : start 0 = 4)
    (next : ∀ j < 15, start (j + 1) = start j + 4 + 2 * (byteAt heard.bytes (start j + 1) % 16)) :
    let n := heard.bytes.length
    let byte := byteAt heard.bytes
    let count := byte 3 % 16
    acceptFrame heard = none ↔
      heard.tooLong = true ∨ heard.codingBad = true ∨ heard.partialByte = true ∨ n < 8 ∨
        256 * byte (n - 2) + byte (n - 1) ≠ (crc (heard.bytes.take (n - 2))).toNat ∨
        (byte 0 ≠ 0x51 ∧ byte 0 ≠ 0x52 ∧ byte 0 ≠ 0x53) ∨ 31 < byte 1 ∨ byte 3 / 16 % 4 ≠ 0 ∨
        (byte 3 / 128 = 1 ∧ byte 0 ≠ 0x53) ∨ (byte 3 / 64 % 2 = 1 ∧ byte 0 ≠ 0x51) ∨
        (byte 0 = 0x51 ∧ (count = 0 ∨ 8 < count ∨
          (∃ j < count, byte (start j + 1) % 16 = 0 ∨ 8 < byte (start j + 1) % 16) ∨ start count ≠ n - 2)) ∨
        (byte 0 = 0x52 ∧ (count ≠ 0 ∨ 3 < byte 4 ∨ n ≠ 8)) ∨ (byte 0 = 0x53 ∧ (count ≠ 0 ∨ n ≠ 8)) := by
  obtain ⟨bytes, tooLong, coding, partialByte⟩ := heard
  intro n byte count
  by_cases marked : tooLong = true ∨ coding = true ∨ partialByte = true ∨ n < 8
  · have bad : acceptFrame ⟨bytes, tooLong, coding, partialByte⟩ = none := by
      refine if_neg ?_
      rintro ⟨h1, h2, h3, h4⟩
      rcases marked with m | m | m | m
      · simp [m] at h1
      · simp [m] at h2
      · simp [m] at h3
      · exact absurd h4 (Nat.not_le.mpr m)
    refine iff_of_true bad ?_
    rcases marked with m | m | m | m
    · exact .inl m
    · exact .inr (.inl m)
    · exact .inr (.inr (.inl m))
    · exact .inr (.inr (.inr (.inl m)))
  · simp only [not_or, Bool.not_eq_true, Nat.not_lt] at marked
    obtain ⟨rfl, rfl, rfl, enough⟩ := marked
    obtain ⟨kind, sender, sequence, control, body, high, low, rfl⟩ := bytes_split enough
    obtain ⟨b0, b1, -, b3, bHigh, bLow⟩ := byteAt_split kind sender sequence control high low body
    have length : n = body.length + 6 := by simp [n]
    have two : 2 ≤ body.length := by omega
    have kept : ((kind :: sender :: sequence :: control :: body) ++ [high, low]).take (n - 2) =
        kind :: sender :: sequence :: control :: body := by
      have inside : n - 2 = (kind :: sender :: sequence :: control :: body).length := by simp [length]
      rw [inside]
      exact List.take_left
    have group : (body.getD 0 0).toNat = byte 4 := by
      cases body with
      | nil => simp at two
      | cons g rest => rfl
    have records : byte 3 % 16 ≤ 8 → (parseRecords (byte 3 % 16) body = none ↔
        (∃ j < count, byte (start j + 1) % 16 = 0 ∨ 8 < byte (start j + 1) % 16) ∨ start count ≠ n - 2) := fun few => by
      rw [parseRecords_none_at few first next fun p b found => byteAt_body kind sender sequence control high low body found, length]
      exact Iff.rfl
    have kinds : ∀ c : Byte, kind = c ↔ byte 0 = c.toNat := fun c => by
      rw [← BitVec.toNat_inj]
      exact Iff.rfl
    have accepted : acceptFrame ⟨(kind :: sender :: sequence :: control :: body) ++ [high, low], false, false, false⟩ = none ↔
        256 * byte (n - 2) + byte (n - 1) ≠ (crc (kind :: sender :: sequence :: control :: body)).toNat ∨
          parseFrame (kind :: sender :: sequence :: control :: body) = none := by
      have check := wordBytes_eq_iff high low (crc (kind :: sender :: sequence :: control :: body))
      rw [acceptFrame_unmarked (bytes := kind :: sender :: sequence :: control :: body) rfl rfl rfl rfl (by simp; omega)]
      rw [← bHigh, ← bLow] at check
      split
      · next same => exact ⟨.inr, fun bad => bad.resolve_left fun differs => differs (check.mp same)⟩
      · next differs => exact iff_of_true rfl (.inl fun same => differs (check.mpr same))
    rw [accepted, kept, parseFrame_none_iff, parseBody_none_iff, group]
    have isSender : sender.toNat = byte 1 := b1.symm
    have isControl : control.toNat = byte 3 := b3.symm
    have isCount : byte 3 % 16 = count := rfl
    have eight : body.length = 2 ↔ n = 8 := by omega
    rw [isCount] at records
    have update : (count = 0 ∨ 8 < count ∨ parseRecords count body = none) ↔ (count = 0 ∨ 8 < count ∨
        (∃ j < count, byte (start j + 1) % 16 = 0 ∨ 8 < byte (start j + 1) % 16) ∨ start count ≠ n - 2) := by
      by_cases few : count ≤ 8
      · rw [records few]
      · have many : 8 < count := by omega
        simp [many]
    have gate : (count ≠ 0 ∨ body.length ≠ 2 ∨ 3 < byte 4) ↔ (count ≠ 0 ∨ 3 < byte 4 ∨ n ≠ 8) := by
      rw [Ne, Ne, eight, or_comm (a := ¬n = 8)]
    have presence : (count ≠ 0 ∨ body.length ≠ 2) ↔ (count ≠ 0 ∨ n ≠ 8) := by rw [Ne, Ne, eight]
    rw [isSender, isControl, isCount, update, gate, presence]
    simp only [kinds, ne_eq, BitVec.toNat_ofNat, Nat.reducePow, Nat.reduceMod, Bool.false_eq_true, false_or, Nat.not_lt.mpr enough]
    exact iff_of_eq (by ac_rfl)

/-! ## What an accepted frame holds -/

/-- Words read from a run of bytes: each of its two bytes, and the bytes behind them left. -/
theorem takeWords_fields {n : Nat} {bytes left : List Byte} {value : List Word} (read : takeWords n bytes = some (value, left)) :
    value.length = n ∧ left = bytes.drop (2 * n) ∧ ∀ k v, value[k]? = some v →
      ∃ high low, bytes[2 * k]? = some high ∧ bytes[2 * k + 1]? = some low ∧ v.toNat = 256 * high.toNat + low.toNat := by
  induction n generalizing bytes value with
  | zero =>
    cases read
    exact ⟨rfl, rfl, by simp⟩
  | succ n ih =>
    match bytes with
    | [] => simp [takeWords] at read
    | [_] => simp [takeWords] at read
    | high :: low :: rest =>
      obtain ⟨⟨words, left'⟩, inner, e⟩ := Option.map_eq_some_iff.mp read
      cases e
      obtain ⟨length, behind, each⟩ := ih inner
      refine ⟨by simp [length], by rw [behind, Nat.mul_succ]; rfl, fun k v found => ?_⟩
      cases k with
      | zero =>
        obtain rfl := Option.some.inj found
        exact ⟨high, low, rfl, rfl, wordOf_toNat high low⟩
      | succ k =>
        obtain ⟨high', low', first, second, word⟩ := each k v found
        exact ⟨high', low', first, second, word⟩

/-- A record of a frame by its place (table 11-3). -/
def RecordAt (byte : Nat → Nat) (place : Nat) (r : Record) : Prop :=
  16 * r.item.toNat + r.value.length = 256 * byte place + byte (place + 1) ∧
    r.version.toNat = 256 * byte (place + 2) + byte (place + 3) ∧
    ∀ k (v : Word), r.value[k]? = some v → v.toNat = 256 * byte (place + 4 + 2 * k) + byte (place + 5 + 2 * k)

theorem wordOf_item (a b : Byte) :
    16 * ((wordOf a b).extractLsb' 4 12).toNat + bitField 0 4 (wordOf a b) = 256 * a.toNat + b.toNat := by
  have ha := a.isLt
  have hb := b.isLt
  rw [bitField_wordOf, BitVec.extractLsb'_toNat, wordOf_toNat, Nat.shiftRight_eq_div_pow]
  omega

/-- Records read from a run of bytes that stands at `start 0` in the frame stand at their places. -/
theorem parseRecords_fields {n : Nat} {bytes : List Byte} {byte start : Nat → Nat} {records : List Record}
    (next : ∀ j < n, start (j + 1) = start j + 4 + 2 * (byte (start j + 1) % 16))
    (places : ∀ p b, bytes[p]? = some b → byte (start 0 + p) = b.toNat) (read : parseRecords n bytes = some records) :
    records.length = n ∧ ∀ j r, records[j]? = some r → RecordAt byte (start j) r := by
  induction n generalizing bytes start records with
  | zero =>
    cases bytes with
    | nil =>
      cases read
      exact ⟨rfl, by simp⟩
    | cons b rest => cases read
  | succ n ih =>
    match bytes with
    | [] | [_] | [_, _] | [_, _, _] => simp [parseRecords] at read
    | a :: b :: c :: d :: rest =>
      simp only [parseRecords] at read
      split_ifs at read with length
      split at read
      · cases read
      · next value left words =>
        obtain ⟨more, inner, rfl⟩ := Option.map_eq_some_iff.mp read
        obtain ⟨count, behind, each⟩ := takeWords_fields words
        have first := next 0 (Nat.succ_pos n)
        have second : byte (start 0 + 1) = b.toNat := places 1 b rfl
        have size : value.length = byte (start 0 + 1) % 16 := by rw [count, bitField_wordOf, second]
        have placed : ∀ p x, left[p]? = some x → byte (start (0 + 1) + p) = x.toNat := fun p x found => by
          rw [behind, List.getElem?_drop, ← count] at found
          rw [first, ← size, show start 0 + 4 + 2 * value.length + p = start 0 + (2 * value.length + p + 4) by omega]
          exact places _ x found
        obtain ⟨total, others⟩ := ih (start := fun j => start (j + 1)) (fun j less => next (j + 1) (Nat.succ_lt_succ less)) placed inner
        refine ⟨by simp [total], fun j r found => ?_⟩
        cases j with
        | zero =>
          obtain rfl := Option.some.inj found
          refine ⟨?_, ?_, fun k v isWord => ?_⟩
          · show 16 * ((wordOf a b).extractLsb' 4 12).toNat + value.length = _
            rw [count, wordOf_item, second]
            exact congrArg (256 * · + b.toNat) (places 0 a rfl).symm
          · rw [places 2 c rfl, places 3 d rfl]
            exact wordOf_toNat c d
          · obtain ⟨high, low, isHigh, isLow, word⟩ := each k v isWord
            rw [word, show start 0 + 4 + 2 * k = start 0 + (2 * k + 4) by omega,
              show start 0 + 5 + 2 * k = start 0 + (2 * k + 1 + 4) by omega, places _ high isHigh, places _ low isLow]
        | succ j => exact others j r found

/-- The two bytes of a GATE body. -/
theorem parseBody_gate {count : Nat} {body : List Byte} {b : Body} (read : parseBody 0x52#8 count body = some b) :
    ∃ (g : Group) (group number : Byte), body = [group, number] ∧ b = .gate g number ∧ g.val = group.toNat := by
  match body with
  | [] | [_] | _ :: _ :: _ :: _ => simp [parseBody] at read
  | [group, number] =>
    by_cases fits : group.toNat < 4 ∧ count = 0
    · have isGate : b = .gate ⟨group.toNat, fits.1⟩ number := by simpa [parseBody, fits, eq_comm] using read
      exact ⟨_, group, number, rfl, isGate, rfl⟩
    · simp [parseBody, fits] at read

/-- The two bytes of a PRESENCE body. -/
theorem parseBody_presence {count : Nat} {body : List Byte} {b : Body} (read : parseBody 0x53#8 count body = some b) :
    ∃ high low : Byte, body = [high, low] ∧ b = .presence (wordOf high low) := by
  match body with
  | [] | [_] | _ :: _ :: _ :: _ => simp [parseBody] at read
  | [high, low] =>
    by_cases none_counted : count = 0
    · exact ⟨high, low, rfl, by simpa [parseBody, none_counted, eq_comm] using read⟩
    · simp [parseBody, none_counted] at read

/-- An accepted frame holds the fields that its bytes give by tables 11-2 to 11-5. -/
theorem acceptFrame_fields {heard : HeardFrame} {start : Nat → Nat} (first : start 0 = 4)
    (next : ∀ j < 15, start (j + 1) = start j + 4 + 2 * (byteAt heard.bytes (start j + 1) % 16)) {f : Frame}
    (accepted : acceptFrame heard = some f) :
    let byte := byteAt heard.bytes
    f.mark = .remote ∧ f.sender.val = byte 1 ∧ f.sequence.toNat = byte 2 ∧ (f.first = true ↔ byte 3 / 128 = 1) ∧
      (byte 0 = 0x51 → ∃ records, f.body = .update records ∧ records.length = byte 3 % 16 ∧
        ∀ j r, records[j]? = some r → RecordAt byte (start j) r) ∧
      (byte 0 = 0x52 → ∃ g q, f.body = .gate g q ∧ g.val = byte 4 ∧ q.toNat = byte 5) ∧
      (byte 0 = 0x53 → ∃ check, f.body = .presence check ∧ check.toNat = 256 * byte 4 + byte 5) := by
  intro byte
  obtain ⟨bytes, tooLong, coding, partialByte⟩ := heard
  have marks : tooLong = false ∧ coding = false ∧ partialByte = false ∧ 8 ≤ bytes.length := by
    by_contra bad
    rw [acceptFrame, if_neg bad] at accepted
    cases accepted
  obtain ⟨rfl, rfl, rfl, enough⟩ := marks
  obtain ⟨kind, sender, sequence, control, body, high, low, rfl⟩ := bytes_split enough
  obtain ⟨b0, b1, b2, b3, -⟩ := byteAt_split kind sender sequence control high low body
  have places := fun p b found => byteAt_body kind sender sequence control high low body (p := p) (b := b) found
  rw [acceptFrame_unmarked (bytes := kind :: sender :: sequence :: control :: body) rfl rfl rfl rfl (by simp at enough ⊢; omega)]
    at accepted
  split_ifs at accepted
  simp only [parseFrame] at accepted
  split_ifs at accepted with fields
  obtain ⟨parsed, isBody, rfl⟩ := Option.map_eq_some_iff.mp accepted
  have isKind : byte 0 = kind.toNat := b0
  have isCount : byte 3 % 16 = control.toNat % 16 := congrArg (· % 16) b3
  have kinds : ∀ c : Byte, byte 0 = c.toNat → kind = c := fun c same => BitVec.eq_of_toNat_eq (isKind.symm.trans same)
  have firstBit : control.getLsbD 7 = true ↔ byte 3 / 128 = 1 := by
    have bound := control.isLt
    rw [byte_getLsbD, decide_eq_true_iff, show byte 3 = control.toNat from b3]
    omega
  refine ⟨rfl, b1.symm, b2.symm, firstBit, fun update => ?_, fun gate => ?_, fun presence => ?_⟩
  · obtain rfl := kinds 0x51#8 update
    simp only [parseBody, if_true] at isBody
    split_ifs at isBody with few
    obtain ⟨records, read, rfl⟩ := Option.map_eq_some_iff.mp isBody
    obtain ⟨count, each⟩ := parseRecords_fields (byte := byte) (start := start) (fun j less => next j (by omega))
      (fun p b found => by rw [first]; exact places p b found) read
    exact ⟨records, rfl, count.trans isCount.symm, each⟩
  · obtain rfl := kinds 0x52#8 gate
    obtain ⟨g, group, number, rfl, rfl, same⟩ := parseBody_gate isBody
    have four : byte 4 = group.toNat := places 0 group rfl
    have five : byte 5 = number.toNat := places 1 number rfl
    exact ⟨g, number, rfl, same.trans four.symm, five.symm⟩
  · obtain rfl := kinds 0x53#8 presence
    obtain ⟨first, second, rfl, rfl⟩ := parseBody_presence isBody
    have four : byte 4 = first.toNat := places 0 first rfl
    have five : byte 5 = second.toNat := places 1 second rfl
    exact ⟨_, rfl, by rw [wordOf_toNat, four, five]⟩

/-! ## The obligation -/

theorem crcByte_shifts (r : Word) (b : Byte) :
    crcByte r b =
      Nat.repeat (fun r : Word => if r.getLsbD 15 then (r <<< 1) ^^^ 0x1021#16 else r <<< 1) 8 (r ^^^ (b ++ 0#8)) := by
  have shift : (fun r : Word => if r.getLsbD 15 then (r <<< 1) ^^^ 0x1021#16 else r <<< 1) = crcShift := by
    funext r
    rw [crcShift, BitVec.msb_eq_getLsbD_last]
  rw [shift]
  rfl

/-- A frame accepted of another station is queued, or dropped where the receive queue is full. -/
theorem checkFrame_other {s : State} {f : Frame} {heard : HeardFrame} (accepted : acceptFrame heard = some f)
    (other : f.sender ≠ stationNumber s) (waits : Bool) : checkFrame heard waits s = queueFrame f s := by
  rw [checkFrame, accepted]
  exact if_neg other

/-- Settles O29: the frame that ends is checked by what its cells assemble to. -/
theorem frameEndChecksFrame : Obligations.FrameEndChecksFrame := by
  refine ⟨fun s base heard waits assembling hbase => ?_, fun before bytes extra short => assembleFrame_encodeCells before bytes short,
    fun heard start => ?_, ⟨rfl, fun bytes b => (crc_concat bytes b).trans (crcByte_shifts _ b)⟩,
    fun before level early late second hlevel => ?_⟩
  · obtain rfl : base = frameEnded s := hbase
    rw [exec_frameEnd assembling]
    refine ⟨fun bad => by rw [checkFrame, bad], fun f accepted other => ?_⟩
    rw [checkFrame_other (s := frameEnded s) accepted other]
    refine ⟨acceptFrame_mark accepted, fun room => ?_, fun full => ?_⟩
    · exact congrArg Host.Outcome.next (if_pos ((receiveRoom_iff (frameEnded s)).mpr room))
    · exact congrArg Host.Outcome.next (if_neg (by rw [receiveRoom_iff]; exact Nat.not_lt.mpr full))
  · intro n byte count first next
    exact ⟨acceptFrame_none_iff first next, fun f accepted => acceptFrame_fields first next accepted⟩
  · refine acceptFrame_codingBad (assembleFrame_codingBad before early late _ ?_)
    rw [hlevel, levelAfter]
    cases early.getLast? <;> rfl

end Sys2Proof.Laws
end

section
/-! SUPPORT. The taking of a frame by the image updater: the notice of a remote frame as a whole, behind the expiries before it, the application
by kind behind it, and the obligations on them (R13, R14, R34, R50 to R56). -/

namespace Sys2Proof.Laws

open Sys2Proof.Machine

/-! ## The command -/

section Taken

variable {s : State} {f : Frame} {rest : List Frame}

/-- The frame `f` in its notice step, `rest` being left in the receive queue. -/
def inNotice (f : Frame) (rest : List Frame) (s : State) : State := { s with lrx.queue := rest, imu.work := .notice f }

theorem exec_imuTakeFrame (takes : takesFrames s = true) (queue : s.lrx.queue = f :: rest) (remote : f.mark = .remote)
    (expiring : List Station) : exec (.imuTakeFrame expiring) s = .next (takeRemoteFrame expiring f rest s) := by
  show execImuTakeFrame s expiring = _
  rw [execImuTakeFrame, queue]
  exact congrArg Host.Outcome.next (if_pos ⟨takes, remote⟩)

theorem exec_selfFrameTake (takes : takesFrames s = true) (queue : s.lrx.queue = f :: rest) (own : f.mark = .self) :
    exec .selfFrameTake s = .next (idleExit (applySelfByKind f { s with lrx.queue := rest })) := by
  show execSelfFrameTake s = _
  rw [execSelfFrameTake, queue]
  exact congrArg Host.Outcome.next (if_pos ⟨takes, own⟩)

/-- A lost timer's expiry does not depend on the frame in hand. -/
theorem expireLost_inNotice (n : Station) (f : Frame) (rest : List Frame) (s : State) :
    expireLost n (inNotice f rest s) = inNotice f rest (expireLost n s) := by
  by_cases runs : lostTimerExpires n s = true
  · rw [expireLost, expireLost, if_pos runs, if_pos (show lostTimerExpires n (inNotice f rest s) = true from runs)]
    rfl
  · rw [expireLost, expireLost, if_neg runs, if_neg (show ¬lostTimerExpires n (inNotice f rest s) = true from runs)]

theorem expireAll_inNotice (stations : List Station) (f : Frame) (rest : List Frame) (s : State) :
    expireAll stations (inNotice f rest s) = inNotice f rest (expireAll stations s) := by
  induction stations generalizing s with
  | nil => rfl
  | cons n stations ih => exact (congrArg (expireAll stations) (expireLost_inNotice n f rest s)).trans (ih _)

/-- The taking of a remote frame, the expiries before its notice having left `u`. -/
theorem takeRemoteFrame_eq (expiring : List Station) (f : Frame) (rest : List Frame) (s : State) :
    takeRemoteFrame expiring f rest s = idleExit (finishNotice (noticeFrame f (inNotice f rest (expireAll expiring s)))) := by
  rw [← expireAll_inNotice]
  rfl

end Taken

/-! ## A notice as a whole -/

/-- What a notice sets at a station other than this one: entry, event, flags and counters by step 1 or 2, and PLAN_MISMATCH where the
agreement turns to DIFFERS. -/
theorem noticeFrame_eq {f : Frame} {s : State} (other : (peerOf s f.sender).state ≠ .self) {before after : Agreement}
    (started : before = if f.first then .unknown else (peerOf s f.sender).agreement)
    (compared : after = agreementAfter before (planCheckWord s) f.body) :
    noticeFrame f s =
      { noticeAnswer (peerOf s f.sender) f s with
        pmn := (noticeFrame f s).pmn
        hpt.flags := { (noticeAnswer (peerOf s f.sender) f s).hpt.flags with
          planMismatch := (noticeAnswer (peerOf s f.sender) f s).hpt.flags.planMismatch ||
            decide (before ≠ .differs ∧ after = .differs) } } := by
  have whole : noticeFrame f s =
      let entry : Peer := { state := .present, expected := some (f.sequence + 1), agreement := after, timeLeft := some (lostTimeout s) }
      let answered := setPeer f.sender entry (noticeAnswer (peerOf s f.sender) f s)
      if before ≠ .differs ∧ after = .differs then raiseFlag .planMismatch answered else answered := by
    subst compared started
    exact if_neg other
  by_cases differs : before ≠ .differs ∧ after = .differs
  · rw [whole, decide_eq_true differs, Bool.or_true]
    simp only [if_pos differs]
    rfl
  · rw [whole, decide_eq_false differs, Bool.or_false]
    simp only [if_neg differs]
    rfl

/-- The agreement of an obligation's text is that of the model. -/
theorem agreementAfter_eq (before : Agreement) (mine : Word) (body : Body) :
    agreementAfter before mine body =
      match body with
      | .presence check => if check = mine then .agrees else .differs
      | .update _ => before
      | .gate _ _ => before := by
  cases body <;> rfl

theorem joins_iff (p : Peer) (first : Bool) : joins p first = true ↔ first = true ∨ p.state = .absent ∨ p.state = .lost := by
  simp [joins, or_assoc]

/-- Settles O36: the notice joins, and its event keeps the frame in hand. -/
theorem noticeJoinsPeer : Obligations.NoticeJoinsPeer := by
  intro s u expiring f rest before after takes queue remote hu other joining started compared
  obtain ⟨pmn, events, lost, expired, -, -⟩ := expireAll_only expiring s
  let v : State := inNotice f rest u
  have joined : joins (peerOf v f.sender) f.first = true := (joins_iff _ _).mpr joining
  have answered := noticeAnswer_joins joined v
  have word : planCheckWord v = planCheckWord s := by simp only [v, hu, expired, inNotice, planCheckWord]
  replace compared : after = agreementAfter before (planCheckWord v) f.body := by
    rw [word, agreementAfter_eq]
    exact compared
  have noticed := noticeFrame_eq (s := v) other started compared
  have mismatch : u.hpt.flags.planMismatch = s.hpt.flags.planMismatch := by rw [hu, expired]
  rw [answered] at noticed
  have waits : finishNotice (noticeFrame f v) = noticeFrame f v := finishNotice_waits (.inl (by rw [noticed]; simp))
  refine ⟨idleExit (noticeFrame f v), ?_, ?_, ?_, fun n => ?_, ?_, ?_⟩
  · rw [exec_imuTakeFrame takes queue remote, takeRemoteFrame_eq, ← hu, waits]
  · rw [idleExit_eq, noticed]
    rfl
  · rw [idleExit_imu, noticed]
    simp only [v, hu, expired]
    rfl
  · have entry := noticeFrame_peerOf (s := v) other n
    rw [show peerOf v f.sender = peerOf u f.sender from rfl, ← started, ← compared,
      show lostTimeout v = lostTimeout s by simp only [v, hu, expired, inNotice, lostTimeout]] at entry
    rw [idleExit_eq]
    exact entry
  · rw [idleExit_hpt, noticed, ← mismatch]
    rfl
  · have settled := idleExit_settled (noticeFrame f v)
    rwa [show (noticeFrame f v).lau = s.lau by rw [noticed]; simp only [v, hu, expired]; rfl] at settled

/-- A frame of a PRESENT station without FIRST: an event and a count where its sequence is not the expected one. -/
theorem noticeAnswer_stays {p : Peer} {f : Frame} (stays : joins p f.first = false) (s : State) :
    noticeAnswer p f s =
      { s with
        imu.events :=
          if p.expected = some f.sequence then s.imu.events else s.imu.events ++ [{ kind := .doubtful, station := f.sender }]
        hpt.counters :=
          if p.expected = some f.sequence then s.hpt.counters
          else s.hpt.counters.set (s.hpt.counters.get .sequenceGaps).increment .sequenceGaps } := by
  by_cases inSequence : p.expected = some f.sequence
  · rw [noticeAnswer_match stays inSequence, if_pos inSequence, if_pos inSequence]
  · rw [noticeAnswer_gap stays inSequence, if_neg inSequence, if_neg inSequence]
    rfl

theorem joins_present {p : Peer} {first : Bool} (present : p.state = .present) (unmarked : first = false) : joins p first = false := by
  simp [joins, present, unmarked]

/-- A frame whose application by kind is due is applied with the work in hand it needs. -/
theorem applyByKind_update {f : Frame} {records : List Record} (body : f.body = .update records) (some : records ≠ []) (s : State) :
    applyByKind f s = { s with imu.work := .remoteRecords f.sender records } := by
  simp only [applyByKind, body, workOn_remote, if_neg some]

theorem applyByKind_gate {f : Frame} {g : Group} {q : Byte} (body : f.body = .gate g q) (s : State) :
    applyByKind f s = startGate .remote g q s := by
  simp only [applyByKind, body]

theorem applyByKind_presence {f : Frame} {check : Word} (body : f.body = .presence check) {s : State}
    (notice : s.imu.work = .notice f) : applyByKind f s = { s with imu.work := .free } := by
  simp only [applyByKind, body]
  exact endWork_remote (by rw [notice]; rfl)

/-- Settles O37: the sequence decides whether an event keeps the frame in hand, or it goes on by its kind at once. -/
theorem noticeChecksSequence : Obligations.NoticeChecksSequence := by
  intro s u expiring f rest after takes queue remote hu present unmarked compared
  obtain ⟨free, -, noEvents⟩ := takesFrames_idle takes
  obtain ⟨pmn, events, lost, expired, -, -⟩ := expireAll_only expiring s
  let v : State := inNotice f rest u
  let before : Agreement := (peerOf u f.sender).agreement
  have other : (peerOf v f.sender).state ≠ .self := fun own => nomatch own.symm.trans present
  have word : planCheckWord v = planCheckWord s := by simp only [v, hu, expired, inNotice, planCheckWord]
  have started : before = if f.first then .unknown else (peerOf v f.sender).agreement := by rw [unmarked]; rfl
  replace compared : after = agreementAfter before (planCheckWord v) f.body := by
    rw [word, agreementAfter_eq]
    exact compared
  have mismatch : u.hpt.flags.planMismatch = s.hpt.flags.planMismatch := by rw [hu, expired]
  have counters : u.hpt.counters = s.hpt.counters := by rw [hu, expired]
  have imu : u.imu = { s.imu with events := u.imu.events } := by rw [hu, expired]
  have noticed := noticeFrame_eq (s := v) other started compared
  rw [noticeAnswer_stays (p := peerOf v f.sender) (joins_present present unmarked) v,
    show peerOf v f.sender = peerOf u f.sender from rfl] at noticed
  obtain ⟨work, heldGate, counted, goesOn⟩ := finishNotice_only (noticeFrame f v)
  refine ⟨idleExit (finishNotice (noticeFrame f v)), ?_, ?_, ?_, fun n => ?_, ?_, fun gap => ?_, fun inSequence => ⟨fun waiting => ?_,
    fun empty => ?_⟩⟩
  · rw [exec_imuTakeFrame takes queue remote, takeRemoteFrame_eq, ← hu]
  · rw [idleExit_eq, goesOn, noticed]
    rfl
  · have settled := idleExit_settled (finishNotice (noticeFrame f v))
    rwa [show (finishNotice (noticeFrame f v)).lau = s.lau by
      rw [goesOn, noticed]; simp only [v, hu, expired, inNotice]] at settled
  · have entry := noticeFrame_peerOf (s := v) other n
    rw [← started, ← compared, show lostTimeout v = lostTimeout s by simp only [v, hu, expired, inNotice, lostTimeout]] at entry
    rw [idleExit_eq, goesOn]
    exact entry
  · rw [idleExit_hpt, goesOn, noticed, ← mismatch]
    rfl
  · have waits : finishNotice (noticeFrame f v) = noticeFrame f v :=
      finishNotice_waits (.inl (by rw [noticed, if_neg gap]; simp))
    rw [waits, idleExit_imu, idleExit_hpt, noticed, if_neg gap, if_neg gap, ← counters]
    exact ⟨by rw [show v.imu = { u.imu with work := .notice f } from rfl, imu], rfl⟩
  · have waits : finishNotice (noticeFrame f v) = noticeFrame f v :=
      finishNotice_waits (.inl (by rw [noticed, if_pos inSequence]; exact waiting))
    rw [waits, idleExit_imu, idleExit_hpt, noticed, if_pos inSequence, if_pos inSequence, ← counters]
    exact ⟨rfl, rfl⟩
  · rw [if_pos inSequence, if_pos inSequence] at noticed
    have unchanged : u.imu = s.imu := by rw [imu, empty, ← noEvents]
    have taken : (noticeFrame f v).imu = { s.imu with work := .notice f } := by rw [noticed, ← unchanged]; rfl
    have uncounted : (noticeFrame f v).hpt.counters = s.hpt.counters := by rw [noticed, ← counters]; rfl
    have applies : finishNotice (noticeFrame f v) = applyByKind f (noticeFrame f v) :=
      finishNotice_applies (by rw [taken]) (by rw [taken]; exact noEvents)
    refine ⟨fun records body some => ?_, fun check body => ?_, fun g q body => ?_⟩
    · rw [applies, applyByKind_update body some, idleExit_imu, idleExit_hpt]
      exact ⟨by rw [taken], uncounted⟩
    · rw [applies, applyByKind_presence body (by rw [taken]), idleExit_imu, idleExit_hpt]
      exact ⟨by rw [taken, ← free], uncounted⟩
    · rw [applies, applyByKind_gate body, idleExit_imu, startGate_eq, taken]

/-! ## Self frames -/

theorem applySelfByKind_update {f : Frame} {records : List Record} (body : f.body = .update records) (some : records ≠ []) (s : State) :
    applySelfByKind f s = { s with imu.work := .selfRecords records } := by
  cases records with
  | nil => exact absurd rfl some
  | cons r rest => simp only [applySelfByKind, body, workOn_cons]

/-- A self frame with nothing to apply ends with the look at the conditions of R129. -/
theorem applySelfByKind_ends {f : Frame} {s : State} (free : s.imu.work = .free)
    (nothing : f.body = .update [] ∨ ∃ check, f.body = .presence check) : applySelfByKind f s = idleExit (refreshStep s) := by
  have ended : endWork { s with imu.work := .selfRecords [] } = idleExit (refreshStep s) := by
    show idleExit (refreshStep { s with imu.work := .free }) = _
    rw [← free]
  rcases nothing with body | ⟨check, body⟩
  · simp only [applySelfByKind, body]
    exact ended
  · simp only [applySelfByKind, body]
    exact ended

/-- Settles O38: records and gates wait as the work in hand, and a frame with neither ends with the look at the conditions of R129. -/
theorem selfFrameTakenWithoutNotice : Obligations.SelfFrameTakenWithoutNotice := by
  intro s f rest takes queue own
  obtain ⟨free, -, -⟩ := takesFrames_idle takes
  let u : State := { s with lrx.queue := rest }
  refine ⟨idleExit (applySelfByKind f u), exec_selfFrameTake takes queue own, ?_⟩
  by_cases nothing : f.body = .update [] ∨ ∃ check, f.body = .presence check
  · rw [applySelfByKind_ends (s := u) free nothing]
    have settled : TransmitterSettled s.lau.transmitter (idleExit (idleExit (refreshStep u))) :=
      idleExit_settled_again (refresh_idle_settled u)
    have looked : RefreshLooked u (idleExit (idleExit (refreshStep u))) :=
      RefreshLooked_congr (refreshStep_looked u) (by simp) (by simp) ((leftBy_idleExit _).2.trans (leftBy_idleExit _).2)
    refine ⟨by rw [idleExit_lrx, refresh_idle_only], by rw [idleExit_pmn, refresh_idle_only], by rw [idleExit_stu, refresh_idle_only],
      by rw [idleExit_req, refresh_idle_only], by rw [idleExit_stc, refresh_idle_only], by rw [idleExit_hpt, refresh_idle_only],
      settled, ?_, ?_, ?_⟩
    · rintro records body some
      rcases nothing with empty | ⟨check, other⟩
      · obtain rfl := Body.update.inj (body.symm.trans empty)
        exact absurd rfl some
      · exact nomatch body.symm.trans other
    · exact fun check body => ⟨by rw [idleExit_imu, refresh_idle_only], by rw [idleExit_hpt, refresh_idle_only], looked⟩
    · rintro g q body
      rcases nothing with empty | ⟨check, other⟩
      · exact nomatch body.symm.trans empty
      · exact nomatch body.symm.trans other
  · rw [not_or] at nothing
    cases body : f.body with
    | presence check => exact absurd ⟨check, body⟩ nothing.2
    | gate g q =>
      have starts : applySelfByKind f u = startGate .self g q u := by simp only [applySelfByKind, body]
      rw [starts, startGate_eq]
      refine ⟨?_, ?_, ?_, ?_, ?_, ?_, idleExit_settled _, nofun, nofun, ?_⟩
      case refine_7 =>
        rintro g q ⟨⟩
        rw [idleExit_eq]
        exact ⟨rfl, rfl, rfl⟩
      all_goals rw [idleExit_eq]
    | update records =>
      rw [applySelfByKind_update body (fun empty => nothing.1 (empty ▸ body))]
      refine ⟨?_, ?_, ?_, ?_, ?_, ?_, idleExit_settled _, ?_, nofun, nofun⟩
      case refine_7 =>
        rintro records ⟨⟩ -
        rw [idleExit_eq]
        exact ⟨rfl, rfl, rfl, rfl⟩
      all_goals rw [idleExit_eq]

/-! ## The gate sequence -/

theorem gateMissed_none (q : Byte) : gateMissed none q = false := rfl

/-- The held sequence follows on from itself or its predecessor; any other distance is a gate missed. -/
theorem gateMissed_some (held q : Byte) : gateMissed (some held) q = decide (2 ≤ (q - held).toNat) := by
  rw [Bool.eq_iff_iff]
  have zero : q - held = 0 ↔ (q - held).toNat = 0 := by rw [← BitVec.toNat_inj]; rfl
  have one : q - held = 1 ↔ (q - held).toNat = 1 := by rw [← BitVec.toNat_inj]; rfl
  simp only [gateMissed, Option.any_some, Bool.and_eq_true, bne_iff_ne, decide_eq_true_eq, ne_eq, zero, one]
  omega

/-- Settles O39: either way the gate application starts with the comparison. -/
theorem gateSequenceCompared : Obligations.GateSequenceCompared := by
  intro s f rest g q takes queue body c taken
  obtain ⟨free, -, noEvents⟩ := takesFrames_idle takes
  suffices started : ∃ t, exec c s = .next t ∧ t.imu.heldGate = s.imu.heldGate.set g (some q) ∧
      t.hpt.counters = if gateMissed s.imu.heldGate[g] q = true then
          s.hpt.counters.set (s.hpt.counters.get .missedGates).increment .missedGates
        else s.hpt.counters by
    obtain ⟨t, ran, held, counters⟩ := started
    refine ⟨t, ran, fun absent => ?_, fun sequence found => ⟨fun near => ?_, fun far => ?_⟩, ?_, fun g' other => ?_⟩
    · rw [counters, absent, gateMissed_none]; rfl
    · rw [counters, found, gateMissed_some, if_neg (by simpa using near)]
    · rw [counters, found, gateMissed_some, if_pos (by simpa using far)]
    · rw [held]; simp
    · rw [held]
      exact Vector.getElem_set_ne _ _ fun same => other (Fin.ext same.symm)
  rcases taken with ⟨rfl, own⟩ | ⟨expiring, rfl, unexpired, remote, present, unmarked, inSequence⟩
  · refine ⟨_, exec_selfFrameTake takes queue own, ?_⟩
    have starts : applySelfByKind f { s with lrx.queue := rest } = startGate .self g q { s with lrx.queue := rest } := by
      simp only [applySelfByKind, body]
    rw [starts, idleExit_imu, idleExit_hpt, startGate_eq]
    exact ⟨rfl, rfl⟩
  · obtain ⟨pmn, events, lost, expired, -, unchanged⟩ := expireAll_only expiring s
    have none : events = [] := by
      rw [expired] at unexpired
      exact (List.append_eq_nil_iff.mp unexpired).2
    let v : State := inNotice f rest s
    have noticed := noticeFrame_eq (s := v) (fun own => nomatch own.symm.trans present) rfl rfl
    rw [noticeAnswer_match (p := peerOf v f.sender) (joins_present present unmarked) inSequence v] at noticed
    have applies : finishNotice (noticeFrame f v) = startGate .remote g q (noticeFrame f v) := by
      rw [finishNotice_applies (f := f) (by rw [noticed]; rfl) (by rw [noticed]; exact noEvents), applyByKind_gate body]
    refine ⟨idleExit (finishNotice (noticeFrame f v)), ?_, ?_⟩
    · rw [exec_imuTakeFrame takes queue remote, takeRemoteFrame_eq, unchanged none]
    · rw [applies, idleExit_imu, idleExit_hpt, startGate_eq, noticed]
      exact ⟨rfl, rfl⟩

/-! ## Expiries -/

/-- Settles O48: an expiry changes what it names; that of the frame's own sender turns its notice into a join. -/
theorem lostTimerExpires : Obligations.LostTimerExpires := by
  refine ⟨fun s n waits => congrArg Host.Outcome.next (expireLost_waits waits), fun s n present runs unlisted => ?_, fun s => rfl,
    fun s n rest => ⟨_, rfl, rfl⟩, fun s f rest takes queue remote present runs => ?_⟩
  · exact ⟨losePeer n s, congrArg Host.Outcome.next (expireLost_runs present runs unlisted), rfl, fun m => losePeer_peerOf n m s⟩
  · obtain ⟨-, -, noEvents⟩ := takesFrames_idle takes
    have expired : expireAll [f.sender] s = losePeer f.sender s :=
      expireLost_runs present runs (by rw [noEvents]; exact List.not_mem_nil)
    have lost : (peerOf (losePeer f.sender s) f.sender).state = .lost := by rw [losePeer_peerOf, if_pos rfl]
    obtain ⟨t, ran, only, imu, peers, flags, -⟩ := noticeJoinsPeer s (losePeer f.sender s) [f.sender] f rest _ _ takes queue remote
      expired.symm (by rw [lost]; nofun) (.inr (.inr lost)) rfl rfl
    have sender := peers f.sender
    rw [if_pos rfl] at sender
    refine ⟨t, ran, by rw [imu], ?_, by rw [sender], by rw [sender], by rw [sender], ?_, ?_, ?_, by rw [imu]⟩
    · rw [imu, losePeer_eq, noEvents]
      rfl
    · rw [flags]
      rfl
    · rw [flags]
    · rw [only]
      rfl

end Sys2Proof.Laws
end

section
/-! SUPPORT. The expiry of the presence timer, and the obligation on it (R83, R125, R126). -/

namespace Sys2Proof.Laws

open Sys2Proof.Machine

theorem exec_presenceTimerExpiry {s : State} {left : Nat} (running : s.tsc.presenceTimer = .running left)
    (active : s.stc.station = .active) :
    exec .presenceTimerExpiry s = .next (idleExit (arbiter (presenceStep { s with tsc.presenceTimer := .expired }))) := by
  show execPresenceTimerExpiry s = _
  rw [execPresenceTimerExpiry, if_pos ⟨by rw [running]; rfl, active⟩]

theorem presenceStep_offers {u : State} (sends : maySend u = true) (owed : u.tsc.firstPending = true ∨ u.tsc.presenceTimer = .expired)
    (idle : u.tsc.presenceOutstanding = false) :
    presenceStep u =
      { u with lau.presenceOffer := some (presenceFrame u u.tsc.firstPending), tsc.presenceOutstanding := true } :=
  if_pos ⟨sends, idle, owed⟩

theorem presenceStep_outstanding {u : State} (outstanding : u.tsc.presenceOutstanding = true) : presenceStep u = u :=
  if_neg fun ⟨_, idle, _⟩ => nomatch outstanding.symm.trans idle

theorem admissionsShut_full {s : State} (full : 4 ≤ s.lau.queue.length) : AdmissionsShut s :=
  fun f => by simp [admissible, Nat.not_lt.mpr full]

/-- A presence frame past the FIRST gate is admitted while the queue has room. -/
theorem admitPresence_admits {s : State} {f : TxFrame} (offer : s.lau.presenceOffer = some f) (source : f.source = .presence)
    (sends : maySend s = true) (room : s.lau.queue.length < 4) (completed : s.lau.lastCompleted.isSome = true) :
    admitPresence s = { s with lau.queue := s.lau.queue ++ [f], lau.presenceOffer := none } := by
  have open_ : admissible s f = true := by simp [admissible, sends, room, source, completed]
  rw [admitPresence, offer]
  exact if_pos open_

theorem arbiter_noOffers {s : State} (presence : s.lau.presenceOffer = none) (request : s.lau.reqOffer = none) : arbiter s = s := by
  have first : admitPresence s = s := by rw [admitPresence, presence]
  rw [arbiter, first, admitReq, request]

theorem arbiter_tsc (s : State) : (arbiter s).tsc = s.tsc := (arbiter_effects s).tsc

/-- Settles O49: the timer EXPIRED, the scheduler offers where none is outstanding, and the arbiter admits what it may. -/
theorem presenceTimerExpires : Obligations.PresenceTimerExpires := by
  intro s left running active sendsStrap first completed
  let u : State := { s with tsc.presenceTimer := .expired }
  have sends : maySend u = true := by simp [maySend, u, active, sendsStrap]
  have offers (idle : s.tsc.presenceOutstanding = false) := presenceStep_offers (u := u) sends (.inr rfl) idle
  have effects : SendEffects u (idleExit (arbiter (presenceStep u))) :=
    (presenceStep_effects u).trans ((arbiter_effects _).trans (idleExit_effects _)).toSend
  have step : (presenceStep u).imu = s.imu ∧ (presenceStep u).req = s.req ∧ (presenceStep u).hpt = s.hpt ∧
      (presenceStep u).lau.transmitter = s.lau.transmitter := by
    rw [presenceStep_only]
    exact ⟨rfl, rfl, rfl, rfl⟩
  obtain ⟨imu, req, hpt, transmitter⟩ := step
  have tsc : (presenceStep u).tsc = { s.tsc with presenceTimer := .expired, presenceOutstanding := true } := by
    cases outstanding : s.tsc.presenceOutstanding with
    | false => rw [offers outstanding]
    | true => rw [presenceStep_outstanding (u := u) outstanding, ← outstanding]
  refine ⟨_, exec_presenceTimerExpiry running active, { effects with tsc := ?_ }, ?_, ?_, ?_, ?_, ?_, fun idle f frame => ?_, fun outstanding presence request => ?_⟩
  · rw [idleExit_tsc, arbiter_tsc, tsc]
  · rw [idleExit_imu, arbiter_imu, imu]
  · rw [idleExit_req, arbiter_req, req]
  · rw [idleExit_hpt, arbiter_hpt, hpt]
  · rw [idleExit_tsc, arbiter_tsc, tsc]
  · have settled := idleExit_settled (arbiter (presenceStep u))
    rwa [arbiter_transmitter, transmitter] at settled
  · have made : presenceFrame u u.tsc.firstPending = f := by
      rw [frame, show u.tsc.firstPending = false from first]
      rfl
    have offered := offers idle
    rw [made] at offered
    refine ⟨fun room => ?_, fun full => ?_⟩
    · have admits : admitPresence (presenceStep u) =
          { presenceStep u with lau.queue := s.lau.queue ++ [f], lau.presenceOffer := none } := by
        refine (admitPresence_admits (f := f) (by rw [offered]) (by rw [frame]) ?_ (by rw [offered]; exact room)
          (by rw [offered]; exact completed)).trans (by rw [offered])
        rw [maySend, (presenceStep_effects u).stc]
        exact sends
      have behind := admitReq_effects (admitPresence (presenceStep u))
      have queue := behind.queue
      have offer := behind.presenceOffer
      rw [admits] at queue offer
      rw [idleExit_eq, arbiter, admits]
      exact ⟨queue, offer.elim id id⟩
    · rw [idleExit_eq, arbiter_shut (admissionsShut_full (by rw [offered]; exact full)), offered]
      exact ⟨rfl, rfl⟩
  · rw [idleExit_eq, presenceStep_outstanding (u := u) outstanding, arbiter_noOffers (s := u) presence request]
    exact ⟨rfl, presence⟩

end Sys2Proof.Laws
end

section
/-! SUPPORT. What the commands of the transmitter leave unchanged, and the obligation on it (chapter 5). -/

namespace Sys2Proof.Laws

open Sys2Proof.Machine

/-- What no command of the transmitter changes, whatever it does to queue, offers, slot in progress and line. -/
structure SendFrame (s t : State) : Prop where
  pmn : t.pmn = s.pmn
  stu : t.stu = s.stu
  imu : t.imu = { s.imu with items := t.imu.items }
  items : SameButIssued s.imu.items t.imu.items
  straps : t.stc.straps = s.stc.straps
  plan : t.stc.plan = s.stc.plan
  hpt : t.hpt =
    { s.hpt with
      counters := t.hpt.counters
      flags := { s.hpt.flags with
        requestDone := t.hpt.flags.requestDone, requestsIdle := t.hpt.flags.requestsIdle, guardTrip := t.hpt.flags.guardTrip } }
  counters : ∀ n, n ≠ .framesSent → n ≠ .collisions → n ≠ .abandoned → t.hpt.counters.get n = s.hpt.counters.get n
  ring : ∀ k w : Nat, 1 ≤ w → w ≤ 4 → ringWord t k w = ringWord s k w

section Frame

variable {s t u : State}

theorem SendFrame.refl (s : State) : SendFrame s s :=
  ⟨rfl, rfl, rfl, rfl, rfl, rfl, rfl, fun _ _ _ _ => rfl, fun _ _ _ _ => rfl⟩

/-- The settling of the sending side behind it changes none of it. -/
theorem SendFrame.settle (frame : SendFrame s t) (effects : SendEffects t u) : SendFrame s u where
  pmn := effects.pmn.trans frame.pmn
  stu := effects.stu.trans frame.stu
  imu := by rw [effects.imu, frame.imu]
  items := effects.items.trans frame.items
  straps := by rw [effects.stc, frame.straps]
  plan := by rw [effects.stc, frame.plan]
  hpt := by rw [effects.hpt, frame.hpt]
  counters n sent collided abandoned := by rw [effects.hpt]; exact frame.counters n sent collided abandoned
  ring k w low high := (effects.ring k w low high).trans (frame.ring k w low high)

/-- A change of other blocks and of the transmitter's counters. -/
theorem SendFrame.of_blocks (pmn : t.pmn = s.pmn) (stu : t.stu = s.stu) (imu : t.imu = s.imu) (straps : t.stc.straps = s.stc.straps)
    (plan : t.stc.plan = s.stc.plan) (ring : t.req.ring = s.req.ring)
    (hpt : t.hpt = { s.hpt with counters := t.hpt.counters, flags.guardTrip := t.hpt.flags.guardTrip })
    (counters : ∀ n, n ≠ .framesSent → n ≠ .collisions → n ≠ .abandoned → t.hpt.counters.get n = s.hpt.counters.get n) :
    SendFrame s t where
  pmn := pmn
  stu := stu
  imu := by rw [imu]
  items := by rw [imu]; rfl
  straps := straps
  plan := plan
  hpt := by rw [hpt]
  counters := counters
  ring k w _ _ := ringWord_congr ring k w

end Frame

/-! ## Command by command -/

variable {s t : State}

/-- The end of the gap changes the line access unit and the line receiver's assembly. -/
theorem gapEnd_frame (rest : Bool) (ran : exec (.gapEnd rest) s = .next t) :
    SendFrame s t ∧ t.stc = s.stc ∧ t.lrx.queue = s.lrx.queue := by
  obtain rfl := Host.Outcome.next.inj ran
  suffices ends : SendFrame s (endGap rest s) ∧ (endGap rest s).stc = s.stc ∧ (endGap rest s).lrx.queue = s.lrx.queue by
    split
    · exact ends
    · exact ⟨.refl s, rfl, rfl⟩
  unfold endGap
  split
  · exact ⟨.of_blocks rfl rfl rfl rfl rfl rfl rfl fun _ _ _ _ => rfl, rfl, rfl⟩
  · split
    · exact ⟨.of_blocks rfl rfl rfl rfl rfl rfl rfl fun _ _ _ _ => rfl, rfl, rfl⟩
    · exact ⟨.of_blocks rfl rfl rfl rfl rfl rfl rfl fun _ _ _ _ => rfl, rfl, rfl⟩

theorem backoffEnd_frame (ran : exec .backoffEnd s = .next t) : SendFrame s t ∧ t.stc = s.stc ∧ t.lrx.queue = s.lrx.queue := by
  obtain rfl := Host.Outcome.next.inj ran
  split
  · exact ⟨.of_blocks rfl rfl rfl rfl rfl rfl rfl fun _ _ _ _ => rfl, rfl, rfl⟩
  · exact ⟨.refl s, rfl, rfl⟩

theorem abandoned_frame (f : TxFrame) (rest : List TxFrame) (s : State) :
    SendFrame s (abandoned f rest s) ∧ (abandoned f rest s).stc = s.stc ∧ (abandoned f rest s).lrx.queue = s.lrx.queue := by
  obtain ⟨offer, outstanding, e⟩ := abandoned_eq f rest s
  rw [e]
  refine ⟨.of_blocks rfl rfl rfl rfl rfl rfl rfl fun n _ collided abandoned => ?_, rfl, rfl⟩
  rw [collidedCounters, get_set_other _ _ abandoned, get_set_other _ _ collided]

theorem takeCollision_frame (f : TxFrame) (rest : List TxFrame) (s : State) :
    SendFrame s (takeCollision f rest s) ∧ (takeCollision f rest s).stc = s.stc ∧
      (takeCollision f rest s).lrx.queue = s.lrx.queue := by
  by_cases last : 12 ≤ s.lau.attempts
  · rw [takeCollision_abandons last]
    obtain ⟨frame, stc, queue⟩ := abandoned_frame f rest s
    have effects := takenUp_effects (Config.refreshFirst s.freeCount) (abandoned f rest s)
    exact ⟨frame.settle effects, effects.stc.trans stc, by rw [effects.lrx, queue]⟩
  · rw [takeCollision_backsOff (Nat.lt_of_not_le last)]
    exact ⟨.of_blocks rfl rfl rfl rfl rfl rfl rfl fun n _ collided _ => get_set_other _ _ collided, rfl, rfl⟩

theorem collision_frame (sensed beyond : List LineCell) (ran : exec (.collision sensed beyond) s = .next t) :
    SendFrame s t ∧ t.stc = s.stc ∧ t.lrx.queue = s.lrx.queue := by
  obtain rfl := Host.Outcome.next.inj ran
  split
  · split
    · exact takeCollision_frame _ _ s
    · exact ⟨.refl s, rfl, rfl⟩
  · exact ⟨.refl s, rfl, rfl⟩

theorem attemptComplete_frame (ran : exec .attemptComplete s = .next t) : SendFrame s t ∧ t.stc = s.stc := by
  obtain rfl := Host.Outcome.next.inj ran
  split
  · next f rest a _ _ _ =>
    have effects := takenUp_effects false (completed f rest a s)
    rw [takeCompletion_eq]
    refine ⟨.settle ?_ effects, ?_⟩
    · rw [completed_eq]
      exact .of_blocks rfl rfl rfl rfl rfl rfl rfl fun n sent _ _ => get_set_other _ _ sent
    · rw [effects.stc, completed_eq]
  · exact ⟨.refl s, rfl⟩

theorem guardExpiry_frame (ran : exec .guardExpiry s = .next t) : SendFrame s t ∧ t.lrx.queue = s.lrx.queue := by
  obtain rfl := Host.Outcome.next.inj ran
  split
  · next f rest _ _ active =>
    have effects := (muteNotice_effects (s := guardTripped rest s) (.inr active) .guard [f]).toSend
    have flushed : SendFrame s (flushLau [f] (stopStation .guard (guardTripped rest s))) := by
      rw [flushLau_frame]
      refine .of_blocks rfl rfl rfl rfl rfl rfl rfl fun n _ _ abandoned => ?_
      exact (get_set_other _ _ abandoned).trans (get_set_other _ _ abandoned)
    refine ⟨flushed.settle effects, (congrArg Lrx.queue effects.lrx).trans ?_⟩
    rw [flushLau_frame]
    rfl
  · exact ⟨.refl s, rfl⟩

/-- Settles O51, command by command. -/
theorem sendCommandsFrame : Obligations.SendCommandsFrame := by
  intro c s t send ran
  suffices framed : SendFrame s t ∧ (c ≠ .guardExpiry → t.stc = s.stc) ∧ (c ≠ .attemptComplete → t.lrx.queue = s.lrx.queue) by
    obtain ⟨frame, stc, queue⟩ := framed
    exact ⟨frame.pmn, frame.stu, frame.imu, frame.items, stc, frame.straps, frame.plan, frame.hpt, frame.counters, queue, frame.ring⟩
  cases c with
  | gapEnd rest =>
    obtain ⟨frame, stc, queue⟩ := gapEnd_frame rest ran
    exact ⟨frame, fun _ => stc, fun _ => queue⟩
  | backoffEnd =>
    obtain ⟨frame, stc, queue⟩ := backoffEnd_frame ran
    exact ⟨frame, fun _ => stc, fun _ => queue⟩
  | collision sensed beyond =>
    obtain ⟨frame, stc, queue⟩ := collision_frame sensed beyond ran
    exact ⟨frame, fun _ => stc, fun _ => queue⟩
  | attemptComplete =>
    obtain ⟨frame, stc⟩ := attemptComplete_frame ran
    exact ⟨frame, fun _ => stc, fun other => absurd rfl other⟩
  | guardExpiry =>
    obtain ⟨frame, queue⟩ := guardExpiry_frame ran
    exact ⟨frame, fun other => absurd rfl other, fun _ => queue⟩
  | _ => exact nomatch send

end Sys2Proof.Laws
end

section
/-! SUPPORT. What the steps of the image updater leave unchanged, and the obligation on it (chapters 1 and 2). -/

namespace Sys2Proof.Laws

open Sys2Proof.Machine

/-! ## What the steps keep -/

/-- What no step of the image updater changes of an item: its plan fields and LAST ISSUED VERSION. -/
def fixedFields (it : Item) : ItemPlan × Option Version := (it.plan, it.owned.map OwnedFields.lastIssued)

/-- The most that a step of the image updater changes; the peer table stands with `peers` and the sample queue with `samples` only. -/
structure ImageFrame (peers samples : Prop) (s t : State) : Prop where
  req : t.req = s.req
  stc : t.stc = s.stc
  freeCount : t.freeCount = s.freeCount
  items : t.imu.items.map fixedFields = s.imu.items.map fixedFields
  lrx : t.lrx = { s.lrx with queue := t.lrx.queue }
  pmn : ¬peers → t.pmn = s.pmn
  stu : ¬samples → t.stu = s.stu
  lau : t.lau = { s.lau with queue := t.lau.queue, transmitter := t.lau.transmitter }
  tsc : t.tsc = { s.tsc with cursor := t.tsc.cursor, refreshTimer := t.tsc.refreshTimer }
  hpt : t.hpt =
    { s.hpt with
      held := t.hpt.held, readData := t.hpt.readData
      flags := { s.hpt.flags with
        peerLost := t.hpt.flags.peerLost, gateApplied := t.hpt.flags.gateApplied, peerJoined := t.hpt.flags.peerJoined,
        itemClash := t.hpt.flags.itemClash, sampleOverrun := t.hpt.flags.sampleOverrun, planMismatch := t.hpt.flags.planMismatch }
      counters := { s.hpt.counters with
        sequenceGaps := t.hpt.counters.sequenceGaps, foreignRecords := t.hpt.counters.foreignRecords,
        missedGates := t.hpt.counters.missedGates } }

section Frame

variable {peers samples : Prop} {s t u : State}

theorem ImageFrame.refl (s : State) : ImageFrame peers samples s s :=
  ⟨rfl, rfl, rfl, rfl, rfl, fun _ => rfl, fun _ => rfl, rfl, rfl, rfl⟩

theorem ImageFrame.trans (first : ImageFrame peers samples s t) (second : ImageFrame peers samples t u) :
    ImageFrame peers samples s u where
  req := second.req.trans first.req
  stc := second.stc.trans first.stc
  freeCount := second.freeCount.trans first.freeCount
  items := second.items.trans first.items
  lrx := by rw [second.lrx, first.lrx]
  pmn fixed := (second.pmn fixed).trans (first.pmn fixed)
  stu fixed := (second.stu fixed).trans (first.stu fixed)
  lau := by rw [second.lau, first.lau]
  tsc := by rw [second.tsc, first.tsc]
  hpt := by rw [second.hpt, first.hpt]

/-- What changes the image updater's own registers, and of the item table what may change. -/
theorem ImageFrame.of_imu (imu : Imu) (items : imu.items.map fixedFields = s.imu.items.map fixedFields) :
    ImageFrame peers samples s { s with imu := imu } :=
  ⟨rfl, rfl, rfl, items, rfl, fun _ => rfl, fun _ => rfl, rfl, rfl, rfl⟩

theorem ImageFrame.of_port (held : Option HeldAccess) (data : Word) :
    ImageFrame peers samples s { s with hpt.held := held, hpt.readData := data } :=
  ⟨rfl, rfl, rfl, rfl, rfl, fun _ => rfl, fun _ => rfl, rfl, rfl, rfl⟩

theorem idleExit_frame (s : State) : ImageFrame peers samples s (idleExit s) := by
  rw [idleExit_eq]
  exact ⟨rfl, rfl, rfl, rfl, rfl, fun _ => rfl, fun _ => rfl, rfl, rfl, rfl⟩

/-! ## One item -/

theorem map_modify_of_kept {α β : Type} {g : α → β} {f : α → α} (kept : ∀ a, g (f a) = g a) (l : List α) (k : Nat) :
    (l.modify k f).map g = l.map g := by
  refine List.ext_getElem? fun j => ?_
  rw [List.getElem?_map, List.getElem?_map, List.getElem?_modify]
  by_cases here : k = j
  · cases l[j]? <;> simp [here, kept]
  · cases l[j]? <;> simp [here]

theorem updateItem_frame (slot : Nat) {f : Item → Item} (kept : ∀ it, fixedFields (f it) = fixedFields it) (s : State) :
    ImageFrame peers samples s (updateItem slot f s) := by
  obtain ⟨items, changes, e⟩ := updateItem_only slot f s
  have table := updateItem_items slot f s
  rw [e] at table ⊢
  refine .of_imu _ ?_
  rw [table]
  exact map_modify_of_kept kept _ _

theorem withRecord_fixed (it : Item) (r : Record) : fixedFields (it.withRecord r) = fixedFields it := by
  unfold Item.withRecord
  split <;> rfl

theorem accept_fixed (r : Record) (stream : Option StreamFields) (it : Item) : fixedFields (Item.accept r stream it) = fixedFields it :=
  withRecord_fixed it r

theorem duplicate_fixed (it : Item) : fixedFields it.duplicate = fixedFields it := by
  unfold Item.duplicate
  split <;> rfl

theorem markClash_fixed (it : Item) : fixedFields it.markClash = fixedFields it := by
  simp only [fixedFields, Item.markClash, Option.map_map]
  rfl

theorem takeSelf_fixed (r : Record) (it : Item) : fixedFields (Item.takeSelf r it) = fixedFields it := by
  unfold Item.takeSelf
  split
  · rfl
  · exact withRecord_fixed it r

theorem takeEvent_fixed (e : OwnerEvent) (it : Item) : fixedFields (Item.takeEvent e it) = fixedFields it := by
  unfold Item.takeEvent
  split
  · rfl
  · split
    · rfl
    · split <;> rfl
    · split <;> rfl

theorem moveGate_fixed (it : Item) : fixedFields it.moveGate = fixedFields it := by
  unfold Item.moveGate
  split <;> rfl

/-! ## Work items -/

theorem endWork_frame (s : State) : ImageFrame peers samples s (endWork s) := by
  unfold endWork
  simp only
  split
  · rw [refresh_idle_only]
    exact ⟨rfl, rfl, rfl, rfl, rfl, fun _ => rfl, fun _ => rfl, rfl, rfl, rfl⟩
  · exact .of_imu _ rfl

theorem workOn_frame (records : List Record) (work : List Record → Work) (s : State) :
    ImageFrame peers samples s (workOn records work s) := by
  have working : ImageFrame peers samples s { s with imu.work := work records } := .of_imu _ rfl
  unfold workOn
  simp only
  split
  · exact working.trans (endWork_frame _)
  · exact working

theorem startGate_frame (mark : Mark) (g : Group) (q : Byte) (s : State) : ImageFrame peers samples s (startGate mark g q s) := by
  rw [startGate_eq]
  split <;> exact ⟨rfl, rfl, rfl, rfl, rfl, fun _ => rfl, fun _ => rfl, rfl, rfl, rfl⟩

theorem finishNotice_frame (s : State) : ImageFrame peers samples s (finishNotice s) := by
  unfold finishNotice
  split
  · split
    · unfold applyByKind
      split
      · exact workOn_frame _ _ _
      · exact startGate_frame _ _ _ _
      · exact endWork_frame _
    · exact .refl s
  · exact .refl s

theorem takeEvent_frame (kind : OwnerEventKind) (steps : Option Nat) (s : State) :
    ImageFrame peers samples s (takeEvent kind steps s) := by
  unfold takeEvent
  split
  · exact .refl s
  · split
    · next w rest _ _ =>
      have stepped (slots : List Nat) (applying : Option EventWork) : ImageFrame peers samples s
          { applyEvent w.event slots { s with imu.events := rest } with imu.applying := applying } := by
        obtain ⟨items, changes, e, -, table⟩ := applyEvent_only w.event slots { s with imu.events := rest }
        rw [e]
        refine .of_imu _ (List.ext_getElem? fun k => ?_)
        rw [List.getElem?_map, table, List.getElem?_map]
        by_cases named : k ∈ slots
        · cases s.imu.items[k]? <;> simp [named, takeEvent_fixed]
        · cases s.imu.items[k]? <;> simp [named]
      unfold eventSteps
      simp only
      split
      · exact (stepped _ none).trans (finishNotice_frame _)
      · exact stepped _ _
    · exact .refl s

theorem releaseHeld_frame (ended : Access → Bool) (s : State) : ImageFrame peers samples s (releaseHeld ended s) := by
  obtain ⟨held, e⟩ := releaseHeld_only ended s
  rw [e]
  exact .of_port held _

/-! ## Notices and records -/

theorem noticeFrame_frame (f : Frame) (s : State) : ImageFrame True samples s (noticeFrame f s) := by
  unfold noticeFrame noticeAnswer
  simp only
  split_ifs
  all_goals exact ⟨rfl, rfl, rfl, rfl, rfl, fun fixed => absurd trivial fixed, fun _ => rfl, rfl, rfl, rfl⟩

theorem takeRemoteFrame_frame (expiring : List Station) (f : Frame) (rest : List Frame) (s : State) :
    ImageFrame True samples s (takeRemoteFrame expiring f rest s) := by
  have expired : ImageFrame True samples s (inNotice f rest (expireAll expiring s)) := by
    obtain ⟨pmn, events, lost, e, -, -⟩ := expireAll_only expiring s
    rw [e]
    exact ⟨rfl, rfl, rfl, rfl, rfl, fun fixed => absurd trivial fixed, fun _ => rfl, rfl, rfl, rfl⟩
  rw [takeRemoteFrame_eq]
  exact ((expired.trans (noticeFrame_frame f _)).trans (finishNotice_frame _)).trans (idleExit_frame _)

theorem foreign_frame (s : State) : ImageFrame peers samples s (countUp .foreignRecords s) :=
  ⟨rfl, rfl, rfl, rfl, rfl, fun _ => rfl, fun _ => rfl, rfl, rfl, rfl⟩

theorem takeSample_frame (it : Item) (sender : Station) (r : Record) (s : State) :
    ImageFrame peers True s (takeSample it sender r s) := by
  unfold takeSample
  split
  all_goals exact ⟨rfl, rfl, rfl, rfl, rfl, fun _ => rfl, fun fixed => absurd trivial fixed, rfl, rfl, rfl⟩

theorem applyRemoteRecord_frame (sender : Station) (r : Record) (s : State) :
    ImageFrame peers True s (applyRemoteRecord sender r s) := by
  unfold applyRemoteRecord
  split
  · exact foreign_frame s
  · next slot _ =>
    split
    · exact .refl s
    · next it _ =>
      split_ifs
      · exact foreign_frame s
      · have marked := (foreign_frame (peers := peers) (samples := True) s).trans (updateItem_frame slot markClash_fixed _)
        exact marked.trans ⟨rfl, rfl, rfl, rfl, rfl, fun _ => rfl, fun _ => rfl, rfl, rfl, rfl⟩
      · exact foreign_frame s
      · unfold acceptRecord
        split
        · exact updateItem_frame _ (accept_fixed r _) s
        · exact (takeSample_frame it sender r s).trans (updateItem_frame _ (accept_fixed r _) _)
      · exact updateItem_frame _ duplicate_fixed s
      · exact .refl s

theorem finishRemoteRecord_frame (sender : Station) (r : Record) (rest : List Record) (s : State) :
    ImageFrame peers True s (finishRemoteRecord sender r rest s) :=
  ((applyRemoteRecord_frame sender r s).trans (releaseHeld_frame _ _)).trans (workOn_frame _ _ _)

theorem finishSelfRecord_frame (r : Record) (rest : List Record) (s : State) :
    ImageFrame peers samples s (finishSelfRecord r rest s) := by
  have applied : ImageFrame peers samples s (applySelfRecord r s) := by
    unfold applySelfRecord
    split
    · exact .refl s
    · exact updateItem_frame _ (takeSelf_fixed r) s
  exact (applied.trans (releaseHeld_frame _ _)).trans (workOn_frame _ _ _)

theorem applySelfByKind_frame (f : Frame) (s : State) : ImageFrame peers samples s (applySelfByKind f s) := by
  unfold applySelfByKind
  split
  · exact workOn_frame _ _ _
  · exact startGate_frame _ _ _ _
  · have working : ImageFrame peers samples s { s with imu.work := .selfRecords [] } := .of_imu _ rfl
    exact working.trans (endWork_frame _)

theorem finishGate_frame (g : Group) (s : State) : ImageFrame peers samples s (finishGate g s) := by
  have raised : ImageFrame peers samples s (raiseFlag .gateApplied s) :=
    ⟨rfl, rfl, rfl, rfl, rfl, fun _ => rfl, fun _ => rfl, rfl, rfl, rfl⟩
  exact (raised.trans (releaseHeld_frame _ _)).trans (endWork_frame _)

end Frame

/-! ## The obligation -/

/-- Settles O52, command by command. -/
theorem imageCommandsFrame : Obligations.ImageCommandsFrame := by
  intro c s t image ran
  suffices framed : ImageFrame (∃ x, c = .imuTakeFrame x) (∃ x, c = .remoteRecord x) s t by
    have plans := congrArg (List.map Prod.fst) framed.items
    have issued := congrArg (List.map Prod.snd) framed.items
    rw [List.map_map, List.map_map] at plans issued
    exact ⟨framed.req, framed.stc, framed.freeCount, plans, issued, framed.lrx, fun other => framed.pmn fun ⟨x, e⟩ => other x e,
      fun other => framed.stu fun ⟨x, e⟩ => other x e, framed.lau, framed.tsc, framed.hpt⟩
  cases c with
  | imuTakeFrame expiring =>
    obtain rfl := Host.Outcome.next.inj ran
    split
    · exact .refl s
    · split
      · have frame := takeRemoteFrame_frame (samples := ∃ x, Instr.imuTakeFrame expiring = .remoteRecord x) expiring
        exact { frame _ _ s with pmn := fun other => absurd ⟨expiring, rfl⟩ other }
      · exact .refl s
  | selfFrameTake =>
    obtain rfl := Host.Outcome.next.inj ran
    split
    · exact .refl s
    · next f rest _ =>
      split
      · have dequeued : ImageFrame (∃ x, Instr.selfFrameTake = .imuTakeFrame x) (∃ x, Instr.selfFrameTake = .remoteRecord x) s
            { s with lrx.queue := rest } := ⟨rfl, rfl, rfl, rfl, rfl, fun _ => rfl, fun _ => rfl, rfl, rfl, rfl⟩
        exact (dequeued.trans (applySelfByKind_frame f _)).trans (idleExit_frame _)
      · exact .refl s
  | ownerRejoined steps =>
    obtain rfl := Host.Outcome.next.inj ran
    exact takeEvent_frame _ steps s
  | ownerDoubtful steps =>
    obtain rfl := Host.Outcome.next.inj ran
    exact takeEvent_frame _ steps s
  | ownerLost steps =>
    obtain rfl := Host.Outcome.next.inj ran
    exact takeEvent_frame _ steps s
  | remoteRecord read =>
    obtain rfl := Host.Outcome.next.inj ran
    split
    · next sender r rest _ =>
      split
      · obtain ⟨held, data, e⟩ := sampleReadArrives_only read s
        have arrived : ImageFrame (∃ x, Instr.remoteRecord read = .imuTakeFrame x) True s (sampleReadArrives read s) := by
          rw [e]
          exact .of_port held data
        exact { arrived.trans (finishRemoteRecord_frame sender r rest _) with stu := fun other => absurd ⟨read, rfl⟩ other }
      · exact .refl s
    · exact .refl s
  | selfRecord =>
    obtain rfl := Host.Outcome.next.inj ran
    split
    · split
      · exact finishSelfRecord_frame _ _ s
      · exact .refl s
    · exact .refl s
  | gateItemStep =>
    obtain rfl := Host.Outcome.next.inj ran
    split
    · split
      · exact .refl s
      · split
        · exact updateItem_frame _ moveGate_fixed s
        · exact .refl s
    · exact .refl s
  | gateApplicationEnd =>
    obtain rfl := Host.Outcome.next.inj ran
    split
    · split
      · exact finishGate_frame _ s
      · exact .refl s
    · exact .refl s
  | _ => exact nomatch image

end Sys2Proof.Laws
end

section
/-! SUPPORT. The image updater's owner events: what a step of one leaves, and the obligations on the events and on when they are taken (R11 to
R18). -/

namespace Sys2Proof.Laws

open Sys2Proof.Machine

/-! ## When the image updater takes what -/

theorem receiving_iff (s : State) :
    receiving s = true ↔ s.stc.station = .joining ∨ s.stc.station = .active ∨ s.stc.station = .muted := by
  cases station : s.stc.station <;> simp [receiving, station]

theorem servicePending_iff (s : State) :
    servicePending s = false ↔ (∀ k, s.hpt.held ≠ some { access := .viewWord0 k, released := true }) ∧
      ∀ w, s.hpt.held ≠ some { access := .sampleWord w, released := true } := by
  rcases held : s.hpt.held with _ | ⟨access, released⟩
  · simp [servicePending, held]
  · cases access <;> cases released <;> simp [servicePending, held]

theorem imuSteps_iff (s : State) : imuSteps s = true ↔ receiving s = true ∧ servicePending s = false := by
  simp [imuSteps]

theorem takesFrames_iff (s : State) :
    takesFrames s = true ↔ imuSteps s = true ∧ s.imu.work = .free ∧ s.imu.applying = none ∧ s.imu.events = [] := by
  simp [takesFrames, and_assoc]

theorem takesEvents_iff (s : State) :
    takesEvents s = true ↔ imuSteps s = true ∧ (s.imu.work = .free ∨ ∃ f, s.imu.work = .notice f) := by
  cases work : s.imu.work <;> simp [takesEvents, work]

theorem exec_imuTakeFrame_still {s : State} (still : takesFrames s = false) (expiring : List Station) :
    exec (.imuTakeFrame expiring) s = .next s := by
  show execImuTakeFrame s expiring = _
  unfold execImuTakeFrame
  split <;> simp [still]

theorem exec_selfFrameTake_still {s : State} (still : takesFrames s = false) : exec .selfFrameTake s = .next s := by
  show execSelfFrameTake s = _
  unfold execSelfFrameTake
  split <;> simp [still]

/-- The command that goes on with an event of the given kind. -/
theorem exec_ownerEvent {c : Option Nat → Instr} {kind : OwnerEventKind}
    (command : (c = (.ownerRejoined ·) ∧ kind = .rejoined) ∨ (c = (.ownerDoubtful ·) ∧ kind = .doubtful) ∨
      (c = (.ownerLost ·) ∧ kind = .lost)) (steps : Option Nat) (s : State) :
    exec (c steps) s = .next (takeEvent kind steps s) := by
  rcases command with ⟨rfl, rfl⟩ | ⟨rfl, rfl⟩ | ⟨rfl, rfl⟩ <;> rfl

/-- The event that comes next, as an obligation names it. -/
theorem nextEvent_named (s : State) :
    (nextEvent s).map (fun next => next.1.event) = match s.imu.applying with | some w => some w.event | none => s.imu.events.head? := by
  rw [nextEvent_event]
  cases s.imu.applying <;> simp

theorem takeEvent_still {s : State} {kind : OwnerEventKind}
    (still : takesEvents s = false ∨ ∀ w rest, nextEvent s = some (w, rest) → w.event.kind ≠ kind) (steps : Option Nat) :
    takeEvent kind steps s = s := by
  unfold takeEvent
  split
  · rfl
  · next w rest found =>
    refine if_neg fun ⟨takes, same⟩ => ?_
    rcases still with waits | other
    · exact nomatch waits.symm.trans takes
    · exact other w rest found same

/-- While the image updater makes no step none of its commands has an effect. -/
theorem exec_image_still {s : State} (still : imuSteps s = false) {c : Instr} (image : isImageCommand c = true) : exec c s = .next s := by
  have noFrames : takesFrames s = false := by simp [takesFrames, still]
  have noEvents : takesEvents s = false := by simp [takesEvents, still]
  cases c with
  | imuTakeFrame expiring => exact exec_imuTakeFrame_still noFrames expiring
  | selfFrameTake => exact exec_selfFrameTake_still noFrames
  | ownerRejoined steps => exact congrArg _ (takeEvent_still (.inl noEvents) steps)
  | ownerDoubtful steps => exact congrArg _ (takeEvent_still (.inl noEvents) steps)
  | ownerLost steps => exact congrArg _ (takeEvent_still (.inl noEvents) steps)
  | remoteRecord read =>
    show execRemoteRecord s read = _
    unfold execRemoteRecord
    split <;> simp [still]
  | selfRecord =>
    show execSelfRecord s = _
    unfold execSelfRecord
    split <;> simp [still]
  | gateItemStep =>
    show execGateItemStep s = _
    unfold execGateItemStep
    split
    · split <;> simp [still]
    · rfl
  | gateApplicationEnd =>
    show execGateApplicationEnd s = _
    unfold execGateApplicationEnd
    split <;> simp [still]
  | _ => exact nomatch image

/-! ## The steps of an event -/

section Steps

variable {s : State} {w : EventWork} {rest : List OwnerEvent}

/-- The state behind steps of an event on the slots `taken`, with `left` to come. -/
def eventStepped (w : EventWork) (rest : List OwnerEvent) (taken left : List Nat) (s : State) : State :=
  { applyEvent w.event taken { s with imu.events := rest } with
    imu.applying := if left = [] then none else some { w with todo := left } }

/-- An event that may be taken makes its steps, and behind the last of them the frame in its notice may go on. -/
theorem takeEvent_eq (next : nextEvent s = some (w, rest)) (takes : takesEvents s = true) (steps : Option Nat) {taken left : List Nat}
    (split : taken = w.todo.take (steps.getD w.todo.length) ∧ left = w.todo.drop (steps.getD w.todo.length)) :
    takeEvent w.event.kind steps s =
      if left = [] then finishNotice (eventStepped w rest taken left s) else eventStepped w rest taken left s := by
  obtain ⟨htaken, hleft⟩ := split
  rw [takeEvent_steps next takes]
  by_cases last : w.todo.length ≤ steps.getD w.todo.length
  · have none_ : left = [] := by rw [hleft, List.drop_of_length_le last]
    rw [eventSteps_ends last, if_pos none_, eventStepped, if_pos none_, htaken, List.take_of_length_le last]
  · have some_ : left ≠ [] := by
      rw [hleft, ne_eq, List.drop_eq_nil_iff]
      exact last
    rw [eventSteps_goesOn (Nat.lt_of_not_le last), if_neg some_, eventStepped, if_neg some_, htaken, hleft]

theorem eventStepped_only (w : EventWork) (rest : List OwnerEvent) (taken left : List Nat) (s : State) :
    ∃ items changes, eventStepped w rest taken left s =
        { s with
          imu := { s.imu with
            events := rest, applying := if left = [] then none else some { w with todo := left }, items := items, changes := changes } } ∧
      s.imu.changes <+: changes ∧ ∀ k, items[k]? = (s.imu.items[k]?).map fun it => if k ∈ taken then Item.takeEvent w.event it else it := by
  obtain ⟨items, changes, e, listed, table⟩ := applyEvent_only w.event taken { s with imu.events := rest }
  exact ⟨items, changes, by rw [eventStepped, e], listed, table⟩

/-- A frame that goes on, or waits, leaves the item table and the change list. -/
theorem finishNotice_table (s : State) : (finishNotice s).imu.items = s.imu.items ∧ (finishNotice s).imu.changes = s.imu.changes ∧
    (finishNotice s).imu.events = s.imu.events ∧ (finishNotice s).imu.applying = s.imu.applying := by
  obtain ⟨work, heldGate, counters, e⟩ := finishNotice_only s
  rw [e]
  exact ⟨rfl, rfl, rfl, rfl⟩

end Steps

/-- Settles O41: the tests of the commands, and the steps of an event at a free image updater beside those with a frame in its notice. -/
theorem waitingEventsBeforeRecords : Obligations.WaitingEventsBeforeRecords := by
  refine ⟨fun s => ⟨?_, takesFrames_iff s, takesEvents_iff s, fun still => ⟨exec_imuTakeFrame_still still, exec_selfFrameTake_still still⟩,
    fun c kind command still steps => ?_, fun still c image => exec_image_still still image⟩, fun s f e makesSteps notice named => ?_⟩
  · rw [imuSteps_iff, receiving_iff, servicePending_iff]
  · rw [exec_ownerEvent command, takeEvent_still (still.imp id fun other w rest next => ?_)]
    exact other w.event ((nextEvent_named s).symm.trans (by rw [next]; rfl))
  · have still : takesFrames s = false := by simp [takesFrames, notice]
    refine ⟨exec_imuTakeFrame_still still, exec_selfFrameTake_still still, fun c steps command => ?_⟩
    replace named := (nextEvent_named s).trans named
    obtain ⟨⟨w, rest⟩, next, rfl⟩ := Option.map_eq_some_iff.mp named
    let u : State := { s with imu.work := .free }
    have nextFree : nextEvent u = some (w, rest) := next
    have taken := takeEvent_eq next ((takesEvents_iff s).mpr ⟨makesSteps, .inr ⟨f, notice⟩⟩) steps ⟨rfl, rfl⟩
    have takenFree := takeEvent_eq nextFree ((takesEvents_iff u).mpr ⟨makesSteps, .inl rfl⟩) steps ⟨rfl, rfl⟩
    refine ⟨_, _, exec_ownerEvent command steps s, exec_ownerEvent command steps u, ?_⟩
    generalize w.todo.take (steps.getD w.todo.length) = done at taken takenFree
    generalize w.todo.drop (steps.getD w.todo.length) = left at taken takenFree
    have alike : eventStepped w rest done left u = { eventStepped w rest done left s with imu.work := .free } := by
      unfold eventStepped
      rw [show ({ u with imu.events := rest } : State) = { ({ s with imu.events := rest } : State) with imu.work := .free } from rfl,
        applyEvent_work]
    have freeSteps : takeEvent w.event.kind steps u = eventStepped w rest done left u := by
      rw [takenFree]
      split
      · exact finishNotice_waits (.inr fun f waits => nomatch (congrArg (fun v : State => v.imu.work) alike).symm.trans waits)
      · rfl
    obtain ⟨items, changes, x, -, -⟩ := eventStepped_only w rest done left s
    generalize eventStepped w rest done left s = y at taken alike x
    have waits : rest ≠ [] ∨ left ≠ [] → takeEvent w.event.kind steps s = y := by
      rintro (more | more)
      · rw [taken]
        split
        · exact finishNotice_waits (.inl (by rw [x]; exact more))
        · rfl
      · rw [taken, if_neg more]
    have goesOn : rest = [] → left = [] → takeEvent w.event.kind steps s = applyByKind f y := by
      intro noEvents noSlots
      rw [taken, if_pos noSlots, finishNotice_applies (f := f) (by rw [x]; exact notice) (by rw [x]; exact noEvents)]
    have table : (takeEvent w.event.kind steps s).imu.items = y.imu.items ∧ (takeEvent w.event.kind steps s).imu.changes = y.imu.changes ∧
        (takeEvent w.event.kind steps s).imu.events = y.imu.events ∧
        (takeEvent w.event.kind steps s).imu.applying = y.imu.applying := by
      rw [taken]
      split
      · exact finishNotice_table y
      · exact ⟨rfl, rfl, rfl, rfl⟩
    obtain ⟨sameItems, sameChanges, sameEvents, sameApplying⟩ := table
    rw [freeSteps, alike]
    refine ⟨sameEvents, sameApplying, sameItems, sameChanges, fun more => ?_, fun noEvents noSlots => ?_⟩
    · rw [waits, x]
      · exact ⟨notice, rfl, rfl⟩
      · rw [x] at more
        refine more.imp id fun inHand noSlots => inHand ?_
        exact if_pos noSlots
    · rw [x] at noEvents noSlots
      rw [goesOn noEvents (Classical.byContradiction fun more => nomatch (if_neg more).symm.trans noSlots)]
      refine ⟨fun records body => ?_, fun check body => ?_, fun g q body => ?_⟩
      · have works : applyByKind f y = workOn records (.remoteRecords f.sender) y := by simp only [applyByKind, body]
        rw [works, workOn_remote, x]
        exact ⟨rfl, rfl, rfl⟩
      · rw [applyByKind_presence body (by rw [x]; exact notice), x]
        exact ⟨rfl, rfl, rfl⟩
      · rw [applyByKind_gate body, startGate_eq, x]
        refine ⟨rfl, rfl, ?_⟩
        cases s.imu.heldGate[g] with
        | none => rfl
        | some held =>
          simp only [gateMissed_some, decide_eq_true_eq]

/-! ## Owner events taken -/

/-- The next event is the one in hand, or the oldest of the list with every item of its station before it. -/
theorem nextEvent_eq {s : State} {e : OwnerEvent} {rest : List OwnerEvent} {todo : List Nat}
    (found : s.imu.applying = some { event := e, todo := todo } ∧ s.imu.events = rest ∨
      s.imu.applying = none ∧ s.imu.events = e :: rest ∧ todo = ownerSlots s.imu.items e.station) :
    nextEvent s = some ({ event := e, todo := todo }, rest) := by
  unfold nextEvent
  rcases found with ⟨inHand, waiting⟩ | ⟨noneInHand, waiting, slots⟩
  · rw [inHand, ← waiting]
  · rw [noneInHand, waiting, slots]

/-- The slots still to come of the next event stand in slot order. -/
theorem nextEvent_pairwise {s : State} {w : EventWork} {rest : List OwnerEvent} (next : nextEvent s = some (w, rest))
    (rules : ImageRules s) : w.todo.Pairwise (· < ·) := by
  obtain ⟨-, -, -, -, -, inHand⟩ := rules
  unfold nextEvent at next
  split at next
  · next v found =>
    obtain ⟨rfl, -⟩ := Prod.mk.inj (Option.some.inj next)
    exact (inHand v found).2
  · split at next
    · exact nomatch next
    · obtain ⟨rfl, -⟩ := Prod.mk.inj (Option.some.inj next)
      exact ownerSlots_pairwise _ _

/-- What an event does to an item of its station. -/
def eventChange : OwnerEventKind → Item → Item
  | .rejoined, it => { it with baselineOpen := true }
  | .doubtful, it => if it.condition = .current then { it with condition := .doubtful } else it
  | .lost, it => if it.condition = .current ∨ it.condition = .doubtful then { it with condition := .stale } else it

theorem takeEvent_item (e : OwnerEvent) (it : Item) :
    Item.takeEvent e it = if it.plan.owner = e.station then eventChange e.kind it else it := by
  unfold Item.takeEvent
  by_cases own : it.plan.owner = e.station
  · rw [if_neg (not_not_intro own), if_pos own]
    cases e.kind <;> rfl
  · rw [if_pos own, if_neg own]

theorem takeEvent_condition (e : OwnerEvent) (it : Item) :
    (Item.takeEvent e it).condition ≠ it.condition ↔
      it.plan.owner = e.station ∧ (eventChange e.kind it).condition ≠ it.condition := by
  rw [takeEvent_item]
  by_cases own : it.plan.owner = e.station <;> simp [own]

/-- With nothing in hand but a frame in its notice a word-0 read is served at once. -/
theorem exec_viewRead_served {t : State} (port : portFree t) (work : t.imu.work = .free ∨ ∃ f, t.imu.work = .notice f) (k : Fin 512) :
    exec (.itemViewWord0Read k) t = .next (latchView k t) := by
  have unheld : accessHeld t (.viewWord0 k) = false := by
    rcases work with free | ⟨f, notice⟩
    · simp [accessHeld, recordSlot, gateHolds, free]
    · simp [accessHeld, recordSlot, gateHolds, notice]
  have served : exec (.itemViewWord0Read k) t =
      .next (if accessHeld t (.viewWord0 k) then holdAccess (.viewWord0 k) t else latchView k t) :=
    congrArg _ (hostRead_free port _)
  rw [served, unheld]
  rfl

/-- Settles O40: the event's steps on the slots taken, and what is left of it. -/
theorem ownerEventsTaken : Obligations.OwnerEventsTaken := by
  intro s e rest todo taken left steps takes found parts c change command
  have next := nextEvent_eq found
  have sizes : taken = todo.take (steps.getD todo.length) ∧ left = todo.drop (steps.getD todo.length) := by
    rcases parts with ⟨rfl, rfl, rfl⟩ | ⟨n, rfl, rfl, rfl⟩
    · exact ⟨List.take_length.symm, List.drop_length.symm⟩
    · exact ⟨rfl, rfl⟩
  have runs : (∀ n u, exec (c n) u = .next (takeEvent e.kind n u)) ∧ change = eventChange e.kind := by
    rcases command with ⟨rfl, kind, rfl⟩ | ⟨rfl, kind, rfl⟩ | ⟨rfl, kind, rfl⟩ <;> rw [kind] <;> exact ⟨fun _ _ => rfl, rfl⟩
  obtain ⟨runs, rfl⟩ := runs
  have ran := takeEvent_eq next takes steps sizes
  obtain ⟨items, changes, stepped, listed, table⟩ := eventStepped_only { event := e, todo := todo } rest taken left s
  have feeds : changes = (applyEvent e taken { s with imu.events := rest }).imu.changes :=
    (congrArg (fun v : State => v.imu.changes) stepped).symm
  have more (some_ : rest ≠ [] ∨ left ≠ []) : takeEvent e.kind steps s = eventStepped { event := e, todo := todo } rest taken left s := by
    rw [ran]
    split
    · next noSlots => exact finishNotice_waits (.inl (by rw [stepped]; exact some_.resolve_right (not_not_intro noSlots)))
    · rfl
  have only : ∃ work heldGate counters, takeEvent e.kind steps s =
      { eventStepped { event := e, todo := todo } rest taken left s with
        imu.work := work, imu.heldGate := heldGate, hpt.counters := counters } := by
    rw [ran]
    split
    · exact finishNotice_only _
    · exact ⟨_, _, _, rfl⟩
  obtain ⟨work, heldGate, counters, only⟩ := only
  rw [stepped] at more only
  refine ⟨takeEvent e.kind steps s, runs steps s, by rw [only], by rw [only], fun waits => ?_, fun k => ?_, by rw [only]; exact listed,
    fun n => ?_, fun rules => ?_, fun goesOn => ⟨?_, ?_, fun port k => ?_⟩⟩
  · have unmoved : takeEvent e.kind steps s = eventStepped { event := e, todo := todo } rest taken left s := by
      rcases waits with free | waits
      · rw [ran]
        split
        · exact finishNotice_waits (.inr fun f notice => by rw [stepped] at notice; exact nomatch free.symm.trans notice)
        · rfl
      · rw [more waits, stepped]
    rw [unmoved, stepped]
    exact ⟨rfl, rfl, rfl⟩
  · rw [only]
    show items[k]? = _
    rw [table]
    congr 1
    funext it
    by_cases named : k ∈ taken
    · simp only [named, if_true, true_and, takeEvent_item]
    · simp only [named, if_false, false_and]
  · rw [only]
    show n ∈ changes ↔ _
    rw [feeds, applyEvent_changes]
    simp only [takeEvent_condition, and_assoc]
    rfl
  · rw [only]
    have order := (nextEvent_pairwise next rules).sublist (List.take_sublist (steps.getD todo.length) todo)
    rw [← sizes.1] at order
    show changes = _
    rw [feeds, applyEvent_order (s := { s with imu.events := rest }) order rules.1]
    refine congrArg (s.imu.changes ++ ·) (List.filterMap_congr fun k _ => ?_)
    simp only [eventFeed, takeEvent_condition, and_assoc]
    rfl
  · rw [only, takesFrames]
    simp [goesOn]
  · rw [runs, runs]
    obtain ⟨-, rfl⟩ := sizes
    have short : steps.getD todo.length < todo.length := by
      rw [ne_eq, List.drop_eq_nil_iff] at goesOn
      exact Nat.lt_of_not_le goesOn
    cases steps with
    | none => exact absurd short (lt_irrefl _)
    | some n => exact congrArg _ (takeEvent_inParts next takes short)
  · have kept : takeEvent e.kind steps s = _ := more (.inr goesOn)
    refine exec_viewRead_served ?_ ?_ k
    · rw [kept]
      exact port
    · rw [kept]
      exact takesEvents_work takes

end Sys2Proof.Laws
end

section
/-! SUPPORT. Samples: an accepted record of a stream item, the host read that comes meanwhile, and the obligation on them (R138 to R142). -/

namespace Sys2Proof.Laws

open Sys2Proof.Machine

/-- An access as the end of an operation leaves it: to be served where the operation held it (R166). -/
def releasedBy (ended : Access → Bool) (held : Option HeldAccess) : Option HeldAccess :=
  held.map fun h => if ended h.access then { h with released := true } else h

theorem releaseHeld_eq (ended : Access → Bool) (s : State) :
    releaseHeld ended s = { s with hpt.held := releasedBy ended s.hpt.held } := by
  obtain ⟨held, e⟩ := releaseHeld_only ended s
  have released := releaseHeld_held ended s
  rw [e] at released ⊢
  exact congrArg (fun held => ({ s with hpt.held := held } : State)) released

/-- REMOTE_RECORD with the access that the port holds behind it and the word it returned last. -/
theorem exec_remoteRecord_port {s : State} {sender : Station} {r : Record} {rest : List Record} (steps : imuSteps s = true)
    (work : s.imu.work = .remoteRecords sender (r :: rest)) (read : Option (Fin 16)) :
    exec (.remoteRecord read) s =
      .next
        { applyRemoteRecord sender r s with
          imu.work := if rest = [] then .free else .remoteRecords sender rest
          hpt.held := releasedBy (endsWithRecord (findSlot s.imu.items r.item)) (sampleReadArrives read s).hpt.held
          hpt.readData := (sampleReadArrives read s).hpt.readData } := by
  obtain ⟨held, data, arrived⟩ := sampleReadArrives_only read s
  show execRemoteRecord s read = _
  simp only [execRemoteRecord, work, if_pos steps, finishRemoteRecord, arrived, applyRemoteRecord_port, releaseHeld_eq, workOn_remote]

theorem exec_heldAccessServed {s : State} {a : Access} (held : s.hpt.held = some { access := a, released := true }) :
    exec .heldAccessServed s = .next (serveAccess a { s with hpt.held := none }) := by
  show execHeldAccessServed s = _
  rw [execHeldAccessServed, held]

section Stream

variable {s : State} {sender : Station} {r : Record} {k : Nat} {it : Item} {fields : StreamFields}

/-- An accepted record of a stream item goes to the stream unit, and its item is changed by R22. -/
theorem applyRemoteRecord_stream (found : findSlot s.imu.items r.item = some k) (item : s.imu.items[k]? = some it)
    (length : r.value.length = it.plan.length) (owner : it.plan.owner = sender) (accepts : accepted it r = true)
    (stream : it.plan.kind = .stream) (has : it.stream = some fields) :
    applyRemoteRecord sender r s =
      changeItem k it (Item.accept r (some (streamAfter (sampleRoom s) it.baselineOpen fields r.version)) it)
        (takeSample it sender r s) := by
  have same : it.streamFields = fields := by rw [Item.streamFields, has, Option.getD_some]
  have accepting : applyRemoteRecord sender r s = acceptRecord k it sender r s := by
    simp only [applyRemoteRecord, found, item]
    rw [if_neg (not_not.mpr length), if_neg (not_not.mpr owner.symm), if_pos accepts]
  obtain ⟨queue, flags, sampled⟩ := takeSample_only it sender r s
  rw [accepting]
  simp only [acceptRecord, stream, same]
  refine updateItem_eq_changeItem ?_ _ (withRecord_plan it r)
  rw [sampled]
  exact item

theorem takeSample_room (room : s.stu.queue.length < 256) (it : Item) (sender : Station) (r : Record) :
    takeSample it sender r s =
      { s with
        stu.queue := s.stu.queue ++
          [{ item := it.plan.item, sender := sender, version := r.version, value := r.value,
             gap := (sampleRun it.streamFields it.baselineOpen r.version).2,
             first := (sampleRun it.streamFields it.baselineOpen r.version).1 }] } :=
  if_pos (decide_eq_true room)

theorem takeSample_full (full : 256 ≤ s.stu.queue.length) (it : Item) (sender : Station) (r : Record) :
    takeSample it sender r s = raiseFlag .sampleOverrun s :=
  if_neg fun room => absurd (of_decide_eq_true room) (Nat.not_lt.mpr full)

/-- FIRST and GAP of the table of R140, by the distance from LAST QUEUED VERSION. -/
theorem sampleRun_table (fields : StreamFields) (wasOpen : Bool) (version : Version) :
    (wasOpen = true ∨ fields.firstOwed = true → sampleRun fields wasOpen version = (true, none)) ∧
      (wasOpen = false → fields.firstOwed = false → ∀ last, fields.lastQueued = some last →
        let d := (version - last).toNat
        (d = 0 ∨ 32768 ≤ d → sampleRun fields wasOpen version = (true, none)) ∧
          (d = 1 → sampleRun fields wasOpen version = (false, none)) ∧
          (2 ≤ d → d ≤ 256 → sampleRun fields wasOpen version = (false, some (d - 1))) ∧
          (257 ≤ d → d ≤ 32767 → sampleRun fields wasOpen version = (false, some 255))) := by
  refine ⟨fun starts => if_pos (by simpa using starts), fun closed notOwed last queued => ?_⟩
  have run : sampleRun fields wasOpen version =
      let d := (version - last).toNat
      if d = 0 ∨ 32768 ≤ d then (true, none)
      else if d = 1 then (false, none)
      else if d ≤ 256 then (false, some (d - 1))
      else (false, some 255) := by
    simp [sampleRun, closed, notOwed, queued]
  rw [run]
  refine ⟨fun far => if_pos far, fun one => ?_, fun low high => ?_, fun low high => ?_⟩
  · rw [if_neg (by omega), if_pos one]
  · rw [if_neg (by omega), if_neg (by omega), if_pos high]
  · rw [if_neg (by omega), if_neg (by omega), if_neg (by omega)]

end Stream

/-- Settles O44: by whether the queue has room, for the sample and for the read alike. -/
theorem sampleAppendedOrOverrun : Obligations.SampleAppendedOrOverrun := by
  intro s read sender r rest k it fields steps work found item length owner accepts stream has
  have ran := exec_remoteRecord_port steps work read
  rw [applyRemoteRecord_stream found item length owner accepts stream has] at ran
  have fieldsOf : it.streamFields = fields := by rw [Item.streamFields, has, Option.getD_some]
  obtain ⟨queue, flags, sampled⟩ := takeSample_only it sender r s
  have size : k < s.imu.items.length := (List.getElem?_eq_some_iff.mp item).1
  refine ⟨_, Item.accept r (some (streamAfter (sampleRoom s) it.baselineOpen fields r.version)) it, ran, ?_, fun room => ?_, fun full => ?_, fun w asked port => ⟨fun room => ?_, fun full => ?_⟩⟩
  · rw [sampled]
    exact List.getElem?_set_self size
  · obtain ⟨starts, goesOn⟩ := sampleRun_table fields it.baselineOpen r.version
    rw [takeSample_room room, fieldsOf, sampleRoom, sampleCapacity, decide_eq_true room]
    refine ⟨_, rfl, rfl, rfl, rfl, rfl, rfl, rfl, fun open_ => ?_, fun closed notOwed last queued => ?_⟩
    · rw [starts open_]
      exact ⟨rfl, rfl⟩
    · obtain ⟨far, one, gap, long⟩ := goesOn closed notOwed last queued
      refine ⟨fun h => ?_, fun h => ?_, fun low high => ?_, fun low high => ?_⟩
      · rw [far h]
        exact ⟨rfl, rfl⟩
      · rw [one h]
        exact ⟨rfl, rfl⟩
      · rw [gap low high]
        exact ⟨rfl, rfl⟩
      · rw [long low high]
        exact ⟨rfl, rfl⟩
  · rw [takeSample_full full, sampleRoom, sampleCapacity, decide_eq_false (Nat.not_lt.mpr full)]
    exact ⟨rfl, rfl, rfl⟩
  · subst asked
    have appends : appendInFlight s = true :=
      (appendInFlight_iff work found item).mpr ⟨decide_eq_true room, by simp [recordFits, length, owner], accepts, stream⟩
    have arrived : sampleReadArrives (some w) s = holdAccess (.sampleWord w) s := by
      rw [sampleReadArrives_free port, if_pos appends]
    rw [arrived]
    exact ⟨rfl, rfl, exec_heldAccessServed (a := .sampleWord w) rfl⟩
  · subst asked
    have idle : ¬appendInFlight s = true := fun appends =>
      absurd (of_decide_eq_true ((appendInFlight_iff work found item).mp appends).1) (Nat.not_lt.mpr full)
    have arrived : sampleReadArrives (some w) s = { s with hpt.readData := sampleViewWord s w.val } := by
      rw [sampleReadArrives_free port, if_neg idle]
    rw [arrived, show releasedBy (endsWithRecord (findSlot s.imu.items r.item)) s.hpt.held = none by rw [port.1]; rfl]
    exact ⟨rfl, rfl⟩

end Sys2Proof.Laws
end

section
/-! SUPPORT. Gate applications: one step, the end, and a whole application run, with the obligations on them (R35, R36, R39). -/

namespace Sys2Proof.Laws

open Sys2Proof.Machine

/-- The item is of the group and holds a pending part for the gate to move. -/
def gatePending (g : Group) (it : Item) : Bool := it.plan.gate == some g && it.pendingPart.isSome

theorem gatePending_iff {g : Group} {it : Item} :
    gatePending g it = true ↔ it.plan.gate = some g ∧ ∃ part, it.pendingPart = some part := by
  simp [gatePending, Option.isSome_iff_exists]

theorem nextGateSlot_some {s : State} {g : Group} {k : Nat} :
    nextGateSlot s g = some k ↔ (∃ it, s.imu.items[k]? = some it ∧ gatePending g it = true) ∧
      ∀ j < k, ∀ jt, s.imu.items[j]? = some jt → gatePending g jt = false := by
  show s.imu.items.findIdx? (gatePending g) = some k ↔ _
  rw [List.findIdx?_eq_some_iff_getElem]
  constructor
  · rintro ⟨size, here, before⟩
    refine ⟨⟨_, List.getElem?_eq_getElem size, here⟩, fun j earlier jt found => ?_⟩
    obtain ⟨_, rfl⟩ := List.getElem?_eq_some_iff.mp found
    exact Bool.eq_false_iff.mpr (before j earlier)
  · rintro ⟨⟨it, found, here⟩, before⟩
    obtain ⟨size, rfl⟩ := List.getElem?_eq_some_iff.mp found
    exact ⟨size, here, fun j earlier => Bool.eq_false_iff.mp (before j earlier _ (List.getElem?_eq_getElem (by omega)))⟩

theorem nextGateSlot_none {s : State} {g : Group} : nextGateSlot s g = none ↔ ∀ it ∈ s.imu.items, gatePending g it = false :=
  List.findIdx?_eq_none_iff

section Gate

variable {s : State} {m : Mark} {g : Group}

theorem exec_gateItemStep (steps : imuSteps s = true) (work : s.imu.work = .gate m g) {k : Nat} (next : nextGateSlot s g = some k) :
    exec .gateItemStep s = .next (updateItem k Item.moveGate s) := by
  show execGateItemStep s = _
  simp only [execGateItemStep, work, next, if_pos steps]

theorem exec_gateApplicationEnd (work : s.imu.work = .gate m g) :
    exec .gateApplicationEnd s = .next (if imuSteps s = true ∧ nextGateSlot s g = none then finishGate g s else s) := by
  show execGateApplicationEnd s = _
  simp only [execGateApplicationEnd, work]

theorem moveGate_eq {it : Item} {part : Part} (pending : it.pendingPart = some part) :
    it.moveGate = { it with visiblePart := some part, pendingPart := none } := by
  rw [Item.moveGate, pending]

/-- A gate moves the pending part of the next item and lists it by the test of R25. -/
theorem updateItem_moveGate {k : Nat} {it : Item} {part : Part} (found : s.imu.items[k]? = some it)
    (pending : it.pendingPart = some part) :
    updateItem k Item.moveGate s =
      changeItem k it { it with visiblePart := some part, pendingPart := none } s := by
  have moved := moveGate_eq pending
  rw [updateItem_eq_changeItem found _ (by rw [moved]), moved]

/-- The end of a gate application ends the work item, with GATE_APPLIED raised and the reads of the group released. -/
theorem finishGate_eq (g : Group) (s : State) :
    finishGate g s =
      endWork { s with hpt.flags.gateApplied := true, hpt.held := releasedBy (endsWithGate s g) s.hpt.held } := by
  rw [finishGate, releaseHeld_eq]
  rfl

end Gate

/-- Settles O46: the next item by the search for one with a pending part, the end where the search finds none. -/
theorem gateStepsAndEnds : Obligations.GateStepsAndEnds := by
  intro s m g steps work
  refine ⟨fun k it part found gate pending before => ?_, fun done => ?_⟩
  · have next : nextGateSlot s g = some k := by
      refine nextGateSlot_some.mpr ⟨⟨it, found, gatePending_iff.mpr ⟨gate, part, pending⟩⟩, fun j earlier jt here => ?_⟩
      refine Bool.eq_false_iff.mpr fun waits => ?_
      obtain ⟨inGroup, other, holds⟩ := gatePending_iff.mp waits
      exact nomatch (before j earlier jt here inGroup).symm.trans holds
    refine ⟨?_, _, exec_gateItemStep steps work next, ?_, ?_⟩
    · rw [exec_gateApplicationEnd work, if_neg fun ⟨_, ended⟩ => nomatch next.symm.trans ended]
    · rw [updateItem_moveGate found pending]
      rfl
    · rw [updateItem_moveGate found pending]
      simp only [changeItem, ne_eq, not_true_eq_false, or_false, eq_comm]
  · have none : nextGateSlot s g = none :=
      nextGateSlot_none.mpr fun it member => Bool.eq_false_iff.mpr fun waits => by
        obtain ⟨gate, part, pending⟩ := gatePending_iff.mp waits
        exact nomatch (done it member gate).symm.trans pending
    let u : State := { s with hpt.flags.gateApplied := true, hpt.held := releasedBy (endsWithGate s g) s.hpt.held }
    have ended := endWork_only u
    refine ⟨endWork u, ?_, by rw [ended], by rw [ended], by rw [ended], by rw [ended], by rw [ended], by rw [ended], by rw [ended],
      by rw [ended], ?_, ?_⟩
    · rw [exec_gateApplicationEnd work, if_pos ⟨steps, none⟩, finishGate_eq]
    · rintro rfl
      rw [endWork_remote (s := u) (by show s.imu.work.isSelf = false; rw [work]; rfl)]
      exact ⟨rfl, rfl⟩
    · rintro rfl
      exact endWork_looked (s := u) (by show s.imu.work.isSelf = true; rw [work]; rfl)

/-! ## A whole application -/

/-- What a gate of the group does to an item. -/
def gateMoved (g : Group) (it : Item) : Item :=
  if it.plan.gate = some g ∧ it.pendingPart.isSome = true then { it with visiblePart := it.pendingPart, pendingPart := none } else it

theorem gateMoved_of_pending {g : Group} {it : Item} {part : Part} (gate : it.plan.gate = some g) (pending : it.pendingPart = some part) :
    gateMoved g it = { it with visiblePart := some part, pendingPart := none } := by
  rw [gateMoved, if_pos ⟨gate, by rw [pending]; rfl⟩, pending]

theorem gateMoved_of_done {g : Group} {it : Item} (done : gatePending g it = false) : gateMoved g it = it := by
  refine if_neg fun ⟨gate, pending⟩ => ?_
  obtain ⟨part, holds⟩ := Option.isSome_iff_exists.mp pending
  exact nomatch done.symm.trans (gatePending_iff.mpr ⟨gate, part, holds⟩)

theorem run_next {s t : State} (stepped : step s = .next t) (n : Nat) :
    Host.Core.run Sys2Proof.core (n + 1) s = Host.Core.run Sys2Proof.core n t := by
  have stepped' : Sys2Proof.core.step s = .next t := stepped
  simp only [Host.Core.run, stepped']

section Run

variable {s : State} {g : Group} {k : Nat} {it : Item} {part : Part}

/-- A step leaves one item less to move. -/
theorem countP_gateMoved (found : s.imu.items[k]? = some it) (waits : gatePending g it = true) (after : Item)
    (moved : gatePending g after = false) :
    s.imu.items.countP (gatePending g) = (s.imu.items.set k after).countP (gatePending g) + 1 := by
  obtain ⟨size, rfl⟩ := List.getElem?_eq_some_iff.mp found
  have some_ : 0 < s.imu.items.countP (gatePending g) := List.countP_pos_iff.mpr ⟨_, List.getElem_mem size, waits⟩
  rw [List.countP_set size, waits, moved]
  simp only [if_true, Bool.false_eq_true, if_false]
  omega

/-- The item table that the application ends with is the same behind each of its steps. -/
theorem map_gateMoved_step (found : s.imu.items[k]? = some it) (gate : it.plan.gate = some g) (pending : it.pendingPart = some part) :
    (s.imu.items.set k { it with visiblePart := some part, pendingPart := none }).map (gateMoved g) =
      s.imu.items.map (gateMoved g) := by
  obtain ⟨size, rfl⟩ := List.getElem?_eq_some_iff.mp found
  refine List.ext_getElem? fun j => ?_
  rw [List.getElem?_map, List.getElem?_map, List.getElem?_set]
  by_cases here : k = j
  · subst here
    rw [if_pos rfl, if_pos size, found, Option.map_some, Option.map_some, gateMoved_of_pending gate pending,
      gateMoved_of_done (by simp [gatePending])]
  · rw [if_neg here]

end Run

/-- The application run from a state with `n` items still to move. -/
theorem gateApplication_run (n : Nat) {s : State} {m : Mark} {g : Group} (p : List Instr) (steps : imuSteps s = true)
    (work : s.imu.work = .gate m g) (left : s.imu.items.countP (gatePending g) = n) :
    ∃ t, Host.Core.run Sys2Proof.core (n + 1)
        { s with pending := List.replicate n .gateItemStep ++ .gateApplicationEnd :: p } = .next t ∧
      t.pending = p ∧ t.imu.work = .free ∧ t.hpt.flags.gateApplied = true ∧ t.imu.items = s.imu.items.map (gateMoved g) := by
  induction n generalizing s with
  | zero =>
    have done := List.countP_eq_zero.mp left
    have ended : nextGateSlot s g = none := nextGateSlot_none.mpr fun it member => Bool.eq_false_iff.mpr (done it member)
    have ran : exec .gateApplicationEnd { s with pending := p } = .next (finishGate g { s with pending := p }) := by
      rw [exec_gateApplicationEnd (s := { s with pending := p }) work]
      exact congrArg Host.Outcome.next (if_pos ⟨steps, ended⟩)
    refine ⟨_, run_next (s := { s with pending := .gateApplicationEnd :: p }) ran 0, ?_⟩
    rw [finishGate_eq, endWork_only]
    refine ⟨rfl, rfl, rfl, ?_⟩
    show s.imu.items = _
    rw [List.map_congr_left fun it member => gateMoved_of_done (Bool.eq_false_iff.mpr (done it member)), List.map_id']
  | succ n ih =>
    have waits : nextGateSlot s g ≠ none := fun ended => by
      have none_ := List.countP_eq_zero.mpr fun it member => Bool.eq_false_iff.mp (nextGateSlot_none.mp ended it member)
      omega
    obtain ⟨k, next⟩ := Option.ne_none_iff_exists'.mp waits
    obtain ⟨⟨it, found, pending⟩, -⟩ := nextGateSlot_some.mp next
    obtain ⟨gate, part, holds⟩ := gatePending_iff.mp pending
    let moved : Item := { it with visiblePart := some part, pendingPart := none }
    let rest : List Instr := List.replicate n .gateItemStep ++ .gateApplicationEnd :: p
    have stepped : exec .gateItemStep { s with pending := rest } = .next { changeItem k it moved s with pending := rest } := by
      rw [exec_gateItemStep (s := { s with pending := rest }) steps work next,
        updateItem_moveGate (s := { s with pending := rest }) found holds]
      rfl
    have fewer := countP_gateMoved found pending moved (by simp [gatePending, moved])
    obtain ⟨t, ran, result⟩ := ih (s := changeItem k it moved s) steps work (by
      show (s.imu.items.set k moved).countP (gatePending g) = n
      omega)
    refine ⟨t, (run_next (s := { s with pending := .gateItemStep :: rest }) stepped (n + 1)).trans ran, ?_⟩
    rwa [← map_gateMoved_step found gate holds]

/-- Settles O47: one step for each item that holds a pending part, and the end. -/
theorem gateApplicationMovesWholeGroup : Obligations.GateApplicationMovesWholeGroup :=
  fun s _ _ steps work => gateApplication_run _ s.pending steps work rfl

end Sys2Proof.Laws
end

section
/-! SUPPORT. Words of fields and bits: what stands where in a word put together by `place`, and the obligation on the flags words, the
summaries and INT (tables 11-13 and 11-14, R5, R171, R172). -/

namespace Sys2Proof.Laws

open Sys2Proof.Machine

/-! ## Fields and bits of a word -/

/-- A field below everything that a word holds so far is added to it. -/
theorem toNat_or_place {w : Word} {low n : Nat} (i : Nat) (above : 2 ^ i ∣ w.toNat) (fits : n * 2 ^ low < 2 ^ i) (width : i ≤ 16) :
    (w ||| place low n).toNat = w.toNat + n * 2 ^ low := by
  have small : n * 2 ^ low < 2 ^ 16 := lt_of_lt_of_le fits (Nat.pow_le_pow_right (by decide) width)
  obtain ⟨a, multiple⟩ := above
  rw [BitVec.toNat_or, multiple, place, BitVec.toNat_ofNat, Nat.mod_eq_of_lt small, Nat.two_pow_add_eq_or_of_lt fits]

theorem toNat_place {low n : Nat} (fits : n * 2 ^ low < 2 ^ 16) : (place low n).toNat = n * 2 ^ low := by
  rw [place, BitVec.toNat_ofNat, Nat.mod_eq_of_lt fits]

theorem getLsbD_placeBit (low : Nat) (b : Bool) (k : Nat) :
    (placeBit low b).getLsbD k = (decide (k < 16) && decide (k = low) && b) := by
  cases b with
  | false => simp [placeBit, place]
  | true =>
    rw [placeBit, place, BitVec.getLsbD_ofNat, Bool.toNat_true, Nat.one_mul, Nat.testBit_two_pow, Bool.and_true]
    simp only [eq_comm]

theorem getElem_placeBit (low : Nat) (b : Bool) {k : Nat} (small : k < 16) : (placeBit low b)[k] = (decide (k = low) && b) := by
  rw [← BitVec.getLsbD_eq_getElem, getLsbD_placeBit, decide_eq_true small, Bool.true_and]

/-- Bits under a mask are not all 0 where one of them is enabled. -/
theorem and_mask_ne_zero (w : Word) {n : Nat} (mask : BitVec n) (narrow : n ≤ 16) :
    w &&& mask.setWidth 16 ≠ 0 ↔ ∃ b < n, w.getLsbD b = true ∧ mask.getLsbD b = true := by
  constructor
  · intro some_
    by_contra none_
    refine some_ (BitVec.eq_of_getLsbD_eq fun b small => ?_)
    rw [BitVec.getLsbD_and, BitVec.getLsbD_setWidth, decide_eq_true small, Bool.true_and, BitVec.ofNat_eq_ofNat, BitVec.getLsbD_zero]
    by_contra set
    rw [Bool.not_eq_false, Bool.and_eq_true] at set
    exact none_ ⟨b, BitVec.lt_of_getLsbD set.2, set⟩
  · rintro ⟨b, small, flag, enabled⟩ zero
    have bit := congrArg (BitVec.getLsbD · b) zero
    rw [BitVec.getLsbD_and, BitVec.getLsbD_setWidth, decide_eq_true (lt_of_lt_of_le small narrow), Bool.true_and, flag, enabled] at bit
    exact nomatch bit.trans BitVec.getLsbD_zero

/-! ## The registers as the host reads them -/

theorem windowWord_register {s : State} (out : s.stc.inReset = false) {a : Word} (high : 0x2C08 ≤ a.toNat) :
    windowWord s a = registerWord s a.toNat := by
  unfold windowWord
  rw [out]
  simp only [Bool.false_eq_true, if_false]
  rw [if_neg (by omega), if_neg (by omega), if_neg (by omega), if_neg (by omega), if_neg (by omega), if_neg (by omega), if_neg (by omega),
    if_neg (by omega), if_neg (by omega)]

theorem exec_flagsClear {s : State} (port : portFree s) (flags : FlagClass) (v : Word) :
    exec (.flagsClear flags v) s = .next (clearFlags flags v s) := congrArg _ (hostWrite_free port _)

/-- Settles O20: the clears by the command, the words by the places of their bits. -/
theorem flagsClearAndDriveInt : Obligations.FlagsClearAndDriveInt := by
  intro s v
  refine ⟨fun port => ⟨exec_flagsClear port .ordinary v, _, exec_flagsClear port .fault v, rfl, rfl, rfl⟩, ?_, ?_, ?_, ?_, ?_,
    fun out => ⟨?_, ?_, ?_, ?_, ?_, ?_⟩⟩
  · simp [List.range_succ, ordinaryFlagsWord, getElem_placeBit, changesLevel, samplesLevel]
  · simp [List.range_succ, faultFlagsWord, getElem_placeBit]
  · rw [ordinarySummary, decide_eq_true_iff]
    exact and_mask_ne_zero _ _ (by decide)
  · rw [faultSummary, decide_eq_true_iff]
    exact and_mask_ne_zero _ _ (by decide)
  · rw [intAsserted, Bool.or_eq_true]
  · rw [windowWord_register out (by decide)]
    show viewPartWord s.hpt.viewPart = _
    cases s.hpt.viewPart <;> rfl
  · exact windowWord_register out (by decide)
  · exact windowWord_register out (by decide)
  · exact windowWord_register out (by decide)
  · exact windowWord_register out (by decide)
  · rw [windowWord_register out (by decide)]
    show (List.range 16).map (summaryWord s).getLsbD = _
    simp [List.range_succ, summaryWord, getElem_placeBit]

end Sys2Proof.Laws
end

section
/-! SUPPORT. The host window region by region (table 10-1), words of several fields as numbers, and the obligation on the item views (R167,
R168, tables 10-1 and 11-10). -/

namespace Sys2Proof.Laws

open Sys2Proof.Machine

/-! ## Words of several fields -/

/-- Fields (place and value) each below the one before it, the first below bit `i`. -/
def FieldsFit : Nat → List (Nat × Nat) → Prop
  | _, [] => True
  | i, (low, n) :: fields => low ≤ i ∧ n < 2 ^ (i - low) ∧ FieldsFit low fields

/-- The number of a word of fields is the sum of its fields at their places. -/
theorem toNat_fields {w : Word} {i : Nat} {fields : List (Nat × Nat)} (above : 2 ^ i ∣ w.toNat) (width : i ≤ 16)
    (fit : FieldsFit i fields) :
    (fields.foldl (fun w field => w ||| place field.1 field.2) w).toNat =
      w.toNat + (fields.map fun field => field.2 * 2 ^ field.1).sum := by
  induction fields generalizing w i with
  | nil => rfl
  | cons field fields ih =>
    obtain ⟨low, n⟩ := field
    obtain ⟨below, small, fit⟩ := fit
    have fits : n * 2 ^ low < 2 ^ i := by
      have scaled := Nat.mul_lt_mul_of_pos_right small (Nat.two_pow_pos low)
      rwa [← Nat.pow_add, Nat.sub_add_cancel below] at scaled
    have added := toNat_or_place i above fits width
    have multiple : 2 ^ low ∣ (w ||| place low n).toNat := by
      rw [added]
      exact Nat.dvd_add ((Nat.pow_dvd_pow 2 below).trans above) (Nat.dvd_mul_left _ _)
    rw [List.foldl_cons, ih multiple (below.trans width) fit, added, List.map_cons, List.sum_cons, Nat.add_assoc]

/-! ## The regions of the window -/

section Window

variable {s : State} (out : s.stc.inReset = false) {a : Word}

include out

/-- The regions in the order of table 10-1. -/
theorem windowWord_out : windowWord s a =
    if a.toNat ≤ 0x1FFF then itemViewRead s (a.toNat / 16) (a.toNat % 16)
    else if a.toNat ≤ 0x23FF then s.hpt.staging.read (a.toNat - 0x2000)
    else if a.toNat ≤ 0x247F then s.req.ring.read (a.toNat - 0x2400)
    else if a.toNat ≤ 0x249F then s.hpt.notify.read (a.toNat - 0x2480)
    else if a.toNat ≤ 0x24AF then sampleViewWord s (a.toNat - 0x24A0)
    else if a.toNat < 0x24C0 then 0
    else if a.toNat ≤ 0x24FF then
      peerViewWord (peerOf s (Fin.ofNat 32 ((a.toNat - 0x24C0) / 2))) ((a.toNat - 0x24C0) % 2)
    else if a.toNat < 0x2800 then 0
    else if a.toNat ≤ 0x2C07 then s.stc.window.read (a.toNat - 0x2800)
    else registerWord s a.toNat := by
  simp only [windowWord, out, Bool.false_eq_true, if_false]

theorem windowWord_views (h : a.toNat ≤ 0x1FFF) : windowWord s a = itemViewRead s (a.toNat / 16) (a.toNat % 16) := by
  rw [windowWord_out out, if_pos h]

theorem windowWord_staging (h : 0x2000 ≤ a.toNat) (h' : a.toNat ≤ 0x23FF) :
    windowWord s a = s.hpt.staging.read (a.toNat - 0x2000) := by
  rw [windowWord_out out, if_neg (by omega), if_pos h']

theorem windowWord_ring (h : 0x2400 ≤ a.toNat) (h' : a.toNat ≤ 0x247F) : windowWord s a = s.req.ring.read (a.toNat - 0x2400) := by
  rw [windowWord_out out, if_neg (by omega), if_neg (by omega), if_pos h']

theorem windowWord_notify (h : 0x2480 ≤ a.toNat) (h' : a.toNat ≤ 0x249F) :
    windowWord s a = s.hpt.notify.read (a.toNat - 0x2480) := by
  rw [windowWord_out out, if_neg (by omega), if_neg (by omega), if_neg (by omega), if_pos h']

theorem windowWord_samples (h : 0x24A0 ≤ a.toNat) (h' : a.toNat ≤ 0x24AF) :
    windowWord s a = sampleViewWord s (a.toNat - 0x24A0) := by
  rw [windowWord_out out, if_neg (by omega), if_neg (by omega), if_neg (by omega), if_neg (by omega), if_pos h']

theorem windowWord_peers (h : 0x24C0 ≤ a.toNat) (h' : a.toNat ≤ 0x24FF) :
    windowWord s a = peerViewWord (peerOf s (Fin.ofNat 32 ((a.toNat - 0x24C0) / 2))) ((a.toNat - 0x24C0) % 2) := by
  rw [windowWord_out out, if_neg (by omega), if_neg (by omega), if_neg (by omega), if_neg (by omega), if_neg (by omega),
    if_neg (by omega), if_pos h']

theorem windowWord_plan (h : 0x2800 ≤ a.toNat) (h' : a.toNat ≤ 0x2C07) :
    windowWord s a = s.stc.window.read (a.toNat - 0x2800) := by
  rw [windowWord_out out, if_neg (by omega), if_neg (by omega), if_neg (by omega), if_neg (by omega), if_neg (by omega),
    if_neg (by omega), if_neg (by omega), if_neg (by omega), if_pos h']

theorem windowWord_gaps (h : (0x24B0 ≤ a.toNat ∧ a.toNat ≤ 0x24BF) ∨ (0x2500 ≤ a.toNat ∧ a.toNat ≤ 0x27FF)) : windowWord s a = 0 := by
  rw [windowWord_out out, if_neg (by omega), if_neg (by omega), if_neg (by omega), if_neg (by omega), if_neg (by omega)]
  rcases h with low | high
  · rw [if_pos (by omega)]
  · rw [if_neg (by omega), if_neg (by omega), if_pos (by omega)]

/-- Word `w` of the item view of slot `j`. -/
theorem windowWord_view (j : Fin 512) {w : Nat} (small : w < 16) :
    windowWord s (BitVec.ofNat 16 (16 * j.val + w)) = itemViewRead s j.val w := by
  have place : (BitVec.ofNat 16 (16 * j.val + w)).toNat = 16 * j.val + w := by
    rw [BitVec.toNat_ofNat]
    omega
  rw [windowWord_views out (by omega), place, show (16 * j.val + w) / 16 = j.val by omega, show (16 * j.val + w) % 16 = w by omega]

end Window

/-! ## Item views -/

section View

variable {s : State} {k : Fin 512}

/-- An operation that changes the item of slot `k` is in flight (R15, R39). -/
def ChangesSlot (s : State) (k : Fin 512) : Prop :=
  (∃ sender r rest, s.imu.work = .remoteRecords sender (r :: rest) ∧ findSlot s.imu.items r.item = some k.val) ∨
    (∃ r rest, s.imu.work = .selfRecords (r :: rest) ∧ findSlot s.imu.items r.item = some k.val) ∨
    ∃ m g it, s.imu.work = .gate m g ∧ s.imu.items[k.val]? = some it ∧ it.plan.gate = some g

theorem accessHeld_view_iff : accessHeld s (.viewWord0 k) = true ↔ ChangesSlot s k := by
  simp only [accessHeld, Bool.or_eq_true, beq_iff_eq]
  cases work : s.imu.work with
  | free => simp [recordSlot, gateHolds, ChangesSlot, work]
  | notice f => simp [recordSlot, gateHolds, ChangesSlot, work]
  | remoteRecords sender records => cases records <;> simp [recordSlot, gateHolds, ChangesSlot, work]
  | selfRecords records => cases records <;> simp [recordSlot, gateHolds, ChangesSlot, work]
  | gate m g => simp [recordSlot, gateHolds, ChangesSlot, work, inGroup_iff]

theorem exec_viewRead (port : portFree s) (k : Fin 512) :
    exec (.itemViewWord0Read k) s =
      .next (if accessHeld s (.viewWord0 k) then holdAccess (.viewWord0 k) s else latchView k s) :=
  congrArg _ (hostRead_free port _)

theorem itemViewWord_item {it : Item} (found : s.imu.items[k.val]? = some it) (w : Nat) :
    itemViewWord s k.val w = itemViewOf s.hpt.viewPart it w := by
  rw [itemViewWord, found]

theorem condition_code_lt (c : Condition) : c.code < 2 ^ 4 := by
  cases c <;> decide

/-- Word 0 of an item's view as a number (table 11-10). -/
theorem itemHeader_toNat (it : Item) :
    (itemHeader it).toNat =
      32768 + 1024 * ((it.plan.gate.map Fin.val).getD 0) + 512 * it.plan.gate.isSome.toNat +
        256 * (it.plan.kind == .stream).toNat + 128 * (it.owned.any OwnedFields.clashMark).toNat +
        64 * it.baselineOpen.toNat + 32 * it.pendingPart.isSome.toNat + 16 * it.visiblePart.isSome.toNat + it.condition.code := by
  have group : (it.plan.gate.map Fin.val).getD 0 < 2 ^ 5 := by
    cases it.plan.gate with
    | none => decide
    | some g => exact lt_trans g.isLt (by decide)
  refine (toNat_fields (w := placeBit 15 true) (i := 15)
    (fields := [(10, (it.plan.gate.map Fin.val).getD 0), (9, it.plan.gate.isSome.toNat), (8, (it.plan.kind == .stream).toNat),
      (7, (it.owned.any OwnedFields.clashMark).toNat), (6, it.baselineOpen.toNat), (5, it.pendingPart.isSome.toNat),
      (4, it.visiblePart.isSome.toNat), (0, it.condition.code)]) (by decide) (by decide) ?_).trans ?_
  · simp only [FieldsFit, Nat.reduceLeDiff, Nat.reduceSub, true_and, and_true]
    exact ⟨group, Bool.toNat_lt _, Bool.toNat_lt _, Bool.toNat_lt _, Bool.toNat_lt _, Bool.toNat_lt _, Bool.toNat_lt _,
      condition_code_lt _⟩
  · simp only [List.map_cons, List.map_nil, List.sum_cons, List.sum_nil, show (placeBit 15 true).toNat = 32768 from rfl]
    omega

/-- Word 1 of an item's view: LENGTH above the item number. -/
theorem lengthWord_toNat {length : Nat} (small : length ≤ 8) (n : ItemNo) :
    (place 12 length ||| n.setWidth 16).toNat = 4096 * length + n.toNat := by
  have number : n.setWidth 16 = place 0 n.toNat := by
    rw [place, Nat.pow_zero, Nat.mul_one, BitVec.ofNat_toNat]
  have front : (place 12 length).toNat = length * 2 ^ 12 := toNat_place (by omega)
  rw [number, toNat_or_place 12 (by rw [front]; exact Nat.dvd_mul_left _ _) (by have := n.isLt; omega) (by decide), front]
  omega

/-- Words 1 to 15 of the latched slot are the latch's; every other word of a view is the live one. -/
theorem itemViewRead_eq (t : State) (j w : Nat) :
    itemViewRead t j w =
      if w ≠ 0 ∧ t.hpt.latch.slot.map Fin.val = some j then t.hpt.latch.words.getD w 0 else itemViewWord t j w := rfl

end View

/-- Settles O17: the read is held where the item is being changed; the latch and the fields word by word. -/
theorem viewWord0ReadLatches : Obligations.ViewWord0ReadLatches := by
  intro s k
  refine ⟨fun port => ⟨fun changes => ?_, fun still => ?_⟩, fun n => findSlot_iff, fun t latch out j w small => ?_,
    fun empty w => by rw [itemViewWord, empty], fun it found length => ?_⟩
  · rw [exec_viewRead port, if_pos (accessHeld_view_iff.mpr changes)]
    rfl
  · rw [exec_viewRead port, if_neg (still ∘ accessHeld_view_iff.mp)]
    rfl
  · rw [windowWord_view out j small, itemViewRead_eq, latch]
    by_cases latched : j = k ∧ w ≠ 0
    · rw [if_pos latched, if_pos ⟨latched.2, by rw [latched.1]; rfl⟩]
      simp [List.getD_eq_getElem?_getD, small]
    · rw [if_neg latched, if_neg]
      exact fun ⟨later, same⟩ => latched ⟨Fin.ext (Option.some.inj same).symm, later⟩
  · simp only [itemViewWord_item found]
    refine ⟨?_, lengthWord_toNat length _, ?_, rfl, rfl, rfl, rfl, rfl, fun j small => ?_⟩
    · refine (itemHeader_toNat it).trans ?_
      cases it.plan.kind <;> rfl
    · exact (toNat_place (low := 0) (by have := it.plan.owner.isLt; omega)).trans (Nat.mul_one _)
    · have word : itemViewOf s.hpt.viewPart it (8 + j) =
          ((it.viewedPart s.hpt.viewPart).map fun part => part.value.getD (8 + j - 8) 0).getD 0 := by
        interval_cases j <;> rfl
      rw [word, Nat.add_sub_cancel_left]
      cases s.hpt.viewPart with
      | visible =>
        rw [show it.viewedPart .visible = it.visiblePart from rfl]
        cases it.visiblePart <;> rfl
      | pending =>
        rw [show it.viewedPart .pending = it.pendingPart from rfl]
        cases it.pendingPart <;> rfl

end Sys2Proof.Laws
end

section
/-! SUPPORT. Host writes to the words without behaviour of their own, and the obligation on them (R164, R167, R172, table 10-1). -/

namespace Sys2Proof.Laws

open Sys2Proof.Machine

/-- The state with the stores that the host alone writes replaced. -/
def withStores (staging ring notify : WordStore) (s : State) : State :=
  { s with hpt.staging := staging, hpt.notify := notify, req.ring := ring }

section Stores

variable {s : State} (out : s.stc.inReset = false) {staging ring notify : WordStore} {b : Word}

include out

/-- The host reads the same where the stores hold the same. -/
theorem windowWord_withStores
    (hstaging : 0x2000 ≤ b.toNat → b.toNat ≤ 0x23FF → staging.read (b.toNat - 0x2000) = s.hpt.staging.read (b.toNat - 0x2000))
    (hring : 0x2400 ≤ b.toNat → b.toNat ≤ 0x247F → ring.read (b.toNat - 0x2400) = s.req.ring.read (b.toNat - 0x2400))
    (hnotify : 0x2480 ≤ b.toNat → b.toNat ≤ 0x249F → notify.read (b.toNat - 0x2480) = s.hpt.notify.read (b.toNat - 0x2480)) :
    windowWord (withStores staging ring notify s) b = windowWord s b := by
  have outT : (withStores staging ring notify s).stc.inReset = false := out
  by_cases views : b.toNat ≤ 0x1FFF
  · rw [windowWord_views outT views, windowWord_views out views]
    rfl
  by_cases inStaging : b.toNat ≤ 0x23FF
  · rw [windowWord_staging outT (by omega) inStaging, windowWord_staging out (by omega) inStaging]
    exact hstaging (by omega) inStaging
  by_cases inRing : b.toNat ≤ 0x247F
  · rw [windowWord_ring outT (by omega) inRing, windowWord_ring out (by omega) inRing]
    exact hring (by omega) inRing
  by_cases inNotify : b.toNat ≤ 0x249F
  · rw [windowWord_notify outT (by omega) inNotify, windowWord_notify out (by omega) inNotify]
    exact hnotify (by omega) inNotify
  rw [windowWord_out outT, windowWord_out out, if_neg views, if_neg views, if_neg inStaging, if_neg inStaging, if_neg inRing,
    if_neg inRing, if_neg inNotify, if_neg inNotify]
  rfl

end Stores

theorem exec_hostRegisterWrite {s : State} (port : portFree s) (a v : Word) :
    exec (.hostRegisterWrite a v) s = .next (writeWord a v s) := congrArg _ (hostWrite_free port _)

theorem exec_hostRegisterWrite_high {s : State} (port : portFree s) {a : Word} (high : 0x2C08 ≤ a.toNat) (v : Word) :
    exec (.hostRegisterWrite a v) s = .next (writeRegister a.toNat v s) := by
  rw [exec_hostRegisterWrite_register high, hostWrite_free port]

/-- A word stored in staging, in the ring or in the notify map reads back, and every other word reads as before. -/
theorem hostWrite_stored {s : State} {a : Word} (v : Word) (out : s.stc.inReset = false) (canonical : StoresCanonical s)
    (low : 0x2000 ≤ a.toNat) (high : a.toNat ≤ 0x249F) :
    windowWord (writeWord a v s) a = v ∧ (∀ b, b ≠ a → windowWord (writeWord a v s) b = windowWord s b) ∧
      ∃ staging ring notify, writeWord a v s = withStores staging ring notify s := by
  obtain ⟨staging, ring, notify, -⟩ := canonical
  have apart {b : Word} (other : b ≠ a) {base : Nat} (hb : base ≤ b.toNat) (ha : base ≤ a.toNat) : a.toNat - base ≠ b.toNat - base := by
    have distinct : b.toNat ≠ a.toNat := fun same => other (BitVec.eq_of_toNat_eq same)
    omega
  by_cases inStaging : a.toNat ≤ 0x23FF
  · have written : writeWord a v s =
        withStores (s.hpt.staging.write (a.toNat - 0x2000) v) s.req.ring s.hpt.notify s := writeWord_staging v s low inStaging
    refine ⟨?_, fun b other => ?_, _, _, _, written⟩
    · rw [writeWord_staging v s low inStaging]
      exact (windowWord_staging (by exact out) low inStaging).trans (read_write_same _ v staging)
    · rw [written]
      exact windowWord_withStores out (fun hb _ => read_write_other _ v (apart other hb low).symm) (fun _ _ => rfl) fun _ _ => rfl
  by_cases inRing : a.toNat ≤ 0x247F
  · have written : writeWord a v s =
        withStores s.hpt.staging (s.req.ring.write (a.toNat - 0x2400) v) s.hpt.notify s := writeWord_ring v s (by omega) inRing
    refine ⟨?_, fun b other => ?_, _, _, _, written⟩
    · rw [writeWord_ring v s (by omega) inRing]
      exact (windowWord_ring (by exact out) (by omega) inRing).trans (read_write_same _ v ring)
    · rw [written]
      refine windowWord_withStores out (fun _ _ => rfl) (fun hb _ => ?_) fun _ _ => rfl
      exact read_write_other _ v (apart other hb (by omega)).symm
  · have written : writeWord a v s =
        withStores s.hpt.staging s.req.ring (s.hpt.notify.write (a.toNat - 0x2480) v) s := writeWord_notify v s (by omega) high
    refine ⟨?_, fun b other => ?_, _, _, _, written⟩
    · rw [writeWord_notify v s (by omega) high]
      exact (windowWord_notify (by exact out) (by omega) high).trans (read_write_same _ v notify)
    · rw [written]
      refine windowWord_withStores out (fun _ _ => rfl) (fun _ _ => rfl) fun hb _ => ?_
      exact read_write_other _ v (apart other hb (by omega)).symm

/-- The low bits of a word, stored and read back. -/
theorem setWidth_low (v : Word) {n : Nat} (narrow : n ≤ 16) : (v.setWidth n).setWidth 16 = v &&& BitVec.ofNat 16 (2 ^ n - 1) := by
  refine BitVec.eq_of_toNat_eq ?_
  have small : 2 ^ n ≤ 2 ^ 16 := Nat.pow_le_pow_right (by decide) narrow
  have pos : 0 < 2 ^ n := Nat.two_pow_pos n
  have below : v.toNat % 2 ^ n < 2 ^ n := Nat.mod_lt _ pos
  rw [BitVec.toNat_setWidth, BitVec.toNat_setWidth, BitVec.toNat_and, BitVec.toNat_ofNat, Nat.mod_eq_of_lt (by omega),
    Nat.mod_eq_of_lt (a := 2 ^ n - 1) (by omega), Nat.and_two_pow_sub_one_eq_mod]

theorem viewPartWord_bit (v : Word) : viewPartWord (if v.getLsbD 0 then .pending else .visible) = v &&& 1#16 := by
  rw [BitVec.and_one_eq_setWidth_ofBool_getLsbD]
  cases v.getLsbD 0 <;> rfl

/-- Settles O22: by the region of the address. -/
theorem hostRegisterWrites : Obligations.HostRegisterWrites := by
  intro s a v port canonical
  refine ⟨fun low high => ?_, ?_, ?_, ?_, fun elsewhere => ?_⟩
  · obtain ⟨back, others, staging, ring, notify, stored⟩ := hostWrite_stored v port.2 canonical low high
    exact ⟨_, exec_hostRegisterWrite port a v, back, others, by rw [stored]; rfl⟩
  · rintro t rfl
    refine ⟨exec_hostRegisterWrite_high port (by decide) v, ?_⟩
    rw [windowWord_register (by exact port.2) (by decide)]
    exact viewPartWord_bit v
  · rintro t rfl
    refine ⟨exec_hostRegisterWrite_high port (by decide) v, ?_⟩
    rw [windowWord_register (by exact port.2) (by decide)]
    exact setWidth_low (n := 6) v (by decide)
  · rintro t rfl
    refine ⟨exec_hostRegisterWrite_high port (by decide) v, ?_⟩
    rw [windowWord_register (by exact port.2) (by decide)]
    exact setWidth_low (n := 7) v (by decide)
  · rw [exec_hostRegisterWrite port]
    rcases elsewhere with views | ⟨low, high⟩ | ⟨low, high⟩ | rfl | high
    · rw [writeWord_views v s views]
    · rw [writeWord_readOnly v s low high]
    · rw [writeWord_register v s low, writeRegister_other v s (.inl high)]
    · rw [writeWord_register v s (by decide), writeRegister_other (a := (0x3007#16).toNat) v s (.inr (.inl (by decide)))]
    · rw [writeWord_register v s (by omega), writeRegister_other v s (.inr (.inr high))]

end Sys2Proof.Laws
end

section
/-! SUPPORT. What the host reads, word by word, and the obligation on it (tables 10-1, 10-4, 11-11 to 11-14, R143, R163). -/

namespace Sys2Proof.Laws

open Sys2Proof.Machine

/-! ## Words as numbers -/

theorem setWidth_eq_place {n : Nat} (x : BitVec n) : x.setWidth 16 = place 0 x.toNat := by
  rw [place, Nat.pow_zero, Nat.mul_one, BitVec.ofNat_toNat]

theorem toNat_place_zero {n : Nat} (small : n < 65536) : (place 0 n).toNat = n :=
  (toNat_place (by omega)).trans (Nat.mul_one n)

theorem toNat_bit_or (b : Bool) {n : Nat} (small : n < 32768) : (placeBit 15 b ||| place 0 n).toNat = 32768 * b.toNat + n := by
  have front : (placeBit 15 b).toNat = 32768 * b.toNat := by cases b <;> rfl
  rw [toNat_or_place 15 (by rw [front]; exact Nat.dvd_mul_right _ _) (by omega) (by decide), front]
  omega

/-- Word 0 of the sample view (table 11-11). -/
theorem sampleHeader_toNat {e : Sample} (length : e.value.length ≤ 8) (fill : Nat) :
    (sampleViewOf e fill 0).toNat =
      32768 + 16384 * e.first.toNat + 8192 * e.gap.isSome.toNat + 256 * e.sender.val + e.value.length := by
  refine (toNat_fields (w := placeBit 15 true) (i := 15)
    (fields := [(14, e.first.toNat), (13, e.gap.isSome.toNat), (8, e.sender.val), (0, e.value.length)]) (by decide) (by decide) ?_).trans ?_
  · simp only [FieldsFit, Nat.reduceLeDiff, Nat.reduceSub, true_and, and_true]
    exact ⟨Bool.toNat_lt _, Bool.toNat_lt _, e.sender.isLt, by omega⟩
  · simp only [List.map_cons, List.map_nil, List.sum_cons, List.sum_nil, show (placeBit 15 true).toNat = 32768 from rfl]
    omega

/-- Word 0 of the peer view (table 11-12). -/
theorem peerHeader_toNat (p : Peer) :
    (peerViewWord p 0).toNat =
      256 * (p.expected.map BitVec.toNat).getD 0 + 128 * p.expected.isSome.toNat + 4 * p.agreement.code + p.state.code := by
  have sequence : (p.expected.map BitVec.toNat).getD 0 < 256 := by
    cases p.expected with
    | none => decide
    | some q => exact q.isLt
  have front : (place 8 ((p.expected.map BitVec.toNat).getD 0)).toNat = (p.expected.map BitVec.toNat).getD 0 * 2 ^ 8 :=
    toNat_place (by omega)
  have agreement : p.agreement.code < 2 ^ 5 := by cases p.agreement <;> decide
  have state : p.state.code < 2 ^ 2 := by cases p.state <;> decide
  refine (toNat_fields (w := place 8 ((p.expected.map BitVec.toNat).getD 0)) (i := 8)
    (fields := [(7, p.expected.isSome.toNat), (2, p.agreement.code), (0, p.state.code)]) ?_ (by decide) ?_).trans ?_
  · rw [front]
    exact Nat.dvd_mul_left _ _
  · simp only [FieldsFit, Nat.reduceLeDiff, Nat.reduceSub, true_and, and_true]
    exact ⟨Bool.toNat_lt _, agreement, state⟩
  · simp only [List.map_cons, List.map_nil, List.sum_cons, List.sum_nil, front]
    omega

/-- Word 0x3000 of the station status (table 11-13). -/
theorem statusWord0_toNat (s : State) :
    (statusWord0 s).toNat =
      4096 * s.req.process.code + 256 * s.stc.faultCode.code + 128 * s.stc.checking.toNat + 16 * s.stc.mutedCause.code +
        s.stc.station.code := by
  have process : s.req.process.code < 3 := by cases s.req.process <;> decide
  have fault : s.stc.faultCode.code < 2 ^ 4 := by cases s.stc.faultCode <;> decide
  have cause : s.stc.mutedCause.code < 2 ^ 3 := by cases s.stc.mutedCause <;> decide
  have station : s.stc.station.code < 2 ^ 4 := by cases s.stc.station <;> decide
  have front : (place 12 s.req.process.code).toNat = s.req.process.code * 2 ^ 12 := toNat_place (by omega)
  refine (toNat_fields (w := place 12 s.req.process.code) (i := 12)
    (fields := [(8, s.stc.faultCode.code), (7, s.stc.checking.toNat), (4, s.stc.mutedCause.code), (0, s.stc.station.code)])
    ?_ (by decide) ?_).trans ?_
  · rw [front]
    exact Nat.dvd_mul_left _ _
  · simp only [FieldsFit, Nat.reduceLeDiff, Nat.reduceSub, true_and, and_true]
    exact ⟨fault, Bool.toNat_lt _, cause, station⟩
  · simp only [List.map_cons, List.map_nil, List.sum_cons, List.sum_nil, front]
    omega

/-- Word 0x3003 of the station status (table 11-13). -/
theorem statusWord3_toNat (s : State) :
    (statusWord3 s).toNat =
      4096 * s.req.cursor.val + 512 * s.stc.straps.listen.toNat + 256 * (s.stc.straps.startMode == .host).toNat +
        s.stc.straps.station.val := by
  have cursor := s.req.cursor.isLt
  have front : (place 12 s.req.cursor.val).toNat = s.req.cursor.val * 2 ^ 12 := toNat_place (by omega)
  refine (toNat_fields (w := place 12 s.req.cursor.val) (i := 12)
    (fields := [(9, s.stc.straps.listen.toNat), (8, (s.stc.straps.startMode == .host).toNat), (0, s.stc.straps.station.val)])
    ?_ (by decide) ?_).trans ?_
  · rw [front]
    exact Nat.dvd_mul_left _ _
  · simp only [FieldsFit, Nat.reduceLeDiff, Nat.reduceSub, true_and, and_true]
    exact ⟨by have := Bool.toNat_lt s.stc.straps.listen; omega, Bool.toNat_lt _, by have := s.stc.straps.station.isLt; omega⟩
  · simp only [List.map_cons, List.map_nil, List.sum_cons, List.sum_nil, front]
    omega

theorem summaryWord_toNat (s : State) :
    (summaryWord s).toNat = 4 * (intAsserted s).toNat + 2 * (faultSummary s).toNat + (ordinarySummary s).toNat := by
  unfold summaryWord
  cases ordinarySummary s <;> cases faultSummary s <;> cases intAsserted s <;> rfl

theorem gateViewWord_toNat (held : Option Byte) :
    (gateViewWord held).toNat = match held with
      | none => 0
      | some q => 32768 + q.toNat := by
  cases held with
  | none => rfl
  | some q =>
    have small := q.isLt
    rw [show gateViewWord (some q) = placeBit 15 true ||| q.setWidth 16 from rfl, setWidth_eq_place, toNat_bit_or true (by omega),
      Bool.toNat_true, Nat.mul_one]

theorem counterWord_toNat (c : Counter) : c.word.toNat = 32768 * c.overflow.toNat + c.count.toNat := by
  rw [Counter.word, setWidth_eq_place]
  exact toNat_bit_or _ (by have := c.count.isLt; omega)

/-! ## The registers -/

theorem registerWord_unmapped (s : State) {a : Nat} (h : a ≤ 0x2FFF ∨ a = 0x300F ∨ 0x301C ≤ a) : registerWord s a = 0 := by
  have noCounter : ¬(0x3010 ≤ a ∧ a ≤ 0x3017) := by omega
  unfold registerWord
  split
  case h_20 => exact if_neg noCounter
  all_goals exact absurd h (by decide)

theorem registerWord_gate (s : State) (g : Group) : registerWord s (0x3018 + g.val) = gateViewWord s.imu.heldGate[g] := by
  fin_cases g <;> rfl

theorem registerWord_counter (s : State) {k : Nat} (small : k < 8) :
    registerWord s (0x3010 + k) = (s.hpt.counters.get (counterAt k)).word := by
  interval_cases k <;> rfl

theorem toNat_address {n : Nat} (small : n < 65536) : (BitVec.ofNat 16 n).toNat = n := by
  rw [BitVec.toNat_ofNat]
  exact Nat.mod_eq_of_lt small

/-! ## Reads of the regions at an address given by its word -/

section Regions

variable {s : State} (out : s.stc.inReset = false)

include out

theorem windowWord_sample {w : Nat} (small : w < 16) : windowWord s (BitVec.ofNat 16 (0x24A0 + w)) = sampleViewWord s w := by
  have place := toNat_address (n := 0x24A0 + w) (by omega)
  rw [windowWord_samples out (by omega) (by omega), place, Nat.add_sub_cancel_left]

theorem windowWord_peer (n : Station) {w : Nat} (small : w < 2) :
    windowWord s (BitVec.ofNat 16 (0x24C0 + w + 2 * n.val)) = peerViewWord (peerOf s n) w := by
  have bound := n.isLt
  have place := toNat_address (n := 0x24C0 + w + 2 * n.val) (by omega)
  have station : Fin.ofNat 32 ((0x24C0 + w + 2 * n.val - 0x24C0) / 2) = n := by
    refine Fin.ext ?_
    show (0x24C0 + w + 2 * n.val - 0x24C0) / 2 % 32 = n.val
    omega
  rw [windowWord_peers out (by omega) (by omega), place, station, show (0x24C0 + w + 2 * n.val - 0x24C0) % 2 = w by omega]

theorem windowWord_registerAt {n : Nat} (low : 0x2C08 ≤ n) (high : n < 65536) :
    windowWord s (BitVec.ofNat 16 n) = registerWord s n := by
  have place := toNat_address high
  rw [windowWord_register out (by omega), place]

end Regions

/-! ## At the reset values -/

section Reset

variable {s : State} {station : Station}

theorem flagsWords_atReset (h : AtResetValues station s) : ordinaryFlagsWord s = 0 ∧ faultFlagsWord s = 0 := by
  obtain ⟨-, -, -, imu, -, -, -, queue, -, -, -, -, -, -, -, -, -, -, flags, -⟩ := h
  constructor
  · rw [ordinaryFlagsWord, changesLevel, samplesLevel, flags, imu, queue]
    rfl
  · rw [faultFlagsWord, flags]
    rfl

theorem summaries_atReset (h : AtResetValues station s) : ordinarySummary s = false ∧ faultSummary s = false := by
  obtain ⟨ordinary, fault⟩ := flagsWords_atReset h
  rw [ordinarySummary, faultSummary, ordinary, fault]
  simp

theorem registers_atReset (h : AtResetValues station s) {a : Nat} (low : 0x3008 ≤ a) (high : a ≤ 0x301F) : registerWord s a = 0 := by
  obtain ⟨ordinary, fault⟩ := flagsWords_atReset h
  obtain ⟨ordinaryOff, faultOff⟩ := summaries_atReset h
  obtain ⟨-, -, -, imu, -, -, -, -, -, -, -, -, -, -, -, -, -, view, -, ordinaryMask, faultMask, counters, -⟩ := h
  by_cases unmapped : a = 0x300F ∨ 0x301C ≤ a
  · exact registerWord_unmapped s (.inr unmapped)
  by_cases gates : 0x3018 ≤ a
  · obtain ⟨g, rfl⟩ : ∃ g : Group, a = 0x3018 + g.val := ⟨⟨a - 0x3018, by omega⟩, by simp; omega⟩
    have none_ : s.imu.heldGate[g] = none := by
      rw [imu]
      exact Vector.getElem_replicate _
    rw [registerWord_gate, none_]
    rfl
  by_cases counts : 0x3010 ≤ a
  · obtain ⟨k, rfl⟩ : ∃ k, a = 0x3010 + k := ⟨a - 0x3010, by omega⟩
    rw [registerWord_counter s (by omega), counters]
    cases counterAt k <;> rfl
  have summary : summaryWord s = 0 := by
    rw [summaryWord, intAsserted, ordinaryOff, faultOff]
    rfl
  obtain rfl | rfl | rfl | rfl | rfl | rfl | rfl : a = 0x3008 ∨ a = 0x3009 ∨ a = 0x300A ∨ a = 0x300B ∨ a = 0x300C ∨ a = 0x300D ∨
    a = 0x300E := by omega
  · rfl
  · show viewPartWord s.hpt.viewPart = 0
    rw [view]
    rfl
  · exact ordinary
  · exact fault
  · show s.hpt.ordinaryMask.setWidth 16 = 0
    rw [ordinaryMask]
    rfl
  · show s.hpt.faultMask.setWidth 16 = 0
    rw [faultMask]
    rfl
  · exact summary

theorem window_atReset (h : AtResetValues station s) (out : s.stc.inReset = false) {a : Word}
    (region : a.toNat ≤ 0x24BF ∨ (0x2800 ≤ a.toNat ∧ a.toNat ≤ 0x2C07) ∨ (0x3008 ≤ a.toNat ∧ a.toNat ≤ 0x301F)) :
    windowWord s a = 0 := by
  have registers := fun (low : 0x3008 ≤ a.toNat) high => registers_atReset h low high
  obtain ⟨-, -, -, imu, -, req, -, queue, -, window, -, -, -, -, -, -, latch, -, -, -, -, -, notify, staging, -⟩ := h
  rcases region with low | ⟨low, high⟩ | ⟨low, high⟩
  · by_cases views : a.toNat ≤ 0x1FFF
    · rw [windowWord_views out views, itemViewRead_eq, latch, if_neg (fun later => nomatch later.2), itemViewWord, imu]
      rfl
    by_cases inStaging : a.toNat ≤ 0x23FF
    · rw [windowWord_staging out (by omega) inStaging, staging]
      rfl
    by_cases inRing : a.toNat ≤ 0x247F
    · rw [windowWord_ring out (by omega) inRing, req]
      rfl
    by_cases inNotify : a.toNat ≤ 0x249F
    · rw [windowWord_notify out (by omega) inNotify, notify]
      rfl
    by_cases samples : a.toNat ≤ 0x24AF
    · rw [windowWord_samples out (by omega) samples, sampleViewWord, queue]
    · exact windowWord_gaps out (.inl ⟨by omega, low⟩)
  · rw [windowWord_plan out low high, window]
    rfl
  · rw [windowWord_register out (by omega)]
    exact registers low high

end Reset

/-- Settles O6: the reset values region by region, and every word's fields. -/
theorem windowAfterReset : Obligations.WindowAfterReset := by
  refine ⟨fun s station h out => ⟨fun a region => window_atReset h out region, ?_, ?_, ?_, ?_, fun n => ?_, fun n => ?_, ?_⟩, ?_,
    fun s a unmapped => ?_⟩
  · obtain ⟨-, -, -, imu, -⟩ := h
    rw [windowWord_register out (by decide)]
    show nextChangeWord s = _
    rw [nextChangeWord, imu]
    rfl
  · obtain ⟨-, -, -, -, -, -, -, -, -, -, -, entry, -⟩ := h
    rw [windowWord_register out (by decide)]
    show faultEntryWord s = _
    rw [faultEntryWord, entry]
    rfl
  · obtain ⟨-, -, -, -, -, req, -⟩ := h
    rw [windowWord_register out (by decide)]
    show controlWord s = _
    rw [controlWord, req]
    rfl
  · exact windowWord_register out (by decide)
  · obtain ⟨-, -, -, -, peers, -⟩ := h
    rw [show 0x24C0 + 2 * n.val = 0x24C0 + 0 + 2 * n.val from rfl, windowWord_peer out n (by decide), peers]
    split <;> rfl
  · obtain ⟨-, -, -, -, peers, -⟩ := h
    rw [show 0x24C1 + 2 * n.val = 0x24C0 + 1 + 2 * n.val from rfl, windowWord_peer out n (by decide), peers]
    split <;> rfl
  · obtain ⟨ordinary, fault⟩ := summaries_atReset h
    rw [intAsserted, ordinary, fault]
    rfl
  · intro s out
    refine ⟨fun empty w small => ?_, fun e rest queue fill length gaps => ?_, fun n time => ⟨?_, ?_⟩, ?_, fun entry => ?_, fun time => ?_, ?_, ?_,
      fun g => ?_, fun w small => ?_, fun w small => ?_, fun w small => ?_, fun w small => ?_, fun k small => ?_, fun k w small live => ?_,
      fun k w later small latched => ?_, ?_, windowWord_register out (by decide), windowWord_register out (by decide), ?_,
      windowWord_register out (by decide), windowWord_register out (by decide), windowWord_register out (by decide),
      windowWord_register out (by decide), ?_, ?_, ?_⟩
    · rw [windowWord_sample out small, sampleViewWord, empty]
    · have word {w : Nat} (small : w < 16) : windowWord s (BitVec.ofNat 16 (0x24A0 + w)) = sampleViewOf e s.stu.queue.length w := by
        rw [windowWord_sample out small, sampleViewWord, queue]
      have gap : e.gap.getD 0 < 65536 := by
        cases found : e.gap with
        | none => decide
        | some g => exact lt_of_le_of_lt (gaps g found) (by decide)
      refine ⟨?_, ?_, word (w := 2) (by decide), word (w := 3) (by decide), ?_, word (w := 5) (by decide), word (w := 6) (by decide),
        word (w := 7) (by decide), fun j small => ?_⟩
      · exact (congrArg BitVec.toNat (word (w := 0) (by decide))).trans (sampleHeader_toNat length _)
      · exact (congrArg BitVec.toNat (word (w := 1) (by decide))).trans (toNat_place_zero (by omega))
      · exact (congrArg BitVec.toNat (word (w := 4) (by decide))).trans (toNat_place_zero gap)
      · rw [show 0x24A8 + j = 0x24A0 + (8 + j) by omega, word (by omega)]
        interval_cases j <;> rfl
    · rw [show 0x24C0 + 2 * n.val = 0x24C0 + 0 + 2 * n.val from rfl, windowWord_peer out n (by decide), peerHeader_toNat]
      rfl
    · rw [show 0x24C1 + 2 * n.val = 0x24C0 + 1 + 2 * n.val from rfl, windowWord_peer out n (by decide)]
      exact toNat_place_zero (by omega)
    · rw [windowWord_register out (by decide)]
      exact statusWord0_toNat s
    · rw [windowWord_register out (by decide)]
      show (faultEntryWord s).toNat = _
      rw [faultEntryWord]
      cases found : s.stc.faultEntry with
      | none => rfl
      | some n =>
        rw [found] at entry
        exact toNat_address (lt_of_le_of_lt entry (by decide))
    · rw [windowWord_register out (by decide)]
      exact toNat_place_zero (by omega)
    · rw [windowWord_register out (by decide)]
      refine (statusWord3_toNat s).trans ?_
      cases s.stc.straps.startMode <;> rfl
    · rw [windowWord_register out (by decide)]
      show (place 0 s.stc.cause.code).toNat = _
      cases s.stc.cause <;> rfl
    · rw [windowWord_registerAt out (by omega) (by have := g.isLt; omega), registerWord_gate]
      exact gateViewWord_toNat _
    · have address := toNat_address (n := 0x2800 + w) (by omega)
      rw [windowWord_plan out (by omega) (by omega), address, Nat.add_sub_cancel_left]
    · have address := toNat_address (n := 0x2000 + w) (by omega)
      rw [windowWord_staging out (by omega) (by omega), address, Nat.add_sub_cancel_left]
    · have address := toNat_address (n := 0x2400 + w) (by omega)
      rw [windowWord_ring out (by omega) (by omega), address, Nat.add_sub_cancel_left]
    · have address := toNat_address (n := 0x2480 + w) (by omega)
      rw [windowWord_notify out (by omega) (by omega), address, Nat.add_sub_cancel_left]
    · have address := toNat_address (n := 0x2480 + k / 16) (by omega)
      rw [windowWord_notify out (by omega) (by omega), address, Nat.add_sub_cancel_left]
      rfl
    · rw [windowWord_view out k small, itemViewRead_eq, if_neg]
      rintro ⟨later, same⟩
      obtain ⟨slot, latched, equal⟩ := Option.map_eq_some_iff.mp same
      rw [← Fin.ext equal] at live
      exact live.elim later fun other => other latched
    · rw [windowWord_view out k small, itemViewRead_eq, if_pos ⟨by omega, by rw [latched]; rfl⟩]
    · rw [windowWord_register out (by decide)]
      show controlWord s = _
      rw [controlWord]
      cases s.req.process <;> rfl
    · rw [windowWord_register out (by decide)]
      show viewPartWord s.hpt.viewPart = _
      cases s.hpt.viewPart <;> rfl
    · rw [windowWord_register out (by decide)]
      exact summaryWord_toNat s
    · rw [windowWord_register out (by decide)]
      show nextChangeWord s = _
      rw [nextChangeWord]
      cases s.imu.changes <;> rfl
    · refine Eq.trans (List.map_congr_left fun k small => ?_) (List.map_map (l := List.range 8) (f := counterAt)).symm
      have below := List.mem_range.mp small
      rw [windowWord_registerAt out (by omega) (by omega), registerWord_counter s below, counterWord_toNat]
      rfl
  · by_cases inReset : s.stc.inReset = true
    · simp only [windowWord, inReset, if_true]
    · have out := Bool.eq_false_iff.mpr inReset
      rcases unmapped with gap | gap | low | rfl | high
      · exact windowWord_gaps out (.inl gap)
      · exact windowWord_gaps out (.inr gap)
      · rw [windowWord_register out low.1]
        exact registerWord_unmapped s (.inl low.2)
      · rw [windowWord_register out (by decide)]
        exact registerWord_unmapped s (.inr (.inl rfl))
      · rw [windowWord_register out (by omega)]
        exact registerWord_unmapped s (.inr (.inr high))

end Sys2Proof.Laws
end

section
/-! SUPPORT. The checks of a request slot: what its copy holds, the items and staging words it names, each check of table 6-3, and the
obligation on their order (R101, R102, R107). -/

namespace Sys2Proof.Laws

open Sys2Proof.Machine

theorem bitField_kind (w : Word) : bitField 0 3 w = w.toNat % 8 := by
  simp [bitField]

/-! ## The items that a slot names -/

section Named

variable {s : State} {copy : SlotCopy}

theorem findNumber_none_iff {items : List Item} {n : Int} :
    findNumber items n = none ↔ ∀ it ∈ items, (it.plan.item.toNat : Int) ≠ n := by
  simp only [findNumber, List.findIdx?_eq_none_iff, beq_eq_false_iff_ne]

/-- LENGTH of the item of a number, by its table slot. -/
theorem slotLength_findNumber (s : State) (n : Int) :
    ((findNumber s.imu.items n).map (slotLength s)).getD 0 =
      ((s.imu.items.find? fun it => (it.plan.item.toNat : Int) == n).map fun it => it.plan.length).getD 0 := by
  rw [List.find?_eq_bind_findIdx?_getElem?]
  show _ = Option.getD (Option.map _ ((findNumber s.imu.items n).bind fun k => s.imu.items[k]?)) 0
  cases findNumber s.imu.items n with
  | none => rfl
  | some k => rfl

theorem sum_filterMap_lengths (s : State) (names : List Int) :
    ((names.filterMap (findNumber s.imu.items)).map (slotLength s)).sum =
      (names.map fun n =>
        ((s.imu.items.find? fun it => (it.plan.item.toNat : Int) == n).map fun it => it.plan.length).getD 0).sum := by
  induction names with
  | nil => rfl
  | cons n names ih =>
    rw [List.map_cons, List.sum_cons, ← ih, ← slotLength_findNumber, List.filterMap_cons]
    cases findNumber s.imu.items n with
    | none => exact (Nat.zero_add _).symm
    | some k => rfl

theorem namedSlots_item {k : Nat} (named : k ∈ namedSlots s copy) : ∃ it, s.imu.items[k]? = some it := by
  obtain ⟨n, -, found⟩ := List.mem_filterMap.mp named
  obtain ⟨size, -⟩ := List.findIdx?_eq_some_iff_getElem.mp found
  exact ⟨_, List.getElem?_eq_getElem size⟩

/-! ## Checks 4 to 8 of table 6-3 -/

/-- Check 4: every number is one of an item. -/
def NumbersInRange (copy : SlotCopy) : Prop := ∀ n ∈ namedItems copy, 0 ≤ n ∧ n ≤ 4095

/-- Check 5: the plan names every item. -/
def ItemsKnown (s : State) (copy : SlotCopy) : Prop := ∀ n ∈ namedItems copy, ∃ it ∈ s.imu.items, (it.plan.item.toNat : Int) = n

/-- Check 6: this station owns every item. -/
def ItemsOwned (s : State) (copy : SlotCopy) : Prop :=
  ∀ k ∈ namedSlots s copy, ∃ it, s.imu.items[k]? = some it ∧ it.plan.owner = stationNumber s

/-- What check 7 refuses: a STREAM slot that names a state item. -/
def WrongKind (s : State) (copy : SlotCopy) : Prop :=
  copy.kind = some .stream ∧ ∃ k ∈ namedSlots s copy, ∃ it, s.imu.items[k]? = some it ∧ it.plan.kind = .state

theorem any_range_iff (copy : SlotCopy) :
    ((namedItems copy).any fun n => n < 0 || 4095 < n) = true ↔ ∃ n ∈ namedItems copy, n < 0 ∨ 4095 < n := by
  simp only [List.any_eq_true, Bool.or_eq_true, decide_eq_true_eq]

theorem any_unknown_iff (s : State) (copy : SlotCopy) :
    ((namedItems copy).any fun n => (findNumber s.imu.items n).isNone) = true ↔
      ∃ n ∈ namedItems copy, ∀ it ∈ s.imu.items, (it.plan.item.toNat : Int) ≠ n := by
  simp only [List.any_eq_true, Option.isNone_iff_eq_none, findNumber_none_iff]

theorem any_unowned_iff (s : State) (copy : SlotCopy) :
    ((namedSlots s copy).any fun k => !((s.imu.items[k]?).any fun it => it.plan.owner == stationNumber s)) = true ↔
      ∃ k ∈ namedSlots s copy, ∃ it, s.imu.items[k]? = some it ∧ it.plan.owner ≠ stationNumber s := by
  simp only [List.any_eq_true]
  refine exists_congr fun k => and_congr_right fun named => ?_
  obtain ⟨it, found⟩ := namedSlots_item named
  simp [found]

theorem any_state_iff (s : State) (copy : SlotCopy) :
    ((namedSlots s copy).any fun k => (s.imu.items[k]?).any fun it => it.plan.kind == .state) = true ↔
      ∃ k ∈ namedSlots s copy, ∃ it, s.imu.items[k]? = some it ∧ it.plan.kind = .state := by
  simp only [List.any_eq_true, Option.any_eq_true, beq_iff_eq]

theorem itemChecks_range (wrong : ∃ n ∈ namedItems copy, n < 0 ∨ 4095 < n) : itemChecks s copy = some .range :=
  if_pos ((any_range_iff copy).mpr wrong)

theorem itemChecks_inRange (range : NumbersInRange copy) :
    ¬((namedItems copy).any fun n => n < 0 || 4095 < n) = true := fun wrong => by
  obtain ⟨n, named, bad⟩ := (any_range_iff copy).mp wrong
  have := range n named
  omega

theorem itemChecks_unknown (range : NumbersInRange copy)
    (wrong : ∃ n ∈ namedItems copy, ∀ it ∈ s.imu.items, (it.plan.item.toNat : Int) ≠ n) : itemChecks s copy = some .unknownItem :=
  (if_neg (itemChecks_inRange range)).trans (if_pos ((any_unknown_iff s copy).mpr wrong))

/-- Behind check 5 stand checks 6 to 8. -/
theorem itemChecks_known (range : NumbersInRange copy) (known : ItemsKnown s copy) :
    itemChecks s copy =
      if (namedSlots s copy).any (fun k => !((s.imu.items[k]?).any fun it => it.plan.owner == stationNumber s)) = true then some .notOwned
      else if copy.kind = some .stream ∧
          ((namedSlots s copy).any fun k => (s.imu.items[k]?).any fun it => it.plan.kind == .state) = true then some .wrongKind
      else if 1023 < copy.offset ∨ 1024 < copy.offset + stagingUsed s copy then some .badOffset
      else none := by
  refine (if_neg (itemChecks_inRange range)).trans (if_neg fun wrong => ?_)
  obtain ⟨n, named, unknown⟩ := (any_unknown_iff s copy).mp wrong
  obtain ⟨it, member, number⟩ := known n named
  exact unknown it member number

theorem itemChecks_notOwned (range : NumbersInRange copy) (known : ItemsKnown s copy)
    (wrong : ∃ k ∈ namedSlots s copy, ∃ it, s.imu.items[k]? = some it ∧ it.plan.owner ≠ stationNumber s) :
    itemChecks s copy = some .notOwned := by
  rw [itemChecks_known range known, if_pos ((any_unowned_iff s copy).mpr wrong)]

/-- Behind check 6 stand checks 7 and 8. -/
theorem itemChecks_owned (range : NumbersInRange copy) (known : ItemsKnown s copy) (owned : ItemsOwned s copy) :
    (WrongKind s copy → itemChecks s copy = some .wrongKind) ∧
      (¬WrongKind s copy → itemChecks s copy =
        if 1023 < copy.offset ∨ 1024 < copy.offset + stagingUsed s copy then some .badOffset else none) := by
  have ours : ¬(namedSlots s copy).any (fun k => !((s.imu.items[k]?).any fun it => it.plan.owner == stationNumber s)) = true := by
    intro wrong
    obtain ⟨k, named, it, found, other⟩ := (any_unowned_iff s copy).mp wrong
    obtain ⟨it', found', own⟩ := owned k named
    obtain rfl := Option.some.inj (found'.symm.trans found)
    exact other own
  rw [itemChecks_known range known, if_neg ours]
  exact ⟨fun wrong => if_pos ⟨wrong.1, (any_state_iff s copy).mpr wrong.2⟩,
    fun right => if_neg fun wrong => right ⟨wrong.1, (any_state_iff s copy).mp wrong.2⟩⟩

end Named

/-- Settles O9: the checks in their order, each where those before it pass. -/
theorem slotChecksInOrder : Obligations.SlotChecksInOrder := by
  refine ⟨fun s word words => ?_, fun copy => ⟨fun publish => ?_, fun stream => ?_, fun other another => ?_⟩, fun s copy => ⟨rfl, fun total sum => ?_⟩,
    rfl, fun s copy => ⟨fun none => ?_, fun gate => ?_, fun kind limit limits named => ?_⟩⟩
  · have copied : cursorCopy s =
        { stationOwned := (word 0).getLsbD 15, stepDown := (word 0).getLsbD 8, kind := requestKindOf ((word 0).toNat % 8),
          item := (word 1).toNat, count := (word 2).toNat, offset := (word 3).toNat, group := (word 4).toNat } := by
      rw [words, words, words, words, words, ← bitField_kind]
      rfl
    exact copied
  · rw [namedItems, publish]
    refine List.map_congr_left fun k _ => ?_
    cases down : copy.stepDown <;> simp [namedItem, down, Int.sub_eq_add_neg]
  · rw [namedItems, stream]
  · unfold namedItems
    split
    · next publish => exact absurd publish other
    · next stream => exact absurd stream another
    · rfl
    · rfl
  · rw [sum, stagingUsed, namedSlots, sum_filterMap_lengths]
  · rw [slotCheck, none]
  · rw [slotCheck, gate]
  · have counts : slotCheck s copy = if copy.count = 0 ∨ limit < copy.count then some .badCount else itemChecks s copy := by
      rcases limits with ⟨rfl, rfl⟩ | ⟨rfl, rfl⟩ <;> rw [slotCheck, named]
    have streams : kind = .stream ↔ copy.kind = some .stream := by rw [named, Option.some_inj]
    refine ⟨fun wrong => by rw [counts, if_pos wrong], fun low high => ?_⟩
    rw [counts, if_neg (by omega), streams]
    exact ⟨itemChecks_range, fun range => ⟨itemChecks_unknown range, fun known => ⟨itemChecks_notOwned range known,
      fun owned => itemChecks_owned range known owned⟩⟩⟩

end Sys2Proof.Laws
end

section
/-! SUPPORT. The end of a plan check: the item that an entry of a good plan gives, and the obligation on the command (R1, R2, R139, R155, R159,
tables 1-3, 11-6 and 11-7). -/

namespace Sys2Proof.Laws

open Sys2Proof.Machine

/-! ## The item of an entry -/

section Entry

variable {m : WordStore} (good : planCheck m = none) {k : Nat} (entry : k < planCount m) (station : Station)

include good entry

theorem entry_numbers_fit : (planEntry m k).owner < 32 ∧ (planEntry m k).group < 4 := by
  have fine := ((entryFault_none_iff m k).mp (entryFault_of_good good entry)).1
  simp only [PlanEntry.bad, Bool.or_eq_false_iff, decide_eq_false_iff_not, not_lt] at fine
  exact ⟨by omega, by omega⟩

/-- The plan fields of the item, by the words of its entry. -/
theorem newItem_plan : let it := (planEntry m k).newItem station
    it.plan.item.toNat = (m.read (8 + 2 * k)).toNat / 16 ∧ it.plan.length = (m.read (8 + 2 * k)).toNat % 16 ∧
      it.plan.owner.val = (m.read (9 + 2 * k)).toNat % 64 ∧
      (it.plan.kind = .stream ↔ (m.read (9 + 2 * k)).toNat / 64 % 2 = 1) ∧
      it.plan.gate.map Fin.val =
        if (m.read (9 + 2 * k)).toNat / 128 % 2 = 1 then some ((m.read (9 + 2 * k)).toNat / 256 % 8) else none := by
  obtain ⟨owner, group⟩ := entry_numbers_fit good entry
  refine ⟨planEntry_item m k, planEntry_length m k, ?_, ?_, ?_⟩
  · exact (Nat.mod_eq_of_lt owner).trans (planEntry_owner m k)
  · show (if (planEntry m k).stream = true then ItemKind.stream else .state) = .stream ↔ _
    rw [planEntry_stream]
    simp
  · show (if (planEntry m k).gated = true then some (Fin.ofNat 4 (planEntry m k).group) else none).map Fin.val = _
    have place : (Fin.ofNat 4 (planEntry m k).group).val = (m.read (9 + 2 * k)).toNat / 256 % 8 :=
      (Nat.mod_eq_of_lt group).trans (planEntry_group m k)
    rw [planEntry_gated]
    by_cases gated : (m.read (9 + 2 * k)).toNat / 128 % 2 = 1
    · rw [if_pos gated, decide_eq_true gated, if_pos rfl, Option.map_some, place]
    · rw [if_neg gated, decide_eq_false gated, if_neg (by decide), Option.map_none]

end Entry

/-- The start values of an item record (table 1-3). -/
theorem newItem_start (e : PlanEntry) (station : Station) : let it := e.newItem station
    it.visiblePart = none ∧ it.pendingPart = none ∧ it.baselineOpen = true ∧
      if it.plan.owner = station then
        it.condition = .unset ∧ it.owned = some { clashMark := false, lastIssued := 65535 } ∧ it.stream = none
      else
        it.condition = .vacant ∧ it.owned = none ∧
          it.stream = if it.plan.kind = .stream then some { lastQueued := none, firstOwed := false } else none := by
  refine ⟨rfl, rfl, rfl, ?_⟩
  have owner : (e.newItem station).plan.owner = Fin.ofNat 32 e.owner := rfl
  rw [owner]
  by_cases own : Fin.ofNat 32 e.owner = station
  · rw [if_pos own]
    simp only [PlanEntry.newItem, own, decide_true, if_true, Bool.not_true, Bool.false_and, Bool.false_eq_true, if_false, and_self]
  · rw [if_neg own]
    cases streams : e.stream <;>
      simp only [PlanEntry.newItem, own, streams, decide_false, Bool.not_false, Bool.true_and, Bool.false_eq_true, if_false, if_true,
        reduceCtorEq, and_self]

theorem buildTable_getElem? (station : Station) {m : WordStore} {k : Nat} (entry : k < planCount m) :
    (buildTable station m)[k]? = some ((planEntry m k).newItem station) := by
  simp [buildTable, entry]

/-! ## The command -/

section Check

variable {s : State} (checking : s.stc.checking = true)

include checking

theorem exec_planCheckEnd : exec .planCheckEnd s = .next (finishPlanCheck s) := by
  show execPlanCheckEnd s = _
  rw [execPlanCheckEnd, if_pos checking]

end Check

theorem finishPlanCheck_bad {s : State} {code : PlanFault} {entry : Option Nat} (bad : planCheck s.stc.window = some (code, entry)) :
    finishPlanCheck s =
      { s with
        stc := { s.stc with station := .planFault, faultCode := code, faultEntry := entry, checking := false }
        hpt.held := releasedBy endsWithCheck s.hpt.held } := by
  simp only [finishPlanCheck, bad, releaseHeld_eq]
  rfl

theorem finishPlanCheck_good {s : State} (good : planCheck s.stc.window = none) :
    finishPlanCheck s =
      { s with
        stc :=
          { s.stc with
            station := .joining, faultCode := .none, faultEntry := none, checking := false
            plan := some (planOf s.stc.window), joinTimer := some (planOf s.stc.window).lostTimeout }
        imu.items := buildTable (stationNumber s) s.stc.window
        lrx := { s.lrx with assembly := .settle, line := .busy }
        hpt.held := releasedBy endsWithCheck s.hpt.held } := by
  simp only [finishPlanCheck, good, releaseHeld_eq]
  rfl

/-- Settles O26: by whether the plan is good. -/
theorem planCheckEnds : Obligations.PlanCheckEnds := by
  intro s checking
  refine ⟨finishPlanCheck s, exec_planCheckEnd checking, ?_, fun k v held => ?_, fun code entry bad => ?_, fun good => ?_⟩
  · cases checked : planCheck s.stc.window with
    | none => rw [finishPlanCheck_good checked]
    | some fault => rw [finishPlanCheck_bad checked]
  · have released : (finishPlanCheck s).hpt.held = releasedBy endsWithCheck s.hpt.held := by
      cases checked : planCheck s.stc.window with
      | none => rw [finishPlanCheck_good checked]
      | some fault => rw [finishPlanCheck_bad checked]
    rw [released, held]
    rfl
  · rw [finishPlanCheck_bad bad]
    exact ⟨rfl, rfl, rfl⟩
  · rw [finishPlanCheck_good good, planOf_good good]
    refine ⟨rfl, rfl, rfl, rfl, rfl, rfl, by simp [buildTable, planCount], fun k entry => ?_⟩
    obtain ⟨item, length, owner, kind, gate⟩ := newItem_plan good entry (stationNumber s)
    obtain ⟨visible, pending, baseline, start⟩ := newItem_start (planEntry s.stc.window k) (stationNumber s)
    exact ⟨_, buildTable_getElem? _ entry, item, length, owner, kind, gate, visible, pending, baseline, start⟩

end Sys2Proof.Laws
end

section
/-! SUPPORT. The plan read: the words formed of the bytes taken in, how far the read goes, and the obligation on the command (R156, R157,
R177). -/

namespace Sys2Proof.Laws

open Sys2Proof.Machine

/-! ## The window as words are written -/

/-- A window with the first `n` words written. -/
def writtenWords (formed : Nat → Word) (n : Nat) (m : WordStore) : WordStore := (List.range n).foldl (fun m k => m.write k (formed k)) m

theorem writtenWords_succ (formed : Nat → Word) (n : Nat) (m : WordStore) :
    writtenWords formed (n + 1) m = (writtenWords formed n m).write n (formed n) := by
  rw [writtenWords, List.range_succ, List.foldl_append]
  rfl

theorem writtenWords_wf (formed : Nat → Word) {n : Nat} {m : WordStore} (canonical : m.wf 1032 = true) (fits : n ≤ 1032) :
    (writtenWords formed n m).wf 1032 = true := by
  induction n with
  | zero => exact canonical
  | succ n ih =>
    rw [writtenWords_succ]
    exact write_wf _ (ih (by omega)) (by omega)

theorem read_writtenWords (formed : Nat → Word) {n : Nat} {m : WordStore} (canonical : m.wf 1032 = true) (fits : n ≤ 1032) (k : Nat) :
    (writtenWords formed n m).read k = if k < n then formed k else m.read k := by
  induction n with
  | zero => rfl
  | succ n ih =>
    rw [writtenWords_succ, read_write _ _ _ (writtenWords_wf formed canonical (by omega)), ih (by omega)]
    by_cases last : k = n
    · subst last
      simp
    · by_cases before : k < n
      · rw [if_neg last, if_pos before, if_pos (by omega)]
      · rw [if_neg last, if_neg before, if_neg (by omega)]

/-- Tests 1 and 2 look at the first 7 words only. -/
theorem headerFault_congr {m m' : WordStore} (same : ∀ k < 7, m.read k = m'.read k) : headerFault m = headerFault m' := by
  have marks : planMarked m = planMarked m' := by
    simp only [planMarked, same 0 (by decide), same 2 (by decide), same 3 (by decide), same 4 (by decide), same 5 (by decide),
      same 6 (by decide)]
  have count : planCount m = planCount m' := by rw [planCount, planCount, same 1 (by decide)]
  rw [headerFault, headerFault, marks, count]

theorem planCount_of_goodHeader {m : WordStore} (good : headerFault m = none) : 1 ≤ planCount m ∧ planCount m ≤ 512 := by
  unfold headerFault at good
  split_ifs at good with _ count
  omega

/-! ## The words of a read -/

section Read

variable (bytes : List Byte) (stc : Stc)

/-- Word `k` of the bytes taken in. -/
def formedWord (k : Nat) : Word := wordOf (bytes.getD (2 * k) 0) (bytes.getD (2 * k + 1) 0)

/-- The window behind `n` words. -/
def windowAt (n : Nat) : WordStore := writtenWords (formedWord bytes) n stc.window

/-- A read in flight goes on behind `n` words. -/
def ReadsOn (n : Nat) : Prop :=
  n ≤ 7 ∨ headerFault (windowAt bytes stc 8) = none ∧ n < 8 + 2 * planCount (windowAt bytes stc 8)

/-- The state of a read in flight behind `n` words. -/
def readAt (n : Nat) : Stc := { stc with window := windowAt bytes stc n, planRead := some { clocks := 24 + 16 * n, shift := [] } }

variable {bytes stc} (canonical : stc.window.wf 1032 = true)

theorem take_word {n : Nat} (more : 2 * (n + 1) ≤ bytes.length) :
    (bytes.take (2 * (n + 1))).flatMap portBits =
      (bytes.take (2 * n)).flatMap portBits ++ (portBits (bytes.getD (2 * n) 0) ++ portBits (bytes.getD (2 * n + 1) 0)) := by
  have split : bytes.take (2 * (n + 1)) = bytes.take (2 * n) ++ [bytes.getD (2 * n) 0, bytes.getD (2 * n + 1) 0] := by
    rw [show 2 * (n + 1) = 2 * n + 1 + 1 by omega, List.take_succ_eq_append_getElem (by omega),
      List.take_succ_eq_append_getElem (by omega), List.getD_eq_getElem _ _ (by omega), List.getD_eq_getElem _ _ (by omega),
      List.append_assoc]
    rfl
  rw [split, List.flatMap_append]
  simp

theorem readAt_word {n : Nat} :
    (portBits (bytes.getD (2 * n) 0) ++ portBits (bytes.getD (2 * n + 1) 0)).foldl clockPlan (readAt bytes stc n) =
      takePlanWord n (formedWord bytes n) { clocks := 24 + 16 * (n + 1), shift := [] } (readAt bytes stc n) := by
  rw [clockPlan_word (k := n) rfl (by simp), portWord_portBits]
  rfl

theorem windowAt_succ (n : Nat) : (readAt bytes stc n).window.write n (formedWord bytes n) = windowAt bytes stc (n + 1) :=
  (writtenWords_succ _ _ _).symm

include canonical

theorem read_windowAt {n : Nat} (fits : n ≤ 1032) (k : Nat) :
    (windowAt bytes stc n).read k = if k < n then formedWord bytes k else stc.window.read k :=
  read_writtenWords _ canonical fits k

/-- The header stands from its last word on. -/
theorem header_stands {n : Nat} (header : 8 ≤ n) (fits : n ≤ 1032) :
    headerFault (windowAt bytes stc n) = headerFault (windowAt bytes stc 8) ∧
      planCount (windowAt bytes stc n) = planCount (windowAt bytes stc 8) := by
  have same (k : Nat) (low : k < 7) : (windowAt bytes stc n).read k = (windowAt bytes stc 8).read k := by
    rw [read_windowAt canonical fits, read_windowAt canonical (by decide), if_pos (by omega), if_pos (by omega)]
  exact ⟨headerFault_congr same, by rw [planCount, planCount, same 1 (by decide)]⟩

/-- Behind `n` words a read that goes on has written them and waits for the next. -/
theorem words_taken {n : Nat} (goesOn : ReadsOn bytes stc n) (enough : 2 * n ≤ bytes.length)
    (start : stc.planRead = some { clocks := 24, shift := [] }) :
    ((bytes.take (2 * n)).flatMap portBits).foldl clockPlan stc = readAt bytes stc n := by
  induction n with
  | zero =>
    show stc = { stc with planRead := some { clocks := 24, shift := [] } }
    rw [← start]
  | succ n ih =>
    have before : ReadsOn bytes stc n := goesOn.imp (by omega) (And.imp_right (by omega))
    rw [take_word enough, List.foldl_append, ih before (by omega), readAt_word]
    by_cases header : n < 7
    · rw [takePlanWord_header header, windowAt_succ]
      rfl
    · obtain ⟨good, more⟩ := goesOn.resolve_left (by omega)
      obtain ⟨-, atMost⟩ := planCount_of_goodHeader good
      obtain ⟨-, count⟩ := header_stands (bytes := bytes) canonical (n := n + 1) (by omega) (by omega)
      rw [takePlanWord_goodHeader (by omega) (by omega) (fun seventh => by rw [windowAt_succ, seventh]; exact good), windowAt_succ,
        count, if_neg (by omega)]
      rfl

/-- A read that stops or ends with word `n` is not clocked on. -/
theorem word_last {n : Nat} (goesOn : ReadsOn bytes stc n) (enough : 2 * (n + 1) ≤ bytes.length)
    (start : stc.planRead = some { clocks := 24, shift := [] }) {stopped : Stc} (off : stopped.planRead = none)
    (last : takePlanWord n (formedWord bytes n) { clocks := 24 + 16 * (n + 1), shift := [] } (readAt bytes stc n) = stopped) :
    (bytes.flatMap portBits).foldl clockPlan stc = stopped := by
  have split : bytes.flatMap portBits =
      (bytes.take (2 * (n + 1))).flatMap portBits ++ (bytes.drop (2 * (n + 1))).flatMap portBits := by
    rw [← List.flatMap_append, List.take_append_drop]
  rw [split, List.foldl_append, take_word enough, List.foldl_append, words_taken canonical goesOn (by omega) start, readAt_word, last,
    clockPlan_none off]

/-- Bytes that stop short of the end leave the read in flight. -/
theorem read_short (goesOn : ReadsOn bytes stc (bytes.length / 2)) (start : stc.planRead = some { clocks := 24, shift := [] }) :
    ∃ planRead, (bytes.flatMap portBits).foldl clockPlan stc =
      { stc with window := windowAt bytes stc (bytes.length / 2), planRead := some planRead } := by
  have split : bytes.flatMap portBits =
      (bytes.take (2 * (bytes.length / 2))).flatMap portBits ++ (bytes.drop (2 * (bytes.length / 2))).flatMap portBits := by
    rw [← List.flatMap_append, List.take_append_drop]
  have rest : ((bytes.drop (2 * (bytes.length / 2))).flatMap portBits).length < 16 := by
    rw [List.length_flatMap]
    simp only [portBits_length, List.map_const', List.length_drop, List.sum_replicate, smul_eq_mul]
    omega
  rw [split, List.foldl_append, words_taken canonical goesOn (by omega) start,
    clockPlan_bits rfl (by omega) _ (by rw [List.length_nil]; omega)]
  exact ⟨_, rfl⟩

/-- A bad header stops the read behind word 7. -/
theorem read_badHeader (enough : 16 ≤ bytes.length) (start : stc.planRead = some { clocks := 24, shift := [] }) {code : PlanFault}
    (bad : headerFault (windowAt bytes stc 8) = some code) :
    (bytes.flatMap portBits).foldl clockPlan stc =
      { stc with
        window := windowAt bytes stc 8, station := .planFault, faultCode := code, faultEntry := none, planRead := none } := by
  refine word_last canonical (n := 7) (.inl le_rfl) (by omega) start rfl ?_
  rw [takePlanWord_badHeader (by rw [windowAt_succ]; exact bad), windowAt_succ]
  rfl

/-- The last entry word of a good header ends the read, and the plan check begins. -/
theorem read_whole (good : headerFault (windowAt bytes stc 8) = none)
    (enough : 16 + 4 * planCount (windowAt bytes stc 8) ≤ bytes.length) (start : stc.planRead = some { clocks := 24, shift := [] }) :
    (bytes.flatMap portBits).foldl clockPlan stc =
      { stc with
        window := windowAt bytes stc (8 + 2 * planCount (windowAt bytes stc 8)), checking := true, planRead := none } := by
  obtain ⟨atLeast, atMost⟩ := planCount_of_goodHeader good
  obtain ⟨n, hn⟩ : ∃ n, n + 1 = 8 + 2 * planCount (windowAt bytes stc 8) := ⟨7 + 2 * planCount (windowAt bytes stc 8), by omega⟩
  obtain ⟨-, count⟩ := header_stands (bytes := bytes) canonical (n := n + 1) (by omega) (by omega)
  rw [← hn]
  refine word_last canonical (n := n) (.inr ⟨good, by omega⟩) (by omega) start rfl ?_
  rw [takePlanWord_goodHeader (by omega) (by omega) (fun seventh => by omega), windowAt_succ, count, if_pos (by omega)]
  rfl

end Read

/-! ## The obligation -/

theorem portBits_eq (b : Byte) : portBits b = (List.range 8).map fun k => b.getLsbD (7 - k) := by
  refine List.map_congr_left fun k small => ?_
  rw [BitVec.getMsbD_eq_getLsbD, decide_eq_true (List.mem_range.mp small), Bool.true_and]

theorem planOutput_behind {s : State} {read : PlanRead} (inFlight : s.stc.planRead = some read) :
    planOutput s = readCommand[read.clocks]? := by
  rw [planOutput, inFlight]

/-- Settles O24: by how far the bytes go, and by the header. -/
theorem planReadEnds : Obligations.PlanReadEnds := by
  refine ⟨by decide, fun s first second => ⟨_, rfl, ?_⟩, fun s n levels inFlight short => ⟨?_, ?_, ?_⟩, fun s bytes start canonical => ?_⟩
  · exact congrArg (fun stc => Host.Outcome.next { s with stc := stc }) List.foldl_append
  · exact congrArg (fun stc => Host.Outcome.next { s with stc := stc }) (clockPlan_command inFlight levels short)
  · exact planOutput_behind inFlight
  · rw [planSelect, inFlight]
    rfl
  obtain ⟨-, -, -, wf⟩ := canonical
  refine ⟨{ s with stc := (bytes.flatMap portBits).foldl clockPlan s.stc }, ?_, rfl, planOutput_behind start, fun short => ?_,
    fun enough => ?_⟩
  · simp only [← portBits_eq]
    rfl
  · obtain ⟨planRead, e⟩ := read_short wf (bytes := bytes) (.inl (by omega)) start
    rw [e]
    exact ⟨read_windowAt wf (by omega), rfl, rfl⟩
  · cases header : headerFault (windowAt bytes s.stc 8) with
    | some code =>
      rw [read_badHeader wf enough start header]
      refine ⟨fun other same => ?_, fun good => nomatch header.symm.trans good⟩
      obtain rfl := Option.some.inj (header.symm.trans same)
      exact ⟨read_windowAt wf (by decide), rfl, rfl⟩
    | none =>
      obtain ⟨-, atMost⟩ := planCount_of_goodHeader header
      by_cases whole : 16 + 4 * planCount (windowAt bytes s.stc 8) ≤ bytes.length
      · obtain ⟨fault, count⟩ := header_stands (bytes := bytes) wf (n := 8 + 2 * planCount (windowAt bytes s.stc 8)) (by omega) (by omega)
        rw [read_whole wf header whole start]
        simp only [fault, header, count]
        exact ⟨nofun, fun _ => ⟨fun short => absurd whole (Nat.not_le.mpr short), fun _ => ⟨read_windowAt wf (by omega), rfl, trivial⟩⟩⟩
      · obtain ⟨planRead, e⟩ := read_short wf (bytes := bytes) (.inr ⟨header, by omega⟩) start
        obtain ⟨fault, count⟩ := header_stands (bytes := bytes) wf (n := bytes.length / 2) (by omega) (by omega)
        rw [e]
        simp only [fault, header, count]
        exact ⟨nofun, fun _ => ⟨fun _ => ⟨read_windowAt wf (by omega), trivial, rfl⟩, fun enough => absurd enough whole⟩⟩

end Sys2Proof.Laws
end

section
/-! SUPPORT. The held access: which command releases it, that no other moves it, and the obligation on its service (R15, R39, R142, R158,
R166). -/

namespace Sys2Proof.Laws

open Sys2Proof.Machine

/-! ## What the changes of the blocks leave -/

section Kept

variable {v : Option HeldAccess}

theorem held_settling : SettlingRule fun t => t.hpt.held = v :=
  .of_effects (fun _ _ effects h => by rw [effects.hpt]; exact h) fun _ _ _ h => h

theorem held_station : StationRule fun t => t.hpt.held = v where
  active s h _ := by
    obtain ⟨lau, tsc, e⟩ := startSending_only { s with stc.station := .active, stc.joinTimer := none }
    rw [e]
    exact h
  mute s cause h _ := flushLau_ignored held_settling (fun _ _ _ _ _ h => h) (s := stopStation cause s) h []

theorem held_receiver : ReceiverRule fun t => t.hpt.held = v where

theorem held_updater : UpdaterRule fun t => t.hpt.held = v :=
  .of_ignored held_settling (fun _ _ _ h => h) (fun _ _ _ h _ => h) (takeSample_ignored held_settling fun _ _ h => h)

end Kept

variable {s t : State} {c : Instr}

/-! ## Command by command -/

theorem hostWrite_held {h : HeldAccess} (held : s.hpt.held = some h) (op : State → State) : hostWrite op s = s := by
  simp [hostWrite, held]

theorem hostRead_held {h : HeldAccess} (held : s.hpt.held = some h) (op : State → State) : hostRead op s = s := by
  simp [hostRead, held]

/-- While an access is held the host makes no other (R166). -/
theorem exec_hostAccess_held {h : HeldAccess} (held : s.hpt.held = some h) (access : isHostRead c = true ∨ isHostWrite c = true) :
    exec c s = .next s := by
  rcases access with read | write
  · obtain ⟨op, e⟩ := exec_isHostRead read s
    rw [e, hostRead_held held]
  · obtain ⟨op, e⟩ := exec_isHostWrite write s
    rw [e, hostWrite_held held]

/-- The commands with which a host access may come to be held. -/
def mayHold : Instr → Bool
  | .itemViewWord0Read _ | .planWindowWrite _ _ | .hostRegisterWrite _ _ | .remoteRecord (some _) => true
  | _ => false

theorem clearFlags_held (flags : FlagClass) (w : Word) (s : State) : (clearFlags flags w s).hpt.held = s.hpt.held := by
  cases flags <;> rfl

theorem startCheck_held (s : State) : (startCheck s).hpt.held = s.hpt.held := by
  by_cases taken : takesStart s.stc
  · rw [startCheck_taken taken]
  · rw [startCheck_ignored taken]

/-- A host access that cannot be held leaves the held access alone. -/
theorem exec_hostAccess_keepsHeld (access : isHostRead c = true ∨ isHostWrite c = true) (noReset : isReset c = false)
    (holds : mayHold c = false) (ran : exec c s = .next t) : t.hpt.held = s.hpt.held := by
  have written : ∀ {op : State → State}, exec c s = .next (hostWrite op s) → (op s).hpt.held = s.hpt.held → t.hpt.held = s.hpt.held :=
    fun {op} e taken => by
      obtain rfl := Host.Outcome.next.inj (e.symm.trans ran)
      exact hostWrite_keeps (P := fun u => u.hpt.held = s.hpt.held) rfl taken
  have read : ∀ {op : State → State}, exec c s = .next (hostRead op s) → (op s).hpt.held = s.hpt.held → t.hpt.held = s.hpt.held :=
    fun {op} e taken => by
      obtain rfl := Host.Outcome.next.inj (e.symm.trans ran)
      rcases hostRead_cases op s with made | unanswered | ignored
      · rw [made, taken]
      · rw [unanswered]
      · rw [ignored]
  cases c with
  | runSet => exact written rfl (held_settling.setRun rfl)
  | runClear => exact written rfl (held_settling.clearRun rfl)
  | kick => exact written rfl (held_settling.kick rfl)
  | start => exact written rfl (startCheck_held s)
  | sampleTake => exact written rfl rfl
  | flagsClear flags w => exact written rfl (clearFlags_held flags w s)
  | nextChange => exact read rfl rfl
  | counterRead n => exact read rfl rfl
  | softReset => exact nomatch noReset
  | itemViewWord0Read | planWindowWrite | hostRegisterWrite => exact nomatch holds
  | _ => simp [isHostRead, isHostWrite] at access

/-- The commands that end an operation that holds accesses. -/
def endsOperation : Instr → Bool
  | .remoteRecord _ | .selfRecord | .gateApplicationEnd | .planCheckEnd => true
  | _ => false

/-- A command of the transmitter leaves the held access alone. -/
theorem exec_send_keepsHeld (send : isSendCommand c = true) (ran : exec c s = .next t) : t.hpt.held = s.hpt.held := by
  obtain ⟨-, -, -, -, -, -, -, hpt, -⟩ := sendCommandsFrame c s t send ran
  rw [hpt]

/-- A command of the machine itself that ends no such operation leaves the held access alone. -/
theorem exec_machine_keepsHeld (unhosted : ¬(isHostRead c = true ∨ isHostWrite c = true)) (noReset : isReset c = false)
    (unserved : c ≠ .heldAccessServed) (goesOn : endsOperation c = false) (ran : exec c s = .next t) :
    t.hpt.held = s.hpt.held := by
  have ends : ∀ {u : State}, exec c s = .next u → u.hpt.held = s.hpt.held → t.hpt.held = s.hpt.held := fun {u} e hu => by
    obtain rfl := Host.Outcome.next.inj (e.symm.trans ran)
    exact hu
  cases c with
  | planReadEnd levels => exact ends rfl rfl
  | lineBusy | lineQuiet | startPatternFound =>
    obtain rfl := Host.Outcome.next.inj ran
    split <;> rfl
  | joinTimerExpiry =>
    refine ends rfl ?_
    split
    · next joining => exact held_settling.settle (held_station.active s rfl joining.1)
    · rfl
  | frameEnd heard waits =>
    refine ends rfl ?_
    split
    · next assembling =>
      exact held_receiver.checkFrame held_settling held_station (held_receiver.quiet s .idle rfl (.inr assembling)) rfl _ _
    · rfl
  | gapEnd | collision | backoffEnd | attemptComplete | guardExpiry => exact exec_send_keepsHeld rfl ran
  | imuTakeFrame expiring =>
    refine ends rfl ?_
    split
    · rfl
    · next f rest queue =>
      split
      · next takes => exact held_updater.takeRemote held_settling rfl takes.1 queue takes.2 expiring
      · rfl
  | selfFrameTake =>
    refine ends rfl ?_
    split
    · rfl
    · next f rest queue =>
      split
      · next takes => exact held_updater.takeSelf held_settling rfl takes.1 queue takes.2
      · rfl
  | lostTimerExpiry n =>
    refine ends rfl ?_
    unfold expireLost
    split
    · next expires => exact held_updater.lose s n rfl expires
    · rfl
  | ownerRejoined steps | ownerDoubtful steps | ownerLost steps => exact ends rfl (held_updater.takeEvent held_settling rfl _ steps)
  | gateItemStep =>
    refine ends rfl ?_
    split
    · next mark g work =>
      split
      · rfl
      · next slot next =>
        split
        · exact held_updater.gateStep s mark g slot rfl work next
        · rfl
    · rfl
  | presenceTimerExpiry =>
    refine ends rfl ?_
    split
    · exact held_settling.leaveIdle _ (held_settling.arbiter (held_settling.presence _ rfl))
    · rfl
  | refreshTimerExpiry =>
    refine ends rfl ?_
    split
    · exact held_settling.leaveIdle _ (held_settling.refresh _ rfl)
    · rfl
  | heldAccessServed => exact absurd rfl unserved
  | remoteRecord | selfRecord | gateApplicationEnd | planCheckEnd => exact nomatch goesOn
  | powerOnReset | pinReset | resetEnd | softReset => exact nomatch noReset
  | _ => exact absurd (by simp [isHostRead, isHostWrite]) unhosted

/-! ## The release -/

/-- The command may end the operation that holds the access (the table of R166). -/
def EndsHold (c : Instr) : Access → Prop
  | .viewWord0 _ => (∃ read, c = .remoteRecord read) ∨ c = .selfRecord ∨ c = .gateApplicationEnd
  | .sampleWord _ => ∃ read, c = .remoteRecord read
  | .planWrite _ _ => c = .planCheckEnd

theorem releasedBy_never (held : Option HeldAccess) : releasedBy (fun _ => false) held = held := by
  cases held <;> rfl

theorem releasedBy_released (ended : Access → Bool) (a : Access) :
    releasedBy ended (some { access := a, released := true }) = some { access := a, released := true } := by
  simp [releasedBy]

theorem releasedBy_unended {ended : Access → Bool} {a : Access} (unended : ended a = false) (released : Bool) :
    releasedBy ended (some { access := a, released := released }) = some { access := a, released := released } := by
  simp [releasedBy, unended]

/-- A sample view read that comes with a record leaves an access held before it alone, and none is held where none comes. -/
theorem sampleReadArrives_keepsHeld {read : Option (Fin 16)}
    (holds : mayHold (.remoteRecord read) = true → s.hpt.held.isSome = true) : sampleReadArrives read s = s := by
  cases read with
  | none => rfl
  | some w =>
    obtain ⟨h, held⟩ := Option.isSome_iff_exists.mp (holds rfl)
    exact sampleReadArrives_held held (some w)

theorem finishPlanCheck_held (s : State) : (finishPlanCheck s).hpt.held = releasedBy endsWithCheck s.hpt.held := by
  cases checked : planCheck s.stc.window with
  | none => rw [finishPlanCheck_good checked]
  | some fault => rw [finishPlanCheck_bad checked]

/-- From `s` to `t` the command has released of the held access no more than it ends the hold of. -/
def Releases (c : Instr) (s t : State) : Prop :=
  ∃ ended, t.hpt.held = releasedBy ended s.hpt.held ∧ ∀ a, ended a = true → EndsHold c a

theorem Releases.of_kept (kept : t.hpt.held = s.hpt.held) : Releases c s t :=
  ⟨fun _ => false, by rw [kept, releasedBy_never], fun _ never => nomatch never⟩

/-- A command that ends an operation releases of the accesses held those that the operation holds. -/
theorem exec_endsOperation_held (ends : endsOperation c = true) (holds : mayHold c = true → s.hpt.held.isSome = true)
    (ran : exec c s = .next t) : Releases c s t := by
  have reaches : ∀ {u : State}, exec c s = .next u → Releases c s u → Releases c s t := fun {u} e hu => by
    obtain rfl := Host.Outcome.next.inj (e.symm.trans ran)
    exact hu
  cases c with
  | remoteRecord read =>
    refine reaches rfl ?_
    split
    · next sender r rest work =>
      split
      · refine ⟨endsWithRecord (findSlot s.imu.items r.item), ?_, fun a ended => ?_⟩
        · rw [sampleReadArrives_keepsHeld holds, finishRemoteRecord_held]
          rfl
        · cases a with
          | viewWord0 => exact .inl ⟨read, rfl⟩
          | sampleWord => exact ⟨read, rfl⟩
          | planWrite => exact nomatch ended
      · exact .of_kept rfl
    · exact .of_kept rfl
  | selfRecord =>
    refine reaches rfl ?_
    split
    · next r rest work =>
      split
      · refine ⟨endsWithSelfRecord (findSlot s.imu.items r.item), finishSelfRecord_held r rest s, fun a ended => ?_⟩
        cases a with
        | viewWord0 => exact .inr (.inl rfl)
        | sampleWord | planWrite => exact nomatch ended
      · exact .of_kept rfl
    · exact .of_kept rfl
  | gateApplicationEnd =>
    refine reaches rfl ?_
    split
    · next m g work =>
      split
      · refine ⟨endsWithGate s g, finishGate_held g s, fun a ended => ?_⟩
        cases a with
        | viewWord0 => exact .inr (.inr rfl)
        | sampleWord | planWrite => exact nomatch ended
      · exact .of_kept rfl
    · exact .of_kept rfl
  | planCheckEnd =>
    refine reaches rfl ?_
    split
    · refine ⟨endsWithCheck, finishPlanCheck_held s, fun a ended => ?_⟩
      cases a with
      | planWrite => rfl
      | viewWord0 | sampleWord => exact nomatch ended
    · exact .of_kept rfl
  | _ => exact nomatch ends

/-- Where no access comes to be held, a command does no more to the access held than release it, and that only as it ends the operation that
holds it. -/
theorem exec_held (noReset : isReset c = false) (unserved : c ≠ .heldAccessServed)
    (holds : mayHold c = true → s.hpt.held.isSome = true) (ran : exec c s = .next t) : Releases c s t := by
  cases ends : endsOperation c with
  | true => exact exec_endsOperation_held ends holds ran
  | false =>
    refine .of_kept ?_
    by_cases access : isHostRead c = true ∨ isHostWrite c = true
    · cases held : s.hpt.held with
      | some h =>
        obtain rfl := Host.Outcome.next.inj ((exec_hostAccess_held held access).symm.trans ran)
        exact held
      | none =>
        have unheld : mayHold c = false := by
          rw [held] at holds
          exact Bool.eq_false_iff.mpr fun may => nomatch holds may
        exact (exec_hostAccess_keepsHeld access noReset unheld ran).trans held
    · exact exec_machine_keepsHeld access noReset unserved ends ran

section Kept

variable {a : Access} (noReset : isReset c = false) (unserved : c ≠ .heldAccessServed) (ran : exec c s = .next t)

include noReset unserved ran

theorem released_kept (held : s.hpt.held = some { access := a, released := true }) : t.hpt.held = s.hpt.held := by
  obtain ⟨ended, e, -⟩ := exec_held noReset unserved (fun _ => by rw [held]; rfl) ran
  rw [e, held, releasedBy_released]

theorem unreleased_kept (held : s.hpt.held = some { access := a, released := false }) (goesOn : ¬EndsHold c a) :
    t.hpt.held = s.hpt.held := by
  obtain ⟨ended, e, only⟩ := exec_held noReset unserved (fun _ => by rw [held]; rfl) ran
  rw [e, held, releasedBy_unended (Bool.eq_false_iff.mpr fun ends => goesOn (only a ends))]

theorem unheld_kept (held : s.hpt.held = none) (unheld : mayHold c = false) : t.hpt.held = none := by
  obtain ⟨ended, e, -⟩ := exec_held noReset unserved (fun may => nomatch unheld.symm.trans may) ran
  rw [e, held]
  rfl

end Kept

/-! ## The ends of operations, and the service -/

section Ends

variable {a : Access} (held : s.hpt.held = some { access := a, released := false })

include held

theorem exec_heldAccessServed_unreleased : exec .heldAccessServed s = .next s := by
  show execHeldAccessServed s = _
  rw [execHeldAccessServed, held]

/-- An access not yet released does not stop the image updater. -/
theorem imuSteps_unreleased (receives : receiving s = true) : imuSteps s = true :=
  (imuSteps_iff s).mpr ⟨receives, (servicePending_iff s).mpr (by simp [held])⟩

variable (receives : receiving s = true)

include receives

theorem remoteRecord_releases {sender : Station} {r : Record} {rest : List Record}
    (work : s.imu.work = .remoteRecords sender (r :: rest)) (read : Option (Fin 16)) :
    ∃ t, exec (.remoteRecord read) s = .next t ∧
      t.hpt.held = some { access := a, released := endsWithRecord (findSlot s.imu.items r.item) a } := by
  refine ⟨_, exec_remoteRecord_port (imuSteps_unreleased held receives) work read, ?_⟩
  rw [sampleReadArrives_held held, held]
  cases ends : endsWithRecord (findSlot s.imu.items r.item) a <;> simp [releasedBy, ends]

theorem selfRecord_releases {r : Record} {rest : List Record} (work : s.imu.work = .selfRecords (r :: rest)) :
    ∃ t, exec .selfRecord s = .next t ∧
      t.hpt.held = some { access := a, released := endsWithSelfRecord (findSlot s.imu.items r.item) a } := by
  refine ⟨finishSelfRecord r rest s, ?_, ?_⟩
  · show execSelfRecord s = _
    simp only [execSelfRecord, work, if_pos (imuSteps_unreleased held receives)]
  · rw [finishSelfRecord_held, held]
    cases ends : endsWithSelfRecord (findSlot s.imu.items r.item) a <;> simp [ends]

theorem gateApplicationEnd_releases {m : Mark} {g : Group} (work : s.imu.work = .gate m g)
    (moved : ∀ it ∈ s.imu.items, it.plan.gate = some g → it.pendingPart = none) :
    ∃ t, exec .gateApplicationEnd s = .next t ∧ t.hpt.held = some { access := a, released := endsWithGate s g a } := by
  have last : nextGateSlot s g = none := nextGateSlot_none.mpr fun it listed => by
    rw [Bool.eq_false_iff, ne_eq, gatePending_iff]
    rintro ⟨gate, part, pending⟩
    exact nomatch (moved it listed gate).symm.trans pending
  refine ⟨finishGate g s, ?_, ?_⟩
  · rw [exec_gateApplicationEnd work, if_pos ⟨imuSteps_unreleased held receives, last⟩]
  · rw [finishGate_held, held]
    cases ends : endsWithGate s g a <;> simp [ends]

end Ends

theorem exec_heldAccessServed_none (held : s.hpt.held = none) : exec .heldAccessServed s = .next s := by
  show execHeldAccessServed s = _
  rw [execHeldAccessServed, held]

/-- While a released read waits the image updater makes no step (R166). -/
theorem exec_image_waits {a : Access} (held : s.hpt.held = some { access := a, released := true })
    (read : (∃ k, a = .viewWord0 k) ∨ ∃ w, a = .sampleWord w) (image : isImageCommand c = true) : exec c s = .next s := by
  have pending : servicePending s = true := by
    rcases read with ⟨k, rfl⟩ | ⟨w, rfl⟩ <;> simp [servicePending, held]
  exact exec_image_still (by simp [imuSteps, pending]) image

/-- The end of a gate application leaves an access that no gate holds as it is. -/
theorem gateApplicationEnd_keeps {a : Access} (held : s.hpt.held = some { access := a, released := false })
    (other : ¬EndsHold .gateApplicationEnd a) : ∃ t, exec .gateApplicationEnd s = .next t ∧ t.hpt.held = s.hpt.held := by
  obtain ⟨t, ran, -⟩ := everyCommandAnswersNext .gateApplicationEnd s
  exact ⟨t, ran, unreleased_kept (c := .gateApplicationEnd) rfl (fun e => nomatch e) ran held other⟩

/-- Settles O23: the ends of the operations that hold each access, its service, and what no other command moves. -/
theorem heldAccessServedOnce : Obligations.HeldAccessServedOnce := by
  intro s
  refine ⟨fun k held form unreleased receives => ⟨fun r rest released e => ?_, fun m g work moved => ?_⟩,
    fun w held receives => ⟨fun sender r rest read work => remoteRecord_releases held receives work read, ?_⟩,
    fun k v held => ⟨fun checking => ⟨_, exec_planCheckEnd checking, ?_⟩, ?_⟩,
    fun k held => ⟨exec_heldAccessServed held, fun c => exec_image_waits held (.inl ⟨k, rfl⟩)⟩,
    fun w held => ⟨exec_heldAccessServed held, fun c => exec_image_waits held (.inr ⟨w, rfl⟩)⟩,
    fun k v held => ⟨fun station => ?_, fun receives => ?_⟩, ?_, fun c t noReset unserved ran => ⟨fun a => ?_, ?_, ?_, ?_, ?_⟩⟩
  · rw [form] at unreleased ⊢
    subst e
    have of_slot : ∀ slot : Option Nat, (slot == some k.val) = decide (slot = some k.val) := fun slot => by
      rw [Bool.eq_iff_iff, beq_iff_eq, decide_eq_true_iff]
    rw [← of_slot]
    exact ⟨fun sender work read => remoteRecord_releases unreleased receives work read,
      fun work => selfRecord_releases unreleased receives work⟩
  · rw [form] at unreleased
    obtain ⟨t, ran, released⟩ := gateApplicationEnd_releases unreleased receives work moved
    refine ⟨t, ran, fun member => ?_, fun outside => ?_⟩
    · rw [released, form, endsWithGate, inGroup_iff.mpr member]
    · rw [released, form, endsWithGate, Bool.eq_false_iff.mpr fun within => outside (inGroup_iff.mp within)]
  · exact gateApplicationEnd_keeps held fun ⟨_, e⟩ => nomatch e
  · rw [finishPlanCheck_held, held]
    rfl
  · exact gateApplicationEnd_keeps held fun e => nomatch e
  · rw [exec_heldAccessServed held]
    exact congrArg _ (storePlanWord_open (s := { s with hpt.held := none }) (.inr station) k v)
  · rw [exec_heldAccessServed held]
    refine congrArg _ (storePlanWord_shut (s := { s with hpt.held := none }) ?_ ?_ k v)
    · intro wait
      simp [receiving_iff, show s.stc.station = .planWait from wait] at receives
    · intro fault
      simp [receiving_iff, show s.stc.station = .planFault from fault] at receives
  · rintro (unheld | ⟨a, held⟩)
    · exact exec_heldAccessServed_none unheld
    · exact exec_heldAccessServed_unreleased held
  · exact released_kept noReset unserved ran
  · intro k held noRemote noSelf noGate
    refine unreleased_kept noReset unserved ran held ?_
    rintro (⟨read, e⟩ | e | e)
    · exact noRemote read e
    · exact noSelf e
    · exact noGate e
  · intro w held noRemote
    exact unreleased_kept noReset unserved ran held fun ⟨read, e⟩ => noRemote read e
  · intro k v held noCheck
    exact unreleased_kept noReset unserved ran held noCheck
  · intro held noView noSample noPlan noWord
    refine unheld_kept noReset unserved ran held (Bool.eq_false_iff.mpr fun may => ?_)
    cases c with
    | itemViewWord0Read k => exact noView k rfl
    | planWindowWrite k v => exact noPlan k v rfl
    | hostRegisterWrite a v => exact noWord a v rfl
    | remoteRecord read =>
      cases read with
      | none => exact nomatch may
      | some w => exact noSample w rfl
    | _ => exact nomatch may

end Sys2Proof.Laws
end
